-- ==== Sys2Proof/Word.lean ====
section
/-! DEFINITION. The word types of the hardware (00_scope.md R9, 10_state.md R21): memory entries, serial fields and
checksums are bit vectors of the stated width; counts, cursors and indexes are natural numbers (log entry 10). -/

namespace Sys2Proof

/-- One byte of a stream or of an 8-bit memory. -/
abbrev Byte := BitVec 8

/-- An entry of a 16-bit memory, or a 16-bit register. -/
abbrev Word16 := BitVec 16

/-- A 32-bit register: counters (wrapping, R21), checksums, `HOLD`, decode-table entries (R130). -/
abbrev Word32 := BitVec 32

/-- `trunc_8` of R9. -/
def byteOf (n : Nat) : Byte := BitVec.ofNat 8 n

/-- `trunc_16` of R9. -/
def word16Of (n : Nat) : Word16 := BitVec.ofNat 16 n

/-- `trunc_32` of R9. -/
def word32Of (n : Nat) : Word32 := BitVec.ofNat 32 n

end Sys2Proof
end

