-- ==== Sys2Proof/Syntax.lean ====
section
/-! DEFINITION. The instruction set as syntax: one constructor for each row of spec/opcode_table.json.

R2 (00_scope.md) gives the hardware two instruction streams, the host commands and the DEFLATE bitstream; the table's other
rows are the encodings the two are written in (flush operands, framing fields, fixed-code words, decode-table entries).
A command's constructor has no fields: its word is the opcode alone and its operands are typed values beside it
(30_encoding.md R100), which the machine reads from its operand port (log entry 3). A symbol's constructor has no field for
its extra bits: they are not part of the row's word and the engine reads them itself (44_inflate_engine.md R325, R327). -/

namespace Sys2Proof

/-- One constructor per row of the opcode table; the docstrings give each row's mnemonic. -/
inductive Instr where
  /-- `DFL_INIT` -/
  | dflInit
  /-- `DFL_SETDICT` -/
  | dflSetdict
  /-- `DFL_PUSH` -/
  | dflPush
  /-- `DFL_RESET` -/
  | dflReset
  /-- `DFL_END` -/
  | dflEnd
  /-- `DFL_STAT` -/
  | dflStat
  /-- `IFL_INIT` -/
  | iflInit
  /-- `IFL_SETDICT` -/
  | iflSetdict
  /-- `IFL_PUSH` -/
  | iflPush
  /-- `IFL_RESET` -/
  | iflReset
  /-- `IFL_END` -/
  | iflEnd
  /-- `IFL_GETHDR` -/
  | iflGethdr
  /-- `IFL_STAT` -/
  | iflStat
  /-- `FLUSH.NO_FLUSH` -/
  | flushNoFlush
  /-- `FLUSH.PARTIAL_FLUSH` -/
  | flushPartialFlush
  /-- `FLUSH.SYNC_FLUSH` -/
  | flushSyncFlush
  /-- `FLUSH.FULL_FLUSH` -/
  | flushFullFlush
  /-- `FLUSH.FINISH` -/
  | flushFinish
  /-- `FLUSH.BLOCK` -/
  | flushBlock
  /-- `BLOCK.STORED`: `BFINAL`, then `BTYPE = 0` -/
  | blockStored (bfinal : Bool)
  /-- `BLOCK.FIXED`: `BTYPE = 1` -/
  | blockFixed (bfinal : Bool)
  /-- `BLOCK.DYNAMIC`: `BTYPE = 2` -/
  | blockDynamic (bfinal : Bool)
  /-- `BLOCK.RESERVED`: `BTYPE = 3` -/
  | blockReserved (bfinal : Bool)
  /-- `STORED.LEN_NLEN`: the length of a stored block and its complement -/
  | storedLenNlen (len nlen : BitVec 16)
  /-- `DYNAMIC.COUNTS`: `HLIT`, `HDIST`, `HCLEN` -/
  | dynamicCounts (hlit hdist : BitVec 5) (hclen : BitVec 4)
  /-- `DYNAMIC.CLLEN`: one length of the code-length code -/
  | dynamicCllen (v : BitVec 3)
  /-- `CL.LENGTH`: the next code length -/
  | clLength (len : BitVec 4)
  /-- `CL.COPY_PREV`: code-length symbol 16 -/
  | clCopyPrev
  /-- `CL.ZEROS_SHORT`: code-length symbol 17 -/
  | clZerosShort
  /-- `CL.ZEROS_LONG`: code-length symbol 18 -/
  | clZerosLong
  /-- `LIT`: literal/length symbols 0..255 -/
  | lit (b : Byte)
  /-- `EOB`: literal/length symbol 256 -/
  | eob
  /-- `LEN_257` -/
  | len257
  /-- `LEN_258` -/
  | len258
  /-- `LEN_259` -/
  | len259
  /-- `LEN_260` -/
  | len260
  /-- `LEN_261` -/
  | len261
  /-- `LEN_262` -/
  | len262
  /-- `LEN_263` -/
  | len263
  /-- `LEN_264` -/
  | len264
  /-- `LEN_265` -/
  | len265
  /-- `LEN_266` -/
  | len266
  /-- `LEN_267` -/
  | len267
  /-- `LEN_268` -/
  | len268
  /-- `LEN_269` -/
  | len269
  /-- `LEN_270` -/
  | len270
  /-- `LEN_271` -/
  | len271
  /-- `LEN_272` -/
  | len272
  /-- `LEN_273` -/
  | len273
  /-- `LEN_274` -/
  | len274
  /-- `LEN_275` -/
  | len275
  /-- `LEN_276` -/
  | len276
  /-- `LEN_277` -/
  | len277
  /-- `LEN_278` -/
  | len278
  /-- `LEN_279` -/
  | len279
  /-- `LEN_280` -/
  | len280
  /-- `LEN_281` -/
  | len281
  /-- `LEN_282` -/
  | len282
  /-- `LEN_283` -/
  | len283
  /-- `LEN_284` -/
  | len284
  /-- `LEN_285` -/
  | len285
  /-- `LL_RESERVED`: literal/length symbol 286, or 287 if `odd` -/
  | llReserved (odd : Bool)
  /-- `DIST_0` -/
  | dist0
  /-- `DIST_1` -/
  | dist1
  /-- `DIST_2` -/
  | dist2
  /-- `DIST_3` -/
  | dist3
  /-- `DIST_4` -/
  | dist4
  /-- `DIST_5` -/
  | dist5
  /-- `DIST_6` -/
  | dist6
  /-- `DIST_7` -/
  | dist7
  /-- `DIST_8` -/
  | dist8
  /-- `DIST_9` -/
  | dist9
  /-- `DIST_10` -/
  | dist10
  /-- `DIST_11` -/
  | dist11
  /-- `DIST_12` -/
  | dist12
  /-- `DIST_13` -/
  | dist13
  /-- `DIST_14` -/
  | dist14
  /-- `DIST_15` -/
  | dist15
  /-- `DIST_16` -/
  | dist16
  /-- `DIST_17` -/
  | dist17
  /-- `DIST_18` -/
  | dist18
  /-- `DIST_19` -/
  | dist19
  /-- `DIST_20` -/
  | dist20
  /-- `DIST_21` -/
  | dist21
  /-- `DIST_22` -/
  | dist22
  /-- `DIST_23` -/
  | dist23
  /-- `DIST_24` -/
  | dist24
  /-- `DIST_25` -/
  | dist25
  /-- `DIST_26` -/
  | dist26
  /-- `DIST_27` -/
  | dist27
  /-- `DIST_28` -/
  | dist28
  /-- `DIST_29` -/
  | dist29
  /-- `DIST_RESERVED`: distance symbol 30, or 31 if `odd` -/
  | distReserved (odd : Bool)
  /-- `FIXED.LIT_0_143`: the 8-bit fixed codes of literals -/
  | fixedLit0To143 (s : Byte)
  /-- `FIXED.LIT_144_255`: the 9-bit fixed codes of literals -/
  | fixedLit144To255 (s : Byte)
  /-- `FIXED.LL_256_279`: the 7-bit fixed codes -/
  | fixedLl256To279 (s : BitVec 9)
  /-- `FIXED.LL_280_287`: the 8-bit fixed codes of lengths -/
  | fixedLl280To287 (s : BitVec 9)
  /-- `FIXED.DIST`: the 5-bit fixed distance codes -/
  | fixedDist (s : BitVec 5)
  /-- `ENTRY.LITERAL`: `OP = 0` -/
  | entryLiteral (bits : Byte) (val : Word16)
  /-- `ENTRY.LINK`: `OP = 1..9`, the sub-table's index width -/
  | entryLink (bits : Byte) (width : BitVec 4) (val : Word16)
  /-- `ENTRY.BASE`: `OP = 16 + extra` -/
  | entryBase (bits : Byte) (extra : BitVec 4) (val : Word16)
  /-- `ENTRY.END_OF_BLOCK`: `OP = 96` -/
  | entryEndOfBlock (bits : Byte)
  /-- `ENTRY.INVALID`: `OP = 64` -/
  | entryInvalid (bits : Byte)
  /-- `ZLIB.HEADER`: `CINFO`, `FLEVEL`, `FDICT`, `FCHECK`, with `CM = 8` -/
  | zlibHeader (cinfo : BitVec 4) (flevel : BitVec 2) (fdict : Bool) (fcheck : BitVec 5)
  /-- `GZIP.HEADER`: the 10-byte fixed header; `flg` holds `FLG` bits 4..0, bits 7..5 being 0 -/
  | gzipHeader (flg : BitVec 5) (mtime : Word32) (xfl os : Byte)
  /-- `GZIP.FTEXT` -/
  | gzipFtext
  /-- `GZIP.FHCRC` -/
  | gzipFhcrc
  /-- `GZIP.FEXTRA` -/
  | gzipFextra
  /-- `GZIP.FNAME` -/
  | gzipFname
  /-- `GZIP.FCOMMENT` -/
  | gzipFcomment
  /-- `GZIP.FLG_RESERVED`: a `FLG` byte with one of bits 7..5 set -/
  | gzipFlgReserved (flg : Byte)
deriving DecidableEq, Repr

end Sys2Proof
end

