-- ==== Sys2Proof/WellFormed.lean ====
section
/-! DEFINITION. When an instruction is one of the table's: the operand ranges that the field widths do not already fix. An
operand value that the hardware answers with an error (`LEN` and `NLEN` that are no complements, `HLIT` above 29, a zlib
check that fails) is well formed: the instruction runs and raises it. -/

namespace Sys2Proof

/-- The operand ranges of the opcode table's rows. -/
def Instr.wellFormed : Instr → Bool
  | .fixedLit0To143 s => decide (s.toNat < 144)                                   -- R110
  | .fixedLit144To255 s => decide (144 ≤ s.toNat)                                 -- R110
  | .fixedLl256To279 s => decide (256 ≤ s.toNat) && decide (s.toNat < 280)         -- R110
  | .fixedLl280To287 s => decide (280 ≤ s.toNat) && decide (s.toNat < 288)         -- R110
  | .entryLink _ width _ => decide (1 ≤ width.toNat) && decide (width.toNat ≤ 9)   -- R131
  | .entryBase _ extra _ => decide (extra.toNat ≤ 13)                              -- R131
  | .gzipFlgReserved flg => decide (32 ≤ flg.toNat)                                -- R106: one of bits 7..5
  | _ => true

end Sys2Proof
end

