-- ==== Sys2Proof/Decode.lean ====
section
/-! DEFINITION. The decoder of every encoding of the opcode table, and after it the encoder, written from the same tables of
30_encoding.md.

The table's words overlap: the 3-bit word 0 is `FLUSH.NO_FLUSH`, `BLOCK.STORED` and `DYNAMIC.CLLEN`. On the hardware the
context says which encoding the next bits are in (the state `MODE` for the bitstream, the command for an operand), so the
decoder takes the format as an argument; each format is decoded without overlap. -/

namespace Sys2Proof

/-- The formats of the opcode table: which encoding a word is read in. `dynamicHeader` and `clLen` are the two rows of
`DYNAMIC_HEADER`, `fixedLl` and `fixedDist` the two alphabets of `FIXED_CODE`. -/
inductive Format where
  | command | flushOperand | blockHeader | storedHeader | dynamicHeader | clLen | clSymbol | llSymbol | distSymbol
  | fixedLl | fixedDist | tableEntry | zlibHeader | gzipHeader | gzipFlg
deriving DecidableEq, Repr

/-- Why a word is no instruction of a format. Who meets one: `reservedOpcode` the step (R122, `STREAM_ERROR`),
`reservedFlush` a push (R101, `STREAM_ERROR`), `compressionMethod` and `notGzip` the header states (44 R304, R305,
`DATA_ERROR`); the others are words no table or header can hold. -/
inductive Reject where
  | reservedOpcode
  | reservedFlush
  | noSuchSymbol
  | noSuchOp
  | compressionMethod
  | notGzip
  | notOneFlag
  | tooShort
deriving DecidableEq, Repr

/-! ## Helpers of the encodings -/

/-- Bits `lo .. lo+n-1` of a number: `v[lo+n-1 : lo]` of R9. -/
def fieldOf (v lo n : Nat) : Nat := (v >>> lo) % 2 ^ n

/-- `bi_reverse(c, l)` (42_tree_builder.md R239): the `l`-bit value whose bit `i` is bit `l-1-i` of `c`. -/
def biReverse : Nat → Nat → Nat
  | _, 0 => 0
  | c, l + 1 => (c % 2) * 2 ^ l + biReverse (c / 2) l

/-- The fixed literal/length code of a symbol, most significant bit first, and its length (R110). -/
def fixedLlCode (s : Nat) : Nat × Nat :=
  if s < 144 then (0x30 + s, 8)
  else if s < 256 then (0x190 + (s - 144), 9)
  else if s < 280 then (s - 256, 7)
  else (0xC0 + (s - 280), 8)

/-- The symbol whose fixed code (R110) stands first in the 9 bits `w`, bit 0 the first bit, and the code's length. The four
ranges of R110 fill the code space, so every `w` has one. -/
def fixedLlSymbol (w : Nat) : Nat × Nat :=
  let r := biReverse w 9
  if r / 4 < 24 then (256 + r / 4, 7)
  else if r / 2 < 0xC0 then (r / 2 - 0x30, 8)
  else if r / 2 < 0xC8 then (280 + (r / 2 - 0xC0), 8)
  else (144 + (r - 0x190), 9)

/-- Literal/length symbols 257..285 in order (R118). -/
def lengthInstrs : List Instr :=
  [.len257, .len258, .len259, .len260, .len261, .len262, .len263, .len264, .len265, .len266, .len267, .len268, .len269, .len270, .len271, .len272, .len273, .len274, .len275, .len276, .len277, .len278, .len279, .len280, .len281, .len282, .len283, .len284, .len285]

/-- Distance symbols 0..29 in order (R119). -/
def distanceInstrs : List Instr :=
  [.dist0, .dist1, .dist2, .dist3, .dist4, .dist5, .dist6, .dist7, .dist8, .dist9, .dist10, .dist11, .dist12, .dist13, .dist14, .dist15, .dist16, .dist17, .dist18, .dist19, .dist20, .dist21, .dist22, .dist23, .dist24, .dist25, .dist26, .dist27, .dist28, .dist29]

/-! ## Decoders of the formats -/

/-- R100: the opcode is 8 bits; every other opcode is reserved (R122). -/
def decodeCommand (w : Nat) : Except Reject Instr :=
  match w % 256 with
  | 0x01 => .ok .dflInit
  | 0x02 => .ok .dflSetdict
  | 0x03 => .ok .dflPush
  | 0x04 => .ok .dflReset
  | 0x05 => .ok .dflEnd
  | 0x06 => .ok .dflStat
  | 0x11 => .ok .iflInit
  | 0x12 => .ok .iflSetdict
  | 0x13 => .ok .iflPush
  | 0x14 => .ok .iflReset
  | 0x15 => .ok .iflEnd
  | 0x16 => .ok .iflGethdr
  | 0x17 => .ok .iflStat
  | _ => .error .reservedOpcode

/-- R101: flush values 0..5; 6 and 7 are reserved. -/
def decodeFlushOperand (w : Nat) : Except Reject Instr :=
  match w % 8 with
  | 0 => .ok .flushNoFlush
  | 1 => .ok .flushPartialFlush
  | 2 => .ok .flushSyncFlush
  | 3 => .ok .flushFullFlush
  | 4 => .ok .flushFinish
  | 5 => .ok .flushBlock
  | _ => .error .reservedFlush

/-- R108: `BFINAL` is bit 0, `BTYPE` bits 2..1. -/
def decodeBlockHeader (w : Nat) : Except Reject Instr :=
  let bfinal := w % 2 == 1
  match fieldOf w 1 2 with
  | 0 => .ok (.blockStored bfinal)
  | 1 => .ok (.blockFixed bfinal)
  | 2 => .ok (.blockDynamic bfinal)
  | _ => .ok (.blockReserved bfinal)

/-- R109: `LEN` is the low half, `NLEN` the high half. -/
def decodeStoredHeader (w : Nat) : Except Reject Instr :=
  .ok (.storedLenNlen (BitVec.ofNat 16 w) (BitVec.ofNat 16 (fieldOf w 16 16)))

/-- R111: `HLIT` bits 4..0, `HDIST` bits 9..5, `HCLEN` bits 13..10. -/
def decodeDynamicHeader (w : Nat) : Except Reject Instr :=
  .ok (.dynamicCounts (BitVec.ofNat 5 w) (BitVec.ofNat 5 (fieldOf w 5 5)) (BitVec.ofNat 4 (fieldOf w 10 4)))

/-- R111: a 3-bit length of the code-length code. -/
def decodeClLen (w : Nat) : Except Reject Instr := .ok (.dynamicCllen (BitVec.ofNat 3 w))

/-- R112: the code-length alphabet, symbols 0..18. -/
def decodeClSymbol (w : Nat) : Except Reject Instr :=
  let s := w % 32
  if s < 16 then .ok (.clLength (BitVec.ofNat 4 s))
  else if s = 16 then .ok .clCopyPrev
  else if s = 17 then .ok .clZerosShort
  else if s = 18 then .ok .clZerosLong
  else .error .noSuchSymbol

/-- R116: the literal/length alphabet, symbols 0..287. -/
def decodeLlSymbol (w : Nat) : Except Reject Instr :=
  let s := w % 512
  if s < 256 then .ok (.lit (BitVec.ofNat 8 s))
  else if s = 256 then .ok .eob
  else if s < 286 then .ok (lengthInstrs.getD (s - 257) .eob)
  else if s < 288 then .ok (.llReserved (s == 287))
  else .error .noSuchSymbol

/-- R117: the distance alphabet, symbols 0..31. -/
def decodeDistSymbol (w : Nat) : Except Reject Instr :=
  let s := w % 32
  if s < 30 then .ok (distanceInstrs.getD s (.distReserved false))
  else .ok (.distReserved (s == 31))

/-- R110: the fixed literal/length code that stands first in the next 9 bits. -/
def decodeFixedLl (w : Nat) : Except Reject Instr :=
  let s := (fixedLlSymbol (w % 512)).1
  if s < 144 then .ok (.fixedLit0To143 (BitVec.ofNat 8 s))
  else if s < 256 then .ok (.fixedLit144To255 (BitVec.ofNat 8 s))
  else if s < 280 then .ok (.fixedLl256To279 (BitVec.ofNat 9 s))
  else .ok (.fixedLl280To287 (BitVec.ofNat 9 s))

/-- R110: a fixed distance code is the symbol number, most significant bit first. -/
def decodeFixedDist (w : Nat) : Except Reject Instr := .ok (.fixedDist (BitVec.ofNat 5 (biReverse (w % 32) 5)))

/-- R130, R131: `BITS` 31..24, `OP` 23..16, `VAL` 15..0; the value field of the last two classes is 0. -/
def decodeTableEntry (w : Nat) : Except Reject Instr :=
  let bits := BitVec.ofNat 8 (fieldOf w 24 8)
  let op := fieldOf w 16 8
  let val := BitVec.ofNat 16 w
  if op = 0 then .ok (.entryLiteral bits val)
  else if op < 10 then .ok (.entryLink bits (BitVec.ofNat 4 op) val)
  else if 16 ≤ op ∧ op < 30 then .ok (.entryBase bits (BitVec.ofNat 4 (op - 16)) val)
  else if op = 96 ∧ val = 0 then .ok (.entryEndOfBlock bits)
  else if op = 64 ∧ val = 0 then .ok (.entryInvalid bits)
  else .error .noSuchOp

/-- R105: the 16-bit number `CMF * 256 + FLG`; `CM` must be 8. -/
def decodeZlibHeader (w : Nat) : Except Reject Instr :=
  if fieldOf w 8 4 = 8 then
    .ok (.zlibHeader (BitVec.ofNat 4 (fieldOf w 12 4)) (BitVec.ofNat 2 (fieldOf w 6 2)) (fieldOf w 5 1 == 1)
      (BitVec.ofNat 5 w))
  else .error .compressionMethod

/-- R106: the ten bytes, the first in bits 7..0. -/
def decodeGzipHeader (w : Nat) : Except Reject Instr :=
  if fieldOf w 0 16 ≠ 0x8B1F then .error .notGzip
  else if fieldOf w 16 8 ≠ 8 then .error .compressionMethod
  else if fieldOf w 29 3 ≠ 0 then .error .notGzip
  else .ok (.gzipHeader (BitVec.ofNat 5 (fieldOf w 24 5)) (BitVec.ofNat 32 (fieldOf w 32 32))
    (BitVec.ofNat 8 (fieldOf w 64 8)) (BitVec.ofNat 8 (fieldOf w 72 8)))

/-- R106: one flag of the `FLG` byte. A byte with a reserved bit is `GZIP.FLG_RESERVED` whatever else it holds. -/
def decodeGzipFlg (w : Nat) : Except Reject Instr :=
  if fieldOf w 5 3 ≠ 0 then .ok (.gzipFlgReserved (BitVec.ofNat 8 w))
  else
    match w % 32 with
    | 0x01 => .ok .gzipFtext
    | 0x02 => .ok .gzipFhcrc
    | 0x04 => .ok .gzipFextra
    | 0x08 => .ok .gzipFname
    | 0x10 => .ok .gzipFcomment
    | _ => .error .notOneFlag

/-- The decoder, total on every number in every format. -/
def decode : Format → Nat → Except Reject Instr
  | .command, w => decodeCommand w
  | .flushOperand, w => decodeFlushOperand w
  | .blockHeader, w => decodeBlockHeader w
  | .storedHeader, w => decodeStoredHeader w
  | .dynamicHeader, w => decodeDynamicHeader w
  | .clLen, w => decodeClLen w
  | .clSymbol, w => decodeClSymbol w
  | .llSymbol, w => decodeLlSymbol w
  | .distSymbol, w => decodeDistSymbol w
  | .fixedLl, w => decodeFixedLl w
  | .fixedDist, w => decodeFixedDist w
  | .tableEntry, w => decodeTableEntry w
  | .zlibHeader, w => decodeZlibHeader w
  | .gzipHeader, w => decodeGzipHeader w
  | .gzipFlg, w => decodeGzipFlg w

/-! ## Words as bytes -/

/-- A little-endian number from bytes, the first byte lowest (R75). -/
def leNat : List Byte → Nat
  | [] => 0
  | b :: r => b.toNat + 256 * leNat r

/-- The `n` low bytes of a number, lowest first. -/
def leBytes : Nat → Nat → List Byte
  | 0, _ => []
  | n + 1, w => BitVec.ofNat 8 w :: leBytes n (w / 256)

/-- How many whole bytes hold a word of a format. -/
def Format.bytes : Format → Nat
  | .dynamicHeader | .llSymbol | .fixedLl | .zlibHeader => 2
  | .storedHeader | .tableEntry => 4
  | .gzipHeader => 10
  | _ => 1

/-- The number a format reads from its bytes: the zlib header is big-endian (R75), every other word has its first byte
lowest (R76). -/
def wordOfBytes (f : Format) (bs : List Byte) : Nat :=
  if f = .zlibHeader then leNat bs.reverse else leNat bs

/-- The bytes of a word of a format, in stream order. -/
def bytesOfWord (f : Format) (w : Nat) : List Byte :=
  if f = .zlibHeader then (leBytes f.bytes w).reverse else leBytes f.bytes w

/-- The decoder on bytes: an instruction and the bytes after its whole-byte word, or the name of the rejection. -/
def decodeBytes (f : Format) (bs : List Byte) : Except Reject (Instr × List Byte) :=
  if bs.length < f.bytes then .error .tooShort
  else
    match decode f (wordOfBytes f (bs.take f.bytes)) with
    | .ok i => .ok (i, bs.drop f.bytes)
    | .error r => .error r

/-! ## The encoder -/

/-- The format an instruction is encoded in. -/
def Instr.format : Instr → Format
  | .dflInit => .command
  | .dflSetdict => .command
  | .dflPush => .command
  | .dflReset => .command
  | .dflEnd => .command
  | .dflStat => .command
  | .iflInit => .command
  | .iflSetdict => .command
  | .iflPush => .command
  | .iflReset => .command
  | .iflEnd => .command
  | .iflGethdr => .command
  | .iflStat => .command
  | .flushNoFlush => .flushOperand
  | .flushPartialFlush => .flushOperand
  | .flushSyncFlush => .flushOperand
  | .flushFullFlush => .flushOperand
  | .flushFinish => .flushOperand
  | .flushBlock => .flushOperand
  | .blockStored _ => .blockHeader
  | .blockFixed _ => .blockHeader
  | .blockDynamic _ => .blockHeader
  | .blockReserved _ => .blockHeader
  | .storedLenNlen _ _ => .storedHeader
  | .dynamicCounts _ _ _ => .dynamicHeader
  | .dynamicCllen _ => .clLen
  | .clLength _ => .clSymbol
  | .clCopyPrev => .clSymbol
  | .clZerosShort => .clSymbol
  | .clZerosLong => .clSymbol
  | .lit _ => .llSymbol
  | .eob => .llSymbol
  | .len257 => .llSymbol
  | .len258 => .llSymbol
  | .len259 => .llSymbol
  | .len260 => .llSymbol
  | .len261 => .llSymbol
  | .len262 => .llSymbol
  | .len263 => .llSymbol
  | .len264 => .llSymbol
  | .len265 => .llSymbol
  | .len266 => .llSymbol
  | .len267 => .llSymbol
  | .len268 => .llSymbol
  | .len269 => .llSymbol
  | .len270 => .llSymbol
  | .len271 => .llSymbol
  | .len272 => .llSymbol
  | .len273 => .llSymbol
  | .len274 => .llSymbol
  | .len275 => .llSymbol
  | .len276 => .llSymbol
  | .len277 => .llSymbol
  | .len278 => .llSymbol
  | .len279 => .llSymbol
  | .len280 => .llSymbol
  | .len281 => .llSymbol
  | .len282 => .llSymbol
  | .len283 => .llSymbol
  | .len284 => .llSymbol
  | .len285 => .llSymbol
  | .llReserved _ => .llSymbol
  | .dist0 => .distSymbol
  | .dist1 => .distSymbol
  | .dist2 => .distSymbol
  | .dist3 => .distSymbol
  | .dist4 => .distSymbol
  | .dist5 => .distSymbol
  | .dist6 => .distSymbol
  | .dist7 => .distSymbol
  | .dist8 => .distSymbol
  | .dist9 => .distSymbol
  | .dist10 => .distSymbol
  | .dist11 => .distSymbol
  | .dist12 => .distSymbol
  | .dist13 => .distSymbol
  | .dist14 => .distSymbol
  | .dist15 => .distSymbol
  | .dist16 => .distSymbol
  | .dist17 => .distSymbol
  | .dist18 => .distSymbol
  | .dist19 => .distSymbol
  | .dist20 => .distSymbol
  | .dist21 => .distSymbol
  | .dist22 => .distSymbol
  | .dist23 => .distSymbol
  | .dist24 => .distSymbol
  | .dist25 => .distSymbol
  | .dist26 => .distSymbol
  | .dist27 => .distSymbol
  | .dist28 => .distSymbol
  | .dist29 => .distSymbol
  | .distReserved _ => .distSymbol
  | .fixedLit0To143 _ => .fixedLl
  | .fixedLit144To255 _ => .fixedLl
  | .fixedLl256To279 _ => .fixedLl
  | .fixedLl280To287 _ => .fixedLl
  | .fixedDist _ => .fixedDist
  | .entryLiteral _ _ => .tableEntry
  | .entryLink _ _ _ => .tableEntry
  | .entryBase _ _ _ => .tableEntry
  | .entryEndOfBlock _ => .tableEntry
  | .entryInvalid _ => .tableEntry
  | .zlibHeader _ _ _ _ => .zlibHeader
  | .gzipHeader _ _ _ _ => .gzipHeader
  | .gzipFtext => .gzipFlg
  | .gzipFhcrc => .gzipFlg
  | .gzipFextra => .gzipFlg
  | .gzipFname => .gzipFlg
  | .gzipFcomment => .gzipFlg
  | .gzipFlgReserved _ => .gzipFlg

/-- The word of an instruction in its format, bit 0 the least significant (the zlib header as `CMF * 256 + FLG`). -/
def Instr.word : Instr → Nat
  | .dflInit => 1
  | .dflSetdict => 2
  | .dflPush => 3
  | .dflReset => 4
  | .dflEnd => 5
  | .dflStat => 6
  | .iflInit => 0x11
  | .iflSetdict => 0x12
  | .iflPush => 0x13
  | .iflReset => 0x14
  | .iflEnd => 0x15
  | .iflGethdr => 0x16
  | .iflStat => 0x17
  | .flushNoFlush => 0
  | .flushPartialFlush => 1
  | .flushSyncFlush => 2
  | .flushFullFlush => 3
  | .flushFinish => 4
  | .flushBlock => 5
  | .blockStored f => f.toNat
  | .blockFixed f => f.toNat + 2
  | .blockDynamic f => f.toNat + 4
  | .blockReserved f => f.toNat + 6
  | .storedLenNlen l n => l.toNat + 2 ^ 16 * n.toNat
  | .dynamicCounts l d c => l.toNat + 2 ^ 5 * d.toNat + 2 ^ 10 * c.toNat
  | .dynamicCllen v => v.toNat
  | .clLength v => v.toNat
  | .clCopyPrev => 16
  | .clZerosShort => 17
  | .clZerosLong => 18
  | .lit b => b.toNat
  | .eob => 256
  | .len257 => 257
  | .len258 => 258
  | .len259 => 259
  | .len260 => 260
  | .len261 => 261
  | .len262 => 262
  | .len263 => 263
  | .len264 => 264
  | .len265 => 265
  | .len266 => 266
  | .len267 => 267
  | .len268 => 268
  | .len269 => 269
  | .len270 => 270
  | .len271 => 271
  | .len272 => 272
  | .len273 => 273
  | .len274 => 274
  | .len275 => 275
  | .len276 => 276
  | .len277 => 277
  | .len278 => 278
  | .len279 => 279
  | .len280 => 280
  | .len281 => 281
  | .len282 => 282
  | .len283 => 283
  | .len284 => 284
  | .len285 => 285
  | .llReserved odd => 286 + odd.toNat
  | .dist0 => 0
  | .dist1 => 1
  | .dist2 => 2
  | .dist3 => 3
  | .dist4 => 4
  | .dist5 => 5
  | .dist6 => 6
  | .dist7 => 7
  | .dist8 => 8
  | .dist9 => 9
  | .dist10 => 10
  | .dist11 => 11
  | .dist12 => 12
  | .dist13 => 13
  | .dist14 => 14
  | .dist15 => 15
  | .dist16 => 16
  | .dist17 => 17
  | .dist18 => 18
  | .dist19 => 19
  | .dist20 => 20
  | .dist21 => 21
  | .dist22 => 22
  | .dist23 => 23
  | .dist24 => 24
  | .dist25 => 25
  | .dist26 => 26
  | .dist27 => 27
  | .dist28 => 28
  | .dist29 => 29
  | .distReserved odd => 30 + odd.toNat
  | .fixedLit0To143 s => biReverse (0x30 + s.toNat) 8
  | .fixedLit144To255 s => biReverse (0x190 + (s.toNat - 144)) 9
  | .fixedLl256To279 s => biReverse (s.toNat - 256) 7
  | .fixedLl280To287 s => biReverse (0xC0 + (s.toNat - 280)) 8
  | .fixedDist s => biReverse s.toNat 5
  | .entryLiteral b v => 2 ^ 24 * b.toNat + v.toNat
  | .entryLink b s v => 2 ^ 24 * b.toNat + 2 ^ 16 * s.toNat + v.toNat
  | .entryBase b e v => 2 ^ 24 * b.toNat + 2 ^ 16 * (16 + e.toNat) + v.toNat
  | .entryEndOfBlock b => 2 ^ 24 * b.toNat + 2 ^ 16 * 96
  | .entryInvalid b => 2 ^ 24 * b.toNat + 2 ^ 16 * 64
  | .zlibHeader i l d c => 2 ^ 12 * i.toNat + 2 ^ 8 * 8 + 2 ^ 6 * l.toNat + 2 ^ 5 * d.toNat + c.toNat
  | .gzipHeader f m x o =>
    0x088B1F + 2 ^ 24 * f.toNat + 2 ^ 32 * m.toNat + 2 ^ 64 * x.toNat + 2 ^ 72 * o.toNat
  | .gzipFtext => 1
  | .gzipFhcrc => 2
  | .gzipFextra => 4
  | .gzipFname => 8
  | .gzipFcomment => 16
  | .gzipFlgReserved flg => flg.toNat

/-- How many bits the instruction's word has (the opcode table's width; for a fixed code its length, R110). -/
def Instr.bits (i : Instr) : Nat :=
  match i.format with
  | .command | .gzipFlg => 8
  | .flushOperand | .blockHeader | .clLen => 3
  | .storedHeader | .tableEntry => 32
  | .dynamicHeader => 14
  | .clSymbol | .distSymbol | .fixedDist => 5
  | .llSymbol => 9
  | .fixedLl =>
    match i with
    | .fixedLit144To255 _ => 9
    | .fixedLl256To279 _ => 7
    | _ => 8
  | .zlibHeader => 16
  | .gzipHeader => 80

/-- The encoder: the format and the word of an instruction. -/
def encode (i : Instr) : Format × Nat := (i.format, i.word)

/-! ## Words numbered by the opcode table, without a context -/

/-- The format in which a word of the opcode table is read when nothing but its length and bits is known. The table's words
overlap (log entry 4): up to 8 bits a command opcode comes first, then a distance symbol, then a `FLG` byte with a reserved
bit; 16 bits are a literal/length symbol, then a zlib header with `CM = 8`, then the dynamic counts; 32 bits a stored-block
length word if its halves are complements, else a decode-table entry; 80 bits the gzip header. The widths 3, 5, 9 and 14,
which are no whole bytes, name their format themselves. -/
def tableFormat (nbits w : Nat) : Option Format :=
  if nbits = 3 then some .blockHeader
  else if nbits = 5 then some .distSymbol
  else if nbits = 9 then some .llSymbol
  else if nbits = 14 then some .dynamicHeader
  else if nbits ≤ 8 then
    match decodeCommand w with
    | .ok _ => some .command
    | .error _ => if w < 32 then some .distSymbol else some .gzipFlg
  else if nbits ≤ 16 then
    if w < 288 then some .llSymbol
    else if fieldOf w 8 4 = 8 then some .zlibHeader
    else some .dynamicHeader
  else if nbits ≤ 32 then
    match decodeTableEntry w with
    | .error _ => some .storedHeader
    | .ok _ => if fieldOf w 16 16 = 0xFFFF - fieldOf w 0 16 then some .storedHeader else some .tableEntry
  else if nbits = 80 then some .gzipHeader
  else none

/-- The instruction the decoder reads from a word numbered as the opcode table numbers it (log entry 4). -/
def decodeTableWord (nbits w : Nat) : Option Instr :=
  match tableFormat nbits w with
  | none => none
  | some f =>
    match decode f w with
    | .ok i => some i
    | .error _ => none

end Sys2Proof
end

