-- ==== Sys2Proof/Config.lean ====
section
/-! DEFINITION. The parameters that the design fixes (00_scope.md R8). Values a stream's creator chooses are
registers (10_state.md R23, R30), not parameters. `ADLER_NMAX` has no effect on any result (45_checksums.md R360) and
`CHUNK` belongs to the host (46_host_commands.md R384), so neither stands here. -/

namespace Sys2Proof.Config

/-- Shortest match. -/
abbrev minMatch : Nat := 3
/-- Longest match. -/
abbrev maxMatch : Nat := 258
/-- `MIN_LOOKAHEAD = MAX_MATCH + MIN_MATCH + 1`. -/
abbrev minLookahead : Nat := 262
/-- Distance beyond which a 3-byte match is dropped. -/
abbrev tooFar : Nat := 4096
/-- `L_CODES`: literal/length symbols the compressor uses. -/
abbrev lCodes : Nat := 286
/-- `D_CODES`: distance symbols the compressor uses. -/
abbrev dCodes : Nat := 30
/-- `BL_CODES`: code-length symbols. -/
abbrev blCodes : Nat := 19
/-- `END_BLOCK`. -/
abbrev endBlock : Nat := 256
/-- `HEAP_SIZE = 2 * L_CODES + 1`. -/
abbrev heapSize : Nat := 573
/-- `MAX_BITS`: longest Huffman code. -/
abbrev maxBits : Nat := 15
/-- `ENOUGH_LENS`: decode-table entries for literal/length codes. -/
abbrev enoughLens : Nat := 852
/-- `ENOUGH_DISTS`: decode-table entries for distance codes. -/
abbrev enoughDists : Nat := 592
/-- Input bytes the fast loop needs (43_table_decoder_fastloop.md R280). -/
abbrev fastMinIn : Nat := 6
/-- Output bytes the fast loop needs (R280). -/
abbrev fastMinOut : Nat := 258
/-- Adler-32 modulus (45_checksums.md R360). -/
abbrev adlerBase : Nat := 65521
/-- Reflected CRC-32 polynomial (R361). -/
abbrev crcPoly : Word32 := 0xEDB88320#32
/-- gzip OS byte when no header record is supplied (41_deflate_engine.md R196). -/
abbrev osCode : Byte := 3#8
/-- Captured bytes of a gzip name or comment (92_eei_decisions.md D26; log entry 22). -/
abbrev hdrFieldMax : Nat := 65536
/-- The `level` a wrapper passes when the option is absent: -1, which `DFL_INIT` replaces by 6 (92_eei_decisions.md D6). -/
abbrev defaultLevel : Int := -1
/-- The `window_bits` a wrapper passes when the option is absent (D6). -/
abbrev defaultWindowBits : Int := 15
/-- The `mem_level` a wrapper passes when the option is absent (00_scope.md R8, D6). -/
abbrev defaultMemLevel : Int := 8
/-- The `strategy` a wrapper passes when the option is absent (D6). -/
abbrev defaultStrategy : Int := 0

end Sys2Proof.Config
end

