-- ==== Sys2Proof/Machine/State.lean ====
section
/-! DEFINITION. The state of the machine: the host interface (30_encoding.md R100, R103), the compression unit `CU`
(10_state.md R22 to R29) and the decompression unit `DU` (R22, R30 to R35), with their memories (20_memory.md R70).
Power-on is R39. Constants (R36) and the registers that the spec derives from others (`W_SIZE`, `HASH_MASK`, ...) or
hardwires (`SANE`) are functions, not fields (log entry 20). -/

namespace Sys2Proof.Machine

/-! ## Memories -/

/-- A memory: its entries by index, strictly rising, none equal to what an unlisted entry reads as (all zero: 10_state.md
R37, R38 zero every memory at init; log entry 13). -/
abbrev Mem (α : Type) := List (Nat × α)

/-- A node of a code tree (R28): four separate fields, never overlaid (R21). -/
structure Node where
  freq : Word16
  code : Word16
  len  : Word16
  dad  : Word16
deriving DecidableEq, Repr, Inhabited

/-! ## Statuses, messages, states -/

/-- Status codes (30_encoding.md R102). -/
inductive Status where
  | ok | streamEnd | needDict | streamError | dataError | memError | bufError
deriving DecidableEq, Repr, Inhabited

/-- Message ids 0..22 in order (60_exceptions.md R403). -/
inductive Msg where
  | none
  | streamError
  | dataError
  | insufficientMemory
  | bufferError
  | incorrectHeaderCheck
  | unknownCompressionMethod
  | invalidWindowSize
  | unknownHeaderFlags
  | headerCrcMismatch
  | invalidBlockType
  | invalidStoredLengths
  | tooManySymbols
  | invalidCodeLengthsSet
  | invalidBitLengthRepeat
  | missingEndOfBlock
  | invalidLiteralLengthsSet
  | invalidDistancesSet
  | invalidLiteralLengthCode
  | invalidDistanceCode
  | invalidDistanceTooFarBack
  | incorrectDataCheck
  | incorrectLengthCheck
deriving DecidableEq, Repr, Inhabited

/-- States of the Deflate engine, 0..7 in order (R26). -/
inductive CuStatus where
  | noStream   -- `END`
  | init
  | extra
  | name
  | comment
  | hcrc
  | busy
  | finish
deriving DecidableEq, Repr, Inhabited

/-- Strategy functions (R23). -/
inductive Func where
  | stored | fast | slow | rle | huff
deriving DecidableEq, Repr, Inhabited

/-- `MODE` of the Inflate engine, 0..27 and 31 in order (R32). -/
inductive Mode where
  | head | flags | time | os | exlen | extra | name | comment | hcrc | dictid | dict
  | type | stored | copy | table | lenlens | codelens
  | len | lenext | dist | distext | matchCopy   -- `MATCH`
  | lit | check | length | done | bad | mem
  | noStream   -- `END`
deriving DecidableEq, Repr, Inhabited

/-- The tables `LENCODE` and `DISTCODE` select from (R31). -/
inductive TableSel where
  | codes | lenfix | distfix
deriving DecidableEq, Repr, Inhabited

/-- A table selector and base index (R31). -/
structure TableRef where
  sel  : TableSel
  base : Nat
deriving DecidableEq, Repr, Inhabited

/-! ## Host interface -/

/-- The `gzip_header` record (30_encoding.md R103). -/
structure GzHeader where
  text    : Bool
  time    : Word32
  os      : Byte
  hcrc    : Bool
  extra   : Option (List Byte)
  name    : Option (List Byte)
  comment : Option (List Byte)
deriving DecidableEq, Repr, Inhabited

/-- The operands of a command; each command reads those of its row of R100 (log entry 3). -/
structure Operands where
  level      : Int
  windowBits : Int
  memLevel   : Int
  strategy   : Int
  gzipHeader : Option GzHeader
  dictionary : List Byte
  input      : List Byte
  flush      : Int
  availOut   : Nat
  capture    : Bool
deriving DecidableEq, Repr, Inhabited

/-- A command as the host issues it (R100). -/
structure Command where
  opcode : Byte
  ops    : Operands
deriving DecidableEq, Repr, Inhabited

/-- The gzip header capture record (10_state.md R35); `hdone` is `HDR_DONE` (R33). -/
structure HdrRecord where
  text           : Bool
  time           : Word32
  xflags         : Byte
  os             : Byte
  extraPresent   : Bool
  extraLen       : Word16
  extra          : List Byte
  namePresent    : Bool
  name           : List Byte
  commentPresent : Bool
  comment        : List Byte
  hcrc           : Bool
  hdone          : Int
deriving DecidableEq, Repr, Inhabited

/-- What `DFL_STAT` and `IFL_STAT` return (46_host_commands.md R375, R381). -/
structure StatRecord where
  totalIn  : Word32
  totalOut : Word32
  adler    : Word32
  msg      : Msg
deriving DecidableEq, Repr, Inhabited

/-- The result record of a command (R100); fields that the command does not return are 0 or absent. -/
structure Result where
  status   : Status
  consumed : Nat
  out      : List Byte
  stat     : Option StatRecord
  hdr      : Option HdrRecord
deriving DecidableEq, Repr, Inhabited

/-- The cursors and byte sequences of the push being executed (R25). `AVAIL_IN` is `len(in) - NEXT_IN`. -/
structure Cursor where
  inp      : List Byte
  nextIn   : Nat
  out      : List Byte
  availOut : Nat
deriving DecidableEq, Repr, Inhabited

/-! ## The compression unit -/

/-- The context of `CU` (R22 to R29). -/
structure Cu where
  -- stream context, R22, R25
  cur      : Cursor
  totalIn  : Word32
  totalOut : Word32
  adler    : Word32
  msg      : Msg
  -- configuration, R23
  wrap           : Int
  level          : Nat
  strategy       : Nat
  wBits          : Nat
  hashBits       : Nat
  litBufsize     : Nat
  goodMatch      : Nat
  maxLazyMatch   : Nat
  niceMatch      : Nat
  maxChainLength : Nat
  func           : Func
  gzhead         : Option GzHeader
  -- working registers, R24, R26
  status      : CuStatus
  strstart    : Nat
  blockStart  : Int
  lookahead   : Nat
  matchStart  : Word32
  matchLength : Nat
  prevMatch   : Word32
  prevLength  : Nat
  insH        : Word16
  insertCount : Nat
  pending     : Nat
  pendingOut  : Nat
  biBuf       : Word16
  biValid     : Nat
  lastLit     : Nat
  matchCount  : Nat
  optLen      : Word32
  staticLen   : Word32
  heapLen     : Nat
  heapMax     : Nat
  lMaxCode    : Nat
  dMaxCode    : Nat
  blMaxCode   : Nat
  gzindex     : Nat
  -- flags, R27
  matchAvailable : Bool
  lastFlush      : Int
  bflush         : Bool
  -- memories, R28, R29, 20_memory.md R70
  window     : Mem Byte
  head       : Mem Word16
  prev       : Mem Word16
  pendingBuf : Mem Byte
  dBuf       : Mem Word16
  lBuf       : Mem Byte
  dynLtree   : Mem Node
  dynDtree   : Mem Node
  blTree     : Mem Node
  heap       : Mem Word16
  depth      : Mem Byte
  blCount    : Mem Word16
deriving DecidableEq, Repr, Inhabited

/-! ## The decompression unit -/

/-- Where `DU` stands in the push algorithm (44_inflate_engine.md R302): no push in progress; in the state loop of step 4;
or out of the loop with the status that step 5 hands to `leave` (log entry 7). -/
inductive Ctl where
  | idle
  | run
  | stop (ret : Status)
deriving DecidableEq, Repr, Inhabited

/-- The context of `DU` (R22, R30 to R35). -/
structure Du where
  -- stream context, R22, R25
  cur      : Cursor
  totalIn  : Word32
  totalOut : Word32
  adler    : Word32
  msg      : Msg
  -- the push in progress, 44_inflate_engine.md R302
  ctl       : Ctl
  pushFlush : Int
  checked   : Nat
  -- configuration, R30
  wrap    : BitVec 2
  wbits   : Nat
  capture : Bool
  -- working registers, R31, R32
  mode      : Mode
  hold      : Word32
  bits      : Nat
  length    : Nat
  offset    : Nat
  extra     : Nat
  flags     : Word16
  check     : Word32
  total     : Word32
  ncode     : Nat
  nlen      : Nat
  ndist     : Nat
  haveCount : Nat
  lenbits   : Nat
  distbits  : Nat
  lencode   : TableRef
  distcode  : TableRef
  wsize     : Nat
  whave     : Nat
  wnext     : Nat
  -- flags, R33
  last     : Bool
  havedict : Bool
  -- tables and window, R34
  codes   : Mem Word32
  lens    : Mem Word16
  work    : Mem Word16
  hwindow : Mem Byte
  -- header capture record, R35
  hdr : HdrRecord
deriving DecidableEq, Repr, Inhabited

/-! ## The machine -/

/-- The whole machine. -/
structure State where
  /-- Commands issued and not begun, oldest first (log entry 3). -/
  cmds   : List Command
  /-- Operands of the command being executed. -/
  port   : Operands
  /-- Result of the command that returned last. -/
  result : Option Result
  cu     : Cu
  du     : Du
deriving DecidableEq, Repr

/-- Why a step can stop. Both lie outside the spec, which gives the situations no behaviour. -/
inductive Fault where
  /-- Raised by every `DU` command executed while a push of `DU` is in progress: 70_reset_and_hazards.md R440 leaves the
  behaviour outside the spec ("The hardware does not detect a violation; its behaviour is then outside this spec"). Safe:
  the machine stops where the hardware goes on in some way. The step itself never gets here. -/
  | unitBusy
  /-- Raised by every instruction of the bitstream executed while no push of `DU` is in progress: 10_state.md R25 gives
  `DU` an input only during a push. Safe: the machine stops. The step itself never gets here. -/
  | noPush
deriving DecidableEq, Repr

/-- Why the model has no meaning for an instruction. -/
inductive Refusal where
  /-- Answered by an arm of `exec` whose instruction has no meaning yet; safe, the machine stops. No arm answers it now. -/
  | notModelled (mnemonic : String)
deriving DecidableEq, Repr

/-! ## Power-on -/

/-- `CU` at power-on: `STATUS = END` (10_state.md R39); every other field is unspecified there, and zero or empty here
(DESIGN CHOICE, log entry 1). -/
def Cu.powerOn : Cu :=
  { (default : Cu) with
    status := .noStream, func := .stored, msg := .none, gzhead := none, wrap := 0, blockStart := 0, lastFlush := 0 }

/-- `DU` at power-on: `MODE = END` (10_state.md R39); every other field is unspecified there, and zero or empty here
(DESIGN CHOICE, log entry 1). -/
def Du.powerOn : Du :=
  { (default : Du) with
    mode := .noStream, ctl := .idle, msg := .none, lencode := ⟨.codes, 0⟩, distcode := ⟨.codes, 0⟩ }

/-- The machine right after power-on (10_state.md R39, 70_reset_and_hazards.md R445); no command has been issued. -/
def State.reset : State :=
  { cmds := [], port := default, result := none, cu := Cu.powerOn, du := Du.powerOn }

end Sys2Proof.Machine
end

