-- ==== Sys2Proof/Machine/Ops.lean ====
section
/-! DEFINITION. The operations over memories and cursors that every rule is written with (00_scope.md R10, 20_memory.md
R70 to R88), counted loops, the bit-fetch primitives of the Inflate engine (44_inflate_engine.md R301), and raising a
status (60_exceptions.md R401, R402). -/

namespace Sys2Proof.Machine

/-! ## Loops -/

/-- `for i in lo .. lo+n-1` (R9), in increasing order. -/
def forRange {σ : Type} (lo n : Nat) (f : Nat → σ → σ) (s : σ) : σ :=
  (List.range' lo n).foldl (fun s i => f i s) s

/-! ## Memories -/

namespace Mem

variable {α : Type}

/-- The entry at an index: the listed one, else zero. Indexes rise, so the search ends early. -/
def get [Inhabited α] : Mem α → Nat → α
  | [], _ => default
  | (j, x) :: r, i => if i < j then default else if i = j then x else get r i

/-- Writes an entry and keeps the canonical form: writing zero removes the entry. -/
def set [Inhabited α] [DecidableEq α] : Mem α → Nat → α → Mem α
  | [], i, v => if v = default then [] else [(i, v)]
  | (j, x) :: r, i, v =>
    if i < j then (if v = default then (j, x) :: r else (i, v) :: (j, x) :: r)
    else if i = j then (if v = default then r else (i, v) :: r)
    else (j, x) :: set r i v

/-- `M[i]` for a memory of `size` entries (R10). The rules never read outside (20_memory.md R72); the model then reads zero
(log entry 9). -/
def rd [Inhabited α] (size : Nat) (m : Mem α) (i : Nat) : α := if i < size then get m i else default

/-- `M[i] <- v` for a memory of `size` entries (R10). The rules never write outside (20_memory.md R72); the model then
writes nothing (log entry 9). -/
def wr [Inhabited α] [DecidableEq α] (size : Nat) (m : Mem α) (i : Nat) (v : α) : Mem α :=
  if i < size then set m i v else m

/-- `MemRead(M, a, n)`: single-entry reads in increasing index order (20_memory.md R78). -/
def readN [Inhabited α] (size : Nat) (m : Mem α) (a n : Nat) : List α := (List.range' a n).map (rd size m)

/-- `MemWrite(M, a, len s, s)`: single-entry writes in increasing index order (20_memory.md R78). -/
def writeList [Inhabited α] [DecidableEq α] (size : Nat) : Mem α → Nat → List α → Mem α
  | m, _, [] => m
  | m, a, v :: r => writeList size (wr size m a v) (a + 1) r

/-- Every entry `x` of the memory replaced by `f x`; `f` must keep zero. -/
def mapVals [Inhabited α] [DecidableEq α] (f : α → α) (m : Mem α) : Mem α :=
  m.filterMap fun e => if f e.2 = default then none else some (e.1, f e.2)

/-- The upper half of a memory of `2 * w` entries copied onto the lower half (40_matcher.md R160, first line). -/
def slideDown (w : Nat) (m : Mem α) : Mem α :=
  (m.filterMap fun e => if w ≤ e.1 ∧ e.1 < 2 * w then some (e.1 - w, e.2) else none) ++ m.filter fun e => w ≤ e.1

/-- The canonical form of a memory of `size` entries: indexes strictly rising and below `size` (20_memory.md R72), no entry
zero. -/
def wf [Inhabited α] [DecidableEq α] (size : Nat) (m : Mem α) : Bool :=
  m.Pairwise (fun a b => a.1 < b.1) && m.all fun e => decide (e.1 < size) && decide (e.2 ≠ default)

end Mem

/-! ## Cursors (10_state.md R25) -/

namespace Cursor

/-- No push in progress: the cursor registers do not persist between commands. -/
def empty : Cursor := ⟨[], 0, [], 0⟩

/-- The cursors at the start of a push. -/
def start (inp : List Byte) (availOut : Nat) : Cursor := ⟨inp, 0, [], availOut⟩

/-- `AVAIL_IN`. -/
def availIn (c : Cursor) : Nat := c.inp.length - c.nextIn

/-- `in[NEXT_IN]`. -/
def peekByte (c : Cursor) : Byte := c.inp.getD c.nextIn 0#8

/-- The next `n` bytes of the input. -/
def nextBytes (c : Cursor) (n : Nat) : List Byte := (c.inp.drop c.nextIn).take n

/-- The cursor part of `in_take(n)` (00_scope.md R10). -/
def advance (c : Cursor) (n : Nat) : Cursor := { c with nextIn := c.nextIn + n }

/-- `out_put(b)` (00_scope.md R10). -/
def outPut (c : Cursor) (b : Byte) : Cursor := { c with out := c.out ++ [b], availOut := c.availOut - 1 }

/-- `produced`: the bytes this command has output so far (44_inflate_engine.md R302). -/
def produced (c : Cursor) : Nat := c.out.length

end Cursor

/-! ## `CU`: derived registers and memory accesses -/

namespace Cu

/-- `W_SIZE` (10_state.md R23). -/
def wSize (c : Cu) : Nat := 2 ^ c.wBits
/-- `W_MASK` (10_state.md R23); `i & W_MASK` is `i mod W_SIZE`. -/
def wMask (c : Cu) : Nat := c.wSize - 1
/-- `WINDOW_SIZE` (10_state.md R23). -/
def windowSize (c : Cu) : Nat := 2 * c.wSize
/-- `HASH_SIZE` (10_state.md R23). -/
def hashSize (c : Cu) : Nat := 2 ^ c.hashBits
/-- `HASH_MASK` (10_state.md R23). -/
def hashMask (c : Cu) : Nat := c.hashSize - 1
/-- `HASH_SHIFT` (10_state.md R23). -/
def hashShift (c : Cu) : Nat := (c.hashBits + 2) / 3
/-- `PENDING_SIZE` (00_scope.md R8). -/
def pendingSize (c : Cu) : Nat := 4 * c.litBufsize
/-- `MAX_DIST` (00_scope.md R8). -/
def maxDist (c : Cu) : Nat := c.wSize - Config.minLookahead

/-- `WINDOW[i]`. -/
def win (c : Cu) (i : Nat) : Byte := Mem.rd c.windowSize c.window i
/-- `HEAD[i]`. -/
def headAt (c : Cu) (i : Nat) : Word16 := Mem.rd c.hashSize c.head i
/-- `PREV[i]`. -/
def prevAt (c : Cu) (i : Nat) : Word16 := Mem.rd c.wSize c.prev i

/-- The three code trees (10_state.md R28). -/
inductive Tree where
  | l | d | bl
deriving DecidableEq, Repr

/-- How many nodes a tree has (10_state.md R28). -/
def Tree.size : Tree → Nat
  | .l => Config.heapSize
  | .d => 2 * Config.dCodes + 1
  | .bl => 2 * Config.blCodes + 1

/-- `T[n]`. -/
def node (c : Cu) (t : Tree) (n : Nat) : Node :=
  match t with
  | .l => Mem.rd t.size c.dynLtree n
  | .d => Mem.rd t.size c.dynDtree n
  | .bl => Mem.rd t.size c.blTree n

/-- `T[n] <- v`. -/
def setNode (c : Cu) (t : Tree) (n : Nat) (v : Node) : Cu :=
  match t with
  | .l => { c with dynLtree := Mem.wr t.size c.dynLtree n v }
  | .d => { c with dynDtree := Mem.wr t.size c.dynDtree n v }
  | .bl => { c with blTree := Mem.wr t.size c.blTree n v }

/-- `T[n].freq <- v`. -/
def setFreq (c : Cu) (t : Tree) (n : Nat) (v : Word16) : Cu := c.setNode t n { c.node t n with freq := v }
/-- `T[n].code <- v`. -/
def setCode (c : Cu) (t : Tree) (n : Nat) (v : Word16) : Cu := c.setNode t n { c.node t n with code := v }
/-- `T[n].len <- v`. -/
def setLen (c : Cu) (t : Tree) (n : Nat) (v : Nat) : Cu := c.setNode t n { c.node t n with len := word16Of v }
/-- `T[n].dad <- v`. -/
def setDad (c : Cu) (t : Tree) (n : Nat) (v : Nat) : Cu := c.setNode t n { c.node t n with dad := word16Of v }

/-- `HEAP[i]`. -/
def heapAt (c : Cu) (i : Nat) : Nat := (Mem.rd Config.heapSize c.heap i).toNat
/-- `HEAP[i] <- v`. -/
def setHeap (c : Cu) (i v : Nat) : Cu := { c with heap := Mem.wr Config.heapSize c.heap i (word16Of v) }
/-- `DEPTH[i]`. -/
def depthAt (c : Cu) (i : Nat) : Nat := (Mem.rd Config.heapSize c.depth i).toNat
/-- `DEPTH[i] <- v`. -/
def setDepth (c : Cu) (i v : Nat) : Cu := { c with depth := Mem.wr Config.heapSize c.depth i (byteOf v) }
/-- `BL_COUNT[i]`. -/
def blCountAt (c : Cu) (i : Nat) : Nat := (Mem.rd (Config.maxBits + 1) c.blCount i).toNat
/-- `BL_COUNT[i] <- v`. -/
def setBlCount (c : Cu) (i v : Nat) : Cu := { c with blCount := Mem.wr (Config.maxBits + 1) c.blCount i (word16Of v) }

/-! ### The pending queue (20_memory.md R85) -/

/-- `put_byte(b)`. -/
def putByte (c : Cu) (b : Byte) : Cu :=
  { c with
    pendingBuf := Mem.wr c.pendingSize c.pendingBuf ((c.pendingOut + c.pending) % c.pendingSize) b
    pending := c.pending + 1 }

/-- `put_byte` of every byte of a sequence, in order. -/
def putBytes (c : Cu) (bs : List Byte) : Cu := bs.foldl putByte c

/-- `put_short(w)`: low byte first (42_tree_builder.md R253). -/
def putShort (c : Cu) (w : Nat) : Cu := (c.putByte (byteOf w)).putByte (byteOf (w / 256))

/-- `put_short_msb(w)`: high byte first (42_tree_builder.md R253). -/
def putShortMsb (c : Cu) (w : Nat) : Cu := (c.putByte (byteOf (w / 256))).putByte (byteOf w)

/-- The last `n` bytes put in the queue, oldest first. -/
def lastQueued (c : Cu) (n : Nat) : List Byte :=
  (List.range' (c.pending - n) n).map fun k => Mem.rd c.pendingSize c.pendingBuf ((c.pendingOut + k) % c.pendingSize)

/-- One round of `flush_pending`: the oldest queued byte goes out and `PENDING_OUT` moves on. -/
def flushByte (c : Cu) : Cu :=
  { c with
    cur := c.cur.outPut (Mem.rd c.pendingSize c.pendingBuf c.pendingOut)
    pendingOut := (c.pendingOut + 1) % c.pendingSize }

/-- `flush_pending()` (41_deflate_engine.md R184). -/
def flushPending (c : Cu) : Cu :=
  let n := min c.pending c.cur.availOut
  if n = 0 then c
  else
    let c1 := forRange 0 n (fun _ c => c.flushByte) c
    let c2 : Cu := { c1 with pending := c1.pending - n, totalOut := c1.totalOut + word32Of n }
    if c2.pending = 0 then { c2 with pendingOut := 0 } else c2

/-- `flush_pending()` where the queue has no room for `n` more bytes: how 41_deflate_engine.md R200 keeps what `put_byte`
requires, `PENDING < PENDING_SIZE` (20_memory.md R85). -/
def makeRoom (n : Nat) (c : Cu) : Cu := if c.pendingSize < c.pending + n then c.flushPending else c

end Cu

/-! ## `DU`: memory accesses and bit fetch -/

/-- `OP` of a decode-table entry (30_encoding.md R130). -/
def entryOp (e : Word32) : Nat := (e.extractLsb' 16 8).toNat
/-- `BITS` of a decode-table entry (30_encoding.md R130). -/
def entryBits (e : Word32) : Nat := (e.extractLsb' 24 8).toNat
/-- `VAL` of a decode-table entry (30_encoding.md R130). -/
def entryVal (e : Word32) : Nat := (e.extractLsb' 0 16).toNat
/-- `E(op, bits, val)` (30_encoding.md R130). -/
def mkEntry (op bits val : Nat) : Word32 := byteOf bits ++ byteOf op ++ word16Of val

namespace Du

/-- Entries of `CODES` (10_state.md R34). -/
abbrev codesSize : Nat := Config.enoughLens + Config.enoughDists
/-- Entries of `LENS` (10_state.md R34). -/
abbrev lensSize : Nat := 320
/-- Entries of `WORK` (10_state.md R34). -/
abbrev workSize : Nat := 288
/-- Entries of `HWINDOW` (10_state.md R34). -/
def hwindowSize (d : Du) : Nat := 2 ^ d.wbits

/-- `SANE`: hardwired 1 (10_state.md R30). -/
def sane (_ : Du) : Bool := true

/-- `CODES[i]`. -/
def codeAt (d : Du) (i : Nat) : Word32 := Mem.rd codesSize d.codes i
/-- `LENS[i]`. -/
def lensAt (d : Du) (i : Nat) : Nat := (Mem.rd lensSize d.lens i).toNat
/-- `LENS[i] <- v`. -/
def setLens (d : Du) (i v : Nat) : Du := { d with lens := Mem.wr lensSize d.lens i (word16Of v) }

/-- `out_put(b)`. -/
def outPut (d : Du) (b : Byte) : Du := { d with cur := d.cur.outPut b }

/-- `suspend` (44_inflate_engine.md R344): leave the state loop with `ret = OK`. -/
def suspend (d : Du) : Du := { d with ctl := .stop .ok }

/-- `bad(m)` (60_exceptions.md R402): the state loop continues at `BAD`. -/
def bad (d : Du) (m : Msg) : Du := { d with msg := m, mode := .bad }

/-- Fetches the next byte: the body of `pull()` and of `fetch()` (44_inflate_engine.md R301, 43_table_decoder_fastloop.md
R281). -/
def fetch (d : Du) : Du :=
  { d with
    hold := d.hold + ((d.cur.peekByte.setWidth 32) <<< d.bits)
    bits := d.bits + 8
    cur := d.cur.advance 1 }

/-- `pull()` (44_inflate_engine.md R301). -/
def pull (d : Du) : Du := if d.cur.availIn = 0 then d.suspend else d.fetch

/-- What follows in a state's rule, unless it has suspended. -/
def andThen (d : Du) (k : Du → Du) : Du := if d.ctl = .run then k d else d

/-- At most `fuel` rounds of `while BITS < n: pull()`. -/
def needLoop : Nat → Nat → Du → Du
  | 0, _, d => d
  | fuel + 1, n, d => if d.bits < n then d.pull.andThen (needLoop fuel n) else d

/-- `need(n)` (44_inflate_engine.md R301); each round fetches 8 bits, so `n` rounds suffice. -/
def need (n : Nat) (d : Du) : Du := needLoop n n d

/-- `need(n)`, then the rest of the rule. -/
def needThen (n : Nat) (d : Du) (k : Du → Du) : Du := (d.need n).andThen k

/-- `peek(n)` (44_inflate_engine.md R301). -/
def peek (d : Du) (n : Nat) : Nat := d.hold.toNat % 2 ^ n

/-- `drop(n)` (44_inflate_engine.md R301). -/
def drop (n : Nat) (d : Du) : Du := { d with hold := d.hold >>> n, bits := d.bits - n }

/-- `initbits()` (44_inflate_engine.md R301). -/
def initbits (d : Du) : Du := { d with hold := 0, bits := 0 }

/-- `bytebits()` (44_inflate_engine.md R301). -/
def bytebits (d : Du) : Du := d.drop (d.bits % 8)

/-- `FHCRC`, `FEXTRA`, `FNAME`, `FCOMMENT` of the `FLAGS` register: bit `k` (44_inflate_engine.md R305). -/
def flag (d : Du) (k : Nat) : Bool := d.flags.getLsbD k

end Du

/-! ## Raising a status -/

/-- The message id that goes with a raised status (60_exceptions.md R403). -/
def Status.raiseMsg : Status → Msg
  | .streamError => .streamError
  | .dataError => .dataError
  | .memError => .insufficientMemory
  | .bufError => .bufferError
  | _ => .none

/-- The two execution agents (00_scope.md R7). -/
inductive Agent where
  | cu | du
deriving DecidableEq, Repr

/-- A result that carries a status only. -/
def Result.ofStatus (st : Status) : Result := ⟨st, 0, [], none, none⟩

namespace State

/-- The command returns: its result record is there for the host. -/
def post (s : State) (r : Result) : State := { s with result := some r }

/-- A push of `CU` returns: its cursors and `BFLUSH`, which do not persist (10_state.md R25, R27), are gone. -/
def finishCu (s : State) (r : Result) : State :=
  State.post { s with cu := { s.cu with cur := Cursor.empty, bflush := false } } r

/-- A push of `DU` returns: its cursors, which do not persist (10_state.md R25), and its temporaries (44_inflate_engine.md
R302) are gone. -/
def finishDu (s : State) (r : Result) : State :=
  State.post { s with du := { s.du with cur := Cursor.empty, ctl := .idle, pushFlush := 0, checked := 0 } } r

/-- `raise <st>` (60_exceptions.md R401), the exception entry of this hardware: the command ends at once with the negative
status, nothing consumed and no output; `MSG` takes the cause's id, except when the unit is in `END` (exception (a) of the
rule). The exceptions (b), an unknown opcode, and (c), `DFL_END`, do not go through it. Nothing else is saved, and there is
no handler and no return (R412): the host issues the next command. -/
def raise (a : Agent) (st : Status) (s : State) : State :=
  match a with
  | .cu => State.post (if s.cu.status = .noStream then s else { s with cu := { s.cu with msg := st.raiseMsg } })
      (Result.ofStatus st)
  | .du => State.post (if s.du.mode = .noStream then s else { s with du := { s.du with msg := st.raiseMsg } })
      (Result.ofStatus st)

end State

end Sys2Proof.Machine
end

