-- ==== Sys2Proof/Machine/Operands.lean ====
section
/-! DEFINITION. Operand forms: the operands of the commands (30_encoding.md R101, R103), the level table that `level`
selects (40_matcher.md R152), and the base and extra-bits tables of the bitstream's immediates (30_encoding.md R112, R115,
R118, R119, R120). -/

namespace Sys2Proof.Machine

/-! ## Command operands -/

/-- `window_bits` of `DFL_INIT`: `WRAP` and `W_BITS`, or reserved (30_encoding.md R101, column `CU`). -/
def cuWindowBits (wb : Int) : Option (Int × Nat) :=
  if -15 ≤ wb ∧ wb ≤ -9 then some (0, (-wb).toNat)
  else if 9 ≤ wb ∧ wb ≤ 15 then some (1, wb.toNat)
  else if 25 ≤ wb ∧ wb ≤ 31 then some (2, (wb - 16).toNat)
  else none

/-- `window_bits` of `IFL_INIT`: `WRAP` and `WBITS`, or reserved (30_encoding.md R101, column `DU`). -/
def duWindowBits (wb : Int) : Option (BitVec 2 × Nat) :=
  if -15 ≤ wb ∧ wb ≤ -9 then some (0, (-wb).toNat)
  else if 9 ≤ wb ∧ wb ≤ 15 then some (1, wb.toNat)
  else if 25 ≤ wb ∧ wb ≤ 31 then some (2, (wb - 16).toNat)
  else if 41 ≤ wb ∧ wb ≤ 47 then some (3, (wb - 32).toNat)
  else none

/-- `level`: -1 means the default 6 (00_scope.md R8, 46_host_commands.md R371). -/
def levelOperand (level : Int) : Int := if level = -1 then 6 else level

/-- `flush` is one of the six values (30_encoding.md R101); others raise `STREAM_ERROR`. -/
def flushLegal (flush : Int) : Bool := decide (0 ≤ flush) && decide (flush ≤ 5)

/-- `strategy` is one of the five values (30_encoding.md R101). -/
def strategyLegal (strategy : Int) : Bool := decide (0 ≤ strategy) && decide (strategy ≤ 4)

/-- `mem_level` is in 1..9 (30_encoding.md R101). -/
def memLevelLegal (memLevel : Int) : Bool := decide (1 ≤ memLevel) && decide (memLevel ≤ 9)

/-- `level` is in 0..9 once -1 is replaced (30_encoding.md R101). -/
def levelLegal (level : Int) : Bool := decide (0 ≤ level) && decide (level ≤ 9)

/-- A `gzip_header` record that `DFL_INIT` accepts (30_encoding.md R103). -/
def GzHeader.wellFormed (h : GzHeader) : Bool :=
  (h.extra.getD []).length ≤ 65535 && (h.name.getD []).all (· ≠ 0#8) && (h.comment.getD []).all (· ≠ 0#8)

/-- A row of the level table. -/
structure LevelRow where
  good    : Nat
  maxLazy : Nat
  nice    : Nat
  chain   : Nat
  func    : Func
deriving DecidableEq, Repr

/-- The level table (40_matcher.md R152). -/
def levelRow : Nat → LevelRow
  | 0 => ⟨0, 0, 0, 0, .stored⟩
  | 1 => ⟨4, 4, 8, 4, .fast⟩
  | 2 => ⟨4, 5, 16, 8, .fast⟩
  | 3 => ⟨4, 6, 32, 32, .fast⟩
  | 4 => ⟨4, 4, 16, 16, .slow⟩
  | 5 => ⟨8, 16, 32, 32, .slow⟩
  | 6 => ⟨8, 16, 128, 128, .slow⟩
  | 7 => ⟨8, 32, 128, 256, .slow⟩
  | 8 => ⟨32, 128, 258, 1024, .slow⟩
  | _ => ⟨32, 258, 258, 4096, .slow⟩

/-- Strategy function selection (41_deflate_engine.md R181). -/
def selectFunc (level strategy : Nat) : Func :=
  if level = 0 then .stored
  else if strategy = 2 then .huff
  else if strategy = 3 then .rle
  else (levelRow level).func

/-! ## Immediates of the bitstream -/

/-- Bases of length symbols 257..285 (30_encoding.md R118). -/
def lengthBases : List Nat :=
  [3, 4, 5, 6, 7, 8, 9, 10, 11, 13, 15, 17, 19, 23, 27, 31, 35, 43, 51, 59, 67, 83, 99, 115, 131, 163, 195, 227, 258]

/-- Extra bits of length symbols 257..285 (30_encoding.md R118). -/
def lengthExtras : List Nat :=
  [0, 0, 0, 0, 0, 0, 0, 0, 1, 1, 1, 1, 2, 2, 2, 2, 3, 3, 3, 3, 4, 4, 4, 4, 5, 5, 5, 5, 0]

/-- Bases of distance symbols 0..29 (30_encoding.md R119). -/
def distBases : List Nat :=
  [1, 2, 3, 4, 5, 7, 9, 13, 17, 25, 33, 49, 65, 97, 129, 193, 257, 385, 513, 769, 1025, 1537, 2049, 3073, 4097, 6145,
    8193, 12289, 16385, 24577]

/-- Extra bits of distance symbols 0..29 (30_encoding.md R119). -/
def distExtras : List Nat :=
  [0, 0, 0, 0, 1, 1, 2, 2, 3, 3, 4, 4, 5, 5, 6, 6, 7, 7, 8, 8, 9, 9, 10, 10, 11, 11, 12, 12, 13, 13]

/-- `base_length[c]` (42_tree_builder.md R232). -/
def baseLength (c : Nat) : Nat := lengthBases.getD c 0
/-- `extra_lbits[c]`. -/
def extraLbits (c : Nat) : Nat := lengthExtras.getD c 0
/-- `base_dist[c]` (42_tree_builder.md R232). -/
def baseDist (c : Nat) : Nat := distBases.getD c 0
/-- `extra_dbits[c]`. -/
def extraDbits (c : Nat) : Nat := distExtras.getD c 0

/-- The largest `c` below `n` with `base c ≤ v`, 0 if none. -/
def largestBase (base : Nat → Nat) (v : Nat) : Nat → Nat
  | 0 => 0
  | n + 1 => if base n ≤ v then n else largestBase base v n

/-- `length_code(len)` (42_tree_builder.md R232): 258 is symbol 285, never 284 with extra 31. -/
def lengthCode (len : Nat) : Nat := if len = 258 then 28 else largestBase baseLength len 28

/-- `dist_code(dist)` (42_tree_builder.md R232). -/
def distCode (dist : Nat) : Nat := largestBase baseDist dist 30

/-- `extra_blbits[s]` of the bit-length tree (42_tree_builder.md, table before R234; 30_encoding.md R112). -/
def extraBlbits (s : Nat) : Nat := if s = 16 then 2 else if s = 17 then 3 else if s = 18 then 7 else 0

/-- The order in which code-length-code lengths are sent (30_encoding.md R115). -/
def clOrderList : List Nat := [16, 17, 18, 0, 8, 7, 9, 6, 10, 5, 11, 4, 12, 3, 13, 2, 14, 1, 15]

/-- `order[i]` of R115. -/
def clOrder (i : Nat) : Nat := clOrderList.getD i 0

/-- `bswap32` (44_inflate_engine.md R316): the four bytes reversed. -/
def bswap32 (w : Word32) : Word32 :=
  w.extractLsb' 0 8 ++ w.extractLsb' 8 8 ++ w.extractLsb' 16 8 ++ w.extractLsb' 24 8

/-- The `n` low bytes of a word, low byte first (20_memory.md R75). -/
def wordBytes (w : Word32) (n : Nat) : List Byte := leBytes n w.toNat

end Sys2Proof.Machine
end

