-- ==== Sys2Proof/Machine/Flags.lean ====
section
/-! DEFINITION. Numbers and texts of statuses, messages and states as the host sees them (30_encoding.md R102,
60_exceptions.md R403, 10_state.md R26, R32), and the order of the flush values (41_deflate_engine.md R185). -/

namespace Sys2Proof.Machine

/-- The signed status value (30_encoding.md R102). -/
def Status.code : Status → Int
  | .ok => 0
  | .streamEnd => 1
  | .needDict => 2
  | .streamError => -2
  | .dataError => -3
  | .memError => -4
  | .bufError => -5

/-- Negative statuses are the exceptions (60_exceptions.md R400). -/
def Status.isError (st : Status) : Bool := decide (st.code < 0)

/-- Text of a status, used by the wrappers (60_exceptions.md R403). -/
def Status.text : Status → String
  | .ok => ""
  | .streamEnd => "stream end"
  | .needDict => "need dictionary"
  | .streamError => "stream error"
  | .dataError => "data error"
  | .memError => "insufficient memory"
  | .bufError => "buffer error"

/-- The message id (60_exceptions.md R403). -/
def Msg.id : Msg → Nat
  | .none => 0
  | .streamError => 1
  | .dataError => 2
  | .insufficientMemory => 3
  | .bufferError => 4
  | .incorrectHeaderCheck => 5
  | .unknownCompressionMethod => 6
  | .invalidWindowSize => 7
  | .unknownHeaderFlags => 8
  | .headerCrcMismatch => 9
  | .invalidBlockType => 10
  | .invalidStoredLengths => 11
  | .tooManySymbols => 12
  | .invalidCodeLengthsSet => 13
  | .invalidBitLengthRepeat => 14
  | .missingEndOfBlock => 15
  | .invalidLiteralLengthsSet => 16
  | .invalidDistancesSet => 17
  | .invalidLiteralLengthCode => 18
  | .invalidDistanceCode => 19
  | .invalidDistanceTooFarBack => 20
  | .incorrectDataCheck => 21
  | .incorrectLengthCheck => 22

/-- The message text (60_exceptions.md R403). -/
def Msg.text : Msg → String
  | .none => ""
  | .streamError => "stream error"
  | .dataError => "data error"
  | .insufficientMemory => "insufficient memory"
  | .bufferError => "buffer error"
  | .incorrectHeaderCheck => "incorrect header check"
  | .unknownCompressionMethod => "unknown compression method"
  | .invalidWindowSize => "invalid window size"
  | .unknownHeaderFlags => "unknown header flags set"
  | .headerCrcMismatch => "header crc mismatch"
  | .invalidBlockType => "invalid block type"
  | .invalidStoredLengths => "invalid stored block lengths"
  | .tooManySymbols => "too many length or distance symbols"
  | .invalidCodeLengthsSet => "invalid code lengths set"
  | .invalidBitLengthRepeat => "invalid bit length repeat"
  | .missingEndOfBlock => "invalid code -- missing end-of-block"
  | .invalidLiteralLengthsSet => "invalid literal/lengths set"
  | .invalidDistancesSet => "invalid distances set"
  | .invalidLiteralLengthCode => "invalid literal/length code"
  | .invalidDistanceCode => "invalid distance code"
  | .invalidDistanceTooFarBack => "invalid distance too far back"
  | .incorrectDataCheck => "incorrect data check"
  | .incorrectLengthCheck => "incorrect length check"

/-- The number of a Deflate state (10_state.md R26). -/
def CuStatus.number : CuStatus → Nat
  | .noStream => 0
  | .init => 1
  | .extra => 2
  | .name => 3
  | .comment => 4
  | .hcrc => 5
  | .busy => 6
  | .finish => 7

/-- The number of an Inflate state (10_state.md R32). -/
def Mode.number : Mode → Nat
  | .head => 0
  | .flags => 1
  | .time => 2
  | .os => 3
  | .exlen => 4
  | .extra => 5
  | .name => 6
  | .comment => 7
  | .hcrc => 8
  | .dictid => 9
  | .dict => 10
  | .type => 11
  | .stored => 12
  | .copy => 13
  | .table => 14
  | .lenlens => 15
  | .codelens => 16
  | .len => 17
  | .lenext => 18
  | .dist => 19
  | .distext => 20
  | .matchCopy => 21
  | .lit => 22
  | .check => 23
  | .length => 24
  | .done => 25
  | .bad => 26
  | .mem => 27
  | .noStream => 31

/-- Flush operand values (30_encoding.md R101). -/
abbrev flushNo : Int := 0
abbrev flushPartial : Int := 1
abbrev flushSync : Int := 2
abbrev flushFull : Int := 3
abbrev flushFinish : Int := 4
abbrev flushBlock : Int := 5

/-- `rank(f)` (41_deflate_engine.md R185); `LAST_FLUSH = -1` ranks below every flush value. -/
def flushRank (f : Int) : Int := 2 * f - (if f > 4 then 9 else 0)

end Sys2Proof.Machine
end

