-- ==== Sys2Proof/Machine/Checksum.lean ====
section
/-! DEFINITION. The two checksum accumulators (45_checksums.md). -/

namespace Sys2Proof.Machine

/-- One byte of `adler32` (45_checksums.md R360). -/
def adlerByte (a : Word32) (b : Byte) : Word32 :=
  let s1 := (a.toNat % 65536 + b.toNat) % Config.adlerBase
  let s2 := (a.toNat / 65536 + s1) % Config.adlerBase
  word32Of (s2 * 65536 + s1)

/-- `adler32(a, data)` (45_checksums.md R360), byte by byte. -/
def adler32 (a : Word32) (data : List Byte) : Word32 := data.foldl adlerByte a

/-- One round of the table recurrence (45_checksums.md R361). -/
def crcRound (c : Word32) : Word32 := if c.getLsbD 0 then (c >>> 1) ^^^ Config.crcPoly else c >>> 1

/-- `CRC_TABLE[n]` (45_checksums.md R361). -/
def crcTable (n : Byte) : Word32 :=
  crcRound (crcRound (crcRound (crcRound (crcRound (crcRound (crcRound (crcRound (n.setWidth 32))))))))

/-- One byte of the inverted accumulator of `crc32` (45_checksums.md R362). -/
def crcByte (crc : Word32) (b : Byte) : Word32 := (crc >>> 8) ^^^ crcTable ((crc ^^^ b.setWidth 32).setWidth 8)

/-- `crc32(c, data)` (45_checksums.md R362): inverted at start and end. -/
def crc32 (c : Word32) (data : List Byte) : Word32 := data.foldl crcByte (c ^^^ 0xFFFFFFFF#32) ^^^ 0xFFFFFFFF#32

end Sys2Proof.Machine
end

