-- ==== Sys2Proof/Machine/Matcher.lean ====
section
/-! DEFINITION. The LZ77 window and matcher of `CU` (40_matcher.md). -/

namespace Sys2Proof.Machine

/-- A byte source of `fill_window` (40_matcher.md R159): `none` is the command's input, with checksum and counting on;
`some d` is the unread rest of a dictionary, with both off. -/
abbrev Source := Option (List Byte)

namespace Cu

/-! ## Hashing and insertion -/

/-- `update_hash(c)` (40_matcher.md R151). -/
def updateHash (c : Cu) (b : Byte) : Cu :=
  { c with insH := ((c.insH <<< c.hashShift) ^^^ b.setWidth 16) &&& word16Of c.hashMask }

/-- Position `s` put at the head of the chain of `INS_H`; the returned number is the old head (40_matcher.md R153, last
three lines). -/
def linkString (c : Cu) (s : Nat) : Cu × Nat :=
  let h := c.headAt c.insH.toNat
  ({ c with
      prev := Mem.wr c.wSize c.prev (s % c.wSize) h
      head := Mem.wr c.hashSize c.head c.insH.toNat (word16Of s) }, h.toNat)

/-- `insert_string(s)` (40_matcher.md R153). -/
def insertString (c : Cu) (s : Nat) : Cu × Nat := (c.updateHash (c.win (s + 2))).linkString s

/-! ## Fill window -/

/-- A table entry in the new coordinates: clamped to 0 when it has slid out (40_matcher.md R160). -/
def slidePos (w : Nat) (m : Word16) : Word16 := if w ≤ m.toNat then word16Of (m.toNat - w) else 0

/-- `slide()` (40_matcher.md R160). -/
def slide (c : Cu) : Cu :=
  { c with
    window := Mem.slideDown c.wSize c.window
    matchStart := c.matchStart - word32Of c.wSize
    strstart := c.strstart - c.wSize
    blockStart := c.blockStart - c.wSize
    head := Mem.mapVals (slidePos c.wSize) c.head
    prev := Mem.mapVals (slidePos c.wSize) c.prev }

/-- `avail(SRC)`. -/
def srcAvail (c : Cu) : Source → Nat
  | none => c.cur.availIn
  | some d => d.length

/-- `read_buf(SRC, pos, size)` (40_matcher.md R161): the number of bytes moved is returned last. -/
def readBuf (c : Cu) (src : Source) (pos size : Nat) : Cu × Source × Nat :=
  let n := min (c.srcAvail src) size
  if n = 0 then (c, src, 0)
  else
    match src with
    | none =>
      let b := c.cur.nextBytes n
      let sum := if c.wrap = 1 then adler32 c.adler b else if c.wrap = 2 then crc32 c.adler b else c.adler
      ({ c with
          cur := c.cur.advance n
          window := Mem.writeList c.windowSize c.window pos b
          adler := sum
          totalIn := c.totalIn + word32Of n }, none, n)
    | some d => ({ c with window := Mem.writeList c.windowSize c.window pos (d.take n) }, some (d.drop n), n)

/-- The `while INSERT != 0` loop of `fill_window` (40_matcher.md R159); the first argument is `INSERT`. -/
def catchUpLoop : Nat → Nat → Cu → Cu
  | 0, _, c => c
  | k + 1, s, c =>
    let c1 := ((c.updateHash (c.win (s + 2))).linkString s).1
    let c2 : Cu := { c1 with insertCount := k }
    if c2.lookahead + k < Config.minMatch then c2 else catchUpLoop k (s + 1) c2

/-- The deferred insertions of `fill_window` (40_matcher.md R159). -/
def catchUp (c : Cu) : Cu :=
  if Config.minMatch ≤ c.lookahead + c.insertCount then
    let s := c.strstart - c.insertCount
    let c1 : Cu := { c with insH := (c.win s).setWidth 16 }
    catchUpLoop c1.insertCount s (c1.updateHash (c1.win (s + 1)))
  else c

/-- At most `fuel` rounds of `fill_window(SRC)` (40_matcher.md R159). The slide comes where the pseudocode has it, when the window
is filled, and not as soon as `STRSTART` is `W_SIZE + MAX_DIST`; so it depends on how the input is cut. That this goes before the
consequence of R165 where the two disagree, in a match whose head is `W_SIZE` (log entry 27) and in the stored form of a block
(log entry 28), is the model's choice. -/
def fillLoop : Nat → Cu → Source → Cu × Source
  | 0, c, src => (c, src)
  | fuel + 1, c, src =>
    let more := c.windowSize - c.lookahead - c.strstart
    let (c, more) := if c.wSize + c.maxDist ≤ c.strstart then (c.slide, more + c.wSize) else (c, more)
    if c.srcAvail src = 0 then (c, src)
    else
      let (c1, src1, n) := c.readBuf src (c.strstart + c.lookahead) more
      let c2 := Cu.catchUp { c1 with lookahead := c1.lookahead + n }
      if c2.lookahead < Config.minLookahead ∧ c2.srcAvail src1 ≠ 0 then fillLoop fuel c2 src1 else (c2, src1)

/-- `fill_window(SRC)` (40_matcher.md R159); every round but the last reads a byte. -/
def fillWindowFrom (c : Cu) (src : Source) : Cu × Source := fillLoop (c.srcAvail src + 1) c src

/-- `fill_window` on the command's input. -/
def fillWindow (c : Cu) : Cu := (c.fillWindowFrom none).1

/-! ## Longest match -/

/-- How many of at most `cap` bytes agree at positions `p` and `q` (the inner loop of 40_matcher.md R162). -/
def matchLen (c : Cu) (p q : Nat) : Nat → Nat
  | 0 => 0
  | cap + 1 => if c.win p = c.win q then matchLen c (p + 1) (q + 1) cap + 1 else 0

/-- The chain walk of `longest_match` (40_matcher.md R162): `chain` candidates from `cur` on. It returns the best candidate
if one beats `best`, and the best length. -/
def chainWalk (c : Cu) (limit nice cap : Nat) : Nat → Nat → Option Nat → Nat → Option Nat × Nat
  | 0, _, start, best => (start, best)
  | chain + 1, cur, start, best =>
    let l := c.matchLen cur c.strstart cap
    let start' := if best < l then some cur else start
    let best' := if best < l then l else best
    if best < l ∧ nice ≤ l then (start', best')
    else
      let next := (c.prevAt (cur % c.wSize)).toNat
      if limit < next then chainWalk c limit nice cap chain next start' best' else (start', best')

/-- `longest_match(cur_match)` (40_matcher.md R162); `MATCH_START` is written only if a candidate beats `PREV_LENGTH`. -/
def longestMatch (c : Cu) (curMatch : Nat) : Cu × Nat :=
  let limit := if c.maxDist < c.strstart then c.strstart - c.maxDist else 0
  let chain := if c.goodMatch ≤ c.prevLength then c.maxChainLength / 4 else c.maxChainLength
  let nice := min c.niceMatch c.lookahead
  let cap := min Config.maxMatch c.lookahead
  match c.chainWalk limit nice cap (max chain 1) curMatch none c.prevLength with
  | (some p, best) => ({ c with matchStart := word32Of p }, min best c.lookahead)
  | (none, best) => (c, min best c.lookahead)

/-! ## Dictionary load -/

/-- One insertion of `load_dictionary` (40_matcher.md R168). -/
def dictInsert (s : Nat) (c : Cu) : Cu := ((c.updateHash (c.win (s + 2))).linkString s).1

/-- At most `fuel` rounds of the `while` loop of `load_dictionary` (40_matcher.md R168). -/
def dictLoop : Nat → Cu → Source → Cu
  | 0, c, _ => c
  | fuel + 1, c, src =>
    if Config.minMatch ≤ c.lookahead then
      let n := c.lookahead - (Config.minMatch - 1)
      let c1 := forRange c.strstart n dictInsert c
      let (c2, src2) := fillWindowFrom { c1 with strstart := c.strstart + n, lookahead := Config.minMatch - 1 } src
      dictLoop fuel c2 src2
    else c

/-- `load_dictionary(d)` (40_matcher.md R168); every round of its loop passes at least one byte. -/
def loadDictionary (c : Cu) (d : List Byte) : Cu :=
  let c0 : Cu :=
    if c.wSize ≤ d.length ∧ c.wrap = 0 then { c with head := [], strstart := 0, blockStart := 0, insertCount := 0 } else c
  let d0 := if c.wSize ≤ d.length then d.drop (d.length - c.wSize) else d
  let (c1, src) := c0.fillWindowFrom (some d0)
  let c2 := dictLoop (d0.length + c1.lookahead + 1) c1 src
  { c2 with
    strstart := c2.strstart + c2.lookahead
    blockStart := ((c2.strstart + c2.lookahead : Nat) : Int)
    insertCount := c2.lookahead
    lookahead := 0
    matchLength := 2
    prevLength := 2
    matchAvailable := false }

end Cu

end Sys2Proof.Machine
end

