-- ==== Sys2Proof/Machine/TreeBuilder.lean ====
section
/-! DEFINITION. The Huffman tree builder, the canonical encoder, block emission and the bit packer of `CU`
(42_tree_builder.md). -/

namespace Sys2Proof.Machine

namespace Cu

/-! ## Bit packer (R250 to R252) -/

/-- `send_bits(value, length)` (42_tree_builder.md R250). -/
def sendBits (c : Cu) (value length : Nat) : Cu :=
  if 16 - length < c.biValid then
    let full := c.biBuf ||| (word16Of value <<< c.biValid)
    let c1 := c.putShort full.toNat
    { c1 with biBuf := word16Of (value >>> (16 - c.biValid)), biValid := c.biValid + length - 16 }
  else { c with biBuf := c.biBuf ||| (word16Of value <<< c.biValid), biValid := c.biValid + length }

/-- `bi_flush()` (42_tree_builder.md R251). -/
def biFlush (c : Cu) : Cu :=
  if c.biValid = 16 then { c.putShort c.biBuf.toNat with biBuf := 0, biValid := 0 }
  else if 8 ≤ c.biValid then
    { c.putByte (c.biBuf.setWidth 8) with biBuf := c.biBuf >>> 8, biValid := c.biValid - 8 }
  else c

/-- `bi_windup()` (42_tree_builder.md R252). -/
def biWindup (c : Cu) : Cu :=
  let c1 :=
    if 8 < c.biValid then c.putShort c.biBuf.toNat else if 0 < c.biValid then c.putByte (c.biBuf.setWidth 8) else c
  { c1 with biBuf := 0, biValid := 0 }

/-! ## Tally (R231) -/

/-- The common part of the two tallies: an entry of the tally buffer. -/
def tallyEntry (c : Cu) (dist : Nat) (lc : Byte) : Cu :=
  { c with
    dBuf := Mem.wr c.litBufsize c.dBuf c.lastLit (word16Of dist)
    lBuf := Mem.wr c.litBufsize c.lBuf c.lastLit lc
    lastLit := c.lastLit + 1 }

/-- `T[n].freq <- T[n].freq + 1`. -/
def incFreq (c : Cu) (t : Tree) (n : Nat) : Cu := c.setFreq t n ((c.node t n).freq + 1)

/-- The return value of the tallies: the block must be closed now. -/
def setBflush (c : Cu) : Cu := { c with bflush := decide (c.lastLit = c.litBufsize - 1) }

/-- `BFLUSH <- tally_lit(c)` (42_tree_builder.md R231). -/
def tallyLit (c : Cu) (b : Byte) : Cu := ((c.tallyEntry 0 b).incFreq .l b.toNat).setBflush

/-- `BFLUSH <- tally_match(dist, len)` (42_tree_builder.md R231). -/
def tallyMatch (c : Cu) (dist len : Nat) : Cu :=
  let c1 := c.tallyEntry dist (byteOf (len - Config.minMatch))
  let c2 : Cu := { c1 with matchCount := c1.matchCount + 1 }
  ((c2.incFreq .l (257 + lengthCode len)).incFreq .d (distCode dist)).setBflush

/-- `init_block()` (42_tree_builder.md R233). -/
def initBlock (c : Cu) : Cu :=
  let c1 := forRange 0 Config.lCodes (fun n c => c.setFreq .l n 0) c
  let c2 := forRange 0 Config.dCodes (fun n c => c.setFreq .d n 0) c1
  let c3 := forRange 0 Config.blCodes (fun n c => c.setFreq .bl n 0) c2
  let c4 := c3.setFreq .l Config.endBlock 1
  { c4 with optLen := 0, staticLen := 0, lastLit := 0, matchCount := 0 }

/-! ## Building one tree (R234 to R239) -/

/-- `elems` of a tree (42_tree_builder.md, table before R234). -/
def Tree.elems : Tree → Nat
  | .l => Config.lCodes
  | .d => Config.dCodes
  | .bl => Config.blCodes

/-- `max_length` of a tree. -/
def Tree.maxLength : Tree → Nat
  | .bl => 7
  | _ => Config.maxBits

/-- `xbits`: `extra[n - base]` of a tree's symbol, 0 below `base` (42_tree_builder.md R237). -/
def Tree.xbits : Tree → Nat → Nat
  | .l, n => if 257 ≤ n then extraLbits (n - 257) else 0
  | .d, n => extraDbits n
  | .bl, n => extraBlbits n

/-- `STATIC_LTREE[n]` and `STATIC_DTREE[n]` as code and length (42_tree_builder.md R247). -/
def staticCode : Tree → Nat → Nat × Nat
  | .d, n => (biReverse n 5, 5)
  | _, n => (biReverse (fixedLlCode n).1 (fixedLlCode n).2, (fixedLlCode n).2)

/-- `S[n].len` of the tree's static tree; the bit-length tree has none. -/
def Tree.staticLenOf : Tree → Nat → Option Nat
  | .bl, _ => none
  | t, n => some (staticCode t n).2

/-- `smaller(T, n, m)` (42_tree_builder.md R235). -/
def smaller (c : Cu) (t : Tree) (n m : Nat) : Bool :=
  (c.node t n).freq.toNat < (c.node t m).freq.toNat ||
    ((c.node t n).freq = (c.node t m).freq && c.depthAt n ≤ c.depthAt m)

/-- At most `fuel` rounds of the loop of `pqdownheap` (42_tree_builder.md R235); `v` is the node being sifted. -/
def siftLoop (t : Tree) (v : Nat) : Nat → Nat → Nat → Cu → Cu
  | 0, k, _, c => c.setHeap k v
  | fuel + 1, k, j, c =>
    if c.heapLen < j then c.setHeap k v
    else
      let j := if j < c.heapLen && c.smaller t (c.heapAt (j + 1)) (c.heapAt j) then j + 1 else j
      if c.smaller t v (c.heapAt j) then c.setHeap k v
      else siftLoop t v fuel j (2 * j) (c.setHeap k (c.heapAt j))

/-- `pqdownheap(T, k)` (42_tree_builder.md R235); `j` at least doubles in every round. -/
def pqdownheap (t : Tree) (k : Nat) (c : Cu) : Cu := siftLoop t (c.heapAt k) c.heapLen k (2 * k) c

/-- The first loop of R234: the symbols with a frequency, in a heap not yet ordered. `max_code` is -1 while there is none. -/
def heapSymbols (t : Tree) (c : Cu) : Cu × Int :=
  forRange 0 t.elems (fun n (c, maxCode) =>
    if (c.node t n).freq ≠ 0 then
      let c1 : Cu := { c with heapLen := c.heapLen + 1 }
      ((c1.setHeap c1.heapLen n).setDepth n 0, (n : Int))
    else (c.setLen t n 0, maxCode)) ({ c with heapLen := 0, heapMax := Config.heapSize }, -1)

/-- One round of the second loop of R234: a synthetic symbol. -/
def forceSymbol (t : Tree) (c : Cu) (maxCode : Int) : Cu × Int :=
  let (node, maxCode) := if maxCode < 2 then ((maxCode + 1).toNat, maxCode + 1) else (0, maxCode)
  let c1 : Cu := { c with heapLen := c.heapLen + 1 }
  let c2 := ((c1.setHeap c1.heapLen node).setFreq t node 1).setDepth node 0
  ({ c2 with
      optLen := c2.optLen - 1
      staticLen := match t.staticLenOf node with
        | some l => c2.staticLen - word32Of l
        | none => c2.staticLen }, maxCode)

/-- The second loop of R234: at least two codes. -/
def forceTwo (t : Tree) : Cu × Int → Cu × Int
  | (c, maxCode) =>
    if c.heapLen = 0 then
      let (c1, m1) := c.forceSymbol t maxCode
      c1.forceSymbol t m1
    else if c.heapLen = 1 then c.forceSymbol t maxCode
    else (c, maxCode)

/-- Heap construction (42_tree_builder.md R234); `max_code` is returned. -/
def buildHeap (t : Tree) (c : Cu) : Cu × Nat :=
  let (c1, maxCode) := forceTwo t (c.heapSymbols t)
  ((List.range' 1 (c1.heapLen / 2)).reverse.foldl (fun c n => c.pqdownheap t n) c1, maxCode.toNat)

/-- One round of the merge loop (42_tree_builder.md R236): the two least nodes become children of `node`. -/
def mergeRound (t : Tree) (node : Nat) (c : Cu) : Cu :=
  let n := c.heapAt 1
  let c1 := c.setHeap 1 (c.heapAt c.heapLen)
  let c2 := Cu.pqdownheap t 1 { c1 with heapLen := c.heapLen - 1 }
  let m := c2.heapAt 1
  let c3 : Cu := { c2 with heapMax := c2.heapMax - 2 }
  let c4 := (c3.setHeap (c3.heapMax + 1) n).setHeap c3.heapMax m
  let c5 := c4.setFreq t node ((c4.node t n).freq + (c4.node t m).freq)
  let c6 := c5.setDepth node (max (c5.depthAt n) (c5.depthAt m) + 1)
  let c7 := (c6.setDad t n node).setDad t m node
  (c7.setHeap 1 node).pqdownheap t 1

/-- At most `fuel` rounds of the merge loop (42_tree_builder.md R236). -/
def mergeLoop (t : Tree) : Nat → Nat → Cu → Cu
  | 0, _, c => c
  | fuel + 1, node, c =>
    let c1 := c.mergeRound t node
    if c1.heapLen < 2 then c1 else mergeLoop t fuel (node + 1) c1

/-- The merge loop and the root (42_tree_builder.md R236); every round shortens the heap by one. -/
def mergeTree (t : Tree) (c : Cu) : Cu :=
  let c1 := mergeLoop t c.heapLen t.elems c
  let c2 : Cu := { c1 with heapMax := c1.heapMax - 1 }
  c2.setHeap c2.heapMax (c2.heapAt 1)

/-- One node of the first pass of `gen_bitlen` (42_tree_builder.md R237); `overflow` is counted beside. -/
def bitlenNode (t : Tree) (maxCode h : Nat) (p : Cu × Nat) : Cu × Nat :=
  let (c, overflow) := p
  let n := c.heapAt h
  let full := (c.node t (c.node t n).dad.toNat).len.toNat + 1
  let bits := min full t.maxLength
  let overflow := if t.maxLength < full then overflow + 1 else overflow
  let c1 := c.setLen t n bits
  if maxCode < n then (c1, overflow)
  else
    let c2 := c1.setBlCount bits (c1.blCountAt bits + 1)
    let f := (c2.node t n).freq.toNat
    ({ c2 with
        optLen := c2.optLen + word32Of (f * (bits + t.xbits n))
        staticLen := match t.staticLenOf n with
          | some l => c2.staticLen + word32Of (f * (l + t.xbits n))
          | none => c2.staticLen }, overflow)

/-- The first pass of `gen_bitlen` (42_tree_builder.md R237). -/
def genBitlen (t : Tree) (maxCode : Nat) (c : Cu) : Cu × Nat :=
  let c1 := forRange 0 (Config.maxBits + 1) (fun b c => c.setBlCount b 0) c
  let c2 := c1.setLen t (c1.heapAt c1.heapMax) 0
  forRange (c2.heapMax + 1) (Config.heapSize - (c2.heapMax + 1)) (bitlenNode t maxCode) (c2, 0)

/-- The longest length up to `bits` that some code has (the `while` of 42_tree_builder.md R238). -/
def usedLength (c : Cu) : Nat → Nat
  | 0 => 0
  | bits + 1 => if c.blCountAt (bits + 1) = 0 then usedLength c bits else bits + 1

/-- At most `fuel` rounds of the first loop of the overflow repair (42_tree_builder.md R238). -/
def repairLoop (t : Tree) : Nat → Nat → Cu → Cu
  | 0, _, c => c
  | fuel + 1, overflow, c =>
    let bits := c.usedLength (t.maxLength - 1)
    let c1 := c.setBlCount bits (c.blCountAt bits - 1)
    let c2 := c1.setBlCount (bits + 1) (c1.blCountAt (bits + 1) + 2)
    let c3 := c2.setBlCount t.maxLength (c2.blCountAt t.maxLength - 1)
    if overflow ≤ 2 then c3 else repairLoop t fuel (overflow - 2) c3

/-- The `while n != 0` loop of the overflow repair (42_tree_builder.md R238): `n` leaves below heap index `h` get length
`bits`. The next `h` is returned. -/
def relenLoop (t : Tree) (maxCode bits : Nat) : Nat → Nat → Cu → Cu × Nat
  | 0, _, c => (c, 0)
  | h + 1, n, c =>
    if n = 0 then (c, h + 1)
    else
      let m := c.heapAt h
      if maxCode < m then relenLoop t maxCode bits h n c
      else
        let old := (c.node t m).len
        let c1 : Cu :=
          if old ≠ word16Of bits then
            { c.setLen t m bits with
              optLen := c.optLen + (word32Of bits - word32Of old.toNat) * word32Of (c.node t m).freq.toNat }
          else c
        relenLoop t maxCode bits h (n - 1) c1

/-- The overflow repair of `gen_bitlen` (42_tree_builder.md R238). -/
def repairBitlen (t : Tree) (maxCode overflow : Nat) (c : Cu) : Cu :=
  if overflow = 0 then c
  else
    let c1 := repairLoop t overflow overflow c
    ((List.range' 1 t.maxLength).reverse.foldl
      (fun p bits => relenLoop t maxCode bits p.2 (p.1.blCountAt bits) p.1) (c1, Config.heapSize)).1

/-- `next_code[0..15]` (42_tree_builder.md R239, 30_encoding.md R113), in 16-bit arithmetic. -/
def nextCodes (c : Cu) : List Word16 :=
  (List.range' 1 Config.maxBits).foldl
    (fun l b => l ++ [(l.getD (b - 1) 0#16 + word16Of (c.blCountAt (b - 1))) <<< 1]) [0#16]

/-- `gen_codes` (42_tree_builder.md R239). -/
def genCodes (t : Tree) (maxCode : Nat) (c : Cu) : Cu :=
  (forRange 0 (maxCode + 1) (fun n (c, next) =>
    let l := (c.node t n).len.toNat
    if l = 0 then (c, next)
    else
      let code := next.getD l 0#16
      (c.setCode t n (word16Of (biReverse code.toNat l)), next.set l (code + 1))) (c, c.nextCodes)).1

/-- `build_tree(T, ...)` (42_tree_builder.md, R234 to R239); `max_code` is returned. -/
def buildTree (t : Tree) (c : Cu) : Cu × Nat :=
  let (c1, maxCode) := c.buildHeap t
  let (c2, overflow) := (c1.mergeTree t).genBitlen t maxCode
  ((c2.repairBitlen t maxCode overflow).genCodes t maxCode, maxCode)

/-! ## The bit-length tree and the dynamic header (R241 to R245) -/

/-- A symbol of the code-length alphabet with its extra bits (30_encoding.md R112): `extra` in `width` bits. -/
structure ClItem where
  sym   : Nat
  extra : Nat
  width : Nat
deriving DecidableEq, Repr

/-- What a finished run of `count` lengths `cur` is sent as (42_tree_builder.md R241). -/
def runItems (prev : Option Nat) (cur count minCount : Nat) : List ClItem :=
  if count < minCount then List.replicate count ⟨cur, 0, 0⟩
  else if cur ≠ 0 then
    if prev ≠ some cur then [⟨cur, 0, 0⟩, ⟨16, count - 1 - 3, 2⟩] else [⟨16, count - 3, 2⟩]
  else if count ≤ 10 then [⟨17, count - 3, 3⟩]
  else [⟨18, count - 11, 7⟩]

/-- The loop of `scan_or_send` (42_tree_builder.md R241) over the lengths not yet visited; the guard after the last length
is `none`, which differs from every length. -/
def scanLoop : List Nat → Option Nat → Nat → Nat → Nat → List ClItem
  | [], _, _, _, _ => []
  | cur :: rest, prev, count, maxCount, minCount =>
    let count := count + 1
    if count < maxCount ∧ rest.head? = some cur then scanLoop rest prev count maxCount minCount
    else
      let (maxCount', minCount') :=
        if rest.head? = some 0 then (138, 3) else if rest.head? = some cur then (6, 3) else (7, 4)
      runItems prev cur count minCount ++ scanLoop rest (some cur) 0 maxCount' minCount'

/-- `scan_or_send` of a sequence of lengths: the symbols in order (42_tree_builder.md R241). -/
def scanOrSend (lens : List Nat) : List ClItem :=
  if lens.head? = some 0 then scanLoop lens none 0 138 3 else scanLoop lens none 0 7 4

/-- `T[0..max_code].len`. -/
def treeLens (c : Cu) (t : Tree) (maxCode : Nat) : List Nat :=
  (List.range' 0 (maxCode + 1)).map fun n => (c.node t n).len.toNat

/-- `scan_tree(T, max_code)` (42_tree_builder.md R241). -/
def scanTree (t : Tree) (maxCode : Nat) (c : Cu) : Cu :=
  (scanOrSend (c.treeLens t maxCode)).foldl (fun c i => c.incFreq .bl i.sym) c

/-- One symbol of `send_tree` (42_tree_builder.md R242). -/
def sendClItem (c : Cu) (i : ClItem) : Cu :=
  let c1 := c.sendBits (c.node .bl i.sym).code.toNat (c.node .bl i.sym).len.toNat
  if i.width = 0 then c1 else c1.sendBits i.extra i.width

/-- `send_tree(T, max_code)` (42_tree_builder.md R242). -/
def sendTree (t : Tree) (maxCode : Nat) (c : Cu) : Cu := (scanOrSend (c.treeLens t maxCode)).foldl sendClItem c

/-- `max_blindex`: the last rank, from `n` down, whose code-length code is used; at least 2 (42_tree_builder.md R243). -/
def maxBlindex (c : Cu) : Nat → Nat
  | 0 => 0
  | n + 1 => if 3 ≤ n + 1 ∧ (c.node .bl (clOrder (n + 1))).len = 0 then maxBlindex c n else n + 1

/-- `build_bl_tree()` (42_tree_builder.md R243); `max_blindex` is returned. -/
def buildBlTree (c : Cu) : Cu × Nat :=
  let c1 := (c.scanTree .l c.lMaxCode).scanTree .d c.dMaxCode
  let (c2, maxCode) := c1.buildTree .bl
  let c3 : Cu := { c2 with blMaxCode := maxCode }
  let m := c3.maxBlindex 18
  ({ c3 with optLen := c3.optLen + word32Of (3 * (m + 1) + 5 + 5 + 4) }, m)

/-- `send_all_trees(lcodes, dcodes, blcodes)` (42_tree_builder.md R245). -/
def sendAllTrees (c : Cu) (lcodes dcodes blcodes : Nat) : Cu :=
  let c1 := ((c.sendBits (lcodes - 257) 5).sendBits (dcodes - 1) 5).sendBits (blcodes - 4) 4
  let c2 := forRange 0 blcodes (fun rank c => c.sendBits (c.node .bl (clOrder rank)).len.toNat 3) c1
  (c2.sendTree .l c2.lMaxCode).sendTree .d c2.dMaxCode

/-! ## Block emission (R244 to R249) -/

/-- The code and length of a symbol in the static trees or in the dynamic ones. -/
def codeOf (c : Cu) (static : Bool) (t : Tree) (n : Nat) : Nat × Nat :=
  if static then staticCode t n else ((c.node t n).code.toNat, (c.node t n).len.toNat)

/-- `send_bits(T[n].code, T[n].len)`. -/
def sendCode (c : Cu) (static : Bool) (t : Tree) (n : Nat) : Cu :=
  c.sendBits (c.codeOf static t n).1 (c.codeOf static t n).2

/-- The extra bits of a length or distance symbol, if it has any (42_tree_builder.md R246). -/
def sendExtra (c : Cu) (v width : Nat) : Cu := if width = 0 then c else c.sendBits v width

/-- One tally entry of `compress_block` (42_tree_builder.md R246). -/
def compressEntry (static : Bool) (lx : Nat) (c : Cu) : Cu :=
  let dist := (Mem.rd c.litBufsize c.dBuf lx).toNat
  let lc := (Mem.rd c.litBufsize c.lBuf lx).toNat
  if dist = 0 then c.sendCode static .l lc
  else
    let k := lengthCode (lc + 3)
    let c1 := (c.sendCode static .l (257 + k)).sendExtra (lc + 3 - baseLength k) (extraLbits k)
    let d := distCode dist
    (c1.sendCode static .d d).sendExtra (dist - baseDist d) (extraDbits d)

/-- `compress_block(LT, DT)` (42_tree_builder.md R246). -/
def compressBlock (static : Bool) (c : Cu) : Cu :=
  (forRange 0 c.lastLit (compressEntry static) c).sendCode static .l Config.endBlock

/-- `tr_stored_block(buf, last)` (42_tree_builder.md R248). The queue must not overflow (20_memory.md R85): where the block does
not fit behind the byte its header ends, that byte goes out first (log entry 25). -/
def trStoredBlock (buf : List Byte) (last : Bool) (c : Cu) : Cu :=
  let c1 := (c.sendBits last.toNat 3).biWindup.makeRoom (buf.length + 4)
  ((c1.putShort buf.length).putShort (0xFFFF - buf.length % 65536)).putBytes buf

/-- `tr_align()` (42_tree_builder.md R249). -/
def trAlign (c : Cu) : Cu := ((c.sendBits 2 3).sendCode true .l Config.endBlock).biFlush

/-- The sizes that the block choice compares (42_tree_builder.md R244): `opt_lenb`, `static_lenb`, `max_blindex`; above
level 0 the three trees are built first. -/
def blockSizes (storedLen : Nat) (c : Cu) : Cu × Nat × Nat × Nat :=
  if 0 < c.level then
    let (c1, l) := c.buildTree .l
    let (c2, d) := Cu.buildTree .d { c1 with lMaxCode := l }
    let (c3, m) := Cu.buildBlTree { c2 with dMaxCode := d }
    let opt := (c3.optLen.toNat + 3 + 7) / 8
    let static := (c3.staticLen.toNat + 3 + 7) / 8
    (c3, if static ≤ opt ∨ c3.strategy = 4 then static else opt, static, m)
  else (c, storedLen + 5, storedLen + 5, 0)

/-- The block in the form chosen (42_tree_builder.md R244). -/
def emitBlock (buf : Option (List Byte)) (storedLen : Nat) (last : Bool) : Cu × Nat × Nat × Nat → Cu
  | (c, opt, static, m) =>
    if storedLen + 4 ≤ opt ∧ buf.isSome ∧ storedLen ≤ 65535 then c.trStoredBlock (buf.getD []) last
    else if static = opt then (c.sendBits (2 + last.toNat) 3).compressBlock true
    else
      let c1 := c.sendBits (4 + last.toNat) 3
      (c1.sendAllTrees (c1.lMaxCode + 1) (c1.dMaxCode + 1) (m + 1)).compressBlock false

/-- `tr_flush_block(buf, stored_len, last)` (42_tree_builder.md R244). -/
def trFlushBlock (buf : Option (List Byte)) (storedLen : Nat) (last : Bool) (c : Cu) : Cu :=
  let c1 := (emitBlock buf storedLen last (c.blockSizes storedLen)).initBlock
  if last then c1.biWindup else c1

end Cu

end Sys2Proof.Machine
end

