-- ==== Sys2Proof/Machine/Deflate.lean ====
section
/-! DEFINITION. The Deflate engine of `CU`: header and trailer emission, the five strategy functions, the flush modes and
the push algorithm (41_deflate_engine.md). -/

namespace Sys2Proof.Machine

/-- What a strategy function returns (41_deflate_engine.md R186). -/
inductive BState where
  | needMore | blockDone | finishStarted | finishDone
deriving DecidableEq, Repr

namespace Cu

/-! ## Header emission (R196 to R201, R206) -/

/-- `level_flags` of the zlib header (41_deflate_engine.md R206). -/
def levelFlags (c : Cu) : Nat :=
  if 2 ≤ c.strategy ∨ c.level < 2 then 0 else if c.level < 6 then 1 else if c.level = 6 then 2 else 3

/-- The zlib header as a 16-bit number (41_deflate_engine.md R206). -/
def zlibHeaderWord (c : Cu) : Nat :=
  let h := (8 + (c.wBits - 8) * 16) * 256 + c.levelFlags * 64 + (if c.strstart ≠ 0 then 0x20 else 0)
  h + (31 - h % 31)

/-- The zlib header (41_deflate_engine.md R206). -/
def emitZlibHeader (c : Cu) : Cu :=
  let c1 := Cu.putShortMsb { c with status := .busy } c.zlibHeaderWord
  let c2 := if c.strstart ≠ 0 then (c1.putShortMsb (c.adler.toNat / 65536)).putShortMsb (c.adler.toNat % 65536) else c1
  { c2 with adler := 1 }

/-- `xfl` of the gzip header (41_deflate_engine.md R196). -/
def gzipXfl (c : Cu) : Byte := if c.level = 9 then 2 else if 2 ≤ c.strategy ∨ c.level < 2 then 4 else 0

/-- The `FLG` byte of a header record (41_deflate_engine.md R196). -/
def gzFlg (h : GzHeader) : Byte :=
  byteOf (h.text.toNat + 2 * h.hcrc.toNat + 4 * h.extra.isSome.toNat + 8 * h.name.isSome.toNat + 16 * h.comment.isSome.toNat)

/-- The bytes of the gzip fixed header of a record, `XLEN` included (41_deflate_engine.md R196). -/
def gzHeaderBytes (c : Cu) (h : GzHeader) : List Byte :=
  [0x1F#8, 0x8B#8, 8#8, gzFlg h] ++ wordBytes h.time 4 ++ [c.gzipXfl, h.os] ++
    match h.extra with
    | some e => leBytes 2 e.length
    | none => []

/-- The gzip fixed header (41_deflate_engine.md R196). -/
def emitGzipHeader (c : Cu) : Cu :=
  match c.gzhead with
  | none =>
    let c1 := Cu.putBytes { c with adler := 0 }
      [0x1F#8, 0x8B#8, 8#8, 0#8, 0#8, 0#8, 0#8, 0#8, c.gzipXfl, Config.osCode]
    { c1 with status := .busy }
  | some h =>
    let bytes := c.gzHeaderBytes h
    let c1 := Cu.putBytes { c with adler := 0 } bytes
    { c1 with adler := if h.hcrc then crc32 0 bytes else 0, gzindex := 0, status := .extra }

/-- `emit_header()` (41_deflate_engine.md R183). -/
def emitHeader (c : Cu) : Cu := if c.wrap = 2 then c.emitGzipHeader else c.emitZlibHeader

/-- The header CRC taken over the bytes queued since the queue held `crcFrom` (41_deflate_engine.md R201). -/
def fieldCrc (hcrc : Bool) (crcFrom : Nat) (c : Cu) : Cu :=
  if hcrc ∧ crcFrom < c.pending then { c with adler := crc32 c.adler (c.lastQueued (c.pending - crcFrom)) } else c

/-- At most `fuel` rounds of `emit_field(data, terminated)` (41_deflate_engine.md R201). The flag returned says that the
field is complete; the number is `crc_from`. -/
def emitLoop (data : List Byte) (terminated hcrc : Bool) : Nat → Nat → Cu → Cu × Nat × Bool
  | 0, crcFrom, c => (c, crcFrom, false)
  | fuel + 1, crcFrom, c =>
    if ¬ terminated ∧ data.length ≤ c.gzindex then (c, crcFrom, true)
    else
      let full := c.pending = c.pendingSize
      let c1 := if full then (c.fieldCrc hcrc crcFrom).flushPending else c
      let crcFrom := if full then c1.pending else crcFrom
      if full ∧ c1.pending = c1.pendingSize then (c1, crcFrom, false)
      else
        let v := data.getD c1.gzindex 0#8
        let c2 := Cu.putByte { c1 with gzindex := c1.gzindex + 1 } v
        if terminated ∧ v = 0 then (c2, crcFrom, true) else emitLoop data terminated hcrc fuel crcFrom c2

/-- `emit_field(data, terminated)` (41_deflate_engine.md R201), and whether the field is complete. Every round queues a byte
or ends. -/
def emitField (data : List Byte) (terminated hcrc : Bool) (c : Cu) : Cu × Bool :=
  let (c1, crcFrom, done) := emitLoop data terminated hcrc (data.length + 2) c.pending c
  (c1.fieldCrc hcrc crcFrom, done)

/-- One of the header field states (41_deflate_engine.md R197 to R199): `next` is the state after the field. -/
def doField (field : Option (List Byte)) (terminated hcrc : Bool) (next : CuStatus) (c : Cu) : Cu :=
  match field with
  | none => { c with status := next }
  | some data =>
    let (c1, done) := c.emitField data terminated hcrc
    if done then { c1 with gzindex := 0, status := next } else c1

/-- State `EXTRA` (41_deflate_engine.md R197). -/
def doExtra (h : GzHeader) (c : Cu) : Cu := c.doField h.extra false h.hcrc .name
/-- State `NAME` (41_deflate_engine.md R198). -/
def doName (h : GzHeader) (c : Cu) : Cu := c.doField h.name true h.hcrc .comment
/-- State `COMMENT` (41_deflate_engine.md R199). -/
def doComment (h : GzHeader) (c : Cu) : Cu := c.doField h.comment true h.hcrc .hcrc

/-- State `HCRC` (41_deflate_engine.md R200). -/
def doHcrc (h : GzHeader) (c : Cu) : Cu :=
  if ¬ h.hcrc then { c with status := .busy }
  else
    let c1 := c.makeRoom 2
    if c1.pending + 2 ≤ c1.pendingSize then
      { c1.putShort (c1.adler.toNat % 65536) with adler := 0, status := .busy }
    else c1

/-- Step 7 of a push (41_deflate_engine.md R182): the header field states, each falling through to the next. -/
def headerFields (c : Cu) : Cu :=
  match c.gzhead with
  | none => c
  | some h =>
    let c1 := if c.status = .extra then c.doExtra h else c
    let c2 := if c1.status = .name then c1.doName h else c1
    let c3 := if c2.status = .comment then c2.doComment h else c2
    if c3.status = .hcrc then c3.doHcrc h else c3

/-! ## Closing blocks (R187, R188) -/

/-- `flush_block_only(last)` (41_deflate_engine.md R187). Whether `BLOCK_START` has become negative, and the stored form is lost with
it, depends on when the window slid, and so on how the input is cut. That the pseudocode goes before the consequence of
40_matcher.md R165 there is the model's choice (log entry 28). -/
def flushBlockOnly (last : Bool) (c : Cu) : Cu :=
  let len := ((c.strstart : Int) - c.blockStart).toNat
  let buf := if 0 ≤ c.blockStart then some (Mem.readN c.windowSize c.window c.blockStart.toNat len) else none
  let c1 := c.trFlushBlock buf len last
  Cu.flushPending { c1 with blockStart := c1.strstart }

/-- The end of a function with `flush = FINISH` (41_deflate_engine.md R188, R189). -/
def finishBlocks (c : Cu) : Cu × BState :=
  let c1 := c.flushBlockOnly true
  (c1, if c1.cur.availOut = 0 then .finishStarted else .finishDone)

/-- The end of a function with another flush value, after its last block if it is not empty (R188, R189). -/
def blockBlocks (rest : Bool) (c : Cu) : Cu × BState :=
  if rest then
    let c1 := c.flushBlockOnly false
    (c1, if c1.cur.availOut = 0 then .needMore else .blockDone)
  else (c, .blockDone)

/-- `finish_tail(flush)` (41_deflate_engine.md R188). -/
def finishTail (flush : Int) (c : Cu) : Cu × BState :=
  if flush = flushFinish then c.finishBlocks else c.blockBlocks (decide (c.lastLit ≠ 0))

/-- `if BFLUSH: flush_block_only(0); if AVAIL_OUT = 0: return NEED_MORE` of the strategy loops: the flag returned says that
the function returns. -/
def closeIfFull (c : Cu) : Cu × Bool :=
  if c.bflush then
    let c1 := c.flushBlockOnly false
    (c1, decide (c1.cur.availOut = 0))
  else (c, false)

/-! ## The strategy functions (R189 to R193)

Each loop is bounded by the bytes it has still to pass, `AVAIL_IN + LOOKAHEAD`: `fill_window` keeps that sum and every round
lowers it (log entry 11). -/

/-- How many rounds a strategy function can make. -/
def rounds (c : Cu) : Nat := c.cur.availIn + c.lookahead + 1

/-- What a round of a strategy loop says: go on, leave the loop, or return. -/
inductive Round where
  | again | exitLoop | ret (b : BState)
deriving DecidableEq, Repr

/-- The look-ahead test at the head of the loops of `FAST`, `SLOW` and `RLE` (`want` bytes wanted). -/
def refill (want : Nat) (flush : Int) (c : Cu) : Cu × Round :=
  if c.lookahead < want then
    let c1 := c.fillWindow
    if c1.lookahead < want ∧ flush = flushNo then (c1, .ret .needMore)
    else if c1.lookahead = 0 then (c1, .exitLoop)
    else (c1, .again)
  else (c, .again)

/-- `max_block` (41_deflate_engine.md R189). -/
def maxBlock (c : Cu) : Nat := min 65535 (min (c.pendingSize - 5) (c.wSize - Config.minLookahead))

/-- One round of `deflate_stored` (41_deflate_engine.md R189). -/
def storedRound (flush : Int) (c : Cu) : Cu × Round :=
  match c.refill 1 flush with
  | (c1, .again) =>
    let c2 : Cu := { c1 with strstart := c1.strstart + 1, lookahead := c1.lookahead - 1 }
    if (c2.strstart : Int) - c2.blockStart = c2.maxBlock then
      let c3 := c2.flushBlockOnly false
      (c3, if c3.cur.availOut = 0 then .ret .needMore else .again)
    else (c2, .again)
  | r => r

/-- The match or literal that `deflate_fast` tallies (41_deflate_engine.md R190), with the insertions after it. -/
def fastSymbol (c : Cu) : Cu :=
  if Config.minMatch ≤ c.matchLength then
    let len := c.matchLength
    let c1 := c.tallyMatch (c.strstart - c.matchStart.toNat) len
    let c2 : Cu := { c1 with lookahead := c1.lookahead - len }
    if len ≤ c2.maxLazyMatch ∧ Config.minMatch ≤ c2.lookahead then
      let c3 := forRange (c2.strstart + 1) (len - 1) (fun s c => (c.insertString s).1) c2
      { c3 with matchLength := 0, strstart := c2.strstart + len }
    else
      let c3 : Cu := { c2 with strstart := c2.strstart + len, matchLength := 0, insH := (c2.win (c2.strstart + len)).setWidth 16 }
      c3.updateHash (c3.win (c3.strstart + 1))
  else
    let c1 := c.tallyLit (c.win c.strstart)
    { c1 with lookahead := c1.lookahead - 1, strstart := c1.strstart + 1 }

/-- `insert_string(STRSTART)` when three bytes are there, and the head found, 0 (`NIL`) otherwise. -/
def insertHere (c : Cu) : Cu × Nat := if Config.minMatch ≤ c.lookahead then c.insertString c.strstart else (c, 0)

/-- One round of `deflate_fast` (41_deflate_engine.md R190). -/
def fastRound (flush : Int) (c : Cu) : Cu × Round :=
  match c.refill Config.minLookahead flush with
  | (c1, .again) =>
    let (c2, head) := c1.insertHere
    let c3 :=
      if head ≠ 0 ∧ c2.strstart - head ≤ c2.maxDist then
        let (c, l) := c2.longestMatch head
        { c with matchLength := l }
      else c2
    let (c4, full) := c3.fastSymbol.closeIfFull
    (c4, if full then .ret .needMore else .again)
  | r => r

/-- The lazy evaluation at `STRSTART` (41_deflate_engine.md R191): the search, with the acceptance test of 40_matcher.md
R163. -/
def slowSearch (head : Nat) (c : Cu) : Cu :=
  let c1 : Cu := { c with prevLength := c.matchLength, prevMatch := c.matchStart, matchLength := Config.minMatch - 1 }
  if head ≠ 0 ∧ c1.prevLength < c1.maxLazyMatch ∧ c1.strstart - head ≤ c1.maxDist then
    let (c2, l) := c1.longestMatch head
    let drop := l ≤ 5 ∧ (c2.strategy = 1 ∨ (l = Config.minMatch ∧ Config.tooFar < c2.strstart - c2.matchStart.toNat))
    { c2 with matchLength := if drop then Config.minMatch - 1 else l }
  else c1

/-- The distance of the match at the previous position, `STRSTART - 1 - PREV_MATCH` (41_deflate_engine.md R191), modulo 2^32
as the registers' width is: a `MATCH_START` that a slide has wrapped stands for the same distance (log entry 26). -/
def prevDist (c : Cu) : Nat := (word32Of (c.strstart - 1) - c.prevMatch).toNat

/-- The match branch of `deflate_slow`: the match at the previous position is emitted, and the strings inside it inserted
while their third byte is valid (41_deflate_engine.md R191). -/
def slowEmitMatch (c : Cu) : Cu :=
  let maxInsert := c.strstart + c.lookahead - Config.minMatch
  let c1 := c.tallyMatch c.prevDist c.prevLength
  let n := c.prevLength - 2
  let c2 : Cu := { c1 with lookahead := c1.lookahead - (c.prevLength - 1) }
  let c3 := forRange (c.strstart + 1) n (fun s c => if s ≤ maxInsert then (c.insertString s).1 else c) c2
  { c3 with
    prevLength := 0, matchAvailable := false, matchLength := Config.minMatch - 1, strstart := c.strstart + n + 1 }

/-- One round of `deflate_slow` (41_deflate_engine.md R191). -/
def slowRound (flush : Int) (c : Cu) : Cu × Round :=
  match c.refill Config.minLookahead flush with
  | (c1, .again) =>
    let (c2, head) := c1.insertHere
    let c3 := c2.slowSearch head
    if Config.minMatch ≤ c3.prevLength ∧ c3.matchLength ≤ c3.prevLength then
      let (c4, full) := c3.slowEmitMatch.closeIfFull
      (c4, if full then .ret .needMore else .again)
    else if c3.matchAvailable then
      let c4 := c3.tallyLit (c3.win (c3.strstart - 1))
      let c5 := if c4.bflush then c4.flushBlockOnly false else c4
      let c6 : Cu := { c5 with strstart := c5.strstart + 1, lookahead := c5.lookahead - 1 }
      (c6, if c6.cur.availOut = 0 then .ret .needMore else .again)
    else
      ({ c3 with matchAvailable := true, strstart := c3.strstart + 1, lookahead := c3.lookahead - 1 }, .again)
  | r => r

/-- How many of at most `cap` bytes from position `q` equal `p` (41_deflate_engine.md R192). -/
def runLen (c : Cu) (p : Byte) : Nat → Nat → Nat
  | 0, _ => 0
  | cap + 1, q => if c.win q = p then runLen c p cap (q + 1) + 1 else 0

/-- The run length at `STRSTART` that `deflate_rle` codes as a match, 0 if too short (41_deflate_engine.md R192). -/
def rleLength (c : Cu) : Nat :=
  if Config.minMatch ≤ c.lookahead ∧ 0 < c.strstart then
    let l := c.runLen (c.win (c.strstart - 1)) (min Config.maxMatch c.lookahead) c.strstart
    if Config.minMatch ≤ l then l else 0
  else 0

/-- One round of `deflate_rle` (41_deflate_engine.md R192). -/
def rleRound (flush : Int) (c : Cu) : Cu × Round :=
  match c.refill (Config.maxMatch + 1) flush with
  | (c1, .again) =>
    let len := c1.rleLength
    let c2 : Cu := { c1 with matchLength := len }
    let c3 : Cu :=
      if Config.minMatch ≤ len then
        let t := c2.tallyMatch 1 len
        { t with lookahead := t.lookahead - len, strstart := t.strstart + len, matchLength := 0 }
      else
        let t := c2.tallyLit (c2.win c2.strstart)
        { t with lookahead := t.lookahead - 1, strstart := t.strstart + 1 }
    let (c4, full) := c3.closeIfFull
    (c4, if full then .ret .needMore else .again)
  | r => r

/-- One round of `deflate_huff` (41_deflate_engine.md R193). -/
def huffRound (flush : Int) (c : Cu) : Cu × Round :=
  match c.refill 1 flush with
  | (c1, .again) =>
    let t := Cu.tallyLit { c1 with matchLength := 0 } (c1.win c1.strstart)
    let (c2, full) := Cu.closeIfFull { t with lookahead := t.lookahead - 1, strstart := t.strstart + 1 }
    (c2, if full then .ret .needMore else .again)
  | r => r

/-- At most `fuel` rounds of a strategy loop, then what the function does after it. -/
def strategyLoop (round : Cu → Cu × Round) (tail : Cu → Cu × BState) : Nat → Cu → Cu × BState
  | 0, c => (c, .needMore)
  | fuel + 1, c =>
    match round c with
    | (c1, .again) => strategyLoop round tail fuel c1
    | (c1, .exitLoop) => tail c1
    | (c1, .ret b) => (c1, b)

/-- After the loop of `deflate_stored` (41_deflate_engine.md R189). -/
def storedTail (flush : Int) (c : Cu) : Cu × BState :=
  let c1 : Cu := { c with insertCount := 0 }
  if flush = flushFinish then c1.finishBlocks else c1.blockBlocks (decide (c1.blockStart < c1.strstart))

/-- After the loop of `deflate_fast` (41_deflate_engine.md R190). -/
def fastTail (flush : Int) (c : Cu) : Cu × BState :=
  Cu.finishTail flush { c with insertCount := min c.strstart (Config.minMatch - 1) }

/-- After the loop of `deflate_slow` (41_deflate_engine.md R191). -/
def slowTail (flush : Int) (c : Cu) : Cu × BState :=
  let c1 : Cu := if c.matchAvailable then { c.tallyLit (c.win (c.strstart - 1)) with matchAvailable := false } else c
  c1.fastTail flush

/-- After the loops of `deflate_rle` and `deflate_huff` (41_deflate_engine.md R192, R193). -/
def runTail (flush : Int) (c : Cu) : Cu × BState := Cu.finishTail flush { c with insertCount := 0 }

/-- `deflate_stored(flush)` (41_deflate_engine.md R189). -/
def deflateStored (flush : Int) (c : Cu) : Cu × BState := strategyLoop (storedRound flush) (storedTail flush) c.rounds c
/-- `deflate_fast(flush)` (41_deflate_engine.md R190). -/
def deflateFast (flush : Int) (c : Cu) : Cu × BState := strategyLoop (fastRound flush) (fastTail flush) c.rounds c
/-- `deflate_slow(flush)` (41_deflate_engine.md R191). -/
def deflateSlow (flush : Int) (c : Cu) : Cu × BState := strategyLoop (slowRound flush) (slowTail flush) c.rounds c
/-- `deflate_rle(flush)` (41_deflate_engine.md R192). -/
def deflateRle (flush : Int) (c : Cu) : Cu × BState := strategyLoop (rleRound flush) (runTail flush) c.rounds c
/-- `deflate_huff(flush)` (41_deflate_engine.md R193). -/
def deflateHuff (flush : Int) (c : Cu) : Cu × BState := strategyLoop (huffRound flush) (runTail flush) c.rounds c

/-- `FUNC(flush)` (41_deflate_engine.md R186). -/
def runFunc (flush : Int) (c : Cu) : Cu × BState :=
  match c.func with
  | .stored => c.deflateStored flush
  | .fast => c.deflateFast flush
  | .slow => c.deflateSlow flush
  | .rle => c.deflateRle flush
  | .huff => c.deflateHuff flush

/-! ## Flush modes and the push (R182, R186, R203 to R207) -/

/-- `full_flush_clear()` (41_deflate_engine.md R205). -/
def fullFlushClear (c : Cu) : Cu :=
  let c1 : Cu := { c with head := [] }
  if c1.lookahead = 0 then { c1 with strstart := 0, blockStart := 0, insertCount := 0 } else c1

/-- The marker of a flush after `BLOCK_DONE` (41_deflate_engine.md R186, R203 to R205). -/
def flushMarker (flush : Int) (c : Cu) : Cu :=
  if flush = flushPartial then c.trAlign
  else if flush ≠ flushBlock then
    let c1 := c.trStoredBlock [] false
    if flush = flushFull then c1.fullFlushClear else c1
  else c

/-- `run_strategy(flush)` (41_deflate_engine.md R186): the flag says that the push returns `OK` here. -/
def runStrategy (flush : Int) (c : Cu) : Cu × Bool :=
  let (c1, b) := c.runFunc flush
  let c2 : Cu := if b = .finishStarted ∨ b = .finishDone then { c1 with status := .finish } else c1
  match b with
  | .needMore | .finishStarted => (if c2.cur.availOut = 0 then { c2 with lastFlush := -1 } else c2, true)
  | .finishDone => (c2, false)
  | .blockDone =>
    let c3 := (c2.flushMarker flush).flushPending
    if c3.cur.availOut = 0 then ({ c3 with lastFlush := -1 }, true) else (c3, false)

/-- The trailer's bytes (41_deflate_engine.md R207). -/
def trailerBytes (c : Cu) : List Byte :=
  if c.wrap = 2 then wordBytes c.adler 4 ++ wordBytes c.totalIn 4 else (wordBytes c.adler 4).reverse

/-- `write_trailer()` (41_deflate_engine.md R207). -/
def writeTrailer (c : Cu) : Cu :=
  let c1 := (c.putBytes c.trailerBytes).flushPending
  { c1 with wrap := -c1.wrap }

/-- Steps 9 to 12 of a push (41_deflate_engine.md R182). -/
def pushCode (flush : Int) (c : Cu) : Cu × Status :=
  let (c1, ret) :=
    if c.cur.availIn ≠ 0 ∨ c.lookahead ≠ 0 ∨ (flush ≠ flushNo ∧ c.status ≠ .finish) then c.runStrategy flush else (c, false)
  if ret then (c1, .ok)
  else if flush ≠ flushFinish then (c1, .ok)
  else if c1.wrap ≤ 0 then (c1, .streamEnd)
  else
    let c2 := c1.writeTrailer
    (c2, if c2.pending ≠ 0 then .ok else .streamEnd)

/-- Steps 5 to 12 of a push (41_deflate_engine.md R182); `BUF_ERROR` is the one status that step 8 raises. -/
def push (flush : Int) (c : Cu) : Cu × Status :=
  let oldFlush := c.lastFlush
  let c1 : Cu := { c with lastFlush := flush }
  let c2 := if c1.status = .init then c1.emitHeader else c1
  let c3 := c2.headerFields
  if c3.pending ≠ 0 then
    let c4 := c3.flushPending
    if c4.cur.availOut = 0 then ({ c4 with lastFlush := -1 }, .ok) else c4.pushCode flush
  else if c3.cur.availIn = 0 ∧ flushRank flush ≤ flushRank oldFlush ∧ flush ≠ flushFinish then (c3, .bufError)
  else c3.pushCode flush

end Cu

namespace State

/-- `DFL_PUSH` with a flush operand (41_deflate_engine.md R182, 46_host_commands.md R372): the checks of steps 1 to 4, the
push, and its results. -/
def dflPushWith (flush : Int) (s : State) : State :=
  if s.cu.status = .noStream then s.raise .cu .streamError
  else if ¬ flushLegal flush then s.raise .cu .streamError
  else if s.cu.status = .finish ∧ (flush ≠ flushFinish ∨ s.port.input ≠ []) then s.raise .cu .streamError
  else if s.port.availOut = 0 then s.raise .cu .bufError
  else
    match Cu.push flush { s.cu with cur := Cursor.start s.port.input s.port.availOut } with
    | (c, .bufError) => State.raise .cu .bufError { s with cu := { c with cur := Cursor.empty, bflush := false } }
    | (c, st) => State.finishCu { s with cu := c } ⟨st, c.cur.nextIn, c.cur.out, none, none⟩

end State

end Sys2Proof.Machine
end

