-- ==== Sys2Proof/Machine/TableDecoder.lean ====
section
/-! DEFINITION. The lookup-table constructor of `DU` and the fixed tables (43_table_decoder_fastloop.md, section 1). -/

namespace Sys2Proof.Machine

/-- `type` of `inflate_table` (43_table_decoder_fastloop.md R270). -/
inductive TableType where
  | codes | lens | dists
deriving DecidableEq, Repr

/-! ## Entries (R277) -/

/-- The entry of literal/length symbol `w` (43_table_decoder_fastloop.md R277). -/
def lensEntry (w nbits : Nat) : Word32 :=
  if w < 256 then mkEntry 0 nbits w
  else if w = 256 then mkEntry 96 nbits 0
  else if w < 286 then mkEntry (16 + extraLbits (w - 257)) nbits (baseLength (w - 257))
  else mkEntry 64 nbits 0

/-- The entry of distance symbol `w` (43_table_decoder_fastloop.md R277). -/
def distsEntry (w nbits : Nat) : Word32 :=
  if w < 30 then mkEntry (16 + extraDbits w) nbits (baseDist w) else mkEntry 64 nbits 0

/-- `entry(type, w, nbits)` (43_table_decoder_fastloop.md R277). -/
def tableEntry : TableType → Nat → Nat → Word32
  | .codes, w, nbits => mkEntry 0 nbits w
  | .lens, w, nbits => lensEntry w nbits
  | .dists, w, nbits => distsEntry w nbits

/-! ## Fixed tables (R279)

`LENFIX` and `DISTFIX` are given entry by entry: index `i` holds the entry of the symbol whose fixed code (30_encoding.md
R110) stands first in the bits of `i`. -/

/-- `LENFIX[i]`, 512 entries (43_table_decoder_fastloop.md R279). -/
def lenfix (i : Nat) : Word32 := lensEntry (fixedLlSymbol (i % 512)).1 (fixedLlSymbol (i % 512)).2

/-- `DISTFIX[i]`, 32 entries (43_table_decoder_fastloop.md R279). -/
def distfix (i : Nat) : Word32 := distsEntry (biReverse (i % 32) 5) 5

/-! ## The constructor (R270 to R278) -/

/-- The capacity test of R273, R274, R276. -/
def TableType.full : TableType → Nat → Bool
  | .codes, _ => false
  | .lens, used => decide (Config.enoughLens < used)
  | .dists, used => decide (Config.enoughDists < used)

/-- `count[0..15]` (43_table_decoder_fastloop.md R271). -/
def countLens (lens : List Nat) : List Nat :=
  lens.foldl (fun c l => c.set l (c.getD l 0 + 1)) (List.replicate (Config.maxBits + 1) 0)

/-- The largest `l ≤ n` with `count[l] ≠ 0`, 0 if none: the `while` that finds `max`. -/
def maxUsed (count : List Nat) : Nat → Nat
  | 0 => 0
  | n + 1 => if count.getD (n + 1) 0 = 0 then maxUsed count n else n + 1

/-- The `while` that finds `min`: from `l` on, at most `fuel` lengths are passed. -/
def minUsed (count : List Nat) (max : Nat) : Nat → Nat → Nat
  | 0, l => l
  | fuel + 1, l => if l < max ∧ count.getD l 0 = 0 then minUsed count max fuel (l + 1) else l

/-- The unused code space after length 15, in units of 2^-15, or `none` if some length over-subscribes it
(43_table_decoder_fastloop.md R271). -/
def leftover (count : List Nat) : Option Int :=
  (List.range' 1 Config.maxBits).foldl
    (fun left l =>
      match left with
      | none => none
      | some x => if 2 * x - (count.getD l 0 : Int) < 0 then none else some (2 * x - (count.getD l 0 : Int))) (some 1)

/-- `offs[0..15]` (43_table_decoder_fastloop.md R272; `offs[0]` is not used). -/
def offsets (count : List Nat) : List Nat :=
  (List.range' 1 (Config.maxBits - 1)).foldl (fun o l => o ++ [o.getD l 0 + count.getD l 0]) [0, 0]

/-- `WORK` filled with the coded symbols in canonical order (43_table_decoder_fastloop.md R272). -/
def sortSymbols (lens count : List Nat) (work : Mem Word16) : Mem Word16 :=
  (forRange 0 lens.length (fun sym (work, offs) =>
    let l := lens.getD sym 0
    if l = 0 then (work, offs)
    else (Mem.wr Du.workSize work (offs.getD l 0) (word16Of sym), offs.set l (offs.getD l 0 + 1))) (work, offsets count)).1

/-- The bit-reversed code after `huff`, of length `l` (43_table_decoder_fastloop.md R273, "increment the bit-reversed
code"). -/
def nextHuff (huff : Nat) : Nat → Nat
  | 0 => 0
  | l + 1 => if huff / 2 ^ l % 2 = 1 then nextHuff huff l else huff % 2 ^ l + 2 ^ l

/-- The loop variables of the table fill (43_table_decoder_fastloop.md R273); `size` is what the rule keeps in `min` once
the fill has begun, `curr` and `drop` as there, `low` is -1 at first. -/
structure Fill where
  codes : Mem Word32
  count : List Nat
  huff  : Nat
  sym   : Nat
  len   : Nat
  next  : Nat
  curr  : Nat
  drop  : Nat
  low   : Int
  used  : Nat
  size  : Nat
deriving DecidableEq, Repr

/-- The constants of one fill. -/
structure FillEnv where
  type : TableType
  lens : List Nat
  work : Mem Word16
  base : Nat
  root : Nat
  max  : Nat
deriving DecidableEq, Repr

/-- `WORK[i]`. -/
def FillEnv.workAt (e : FillEnv) (i : Nat) : Nat := (Mem.rd Du.workSize e.work i).toNat

/-- The entry of the current symbol written for every value of the index bits above its code
(43_table_decoder_fastloop.md R273), highest index first. -/
def Fill.replicate (e : FillEnv) (f : Fill) : Fill :=
  let entry := tableEntry e.type (e.workAt f.sym) (f.len - f.drop)
  let incr := 2 ^ (f.len - f.drop)
  { f with
    size := 2 ^ f.curr
    codes := (List.range (2 ^ (f.curr - (f.len - f.drop)))).reverse.foldl
      (fun m k => Mem.wr Du.codesSize m (f.next + f.huff / 2 ^ f.drop + k * incr) entry) f.codes }

/-- The index width of a new sub-table (43_table_decoder_fastloop.md R274): at most `fuel` rounds of its `while`. -/
def subWidth (count : List Nat) (max drop : Nat) : Nat → Nat → Int → Nat
  | 0, curr, _ => curr
  | fuel + 1, curr, left =>
    if curr + drop < max then
      let left := left - (count.getD (curr + drop) 0 : Int)
      if left ≤ 0 then curr else subWidth count max drop fuel (curr + 1) (left * 2)
    else curr

/-- `new_sub_table()` (43_table_decoder_fastloop.md R274), and whether the space is exhausted. -/
def Fill.newSubTable (e : FillEnv) (f : Fill) : Fill × Bool :=
  let drop := if f.drop = 0 then e.root else f.drop
  let next := f.next + f.size
  let curr := subWidth f.count e.max drop e.max (f.len - drop) (2 ^ (f.len - drop) : Nat)
  let used := f.used + 2 ^ curr
  let f1 : Fill := { f with drop := drop, next := next, curr := curr, used := used }
  if e.type.full used then (f1, true)
  else
    let low := f.huff % 2 ^ e.root
    ({ f1 with
        low := low
        codes := Mem.wr Du.codesSize f1.codes (e.base + low) (mkEntry curr e.root (next - e.base)) }, false)

/-- `final_fill` (43_table_decoder_fastloop.md R275). -/
def Fill.finalFill (f : Fill) : Fill :=
  if f.huff ≠ 0 then
    { f with codes := Mem.wr Du.codesSize f.codes (f.next + f.huff) (mkEntry 64 (f.len - f.drop) 0) }
  else f

/-- At most `fuel` rounds of the fill loop (43_table_decoder_fastloop.md R273); each passes one symbol. The flag says that
the space is exhausted. -/
def fillTableLoop (e : FillEnv) : Nat → Fill → Fill × Bool
  | 0, f => (f, false)
  | fuel + 1, f =>
    let f1 := f.replicate e
    let f2 : Fill := { f1 with
      huff := nextHuff f1.huff f1.len
      sym := f1.sym + 1
      count := f1.count.set f1.len (f1.count.getD f1.len 0 - 1) }
    if f2.count.getD f2.len 0 = 0 ∧ f2.len = e.max then (f2.finalFill, false)
    else
      let f3 : Fill := if f2.count.getD f2.len 0 = 0 then { f2 with len := e.lens.getD (e.workAt f2.sym) 0 } else f2
      if e.root < f3.len ∧ ((f3.huff % 2 ^ e.root : Nat) : Int) ≠ f3.low then
        match f3.newSubTable e with
        | (f4, true) => (f4, true)
        | (f4, false) => fillTableLoop e fuel f4
      else fillTableLoop e fuel f3

/-- The results of `inflate_table` (43_table_decoder_fastloop.md R270) with the memories it wrote. -/
structure TableResult where
  ret   : Int
  used  : Nat
  root  : Nat
  codes : Mem Word32
  work  : Mem Word16
deriving DecidableEq, Repr

/-- `inflate_table(type, lens, codes, base, bits)` (43_table_decoder_fastloop.md R270 to R278). What `root` is when `ret ≠ 0`
the rules do not say: the model's choice is the root width of R271 (DESIGN CHOICE, log entry 24). -/
def inflateTable (type : TableType) (lens : List Nat) (base bits : Nat) (codes : Mem Word32) (work : Mem Word16) :
    TableResult :=
  let count := countLens lens
  let max := maxUsed count Config.maxBits
  if max = 0 then
    let e := mkEntry 64 1 0
    ⟨0, 2, 1, Mem.wr Du.codesSize (Mem.wr Du.codesSize codes base e) (base + 1) e, work⟩
  else
    let min := minUsed count max Config.maxBits 1
    let root := Nat.max (Nat.min bits max) min
    match leftover count with
    | none => ⟨-1, 0, root, codes, work⟩
    | some left =>
      if 0 < left ∧ (type = .codes ∨ max ≠ 1) then ⟨-1, 0, root, codes, work⟩
      else
        let work1 := sortSymbols lens count work
        let used := 2 ^ root
        if type.full used then ⟨1, used, root, codes, work1⟩
        else
          let e : FillEnv := ⟨type, lens, work1, base, root, max⟩
          let (f, full) := fillTableLoop e lens.length
            { codes := codes, count := count, huff := 0, sym := 0, len := min, next := base, curr := root, drop := 0,
              low := -1, used := used, size := 0 }
          ⟨if full then 1 else 0, f.used, root, f.codes, work1⟩

end Sys2Proof.Machine
end

