-- ==== Sys2Proof/Machine/InflateOps.lean ====
section
/-! DEFINITION. The operations of the Inflate engine below its states: history, decode-table lookup, and the effect of each
kind of symbol, header field and block header (43_table_decoder_fastloop.md R282, 44_inflate_engine.md). The states of
Inflate.lean and the instructions of the bitstream both call them. -/

namespace Sys2Proof.Machine

namespace Du

/-! ## History (R332, R334, R342) -/

/-- `hist(d)` (44_inflate_engine.md R332). -/
def hist (d : Du) (k : Nat) : Byte :=
  if k ≤ d.cur.produced then d.cur.out.getD (d.cur.produced - k) 0#8
  else Mem.rd d.hwindowSize d.hwindow ((((d.wnext : Int) - (k - d.cur.produced : Nat)) % (d.wsize : Int)).toNat)

/-- Distance validity (44_inflate_engine.md R334); `SANE` is hardwired 1 (10_state.md R30). -/
def distValid (d : Du) (k : Nat) : Bool :=
  !d.sane || (decide (k ≤ 2 ^ d.wbits) && decide (k ≤ d.cur.produced + d.whave))

/-- `n` times `out_put(hist(k))`, each evaluated after the byte before it is out (44_inflate_engine.md R332,
43_table_decoder_fastloop.md R282). -/
def copyMatch (k n : Nat) (d : Du) : Du := forRange 0 n (fun _ d => d.outPut (d.hist k)) d

/-- `updatewindow(data)` (44_inflate_engine.md R342). -/
def updateWindow (data : List Byte) (d : Du) : Du :=
  let d0 : Du := if d.wsize = 0 then { d with wsize := 2 ^ d.wbits, wnext := 0, whave := 0 } else d
  let copy := data.length
  if d0.wsize ≤ copy then
    { d0 with
      hwindow := Mem.writeList d0.hwindowSize d0.hwindow 0 (data.drop (copy - d0.wsize))
      wnext := 0
      whave := d0.wsize }
  else
    let dist := min (d0.wsize - d0.wnext) copy
    let w := Mem.writeList d0.hwindowSize d0.hwindow d0.wnext (data.take dist)
    let rest := copy - dist
    if rest ≠ 0 then
      { d0 with hwindow := Mem.writeList d0.hwindowSize w 0 (data.drop dist), wnext := rest, whave := d0.wsize }
    else
      { d0 with
        hwindow := w
        wnext := if d0.wnext + dist = d0.wsize then 0 else d0.wnext + dist
        whave := if d0.whave < d0.wsize then d0.whave + dist else d0.whave }

/-- `sync_check()` (44_inflate_engine.md R333). -/
def syncCheck (d : Du) : Du :=
  let n := d.cur.produced - d.checked
  let d1 : Du := { d with
    totalOut := d.totalOut + word32Of n
    total := d.total + word32Of n
    checked := d.cur.produced }
  if d.wrap ≠ 0 ∧ n ≠ 0 then
    let fresh := d.cur.out.drop d.checked
    let v := if d.flags ≠ 0 then crc32 d.check fresh else adler32 d.check fresh
    { d1 with check := v, adler := v }
  else d1

/-! ## Table lookup (R323, R324, R326) -/

/-- Entry `i` of the table a reference selects. -/
def tableAt (d : Du) (r : TableRef) (i : Nat) : Word32 :=
  match r.sel with
  | .codes => d.codeAt (r.base + i)
  | .lenfix => lenfix i
  | .distfix => distfix i

/-- `repeat: here <- ...; if it needs no more than BITS bits: break; pull()`, at most `fuel` rounds, then the rest of the
rule (44_inflate_engine.md R323, R324). -/
def entryLoop (entry : Du → Word32) (needed : Word32 → Nat) (k : Word32 → Du → Du) : Nat → Du → Du
  | 0, d => d.suspend
  | fuel + 1, d =>
    if needed (entry d) ≤ d.bits then k (entry d) d else d.pull.andThen (entryLoop entry needed k fuel)

/-- The lookup loop; every round but the last takes a byte of the input. -/
def withEntry (entry : Du → Word32) (needed : Word32 → Nat) (k : Word32 → Du → Du) (d : Du) : Du :=
  entryLoop entry needed k (d.cur.availIn + 1) d

/-- `OP` in 1..15: a link to a sub-table (44_inflate_engine.md R324). -/
def isLink (e : Word32) : Bool := decide (1 ≤ entryOp e) && decide (entryOp e ≤ 15)

/-- The second-level lookup behind the link `last` in table `r`; its bits are dropped before the rest of the rule
(44_inflate_engine.md R324). -/
def viaLink (r : TableRef) (last : Word32) (k : Word32 → Du → Du) (d : Du) : Du :=
  withEntry (fun d => d.tableAt r (entryVal last + d.peek (entryBits last + entryOp last) / 2 ^ entryBits last))
    (fun here => entryBits last + entryBits here) (fun here d => k here (d.drop (entryBits last))) d

/-- The whole lookup of R324 and R326: at most two levels. `k` gets the entry whose code is complete, not yet dropped. -/
def decodeEntry (r : TableRef) (width : Nat) (k : Word32 → Du → Du) (d : Du) : Du :=
  withEntry (fun d => d.tableAt r (d.peek width)) entryBits
    (fun here d => if isLink here then d.viaLink r here k else k here d) d

/-! ## Literals and matches (R324 to R329) -/

/-- State `LIT` (44_inflate_engine.md R329). -/
def ruleLit (d : Du) : Du :=
  if d.cur.availOut = 0 then d.suspend else { d.outPut (byteOf d.length) with mode := .len }

/-- State `LENEXT` (44_inflate_engine.md R325). -/
def ruleLenext (d : Du) : Du :=
  d.needThen d.extra fun d => { d.drop d.extra with length := d.length + d.peek d.extra, mode := .dist }

/-- State `MATCH` (44_inflate_engine.md R328). -/
def ruleMatch (d : Du) : Du :=
  if d.cur.availOut = 0 then d.suspend
  else if ¬ d.distValid d.offset then d.bad .invalidDistanceTooFarBack
  else
    let n := min d.length d.cur.availOut
    let d1 := d.copyMatch d.offset n
    { d1 with length := d.length - n, mode := if d.length - n = 0 then .len else d.mode }

/-- State `DISTEXT`, and `MATCH` behind it (44_inflate_engine.md R327, R328). -/
def ruleDistext (d : Du) : Du :=
  d.needThen d.extra fun d => ruleMatch { d.drop d.extra with offset := d.offset + d.peek d.extra, mode := .matchCopy }

/-- A literal symbol (44_inflate_engine.md R324, R329). -/
def symLit (b : Nat) (d : Du) : Du := ruleLit { d with length := b, mode := .lit }

/-- The end-of-block symbol (44_inflate_engine.md R324). -/
def symEob (d : Du) : Du := { d with length := 0, mode := .type }

/-- A length symbol with its extra bits (44_inflate_engine.md R324, R325). -/
def symLen (base extra : Nat) (d : Du) : Du := ruleLenext { d with length := base, extra := extra, mode := .lenext }

/-- A literal/length code that is no symbol's, or symbols 286 and 287 (44_inflate_engine.md R324). -/
def symLlInvalid (d : Du) : Du := Du.bad { d with length := 0 } .invalidLiteralLengthCode

/-- A distance symbol with its extra bits, and the match behind it (44_inflate_engine.md R326 to R328). -/
def symDist (base extra : Nat) (d : Du) : Du := ruleDistext { d with offset := base, extra := extra, mode := .distext }

/-- A distance code that is no symbol's, or symbols 30 and 31 (44_inflate_engine.md R326). -/
def symDistInvalid (d : Du) : Du := d.bad .invalidDistanceCode

/-- `v & 2^k != 0`. -/
def bitSet (v k : Nat) : Bool := v / 2 ^ k % 2 = 1

/-- What R324 does with the entry of a complete literal/length code, its bits dropped. -/
def applyLl (here : Word32) (d : Du) : Du :=
  let d := d.drop (entryBits here)
  if entryOp here = 0 then d.symLit (entryVal here)
  else if bitSet (entryOp here) 5 then { d with length := entryVal here, mode := .type }
  else if bitSet (entryOp here) 6 then Du.bad { d with length := entryVal here } .invalidLiteralLengthCode
  else d.symLen (entryVal here) (entryOp here % 16)

/-- What R326 does with the entry of a complete distance code, its bits dropped. -/
def applyDist (here : Word32) (d : Du) : Du :=
  let d := d.drop (entryBits here)
  if bitSet (entryOp here) 6 then d.symDistInvalid else d.symDist (entryVal here) (entryOp here % 16)

/-! ## Code lengths (R322, R323) -/

/-- `LENS[HAVE] <- len; HAVE <- HAVE + 1`. -/
def pushLen (len : Nat) (d : Du) : Du := { d.setLens d.haveCount len with haveCount := d.haveCount + 1 }

/-- The end of a repeat: `copy` times the length `len`, unless that runs past the lengths announced. -/
def repeatLen (len copy : Nat) (d : Du) : Du :=
  if d.nlen + d.ndist < d.haveCount + copy then d.bad .invalidBitLengthRepeat
  else forRange 0 copy (fun _ d => d.pushLen len) d

/-- Code-length symbols 0..15, of a code of `bits` bits (44_inflate_engine.md R323). -/
def clLength (bits len : Nat) (d : Du) : Du := (d.drop bits).pushLen len

/-- Code-length symbol 16, of a code of `bits` bits (44_inflate_engine.md R323). -/
def clCopyPrev (bits : Nat) (d : Du) : Du :=
  d.needThen (bits + 2) fun d =>
    let d := d.drop bits
    if d.haveCount = 0 then d.bad .invalidBitLengthRepeat
    else (d.drop 2).repeatLen (d.lensAt (d.haveCount - 1)) (3 + d.peek 2)

/-- Code-length symbols 17 and 18, of a code of `bits` bits: `base` plus `width` extra bits zeros (R323). -/
def clZeros (bits base width : Nat) (d : Du) : Du :=
  d.needThen (bits + width) fun d =>
    let d := d.drop bits
    (d.drop width).repeatLen 0 (base + d.peek width)

/-- What R323 does with the entry of a complete code-length code. -/
def applyCl (here : Word32) (d : Du) : Du :=
  if entryVal here < 16 then d.clLength (entryBits here) (entryVal here)
  else if entryVal here = 16 then d.clCopyPrev (entryBits here)
  else if entryVal here = 17 then d.clZeros (entryBits here) 3 3
  else d.clZeros (entryBits here) 11 7

/-- `LENS[a..a+n)`. -/
def lensRange (d : Du) (a n : Nat) : List Nat := (List.range' a n).map d.lensAt

/-- After the last code length: both decode tables (44_inflate_engine.md R323). -/
def buildTables (d : Du) : Du :=
  if d.lensAt 256 = 0 then d.bad .missingEndOfBlock
  else
    let l := inflateTable .lens (d.lensRange 0 d.nlen) 0 9 d.codes d.work
    let d1 : Du := { d with codes := l.codes, work := l.work, lenbits := l.root, lencode := ⟨.codes, 0⟩ }
    if l.ret ≠ 0 then d1.bad .invalidLiteralLengthsSet
    else
      let t := inflateTable .dists (d1.lensRange d1.nlen d1.ndist) l.used 6 d1.codes d1.work
      let d2 : Du := { d1 with codes := t.codes, work := t.work, distbits := t.root, distcode := ⟨.codes, l.used⟩ }
      if t.ret ≠ 0 then d2.bad .invalidDistancesSet else { d2 with mode := .len }

/-- A length of the code-length code, its three bits dropped (44_inflate_engine.md R322). -/
def storeClLen (v : Nat) (d : Du) : Du :=
  { (d.setLens (clOrder d.haveCount) v).drop 3 with haveCount := d.haveCount + 1 }

/-- After the last length of the code-length code: the rest are 0, and its table is built (44_inflate_engine.md R322). -/
def buildClTable (d : Du) : Du :=
  let d1 := forRange d.haveCount (Config.blCodes - d.haveCount) (fun i d => d.setLens (clOrder i) 0) d
  let t := inflateTable .codes (d1.lensRange 0 Config.blCodes) 0 7 d1.codes d1.work
  let d2 : Du := { d1 with
    codes := t.codes, work := t.work, lenbits := t.root, lencode := ⟨.codes, 0⟩, haveCount := max d.haveCount Config.blCodes }
  if t.ret ≠ 0 then d2.bad .invalidCodeLengthsSet else { d2 with haveCount := 0, mode := .codelens }

/-! ## Block headers (R318, R319, R321) -/

/-- The two drops of a block header with `LAST` written between them (44_inflate_engine.md R318). -/
def dropHeader (bfinal : Bool) (d : Du) : Du := (Du.drop 1 { d with last := bfinal }).drop 2

/-- Block type 0 (44_inflate_engine.md R318). -/
def blockStored (bfinal : Bool) (d : Du) : Du := { d.dropHeader bfinal with mode := .stored }

/-- Block type 1 (44_inflate_engine.md R318). -/
def blockFixed (bfinal : Bool) (d : Du) : Du :=
  { d.dropHeader bfinal with
    lencode := ⟨.lenfix, 0⟩, lenbits := 9, distcode := ⟨.distfix, 0⟩, distbits := 5, mode := .len }

/-- Block type 2 (44_inflate_engine.md R318). -/
def blockDynamic (bfinal : Bool) (d : Du) : Du := { d.dropHeader bfinal with mode := .table }

/-- Block type 3 (44_inflate_engine.md R318). -/
def blockReserved (bfinal : Bool) (d : Du) : Du := (d.dropHeader bfinal).bad .invalidBlockType

/-- The length word of a stored block (44_inflate_engine.md R319). -/
def storedLengths (len nlen : Word16) (d : Du) : Du :=
  if len ≠ ~~~nlen then d.bad .invalidStoredLengths else { d.initbits with length := len.toNat, mode := .copy }

/-- The counts of a dynamic block (44_inflate_engine.md R321). -/
def dynamicCounts (hlit hdist hclen : Nat) (d : Du) : Du :=
  let d1 := (Du.drop 5 { d with nlen := hlit + 257 }).drop 5
  let d2 := Du.drop 4 { d1 with ndist := hdist + 1, ncode := hclen + 4 }
  if 286 < d2.nlen ∨ 30 < d2.ndist then d2.bad .tooManySymbols else { d2 with haveCount := 0, mode := .lenlens }

/-! ## Framing (R303 to R312) -/

/-- `CHECK <- crc32(CHECK, bytes)` if `FHCRC` is set in `FLAGS`. -/
def headerCrc (bytes : List Byte) (d : Du) : Du := if d.flag 9 then { d with check := crc32 d.check bytes } else d

/-- A write of the header capture record if `CAPTURE = 1`. -/
def captureHdr (f : HdrRecord → HdrRecord) (d : Du) : Du := if d.capture then { d with hdr := f d.hdr } else d

/-- The gzip magic (44_inflate_engine.md R303). -/
def gzipMagic (d : Du) : Du := { d.initbits with check := crc32 0 [0x1F#8, 0x8B#8], mode := .flags }

/-- `zlib_check()` on the header word `w`: `CMF` in bits 7..0, `FLG` in bits 15..8 (44_inflate_engine.md R304). -/
def zlibCheck (w : Nat) (d : Du) : Du :=
  if ¬ d.wrap.getLsbD 0 ∨ (w % 256 * 256 + w / 256) % 31 ≠ 0 then d.bad .incorrectHeaderCheck
  else if w % 16 ≠ 8 then d.bad .unknownCompressionMethod
  else
    let d1 := d.drop 4
    if d1.wbits < w / 16 % 16 + 8 then d1.bad .invalidWindowSize
    else { d1.initbits with adler := 1, check := 1, mode := if bitSet w 13 then .dictid else .type }

/-- What `HEAD` does with the first two bytes, `w` (44_inflate_engine.md R303). -/
def headWord (w : Nat) (d : Du) : Du :=
  if d.wrap.getLsbD 1 ∧ w = 0x8B1F then d.gzipMagic
  else Du.zlibCheck w (Du.captureHdr (fun h => { h with hdone := -1 }) { d with flags := 0 })

/-- What `FLAGS` does with its two bytes, `w` (44_inflate_engine.md R305). -/
def flagsWord (w : Word16) (d : Du) : Du :=
  let d1 : Du := { d with flags := w }
  if w.toNat % 256 ≠ 8 then d1.bad .unknownCompressionMethod
  else if w.toNat / 2 ^ 13 ≠ 0 then d1.bad .unknownHeaderFlags
  else
    let d2 := (d1.captureHdr fun h => { h with text := w.getLsbD 8 }).headerCrc (leBytes 2 w.toNat)
    { d2.initbits with mode := .time }

/-- What `TIME` does with its four bytes (44_inflate_engine.md R306). -/
def timeWord (w : Word32) (d : Du) : Du :=
  let d1 := (d.captureHdr fun h => { h with time := w }).headerCrc (leBytes 4 w.toNat)
  { d1.initbits with mode := .os }

/-- What `OS` does with its two bytes (44_inflate_engine.md R307). -/
def osBytes (xfl os : Byte) (d : Du) : Du :=
  let d1 := (d.captureHdr fun h => { h with xflags := xfl, os := os }).headerCrc [xfl, os]
  { d1.initbits with mode := .exlen }

/-- What follows by falling through into state `m`, if the engine is there and has not suspended (44_inflate_engine.md
R346). -/
def fallInto (m : Mode) (k : Du → Du) (d : Du) : Du := if d.ctl = .run ∧ d.mode = m then k d else d

/-- State `EXTRA` (44_inflate_engine.md R309). -/
def ruleExtra (d : Du) : Du :=
  if d.flag 10 then
    let copy := min d.length d.cur.availIn
    let bytes := d.cur.nextBytes copy
    let d1 := (d.captureHdr fun h => { h with extra := h.extra ++ bytes }).headerCrc bytes
    let d2 : Du := { d1 with cur := d1.cur.advance copy, length := d1.length - copy }
    if d2.length ≠ 0 then d2.suspend else { d2 with length := 0, mode := .name }
  else { d with length := 0, mode := .name }

/-- State `EXLEN`, falling through to `EXTRA` (44_inflate_engine.md R308, R309). -/
def ruleExlen (d : Du) : Du :=
  Du.fallInto .extra ruleExtra <|
    if d.flag 10 then
      d.needThen 16 fun d =>
        let w := d.hold.setWidth 16
        let d1 := Du.captureHdr (fun h => { h with extraPresent := true, extraLen := w, extra := [] })
          { d with length := w.toNat }
        { (d1.headerCrc (leBytes 2 w.toNat)).initbits with mode := .extra }
    else { d.captureHdr fun h => { h with extraPresent := false } with mode := .extra }

/-- `F[n] <- b` for a captured field: byte `n` of the field, which grows by one at its end. -/
def putField (f : List Byte) (n : Nat) (b : Byte) : List Byte := f.take n ++ [b] ++ f.drop (n + 1)

/-- The capture of one byte of the name or of the comment (44_inflate_engine.md R310, R311). -/
def captureByte (comment : Bool) (b : Byte) (d : Du) : Du :=
  if d.capture then
    let store := b ≠ 0 ∧ d.length < Config.hdrFieldMax
    let h : HdrRecord :=
      if comment then
        { d.hdr with
          commentPresent := true, comment := if store then putField d.hdr.comment d.length b else d.hdr.comment }
      else { d.hdr with namePresent := true, name := if store then putField d.hdr.name d.length b else d.hdr.name }
    { d with hdr := h, length := if store then d.length + 1 else d.length }
  else d

/-- The bytes of a zero-terminated field, at most `fuel` of them (44_inflate_engine.md R310): the flag says that the
terminator was read. -/
def fieldLoop (comment : Bool) : Nat → Du → Du × Bool
  | 0, d => (d, false)
  | fuel + 1, d =>
    let b := d.cur.peekByte
    let d1 := Du.captureByte comment b (Du.headerCrc [b] { d with cur := d.cur.advance 1 })
    if b = 0 then (d1, true) else fieldLoop comment fuel d1

/-- States `NAME` and `COMMENT`: flag bit `k`, next state `next` (44_inflate_engine.md R310, R311). Without input the
state suspends. -/
def fieldState (comment : Bool) (k : Nat) (next : Mode) (d : Du) : Du :=
  if d.flag k then
    match fieldLoop comment d.cur.availIn d with
    | (d1, true) => { d1 with length := 0, mode := next }
    | (d1, false) => d1.suspend
  else
    let d1 := d.captureHdr fun h => if comment then { h with commentPresent := false } else { h with namePresent := false }
    { d1 with length := 0, mode := next }

/-- State `NAME` (44_inflate_engine.md R310). -/
def ruleName (d : Du) : Du := d.fieldState false 11 .comment
/-- State `COMMENT` (44_inflate_engine.md R311). -/
def ruleComment (d : Du) : Du := d.fieldState true 12 .hcrc

/-- The end of `HCRC` (44_inflate_engine.md R312). -/
def headerDone (d : Du) : Du :=
  { d.captureHdr fun h => { h with hcrc := d.flag 9, hdone := 1 } with adler := 0, check := 0, mode := .type }

/-- State `HCRC` (44_inflate_engine.md R312). -/
def ruleHcrc (d : Du) : Du :=
  if d.flag 9 then
    d.needThen 16 fun d =>
      if d.hold.toNat ≠ d.check.toNat % 65536 then d.bad .headerCrcMismatch else d.initbits.headerDone
  else d.headerDone

end Du

end Sys2Proof.Machine
end

