-- ==== Sys2Proof/Machine/FastLoop.lean ====
section
/-! DEFINITION. The fast decode loop of `DU` (43_table_decoder_fastloop.md, section 2). -/

namespace Sys2Proof.Machine

namespace Du

/-- The entry condition of the fast loop (43_table_decoder_fastloop.md R280), which is also its loop condition: `NEXT_IN <
in_limit` and `produced < out_limit` say that 6 input bytes and 258 output bytes are left. -/
def fastReady (d : Du) : Bool :=
  decide (Config.fastMinIn ≤ d.cur.availIn) && decide (Config.fastMinOut ≤ d.cur.availOut)

/-- `if BITS < n: fetch()`. -/
def fetchIf (n : Nat) (d : Du) : Du := if d.bits < n then d.fetch else d

/-- `if BITS < 15: fetch(); fetch()`. -/
def fetch15 (d : Du) : Du := if d.bits < 15 then d.fetch.fetch else d

/-- `goto dolen` / `goto dodist` (43_table_decoder_fastloop.md R281): the bits of `here` are dropped, and while `link` says
that it links to a sub-table the next entry is looked up. A link never points to another link (30_encoding.md R131); the
model follows at most `fuel` of them (log entry 12). -/
def fastResolve (r : TableRef) (link : Nat → Bool) : Nat → Word32 → Du → Word32 × Du
  | 0, here, d => (here, d.drop (entryBits here))
  | fuel + 1, here, d =>
    let d1 := d.drop (entryBits here)
    if link (entryOp here) then
      fastResolve r link fuel (d1.tableAt r (entryVal here + d1.peek (entryOp here))) d1
    else (here, d1)

/-- `OP` is a link for the literal/length code: no literal, no base, no bit 6. -/
def linkLl (op : Nat) : Bool := decide (op ≠ 0) && !bitSet op 4 && !bitSet op 6
/-- `OP` is a link for the distance code: no base, no bit 6. -/
def linkDist (op : Nat) : Bool := !bitSet op 4 && !bitSet op 6

/-- The distance half of a match of length `len` in the fast loop (43_table_decoder_fastloop.md R281): the flag says that
the loop goes on. -/
def fastDist (len : Nat) (d : Du) : Du × Bool :=
  let d1 := d.fetch15
  let (here, d2) := fastResolve d1.distcode linkDist 2 (d1.tableAt d1.distcode (d1.peek d1.distbits)) d1
  if bitSet (entryOp here) 4 then
    let op := entryOp here % 16
    let d3 := (d2.fetchIf op).fetchIf op
    let dist := entryVal here + d3.peek op
    let d4 := d3.drop op
    if 2 ^ d4.wbits < dist ∨ d4.cur.produced + d4.whave < dist then (d4.bad .invalidDistanceTooFarBack, false)
    else (d4.copyMatch dist len, true)
  else (d2.bad .invalidDistanceCode, false)

/-- One round of the fast loop (43_table_decoder_fastloop.md R281): the flag says that the loop goes on if its condition
holds. -/
def fastRound (d : Du) : Du × Bool :=
  let d1 := d.fetch15
  let (here, d2) := fastResolve d1.lencode linkLl 2 (d1.tableAt d1.lencode (d1.peek d1.lenbits)) d1
  if entryOp here = 0 then (d2.outPut (byteOf (entryVal here)), true)
  else if bitSet (entryOp here) 4 then
    let op := entryOp here % 16
    let d3 := d2.fetchIf op
    fastDist (entryVal here + d3.peek op) (d3.drop op)
  else if bitSet (entryOp here) 5 then ({ d2 with mode := .type }, false)
  else (d2.bad .invalidLiteralLengthCode, false)

/-- At most `fuel` rounds of the fast loop. -/
def fastLoop : Nat → Du → Du
  | 0, d => d
  | fuel + 1, d =>
    match d.fastRound with
    | (d1, false) => d1
    | (d1, true) => if d1.fastReady then fastLoop fuel d1 else d1

/-- `return_unused()` (43_table_decoder_fastloop.md R285). -/
def returnUnused (d : Du) : Du :=
  let n := d.bits / 8
  { d with
    cur := { d.cur with nextIn := d.cur.nextIn - n }
    bits := d.bits - 8 * n
    hold := d.hold &&& (word32Of (2 ^ (d.bits - 8 * n) - 1)) }

/-- `inflate_fast()` (43_table_decoder_fastloop.md R280 to R285); every round but the last puts out a byte (log entry 12). -/
def inflateFast (d : Du) : Du := (fastLoop (d.cur.availOut + 1) d).returnUnused

end Du

end Sys2Proof.Machine
end

