-- ==== Sys2Proof/Machine/Inflate.lean ====
section
/-! DEFINITION. The states of the Inflate engine, the push algorithm and its leave sequence (44_inflate_engine.md). -/

namespace Sys2Proof.Machine

namespace Du

/-! ## Header states -/

/-- State `FLAGS` (44_inflate_engine.md R305). -/
def ruleFlags (d : Du) : Du := d.needThen 16 fun d => d.flagsWord (d.hold.setWidth 16)

/-- State `TIME` (44_inflate_engine.md R306). -/
def ruleTime (d : Du) : Du := d.needThen 32 fun d => d.timeWord d.hold

/-- State `OS` (44_inflate_engine.md R307). -/
def ruleOs (d : Du) : Du := d.needThen 16 fun d => d.osBytes (d.hold.extractLsb' 0 8) (d.hold.extractLsb' 8 8)

/-- State `HEAD` (44_inflate_engine.md R303), falling through the rest of the 10-byte gzip header. -/
def ruleHead (d : Du) : Du :=
  if d.wrap = 0 then { d with mode := .type }
  else
    (((d.needThen 16 fun d => d.headWord d.hold.toNat).fallInto .flags ruleFlags).fallInto .time ruleTime).fallInto .os
      ruleOs

/-- State `DICTID` (44_inflate_engine.md R316). -/
def ruleDictid (d : Du) : Du :=
  d.needThen 32 fun d => { d.initbits with check := bswap32 d.hold, adler := bswap32 d.hold, mode := .dict }

/-- State `DICT` (44_inflate_engine.md R317). -/
def ruleDict (d : Du) : Du :=
  if ¬ d.havedict then { d with ctl := .stop .needDict } else { d with adler := 1, check := 1, mode := .type }

/-! ## Block states -/

/-- State `TYPE` (44_inflate_engine.md R318). -/
def ruleType (d : Du) : Du :=
  if d.last then { d.bytebits with mode := .check }
  else
    d.needThen 3 fun d =>
      let bfinal := d.hold.getLsbD 0
      match d.peek 3 / 2 with
      | 0 => d.blockStored bfinal
      | 1 => d.blockFixed bfinal
      | 2 => d.blockDynamic bfinal
      | _ => d.blockReserved bfinal

/-- State `STORED` (44_inflate_engine.md R319). -/
def ruleStored (d : Du) : Du :=
  d.bytebits.needThen 32 fun d => d.storedLengths (d.hold.extractLsb' 0 16) (d.hold.extractLsb' 16 16)

/-- `out_put` of the next input byte. -/
def copyByte (d : Du) : Du := { d with cur := (d.cur.outPut d.cur.peekByte).advance 1 }

/-- State `COPY` (44_inflate_engine.md R320). -/
def ruleCopy (d : Du) : Du :=
  if d.length ≠ 0 then
    let copy := min d.length (min d.cur.availIn d.cur.availOut)
    if copy = 0 then d.suspend
    else { forRange 0 copy (fun _ d => d.copyByte) d with length := d.length - copy }
  else { d with mode := .type }

/-- State `TABLE` (44_inflate_engine.md R321). -/
def ruleTable (d : Du) : Du :=
  d.needThen 14 fun d => d.dynamicCounts (d.peek 5) (d.peek 10 / 2 ^ 5) (d.peek 14 / 2 ^ 10)

/-- State `LENLENS` (44_inflate_engine.md R322): one length, or the end of the state. -/
def ruleLenlens (d : Du) : Du :=
  if d.haveCount < d.ncode then d.needThen 3 fun d => d.storeClLen (d.peek 3) else d.buildClTable

/-- State `CODELENS` (44_inflate_engine.md R323): one code-length symbol, or the end of the state. -/
def ruleCodelens (d : Du) : Du :=
  if d.haveCount < d.nlen + d.ndist then
    d.withEntry (fun d => d.codeAt (d.peek d.lenbits)) entryBits (fun here d => d.applyCl here)
  else d.buildTables

/-- State `LEN` (44_inflate_engine.md R324): the fast loop, or one symbol with what falls through behind it. -/
def ruleLen (d : Du) : Du :=
  if d.fastReady then d.inflateFast else d.decodeEntry d.lencode d.lenbits (fun here d => d.applyLl here)

/-- State `DIST` (44_inflate_engine.md R326), falling through to the match. -/
def ruleDist (d : Du) : Du := d.decodeEntry d.distcode d.distbits (fun here d => d.applyDist here)

/-! ## Trailer states -/

/-- State `CHECK` (44_inflate_engine.md R330). -/
def ruleCheck (d : Du) : Du :=
  if d.wrap ≠ 0 then
    d.needThen 32 fun d =>
      let d1 := d.syncCheck
      let v := if d1.flags ≠ 0 then d1.hold else bswap32 d1.hold
      if v ≠ d1.check then d1.bad .incorrectDataCheck else { d1.initbits with mode := .length }
  else { d with mode := .length }

/-- State `LENGTH` (44_inflate_engine.md R331). -/
def ruleLength (d : Du) : Du :=
  if d.wrap ≠ 0 ∧ d.flags ≠ 0 then
    d.needThen 32 fun d =>
      if d.hold ≠ d.total then d.bad .incorrectLengthCheck else { d.initbits with mode := .done }
  else { d with mode := .done }

/-! ## The state loop (R302, R345) -/

/-- The rule of the current `MODE` (44_inflate_engine.md R302, step 4). `MEM` is never entered (60_exceptions.md R410), and
no push runs in `END` (R302, step 1). -/
def rule (d : Du) : Du :=
  match d.mode with
  | .head => d.ruleHead
  | .flags => d.ruleFlags
  | .time => d.ruleTime
  | .os => d.ruleOs
  | .exlen => d.ruleExlen
  | .extra => d.ruleExtra
  | .name => d.ruleName
  | .comment => d.ruleComment
  | .hcrc => d.ruleHcrc
  | .dictid => d.ruleDictid
  | .dict => d.ruleDict
  | .type => d.ruleType
  | .stored => d.ruleStored
  | .copy => d.ruleCopy
  | .table => d.ruleTable
  | .lenlens => d.ruleLenlens
  | .codelens => d.ruleCodelens
  | .len => d.ruleLen
  | .lenext => d.ruleLenext
  | .dist => d.ruleDist
  | .distext => d.ruleDistext
  | .matchCopy => d.ruleMatch
  | .lit => d.ruleLit
  | .check => d.ruleCheck
  | .length => d.ruleLength
  | .done => { d with ctl := .stop .streamEnd }
  | .bad => { d with ctl := .stop .dataError }
  | .mem => { d with ctl := .stop .memError }
  | .noStream => { d with ctl := .stop .streamError }

/-- At most `fuel` rounds of the state loop. -/
def runLoop : Nat → Du → Du
  | 0, d => d
  | fuel + 1, d => if d.ctl = .run then runLoop fuel d.rule else d

/-- How many rounds of the state loop an atomic push may take (log entry 7): a round of a symbol state takes a bit of the
input or puts out a byte, and the others are bounded by those. -/
def rounds (d : Du) : Nat := 64 + 4 * (8 * d.cur.availIn + d.bits) + 4 * d.cur.availOut

/-- The effects of `leave(ret)` on the unit, and the status it returns (44_inflate_engine.md R341). `MEM` has no leave
sequence (R340). -/
def leave (ret : Status) (d : Du) : Du × Status :=
  if ret = .memError then (d, ret)
  else
    let d1 := if d.cur.produced ≠ 0 then d.updateWindow d.cur.out else d
    let d2 := Du.syncCheck { d1 with totalIn := d1.totalIn + word32Of d1.cur.nextIn }
    if ret = .ok ∧ ((d2.cur.nextIn = 0 ∧ d2.cur.produced = 0) ∨ d2.pushFlush = flushFinish) then
      ({ d2 with msg := .bufferError }, .bufError)
    else (d2, ret)

end Du

namespace State

/-- `leave(ret)` (44_inflate_engine.md R341): the push returns. -/
def leavePush (ret : Status) (s : State) : State :=
  match s.du.leave ret with
  | (d, st) => State.finishDu { s with du := d } ⟨st, d.cur.nextIn, d.cur.out, none, none⟩

/-- Steps 1 to 3 of `IFL_PUSH` (44_inflate_engine.md R302): the push is in progress, or has been refused. -/
def startPush (s : State) : State :=
  if s.du.mode = .noStream then s.raise .du .streamError
  else if ¬ flushLegal s.port.flush then s.raise .du .streamError
  else
    { s with du := { s.du with
        cur := Cursor.start s.port.input s.port.availOut, ctl := .run, pushFlush := s.port.flush, checked := 0 } }

/-- One step of a push in progress (44_inflate_engine.md R302): a round of the state loop (step 4), or the return (step
5). -/
def pushStep (s : State) : State :=
  match s.du.ctl with
  | .idle => s
  | .run => { s with du := s.du.rule }
  | .stop ret => s.leavePush ret

/-- `IFL_PUSH` (44_inflate_engine.md R302, 46_host_commands.md R378) as one command: its steps 1 to 5. -/
def iflPush (s : State) : State :=
  let s1 := s.startPush
  let s2 := { s1 with du := Du.runLoop s1.du.rounds s1.du }
  s2.pushStep

end State

end Sys2Proof.Machine
end

