-- ==== Sys2Proof/Machine/Commands.lean ====
section
/-! DEFINITION. The host commands (46_host_commands.md): one meaning per command. A command reads its operands from `port`
and leaves its result in `result`. -/

namespace Sys2Proof.Machine

/-- The answers of a step. -/
abbrev Answer := Host.Outcome State Fault Refusal

/-- A command of `DU`, which may not begin while a push of the unit is in progress (70_reset_and_hazards.md R440; log entry
8). -/
def onIdleDu (f : State → State) (s : State) : Answer := if s.du.ctl = .idle then .next (f s) else .fault .unitBusy

/-- The command returns `OK` and nothing else. -/
def okResult : Result := Result.ofStatus .ok

/-! ## Compression unit -/

namespace Cu

/-- The register writes of `DFL_RESET` from `WRAP` on (46_host_commands.md R374, 10_state.md R37). -/
def resetKeep (c : Cu) : Cu :=
  let wrap : Int := if c.wrap < 0 then -c.wrap else c.wrap
  let c1 : Cu := { c with
    wrap := wrap
    totalIn := 0, totalOut := 0, msg := .none, pending := 0, pendingOut := 0
    status := if wrap ≠ 0 then .init else .busy
    adler := if wrap = 2 then 0 else 1
    lastFlush := flushNo, biBuf := 0, biValid := 0, gzindex := 0 }
  { c1.initBlock with
    head := []
    func := selectFunc c.level c.strategy
    strstart := 0, blockStart := 0, lookahead := 0, insertCount := 0
    matchLength := 2, prevLength := 2, matchAvailable := false
    insH := 0, matchStart := 0, prevMatch := 0 }

/-- Every memory and tree field zero (46_host_commands.md R371, 10_state.md R37 column `DFL_INIT`). -/
def zeroMemories (c : Cu) : Cu :=
  { c with
    window := [], head := [], prev := [], pendingBuf := [], dBuf := [], lBuf := []
    dynLtree := [], dynDtree := [], blTree := [], heap := [], depth := [], blCount := []
    heapLen := 0, heapMax := 0, lMaxCode := 0, dMaxCode := 0, blMaxCode := 0 }

/-- The configuration registers that `DFL_INIT` writes (46_host_commands.md R371, 10_state.md R23). -/
def configure (wrap : Int) (level strategy wBits memLevel : Nat) (hdr : Option GzHeader) (c : Cu) : Cu :=
  let row := levelRow level
  { c with
    wrap := wrap, level := level, strategy := strategy, wBits := wBits
    hashBits := memLevel + 7, litBufsize := 2 ^ (memLevel + 6)
    gzhead := if wrap = 2 then hdr else none
    goodMatch := row.good, maxLazyMatch := row.maxLazy, niceMatch := row.nice, maxChainLength := row.chain
    func := selectFunc level strategy }

end Cu

/-- The operand checks of `DFL_INIT` (46_host_commands.md R371), and the decoded framing. -/
def dflInitOperands (o : Operands) : Option (Int × Nat) :=
  match cuWindowBits o.windowBits with
  | none => none
  | some (wrap, wBits) =>
    if ¬ levelLegal (levelOperand o.level) ∨ ¬ memLevelLegal o.memLevel ∨ ¬ strategyLegal o.strategy then none
    else if wrap = 2 ∧ ¬ (o.gzipHeader.map GzHeader.wellFormed).getD true then none
    else some (wrap, wBits)

/-- `DFL_INIT` (46_host_commands.md R371). -/
def execDflInit (s : State) : Answer :=
  if s.cu.status ≠ .noStream then .next (s.raise .cu .streamError)
  else
    match dflInitOperands s.port with
    | none => .next (s.raise .cu .streamError)
    | some (wrap, wBits) =>
      let c := s.cu.configure wrap (levelOperand s.port.level).toNat s.port.strategy.toNat wBits s.port.memLevel.toNat
        s.port.gzipHeader
      .next (State.post { s with cu := c.zeroMemories.resetKeep } okResult)

/-- `DFL_SETDICT` (46_host_commands.md R373). -/
def execDflSetdict (s : State) : Answer :=
  if s.cu.status = .noStream then .next (s.raise .cu .streamError)
  else if s.cu.wrap = 2 ∨ s.cu.wrap < 0 then .next (s.raise .cu .streamError)
  else if s.cu.wrap = 1 ∧ s.cu.status ≠ .init then .next (s.raise .cu .streamError)
  else if s.cu.lookahead ≠ 0 then .next (s.raise .cu .streamError)
  else
    let c : Cu := if s.cu.wrap = 1 then { s.cu with adler := adler32 s.cu.adler s.port.dictionary } else s.cu
    .next (State.post { s with cu := c.loadDictionary s.port.dictionary } okResult)

/-- `DFL_PUSH` (46_host_commands.md R372, 41_deflate_engine.md R182). -/
def execDflPush (s : State) : Answer := .next (s.dflPushWith s.port.flush)

/-- `DFL_RESET` (46_host_commands.md R374). -/
def execDflReset (s : State) : Answer :=
  if s.cu.status = .noStream then .next (s.raise .cu .streamError)
  else .next (State.post { s with cu := s.cu.resetKeep } okResult)

/-- `DFL_END` (46_host_commands.md R376); its `DATA_ERROR` writes no `MSG` (60_exceptions.md R401 (c)). What the other
registers then hold is unspecified (10_state.md R39); they keep their values (log entry 2). -/
def execDflEnd (s : State) : Answer :=
  if s.cu.status = .noStream then .next (s.raise .cu .streamError)
  else
    let st : Status := if s.cu.status = .busy then .dataError else .ok
    .next (State.post { s with cu := { s.cu with status := .noStream } } (Result.ofStatus st))

/-- `DFL_STAT` (46_host_commands.md R375). -/
def execDflStat (s : State) : Answer :=
  if s.cu.status = .noStream then .next (s.raise .cu .streamError)
  else .next (s.post { okResult with stat := some ⟨s.cu.totalIn, s.cu.totalOut, s.cu.adler, s.cu.msg⟩ })

/-! ## Decompression unit -/

/-- The header capture record with all fields absent or 0 (10_state.md R38). -/
def HdrRecord.empty : HdrRecord :=
  ⟨false, 0, 0, 0, false, 0, [], false, [], false, [], false, 0⟩

namespace Du

/-- The register writes of `IFL_RESET` (46_host_commands.md R380, 10_state.md R38). -/
def resetKeep (d : Du) : Du :=
  { d with
    wsize := 0, whave := 0, wnext := 0
    totalIn := 0, totalOut := 0, total := 0, msg := .none
    adler := (d.wrap &&& 1).setWidth 32, check := 0
    mode := .head, last := false, havedict := false
    hold := 0, bits := 0
    flags := 0, length := 0, offset := 0, extra := 0
    ncode := 0, nlen := 0, ndist := 0, haveCount := 0, lenbits := 0, distbits := 0
    lencode := ⟨.codes, 0⟩, distcode := ⟨.codes, 0⟩
    hdr := HdrRecord.empty }

/-- What `IFL_INIT` does before the writes of `IFL_RESET` (46_host_commands.md R377). -/
def configure (wrap : BitVec 2) (wbits : Nat) (capture : Bool) (d : Du) : Du :=
  { d with wrap := wrap, wbits := wbits, capture := capture, hwindow := [], codes := [], lens := [], work := [] }

end Du

namespace State

/-- `IFL_INIT` (46_host_commands.md R377). -/
def iflInit (s : State) : State :=
  if s.du.mode ≠ .noStream then s.raise .du .streamError
  else
    match duWindowBits s.port.windowBits with
    | none => s.raise .du .streamError
    | some (wrap, wbits) =>
      if s.port.capture ∧ ¬ wrap.getLsbD 1 then s.raise .du .streamError
      else State.post { s with du := (s.du.configure wrap wbits s.port.capture).resetKeep } okResult

/-- `IFL_SETDICT` (46_host_commands.md R379, 44_inflate_engine.md R343). -/
def iflSetdict (s : State) : State :=
  if s.du.mode = .noStream then s.raise .du .streamError
  else if s.du.wrap ≠ 0 ∧ s.du.mode ≠ .dict then s.raise .du .streamError
  else if s.du.mode = .dict ∧ adler32 1 s.port.dictionary ≠ s.du.check then s.raise .du .dataError
  else State.post { s with du := { s.du.updateWindow s.port.dictionary with havedict := true } } okResult

/-- `IFL_RESET` (46_host_commands.md R380). -/
def iflReset (s : State) : State :=
  if s.du.mode = .noStream then s.raise .du .streamError
  else State.post { s with du := s.du.resetKeep } okResult

/-- `IFL_END` (46_host_commands.md R383). What the other registers then hold is unspecified; they keep their values (log
entry 2). -/
def iflEnd (s : State) : State :=
  if s.du.mode = .noStream then s.raise .du .streamError
  else State.post { s with du := { s.du with mode := .noStream } } okResult

/-- `IFL_GETHDR` (46_host_commands.md R382). -/
def iflGethdr (s : State) : State :=
  if s.du.mode = .noStream then s.raise .du .streamError
  else if ¬ s.du.capture then s.raise .du .streamError
  else s.post { okResult with hdr := some s.du.hdr }

/-- `IFL_STAT` (46_host_commands.md R381). -/
def iflStat (s : State) : State :=
  if s.du.mode = .noStream then s.raise .du .streamError
  else s.post { okResult with stat := some ⟨s.du.totalIn, s.du.totalOut, s.du.adler, s.du.msg⟩ }

/-- An opcode that is no command's: `STREAM_ERROR`, no state change, `MSG` not written (30_encoding.md R100, R122;
60_exceptions.md R401 (b)). -/
def reservedOpcode (s : State) : State := { s with result := some (Result.ofStatus .streamError) }

end State

/-- `IFL_INIT` (46_host_commands.md R377). -/
def execIflInit (s : State) : Answer := onIdleDu State.iflInit s
/-- `IFL_SETDICT` (46_host_commands.md R379). -/
def execIflSetdict (s : State) : Answer := onIdleDu State.iflSetdict s
/-- `IFL_PUSH` (46_host_commands.md R378). -/
def execIflPush (s : State) : Answer := onIdleDu State.iflPush s
/-- `IFL_RESET` (46_host_commands.md R380). -/
def execIflReset (s : State) : Answer := onIdleDu State.iflReset s
/-- `IFL_END` (46_host_commands.md R383). -/
def execIflEnd (s : State) : Answer := onIdleDu State.iflEnd s
/-- `IFL_GETHDR` (46_host_commands.md R382). -/
def execIflGethdr (s : State) : Answer := onIdleDu State.iflGethdr s
/-- `IFL_STAT` (46_host_commands.md R381). -/
def execIflStat (s : State) : Answer := onIdleDu State.iflStat s

/-! ## Flush operands

A flush value is executed by the push that carries it (30_encoding.md R101, 41_deflate_engine.md R202; log entry 6): each
row's meaning is `DFL_PUSH` with that value as its flush operand. -/

/-- `FLUSH.NO_FLUSH`: internal buffering (41_deflate_engine.md R202). -/
def execFlushNoFlush (s : State) : Answer := .next (s.dflPushWith flushNo)
/-- `FLUSH.PARTIAL_FLUSH` (41_deflate_engine.md R203). -/
def execFlushPartialFlush (s : State) : Answer := .next (s.dflPushWith flushPartial)
/-- `FLUSH.SYNC_FLUSH` (41_deflate_engine.md R204). -/
def execFlushSyncFlush (s : State) : Answer := .next (s.dflPushWith flushSync)
/-- `FLUSH.FULL_FLUSH` (41_deflate_engine.md R205). -/
def execFlushFullFlush (s : State) : Answer := .next (s.dflPushWith flushFull)
/-- `FLUSH.FINISH` (41_deflate_engine.md R202, R207). -/
def execFlushFinish (s : State) : Answer := .next (s.dflPushWith flushFinish)
/-- `FLUSH.BLOCK` (41_deflate_engine.md R202). -/
def execFlushBlock (s : State) : Answer := .next (s.dflPushWith flushBlock)

end Sys2Proof.Machine
end

