-- ==== Sys2Proof/Machine/Bitstream.lean ====
section
/-! DEFINITION. The instructions of the DEFLATE bitstream below the symbols: block headers, stored and dynamic headers,
code-length symbols, and the fixed-code and decode-table encodings of symbols (30_encoding.md R108 to R112, R130, R131;
44_inflate_engine.md R318 to R326). Each acts on `DU` while a push of that unit runs. -/

namespace Sys2Proof.Machine

/-- An instruction of the bitstream: it acts on `DU` inside a push, whose input holds it (10_state.md R25); without one
there is nothing to execute it (log entry 8). -/
def onStream (f : Du → Du) (s : State) : Host.Outcome State Fault Refusal :=
  if s.du.ctl = .run then .next { s with du := f s.du } else .fault .noPush

/-! ## Block headers -/

/-- `BLOCK.STORED` (44_inflate_engine.md R318). -/
def execBlockStored (bfinal : Bool) (s : State) : Host.Outcome State Fault Refusal :=
  onStream (fun d => d.needThen 3 (Du.blockStored bfinal)) s
/-- `BLOCK.FIXED` (44_inflate_engine.md R318). -/
def execBlockFixed (bfinal : Bool) (s : State) : Host.Outcome State Fault Refusal :=
  onStream (fun d => d.needThen 3 (Du.blockFixed bfinal)) s
/-- `BLOCK.DYNAMIC` (44_inflate_engine.md R318). -/
def execBlockDynamic (bfinal : Bool) (s : State) : Host.Outcome State Fault Refusal :=
  onStream (fun d => d.needThen 3 (Du.blockDynamic bfinal)) s
/-- `BLOCK.RESERVED`: `DATA_ERROR` "invalid block type" (44_inflate_engine.md R318). -/
def execBlockReserved (bfinal : Bool) (s : State) : Host.Outcome State Fault Refusal :=
  onStream (fun d => d.needThen 3 (Du.blockReserved bfinal)) s

/-! ## Stored and dynamic headers -/

/-- `STORED.LEN_NLEN` (44_inflate_engine.md R319). -/
def execStoredLenNlen (len nlen : Word16) (s : State) : Host.Outcome State Fault Refusal :=
  onStream (fun d => d.bytebits.needThen 32 (Du.storedLengths len nlen)) s
/-- `DYNAMIC.COUNTS` (44_inflate_engine.md R321). -/
def execDynamicCounts (hlit hdist : BitVec 5) (hclen : BitVec 4) (s : State) : Host.Outcome State Fault Refusal :=
  onStream (fun d => d.needThen 14 (Du.dynamicCounts hlit.toNat hdist.toNat hclen.toNat)) s
/-- `DYNAMIC.CLLEN` (44_inflate_engine.md R322). -/
def execDynamicCllen (v : BitVec 3) (s : State) : Host.Outcome State Fault Refusal :=
  onStream (fun d => d.needThen 3 (Du.storeClLen v.toNat)) s

/-! ## Code-length symbols, their code already dropped -/

/-- `CL.LENGTH` (44_inflate_engine.md R323). -/
def execClLength (len : BitVec 4) (s : State) : Host.Outcome State Fault Refusal := onStream (Du.clLength 0 len.toNat) s
/-- `CL.COPY_PREV` (44_inflate_engine.md R323). -/
def execClCopyPrev (s : State) : Host.Outcome State Fault Refusal := onStream (Du.clCopyPrev 0) s
/-- `CL.ZEROS_SHORT` (44_inflate_engine.md R323). -/
def execClZerosShort (s : State) : Host.Outcome State Fault Refusal := onStream (Du.clZeros 0 3 3) s
/-- `CL.ZEROS_LONG` (44_inflate_engine.md R323). -/
def execClZerosLong (s : State) : Host.Outcome State Fault Refusal := onStream (Du.clZeros 0 11 7) s

/-! ## Fixed-code words: the code, then its symbol (30_encoding.md R110) -/

/-- A literal/length symbol by number, its code dropped (30_encoding.md R116, R118). -/
def Du.llSymbol (s : Nat) (d : Du) : Du :=
  if s < 256 then d.symLit s
  else if s = 256 then d.symEob
  else if s < 286 then d.symLen (baseLength (s - 257)) (extraLbits (s - 257))
  else d.symLlInvalid

/-- A distance symbol by number, its code dropped (30_encoding.md R117, R119). -/
def Du.distSymbol (s : Nat) (d : Du) : Du :=
  if s < 30 then d.symDist (baseDist s) (extraDbits s) else d.symDistInvalid

/-- `FIXED.LIT_0_143`: an 8-bit code. -/
def execFixedLit0To143 (sym : Byte) (s : State) : Host.Outcome State Fault Refusal :=
  onStream (fun d => d.needThen 8 fun d => (d.drop 8).llSymbol sym.toNat) s
/-- `FIXED.LIT_144_255`: a 9-bit code. -/
def execFixedLit144To255 (sym : Byte) (s : State) : Host.Outcome State Fault Refusal :=
  onStream (fun d => d.needThen 9 fun d => (d.drop 9).llSymbol sym.toNat) s
/-- `FIXED.LL_256_279`: a 7-bit code. -/
def execFixedLl256To279 (sym : BitVec 9) (s : State) : Host.Outcome State Fault Refusal :=
  onStream (fun d => d.needThen 7 fun d => (d.drop 7).llSymbol sym.toNat) s
/-- `FIXED.LL_280_287`: an 8-bit code. -/
def execFixedLl280To287 (sym : BitVec 9) (s : State) : Host.Outcome State Fault Refusal :=
  onStream (fun d => d.needThen 8 fun d => (d.drop 8).llSymbol sym.toNat) s
/-- `FIXED.DIST`: a 5-bit code. -/
def execFixedDist (sym : BitVec 5) (s : State) : Host.Outcome State Fault Refusal :=
  onStream (fun d => d.needThen 5 fun d => (d.drop 5).distSymbol sym.toNat) s

/-! ## Decode-table entries: executed by the state that looks them up (log entry 16) -/

/-- What the state `MODE` does with a complete entry (44_inflate_engine.md R323, R324, R326). -/
def Du.applyEntry (here : Word32) (d : Du) : Du :=
  match d.mode with
  | .codelens => d.applyCl here
  | .dist => d.applyDist here
  | _ => d.applyLl here

/-- An entry that is no link: its bits are fetched, then it acts. -/
def Du.execEntry (here : Word32) (d : Du) : Du := d.needThen (entryBits here) fun d => d.applyEntry here

/-- `ENTRY.LITERAL`: `OP = 0`. -/
def execEntryLiteral (bits : Byte) (val : Word16) (s : State) : Host.Outcome State Fault Refusal :=
  onStream (Du.execEntry (mkEntry 0 bits.toNat val.toNat)) s
/-- `ENTRY.LINK`: `OP = 1..9`, a second lookup in the table of the state; a code-length table has no links, so `CODELENS`
takes the entry as it is. -/
def execEntryLink (bits : Byte) (width : BitVec 4) (val : Word16) (s : State) : Host.Outcome State Fault Refusal :=
  onStream (fun d => d.needThen bits.toNat fun d =>
    let here := mkEntry width.toNat bits.toNat val.toNat
    match d.mode with
    | .codelens => d.applyCl here
    | .dist => d.viaLink d.distcode here fun e d => d.applyDist e
    | _ => d.viaLink d.lencode here fun e d => d.applyLl e) s
/-- `ENTRY.BASE`: `OP = 16 + extra`. -/
def execEntryBase (bits : Byte) (extra : BitVec 4) (val : Word16) (s : State) : Host.Outcome State Fault Refusal :=
  onStream (Du.execEntry (mkEntry (16 + extra.toNat) bits.toNat val.toNat)) s
/-- `ENTRY.END_OF_BLOCK`: `OP = 96`. -/
def execEntryEndOfBlock (bits : Byte) (s : State) : Host.Outcome State Fault Refusal :=
  onStream (Du.execEntry (mkEntry 96 bits.toNat 0)) s
/-- `ENTRY.INVALID`: `OP = 64`. -/
def execEntryInvalid (bits : Byte) (s : State) : Host.Outcome State Fault Refusal :=
  onStream (Du.execEntry (mkEntry 64 bits.toNat 0)) s

end Sys2Proof.Machine
end

