-- ==== Sys2Proof/Machine/Framing.lean ====
section
/-! DEFINITION. The framing fields as instructions (30_encoding.md R105, R106; 44_inflate_engine.md R303 to R312). A header is
executed by the states that read it; a gzip flag bit by the state it governs (log entry 17). -/

namespace Sys2Proof.Machine

/-- Two header bytes in state `HEAD`; in raw mode nothing is read (44_inflate_engine.md R303). -/
def Du.headBytes (w : Nat) (d : Du) : Du := if d.wrap = 0 then { d with mode := .type } else d.needThen 16 (Du.headWord w)

/-- `ZLIB.HEADER`: `CMF` is `CINFO` above the method 8, `FLG` is `FLEVEL`, `FDICT`, `FCHECK` (44_inflate_engine.md R304). -/
def execZlibHeader (cinfo : BitVec 4) (flevel : BitVec 2) (fdict : Bool) (fcheck : BitVec 5) (s : State) :
    Host.Outcome State Fault Refusal :=
  onStream (Du.headBytes ((16 * cinfo.toNat + 8) + 256 * (64 * flevel.toNat + 32 * fdict.toNat + fcheck.toNat))) s

/-- `GZIP.HEADER`: the magic, then `FLAGS`, `TIME` and `OS` (44_inflate_engine.md R303, R305 to R307). -/
def execGzipHeader (flg : BitVec 5) (mtime : Word32) (xfl os : Byte) (s : State) : Host.Outcome State Fault Refusal :=
  onStream (fun d =>
    (((d.headBytes 0x8B1F).fallInto .flags fun d => d.needThen 16 (Du.flagsWord (word16Of (8 + 256 * flg.toNat)))).fallInto
      .time fun d => d.needThen 32 (Du.timeWord mtime)).fallInto .os fun d => d.needThen 16 (Du.osBytes xfl os)) s

/-- The `FLAGS` register with one more bit set. -/
def Du.setFlag (k : Nat) (d : Du) : Du := { d with flags := d.flags ||| (1#16 <<< k) }

/-- `GZIP.FTEXT`: the state `FLAGS` with the bit set in its second byte; it is captured, and has no other effect
(44_inflate_engine.md R305). -/
def execGzipFtext (s : State) : Host.Outcome State Fault Refusal :=
  onStream (fun d => d.needThen 16 fun d => d.flagsWord (d.hold.setWidth 16 ||| 0x0100#16)) s
/-- `GZIP.FHCRC`: the state `HCRC` checks the header CRC (44_inflate_engine.md R312). -/
def execGzipFhcrc (s : State) : Host.Outcome State Fault Refusal := onStream (fun d => (d.setFlag 9).ruleHcrc) s
/-- `GZIP.FEXTRA`: the state `EXLEN` reads the extra field's length, and `EXTRA` its bytes (44_inflate_engine.md R308,
R309). -/
def execGzipFextra (s : State) : Host.Outcome State Fault Refusal :=
  onStream (fun d => (d.setFlag 10).ruleExlen) s
/-- `GZIP.FNAME`: the state `NAME` reads the name (44_inflate_engine.md R310). -/
def execGzipFname (s : State) : Host.Outcome State Fault Refusal := onStream (fun d => (d.setFlag 11).ruleName) s
/-- `GZIP.FCOMMENT`: the state `COMMENT` reads the comment (44_inflate_engine.md R311). -/
def execGzipFcomment (s : State) : Host.Outcome State Fault Refusal := onStream (fun d => (d.setFlag 12).ruleComment) s
/-- `GZIP.FLG_RESERVED`: the state `FLAGS` with a reserved bit, `DATA_ERROR` "unknown header flags set"
(44_inflate_engine.md R305). -/
def execGzipFlgReserved (flg : Byte) (s : State) : Host.Outcome State Fault Refusal :=
  onStream (fun d => d.needThen 16 (Du.flagsWord (word16Of (8 + 256 * flg.toNat)))) s

end Sys2Proof.Machine
end

