-- ==== Sys2Proof/Machine/Symbols.lean ====
section
/-! DEFINITION. The symbols of the literal/length and distance alphabets, their code already dropped (30_encoding.md R116 to
R119; 44_inflate_engine.md R324 to R329). A length reads its extra bits and waits for the distance; a distance reads its
extra bits and copies the match. Base and extra-bits count are written out per symbol from the tables of R118 and R119. -/

namespace Sys2Proof.Machine

/-- `LIT`: outputs the byte (30_encoding.md R116). -/
def execLit (b : Byte) (s : State) : Host.Outcome State Fault Refusal := onStream (Du.symLit b.toNat) s
/-- `EOB`: symbol 256, back to `TYPE` (30_encoding.md R116). -/
def execEob (s : State) : Host.Outcome State Fault Refusal := onStream Du.symEob s

/-! ## Length symbols (30_encoding.md R118): base, extra bits -/

/-- `LEN_257`. -/
def execLen257 (s : State) : Host.Outcome State Fault Refusal := onStream (Du.symLen 3 0) s
/-- `LEN_258`. -/
def execLen258 (s : State) : Host.Outcome State Fault Refusal := onStream (Du.symLen 4 0) s
/-- `LEN_259`. -/
def execLen259 (s : State) : Host.Outcome State Fault Refusal := onStream (Du.symLen 5 0) s
/-- `LEN_260`. -/
def execLen260 (s : State) : Host.Outcome State Fault Refusal := onStream (Du.symLen 6 0) s
/-- `LEN_261`. -/
def execLen261 (s : State) : Host.Outcome State Fault Refusal := onStream (Du.symLen 7 0) s
/-- `LEN_262`. -/
def execLen262 (s : State) : Host.Outcome State Fault Refusal := onStream (Du.symLen 8 0) s
/-- `LEN_263`. -/
def execLen263 (s : State) : Host.Outcome State Fault Refusal := onStream (Du.symLen 9 0) s
/-- `LEN_264`. -/
def execLen264 (s : State) : Host.Outcome State Fault Refusal := onStream (Du.symLen 10 0) s
/-- `LEN_265`. -/
def execLen265 (s : State) : Host.Outcome State Fault Refusal := onStream (Du.symLen 11 1) s
/-- `LEN_266`. -/
def execLen266 (s : State) : Host.Outcome State Fault Refusal := onStream (Du.symLen 13 1) s
/-- `LEN_267`. -/
def execLen267 (s : State) : Host.Outcome State Fault Refusal := onStream (Du.symLen 15 1) s
/-- `LEN_268`. -/
def execLen268 (s : State) : Host.Outcome State Fault Refusal := onStream (Du.symLen 17 1) s
/-- `LEN_269`. -/
def execLen269 (s : State) : Host.Outcome State Fault Refusal := onStream (Du.symLen 19 2) s
/-- `LEN_270`. -/
def execLen270 (s : State) : Host.Outcome State Fault Refusal := onStream (Du.symLen 23 2) s
/-- `LEN_271`. -/
def execLen271 (s : State) : Host.Outcome State Fault Refusal := onStream (Du.symLen 27 2) s
/-- `LEN_272`. -/
def execLen272 (s : State) : Host.Outcome State Fault Refusal := onStream (Du.symLen 31 2) s
/-- `LEN_273`. -/
def execLen273 (s : State) : Host.Outcome State Fault Refusal := onStream (Du.symLen 35 3) s
/-- `LEN_274`. -/
def execLen274 (s : State) : Host.Outcome State Fault Refusal := onStream (Du.symLen 43 3) s
/-- `LEN_275`. -/
def execLen275 (s : State) : Host.Outcome State Fault Refusal := onStream (Du.symLen 51 3) s
/-- `LEN_276`. -/
def execLen276 (s : State) : Host.Outcome State Fault Refusal := onStream (Du.symLen 59 3) s
/-- `LEN_277`. -/
def execLen277 (s : State) : Host.Outcome State Fault Refusal := onStream (Du.symLen 67 4) s
/-- `LEN_278`. -/
def execLen278 (s : State) : Host.Outcome State Fault Refusal := onStream (Du.symLen 83 4) s
/-- `LEN_279`. -/
def execLen279 (s : State) : Host.Outcome State Fault Refusal := onStream (Du.symLen 99 4) s
/-- `LEN_280`. -/
def execLen280 (s : State) : Host.Outcome State Fault Refusal := onStream (Du.symLen 115 4) s
/-- `LEN_281`. -/
def execLen281 (s : State) : Host.Outcome State Fault Refusal := onStream (Du.symLen 131 5) s
/-- `LEN_282`. -/
def execLen282 (s : State) : Host.Outcome State Fault Refusal := onStream (Du.symLen 163 5) s
/-- `LEN_283`. -/
def execLen283 (s : State) : Host.Outcome State Fault Refusal := onStream (Du.symLen 195 5) s
/-- `LEN_284`. -/
def execLen284 (s : State) : Host.Outcome State Fault Refusal := onStream (Du.symLen 227 5) s
/-- `LEN_285`. -/
def execLen285 (s : State) : Host.Outcome State Fault Refusal := onStream (Du.symLen 258 0) s

/-- `LL_RESERVED`: symbols 286 and 287, `DATA_ERROR` "invalid literal/length code" (30_encoding.md R116, R122). Both act
alike. -/
def execLlReserved (_odd : Bool) (s : State) : Host.Outcome State Fault Refusal := onStream Du.symLlInvalid s

/-! ## Distance symbols (30_encoding.md R119): base, extra bits -/

/-- `DIST_0`. -/
def execDist0 (s : State) : Host.Outcome State Fault Refusal := onStream (Du.symDist 1 0) s
/-- `DIST_1`. -/
def execDist1 (s : State) : Host.Outcome State Fault Refusal := onStream (Du.symDist 2 0) s
/-- `DIST_2`. -/
def execDist2 (s : State) : Host.Outcome State Fault Refusal := onStream (Du.symDist 3 0) s
/-- `DIST_3`. -/
def execDist3 (s : State) : Host.Outcome State Fault Refusal := onStream (Du.symDist 4 0) s
/-- `DIST_4`. -/
def execDist4 (s : State) : Host.Outcome State Fault Refusal := onStream (Du.symDist 5 1) s
/-- `DIST_5`. -/
def execDist5 (s : State) : Host.Outcome State Fault Refusal := onStream (Du.symDist 7 1) s
/-- `DIST_6`. -/
def execDist6 (s : State) : Host.Outcome State Fault Refusal := onStream (Du.symDist 9 2) s
/-- `DIST_7`. -/
def execDist7 (s : State) : Host.Outcome State Fault Refusal := onStream (Du.symDist 13 2) s
/-- `DIST_8`. -/
def execDist8 (s : State) : Host.Outcome State Fault Refusal := onStream (Du.symDist 17 3) s
/-- `DIST_9`. -/
def execDist9 (s : State) : Host.Outcome State Fault Refusal := onStream (Du.symDist 25 3) s
/-- `DIST_10`. -/
def execDist10 (s : State) : Host.Outcome State Fault Refusal := onStream (Du.symDist 33 4) s
/-- `DIST_11`. -/
def execDist11 (s : State) : Host.Outcome State Fault Refusal := onStream (Du.symDist 49 4) s
/-- `DIST_12`. -/
def execDist12 (s : State) : Host.Outcome State Fault Refusal := onStream (Du.symDist 65 5) s
/-- `DIST_13`. -/
def execDist13 (s : State) : Host.Outcome State Fault Refusal := onStream (Du.symDist 97 5) s
/-- `DIST_14`. -/
def execDist14 (s : State) : Host.Outcome State Fault Refusal := onStream (Du.symDist 129 6) s
/-- `DIST_15`. -/
def execDist15 (s : State) : Host.Outcome State Fault Refusal := onStream (Du.symDist 193 6) s
/-- `DIST_16`. -/
def execDist16 (s : State) : Host.Outcome State Fault Refusal := onStream (Du.symDist 257 7) s
/-- `DIST_17`. -/
def execDist17 (s : State) : Host.Outcome State Fault Refusal := onStream (Du.symDist 385 7) s
/-- `DIST_18`. -/
def execDist18 (s : State) : Host.Outcome State Fault Refusal := onStream (Du.symDist 513 8) s
/-- `DIST_19`. -/
def execDist19 (s : State) : Host.Outcome State Fault Refusal := onStream (Du.symDist 769 8) s
/-- `DIST_20`. -/
def execDist20 (s : State) : Host.Outcome State Fault Refusal := onStream (Du.symDist 1025 9) s
/-- `DIST_21`. -/
def execDist21 (s : State) : Host.Outcome State Fault Refusal := onStream (Du.symDist 1537 9) s
/-- `DIST_22`. -/
def execDist22 (s : State) : Host.Outcome State Fault Refusal := onStream (Du.symDist 2049 10) s
/-- `DIST_23`. -/
def execDist23 (s : State) : Host.Outcome State Fault Refusal := onStream (Du.symDist 3073 10) s
/-- `DIST_24`. -/
def execDist24 (s : State) : Host.Outcome State Fault Refusal := onStream (Du.symDist 4097 11) s
/-- `DIST_25`. -/
def execDist25 (s : State) : Host.Outcome State Fault Refusal := onStream (Du.symDist 6145 11) s
/-- `DIST_26`. -/
def execDist26 (s : State) : Host.Outcome State Fault Refusal := onStream (Du.symDist 8193 12) s
/-- `DIST_27`. -/
def execDist27 (s : State) : Host.Outcome State Fault Refusal := onStream (Du.symDist 12289 12) s
/-- `DIST_28`. -/
def execDist28 (s : State) : Host.Outcome State Fault Refusal := onStream (Du.symDist 16385 13) s
/-- `DIST_29`. -/
def execDist29 (s : State) : Host.Outcome State Fault Refusal := onStream (Du.symDist 24577 13) s

/-- `DIST_RESERVED`: symbols 30 and 31, `DATA_ERROR` "invalid distance code" (30_encoding.md R117, R122). Both act alike. -/
def execDistReserved (_odd : Bool) (s : State) : Host.Outcome State Fault Refusal := onStream Du.symDistInvalid s

end Sys2Proof.Machine
end

