-- ==== Sys2Proof/Machine/Dispatch.lean ====
section
/-! DEFINITION. The dispatch of every instruction to its meaning. -/

namespace Sys2Proof.Machine

/-- The meaning of an instruction: one arm per constructor of `Instr`. -/
def exec (i : Instr) (s : State) : Host.Outcome State Fault Refusal :=
  match i with
  | .dflInit => Sys2Proof.Machine.execDflInit s
  | .dflSetdict => Sys2Proof.Machine.execDflSetdict s
  | .dflPush => Sys2Proof.Machine.execDflPush s
  | .dflReset => Sys2Proof.Machine.execDflReset s
  | .dflEnd => Sys2Proof.Machine.execDflEnd s
  | .dflStat => Sys2Proof.Machine.execDflStat s
  | .iflInit => Sys2Proof.Machine.execIflInit s
  | .iflSetdict => Sys2Proof.Machine.execIflSetdict s
  | .iflPush => Sys2Proof.Machine.execIflPush s
  | .iflReset => Sys2Proof.Machine.execIflReset s
  | .iflEnd => Sys2Proof.Machine.execIflEnd s
  | .iflGethdr => Sys2Proof.Machine.execIflGethdr s
  | .iflStat => Sys2Proof.Machine.execIflStat s
  | .flushNoFlush => Sys2Proof.Machine.execFlushNoFlush s
  | .flushPartialFlush => Sys2Proof.Machine.execFlushPartialFlush s
  | .flushSyncFlush => Sys2Proof.Machine.execFlushSyncFlush s
  | .flushFullFlush => Sys2Proof.Machine.execFlushFullFlush s
  | .flushFinish => Sys2Proof.Machine.execFlushFinish s
  | .flushBlock => Sys2Proof.Machine.execFlushBlock s
  | .blockStored a => Sys2Proof.Machine.execBlockStored a s
  | .blockFixed a => Sys2Proof.Machine.execBlockFixed a s
  | .blockDynamic a => Sys2Proof.Machine.execBlockDynamic a s
  | .blockReserved a => Sys2Proof.Machine.execBlockReserved a s
  | .storedLenNlen a b => Sys2Proof.Machine.execStoredLenNlen a b s
  | .dynamicCounts a b c => Sys2Proof.Machine.execDynamicCounts a b c s
  | .dynamicCllen a => Sys2Proof.Machine.execDynamicCllen a s
  | .clLength a => Sys2Proof.Machine.execClLength a s
  | .clCopyPrev => Sys2Proof.Machine.execClCopyPrev s
  | .clZerosShort => Sys2Proof.Machine.execClZerosShort s
  | .clZerosLong => Sys2Proof.Machine.execClZerosLong s
  | .lit a => Sys2Proof.Machine.execLit a s
  | .eob => Sys2Proof.Machine.execEob s
  | .len257 => Sys2Proof.Machine.execLen257 s
  | .len258 => Sys2Proof.Machine.execLen258 s
  | .len259 => Sys2Proof.Machine.execLen259 s
  | .len260 => Sys2Proof.Machine.execLen260 s
  | .len261 => Sys2Proof.Machine.execLen261 s
  | .len262 => Sys2Proof.Machine.execLen262 s
  | .len263 => Sys2Proof.Machine.execLen263 s
  | .len264 => Sys2Proof.Machine.execLen264 s
  | .len265 => Sys2Proof.Machine.execLen265 s
  | .len266 => Sys2Proof.Machine.execLen266 s
  | .len267 => Sys2Proof.Machine.execLen267 s
  | .len268 => Sys2Proof.Machine.execLen268 s
  | .len269 => Sys2Proof.Machine.execLen269 s
  | .len270 => Sys2Proof.Machine.execLen270 s
  | .len271 => Sys2Proof.Machine.execLen271 s
  | .len272 => Sys2Proof.Machine.execLen272 s
  | .len273 => Sys2Proof.Machine.execLen273 s
  | .len274 => Sys2Proof.Machine.execLen274 s
  | .len275 => Sys2Proof.Machine.execLen275 s
  | .len276 => Sys2Proof.Machine.execLen276 s
  | .len277 => Sys2Proof.Machine.execLen277 s
  | .len278 => Sys2Proof.Machine.execLen278 s
  | .len279 => Sys2Proof.Machine.execLen279 s
  | .len280 => Sys2Proof.Machine.execLen280 s
  | .len281 => Sys2Proof.Machine.execLen281 s
  | .len282 => Sys2Proof.Machine.execLen282 s
  | .len283 => Sys2Proof.Machine.execLen283 s
  | .len284 => Sys2Proof.Machine.execLen284 s
  | .len285 => Sys2Proof.Machine.execLen285 s
  | .llReserved a => Sys2Proof.Machine.execLlReserved a s
  | .dist0 => Sys2Proof.Machine.execDist0 s
  | .dist1 => Sys2Proof.Machine.execDist1 s
  | .dist2 => Sys2Proof.Machine.execDist2 s
  | .dist3 => Sys2Proof.Machine.execDist3 s
  | .dist4 => Sys2Proof.Machine.execDist4 s
  | .dist5 => Sys2Proof.Machine.execDist5 s
  | .dist6 => Sys2Proof.Machine.execDist6 s
  | .dist7 => Sys2Proof.Machine.execDist7 s
  | .dist8 => Sys2Proof.Machine.execDist8 s
  | .dist9 => Sys2Proof.Machine.execDist9 s
  | .dist10 => Sys2Proof.Machine.execDist10 s
  | .dist11 => Sys2Proof.Machine.execDist11 s
  | .dist12 => Sys2Proof.Machine.execDist12 s
  | .dist13 => Sys2Proof.Machine.execDist13 s
  | .dist14 => Sys2Proof.Machine.execDist14 s
  | .dist15 => Sys2Proof.Machine.execDist15 s
  | .dist16 => Sys2Proof.Machine.execDist16 s
  | .dist17 => Sys2Proof.Machine.execDist17 s
  | .dist18 => Sys2Proof.Machine.execDist18 s
  | .dist19 => Sys2Proof.Machine.execDist19 s
  | .dist20 => Sys2Proof.Machine.execDist20 s
  | .dist21 => Sys2Proof.Machine.execDist21 s
  | .dist22 => Sys2Proof.Machine.execDist22 s
  | .dist23 => Sys2Proof.Machine.execDist23 s
  | .dist24 => Sys2Proof.Machine.execDist24 s
  | .dist25 => Sys2Proof.Machine.execDist25 s
  | .dist26 => Sys2Proof.Machine.execDist26 s
  | .dist27 => Sys2Proof.Machine.execDist27 s
  | .dist28 => Sys2Proof.Machine.execDist28 s
  | .dist29 => Sys2Proof.Machine.execDist29 s
  | .distReserved a => Sys2Proof.Machine.execDistReserved a s
  | .fixedLit0To143 a => Sys2Proof.Machine.execFixedLit0To143 a s
  | .fixedLit144To255 a => Sys2Proof.Machine.execFixedLit144To255 a s
  | .fixedLl256To279 a => Sys2Proof.Machine.execFixedLl256To279 a s
  | .fixedLl280To287 a => Sys2Proof.Machine.execFixedLl280To287 a s
  | .fixedDist a => Sys2Proof.Machine.execFixedDist a s
  | .entryLiteral a b => Sys2Proof.Machine.execEntryLiteral a b s
  | .entryLink a b c => Sys2Proof.Machine.execEntryLink a b c s
  | .entryBase a b c => Sys2Proof.Machine.execEntryBase a b c s
  | .entryEndOfBlock a => Sys2Proof.Machine.execEntryEndOfBlock a s
  | .entryInvalid a => Sys2Proof.Machine.execEntryInvalid a s
  | .zlibHeader a b c d => Sys2Proof.Machine.execZlibHeader a b c d s
  | .gzipHeader a b c d => Sys2Proof.Machine.execGzipHeader a b c d s
  | .gzipFtext => Sys2Proof.Machine.execGzipFtext s
  | .gzipFhcrc => Sys2Proof.Machine.execGzipFhcrc s
  | .gzipFextra => Sys2Proof.Machine.execGzipFextra s
  | .gzipFname => Sys2Proof.Machine.execGzipFname s
  | .gzipFcomment => Sys2Proof.Machine.execGzipFcomment s
  | .gzipFlgReserved a => Sys2Proof.Machine.execGzipFlgReserved a s

end Sys2Proof.Machine
end

