-- ==== Sys2Proof/Machine/Fetch.lean ====
section
/-! DEFINITION. Fetching: the host's next command, and where a word of the opcode table has to stand for the next step to
fetch it (log entries 3 and 5). -/

namespace Sys2Proof.Machine

namespace State

/-- The oldest command not yet begun, with its operands in the port, or `none` when the host has issued none. -/
def fetchCommand (s : State) : Option (Byte × State) :=
  match s.cmds with
  | [] => none
  | c :: rest => some (c.opcode, { s with cmds := rest, port := c.ops })

/-- A command at the head of the queue, for a unit with no push in progress. -/
def placeCommand (opcode : Byte) (flush : Int) (s : State) : State :=
  { s with
    cmds := ⟨opcode, { s.port with flush := flush }⟩ :: s.cmds
    du := { s.du with ctl := .idle } }

end State

namespace Du

/-- A push in progress in state `m`, at a byte boundary, with `bytes` as its input and room for output. -/
def placeInput (m : Mode) (bytes : List Byte) (d : Du) : Du :=
  { d with ctl := .run, mode := m, cur := Cursor.start bytes 64, checked := 0, hold := 0, bits := 0 }

/-- A decode table of one entry, which takes no bits: the next lookup finds it. The input holds zeros. -/
def placeEntry (m : Mode) (e : Word32) (d : Du) : Du :=
  { d.placeInput m [0#8, 0#8, 0#8, 0#8] with
    codes := Mem.wr codesSize d.codes 0 e
    lencode := ⟨.codes, 0⟩, lenbits := 0, distcode := ⟨.codes, 0⟩, distbits := 0 }

/-- A decode table of one entry in state `CODELENS`, at the first of the code lengths. -/
def placeCl (e : Word32) (d : Du) : Du := { d.placeEntry .codelens e with haveCount := 0, nlen := 257, ndist := 1 }

/-- Bytes in state `HEAD` with every framing allowed. -/
def placeFraming (bytes : List Byte) (d : Du) : Du := { d.placeInput .head bytes with wrap := 3, wbits := 15 }

/-- Bytes in a fixed-code block in state `m`. -/
def placeFixed (m : Mode) (bytes : List Byte) (d : Du) : Du :=
  { d.placeInput m bytes with lencode := ⟨.lenfix, 0⟩, lenbits := 9, distcode := ⟨.distfix, 0⟩, distbits := 5 }

/-- The gzip header state a flag bit governs, with that bit set beside the method byte. -/
def placeFlag (m : Mode) (flags : Word16) (d : Du) : Du :=
  { d.placeInput m [0#8, 0#8, 0#8, 0#8] with flags := flags, length := 0 }

/-- `DU` standing where its next round of the state loop reads exactly the word `w` of format `f`. -/
def place (f : Format) (w : Nat) (d : Du) : Du :=
  match f with
  | .command | .flushOperand => d
  | .blockHeader => { d.placeInput .type (bytesOfWord f w) with last := false }
  | .storedHeader => d.placeInput .stored (bytesOfWord f w)
  | .dynamicHeader => d.placeInput .table (bytesOfWord f w)
  | .clLen => { d.placeInput .lenlens (bytesOfWord f w) with haveCount := 0, ncode := 4 }
  | .clSymbol => d.placeCl (tableEntry .codes w 0)
  | .llSymbol => d.placeEntry .len (lensEntry w 0)
  | .distSymbol => d.placeEntry .dist (distsEntry w 0)
  | .fixedLl => d.placeFixed .len (bytesOfWord f w)
  | .fixedDist => d.placeFixed .dist (bytesOfWord f w)
  | .tableEntry => d.placeEntry .len (word32Of w)
  | .zlibHeader => d.placeFraming (bytesOfWord f w)
  | .gzipHeader => d.placeFraming (bytesOfWord f w)
  | .gzipFlg =>
    if w = 2 then d.placeFlag .hcrc 0x0208
    else if w = 4 then d.placeFlag .exlen 0x0408
    else if w = 8 then d.placeFlag .name 0x0808
    else if w = 16 then d.placeFlag .comment 0x1008
    else d.placeInput .flags [8#8, byteOf w]

end Du

namespace State

/-- The machine with the instruction of a table word standing where the next step fetches: a command, or the flush operand of
a push, at the head of the queue; an instruction of the bitstream in the input of a push in progress. A word that is no
instruction is issued as a command, which the step answers as a reserved opcode. -/
def placeWord (nbits w : Nat) (s : State) : State :=
  match decodeTableWord nbits w with
  | none => s.placeCommand (byteOf w) s.port.flush
  | some i =>
    match i.format with
    | .command => s.placeCommand (byteOf i.word) s.port.flush
    | .flushOperand => s.placeCommand 3 i.word
    | f => { s with du := s.du.place f i.word }

end State

end Sys2Proof.Machine
end

