-- ==== Sys2Proof/Machine/Step.lean ====
section
/-! DEFINITION. One step of the machine: a round of the push in progress, or the next command (44_inflate_engine.md R302,
46_host_commands.md R370). -/

namespace Sys2Proof.Machine

/-- One step. While a push of `DU` is in progress the step is one round of its state loop, or its return. Otherwise the next
command runs; with none issued the machine is idle and keeps its state (70_reset_and_hazards.md R450; log entry 18). -/
def step (s : State) : Host.Outcome State Fault Refusal :=
  if s.du.ctl = .idle then
    match s.fetchCommand with
    | none => .next s
    | some (opcode, s1) =>
      match decode .command opcode.toNat with
      | .ok i => exec i s1
      | .error _ => .next s1.reservedOpcode
  else .next s.pushStep

/-- `s` with the instruction of the table word `w` standing where the next step fetches it (log entry 5). -/
def State.withFetchWord (s : State) (nbits w : Nat) : State := s.placeWord nbits w

end Sys2Proof.Machine
end

