-- ==== Sys2Proof/Machine/HostLoop.lean ====
section
/-! DEFINITION. The pseudo-commands of the host (46_host_commands.md R384, R385): loops over the commands, outside the step
(log entry 19). They are surrounding software, specified because the scenarios are stated through them. A loop takes the
largest number of pushes it may issue. -/

namespace Sys2Proof.Machine

/-- The options of the one-shot wrappers (46_host_commands.md R385), each of which may be absent. -/
structure WrapperOptions where
  level      : Option Int
  windowBits : Option Int
  memLevel   : Option Int
  strategy   : Option Int
  gzipHeader : Option GzHeader
  dictionary : Option (List Byte)
deriving DecidableEq, Repr, Inhabited

/-- `options.window_bits`, its default where it is absent (46_host_commands.md R371). -/
def WrapperOptions.window (o : WrapperOptions) : Int := o.windowBits.getD Config.defaultWindowBits

/-- The operands of the init command that the options mean: an absent option has the host wrapper's default
(46_host_commands.md R371, 00_scope.md R8, 92_eei_decisions.md D6). -/
def WrapperOptions.operands (o : WrapperOptions) : Operands :=
  { (default : Operands) with
    level := o.level.getD Config.defaultLevel
    windowBits := o.window
    memLevel := o.memLevel.getD Config.defaultMemLevel
    strategy := o.strategy.getD Config.defaultStrategy
    gzipHeader := o.gzipHeader }

/-- A wrapper's error: the status, and the message id read from the unit (46_host_commands.md R385). -/
structure WrapperError where
  status : Status
  msg    : Msg
deriving DecidableEq, Repr

/-- The text an error carries: of `MSG` if it is not 0, else of the status (46_host_commands.md R385). -/
def WrapperError.text (e : WrapperError) : String := if e.msg = .none then e.status.text else e.msg.text

namespace State

/-- The host issues one command with operands `o` and waits for its result. -/
def call (meaning : State → Answer) (o : Operands) (s : State) : State × Result :=
  match meaning { s with port := o } with
  | .next t => (t, t.result.getD (Result.ofStatus .ok))
  | _ => (s, Result.ofStatus .streamError)

/-- The host's default operands with an input, a flush value and output space. -/
def pushOps (data : List Byte) (flush : Int) (chunk : Nat) : Operands :=
  { (default : Operands) with input := data, flush := flush, availOut := chunk }

/-- `DFL_STREAM_PUSH(data, flush)` (46_host_commands.md R384) with at most `fuel` pushes; `result` has been collected. -/
def dflStreamPush (chunk : Nat) (flush : Int) : Nat → List Byte → List Byte → State → State × Status × List Byte
  | 0, _, result, s => (s, .ok, result)
  | fuel + 1, data, result, s =>
    let (s1, r) := s.call execDflPush (pushOps data flush chunk)
    if r.status.isError then (s1, r.status, result)
    else
      let data1 := data.drop r.consumed
      let result1 := result ++ r.out
      if r.status = .streamEnd then (s1, .streamEnd, result1)
      else if data1.length = 0 ∧ r.out.length < chunk then (s1, .ok, result1)
      else dflStreamPush chunk flush fuel data1 result1 s1

/-- `IFL_STREAM_PUSH(data, dictionary)` (46_host_commands.md R384) with at most `fuel` pushes. -/
def iflStreamPush (chunk : Nat) (dict : Option (List Byte)) :
    Nat → List Byte → List Byte → State → State × Status × List Byte
  | 0, _, result, s => (s, .ok, result)
  | fuel + 1, data, result, s =>
    let (s1, r) := s.call execIflPush (pushOps data flushNo chunk)
    let data1 := data.drop r.consumed
    let result1 := result ++ r.out
    if r.status = .needDict then
      match dict with
      | none => (s1, .needDict, result1)
      | some d =>
        let (s2, r2) := s1.call execIflSetdict { (default : Operands) with dictionary := d }
        if r2.status.isError then (s2, r2.status, result1) else iflStreamPush chunk dict fuel data1 result1 s2
    else if r.status = .streamEnd then (s1, .streamEnd, result1)
    else if r.status = .bufError then (s1, .ok, result1)
    else if r.status.isError then (s1, r.status, result1)
    else if data1.length = 0 ∧ r.out.length < chunk then (s1, .ok, result1)
    else iflStreamPush chunk dict fuel data1 result1 s1

/-- `COMPRESS(bytes, options)` (46_host_commands.md R385). -/
def compress (chunk fuel : Nat) (bytes : List Byte) (o : WrapperOptions) (s : State) :
    State × Except WrapperError (List Byte) :=
  let (s1, r1) := s.call execDflInit o.operands
  if r1.status.isError then (s1, .error ⟨r1.status, .none⟩)
  else
    let (s2, r2) := match o.dictionary with
      | none => (s1, r1)
      | some d => s1.call execDflSetdict { (default : Operands) with dictionary := d }
    if r2.status.isError then ((s2.call execDflEnd default).1, .error ⟨r2.status, .none⟩)
    else
      let (s3, st, result) := dflStreamPush chunk flushFinish fuel bytes [] s2
      let s4 := (s3.call execDflEnd default).1
      (s4, if st ≠ .streamEnd then .error ⟨st, .none⟩ else .ok result)

/-- `DECOMPRESS(bytes, options)` (46_host_commands.md R385). -/
def decompress (chunk fuel : Nat) (bytes : List Byte) (o : WrapperOptions) (s : State) :
    State × Except WrapperError (List Byte) :=
  let (s1, r1) := s.call execIflInit { o.operands with capture := false }
  if r1.status.isError then (s1, .error ⟨r1.status, .none⟩)
  else
    let s2 := match o.dictionary with
      | some d => if o.window < 0 then (s1.call execIflSetdict { (default : Operands) with dictionary := d }).1 else s1
      | none => s1
    let (s3, st0, result) := iflStreamPush chunk o.dictionary fuel bytes [] s2
    let st := if st0 = .ok then .bufError else st0
    let (s4, r4) := s3.call execIflStat default
    let s5 := (s4.call execIflEnd default).1
    (s5, if st ≠ .streamEnd then .error ⟨st, (r4.stat.map (·.msg)).getD .none⟩ else .ok result)

end State

end Sys2Proof.Machine
end

