-- ==== Sys2Proof/Safety.lean ====
section
/-! DEFINITION. What holds of the machine between any two steps, in the terms the claims use (10_state.md R43, 20_memory.md
R72, R87; 10_state.md R25, R27). -/

namespace Sys2Proof.Machine

/-- Every memory of `CU` is in canonical form, with indexes inside the memory (20_memory.md R70, R72). -/
structure Cu.MemWf (c : Cu) : Prop where
  window     : Mem.wf c.windowSize c.window = true
  head       : Mem.wf c.hashSize c.head = true
  prev       : Mem.wf c.wSize c.prev = true
  pendingBuf : Mem.wf c.pendingSize c.pendingBuf = true
  dBuf       : Mem.wf c.litBufsize c.dBuf = true
  lBuf       : Mem.wf c.litBufsize c.lBuf = true
  dynLtree   : Mem.wf Config.heapSize c.dynLtree = true
  dynDtree   : Mem.wf (2 * Config.dCodes + 1) c.dynDtree = true
  blTree     : Mem.wf (2 * Config.blCodes + 1) c.blTree = true
  heap       : Mem.wf Config.heapSize c.heap = true
  depth      : Mem.wf Config.heapSize c.depth = true
  blCount    : Mem.wf (Config.maxBits + 1) c.blCount = true

/-- Every memory of `DU` is in canonical form, with indexes inside the memory (20_memory.md R70, R72). -/
structure Du.MemWf (d : Du) : Prop where
  codes   : Mem.wf Du.codesSize d.codes = true
  lens    : Mem.wf Du.lensSize d.lens = true
  work    : Mem.wf Du.workSize d.work = true
  hwindow : Mem.wf d.hwindowSize d.hwindow = true

/-- Every memory of the machine is in canonical form. -/
def State.MemWf (s : State) : Prop := s.cu.MemWf ∧ s.du.MemWf

/-- The history window's registers (10_state.md R43: `WHAVE <= WSIZE`, `WNEXT < WSIZE` when `WSIZE > 0`; 20_memory.md R87:
`WSIZE` is 0 until the first write, then `2^WBITS`). `linear`: until the window is full it is filled from index 0 on
(44_inflate_engine.md R342). -/
structure Du.HistoryWf (d : Du) : Prop where
  size   : d.wsize = 0 ∨ d.wsize = 2 ^ d.wbits
  valid  : d.whave ≤ d.wsize
  next   : 0 < d.wsize → d.wnext < d.wsize
  linear : d.whave < d.wsize → d.wnext = d.whave

/-- Cursors and temporaries do not persist between commands (10_state.md R25, R27; 44_inflate_engine.md R302). -/
structure State.BetweenCommands (s : State) : Prop where
  cuCursor  : s.cu.cur = Cursor.empty
  cuBflush  : s.cu.bflush = false
  duCursor  : s.du.ctl = .idle → s.du.cur = Cursor.empty ∧ s.du.checked = 0 ∧ s.du.pushFlush = 0

/-- The working registers of `CU` in their ranges while it has a stream: 10_state.md R43 (a), (d), (f), (g), the ranges of the
configuration registers (R23), and what (a) needs to last from step to step: a match found and not yet emitted lies inside the
look-ahead, in `FAST` none is left over (41_deflate_engine.md R190, R191). -/
structure Cu.Ranges (c : Cu) : Prop where
  wBits      : 9 ≤ c.wBits ∧ c.wBits ≤ 15
  litBufsize : 128 ≤ c.litBufsize
  window     : c.strstart + c.lookahead ≤ c.windowSize
  fastMatch  : c.func = .fast → c.matchLength ≤ 2
  slowMatch  : c.func = .slow → c.matchLength ≤ 2 ∨ c.matchLength ≤ c.lookahead + 1
  tally      : c.lastLit + 1 < c.litBufsize
  queue      : c.pendingOut < c.pendingSize
  bitCount   : c.biValid ≤ 16
  lengths    : ∀ n, (c.node .l n).len.toNat ≤ 15 ∧ (c.node .d n).len.toNat ≤ 15 ∧ (c.node .bl n).len.toNat ≤ 7

/-- The working registers of `DU` in their ranges: `BITS <= 32` (10_state.md R43), no bit of `HOLD` above them, and what that
needs to last from step to step: whole bytes where 32 bits are fetched, and code lengths, extra bits and decode-table entries as
the rules write them (43_table_decoder_fastloop.md R270, R274, R277; 44_inflate_engine.md R321). -/
structure Du.Ranges (d : Du) : Prop where
  hold   : d.hold.toNat < 2 ^ d.bits
  bits   : d.bits ≤ 32
  whole  : d.mode ∈ [.time, .dictid, .check, .length] → d.bits % 8 = 0
  extra  : d.extra ≤ 15
  counts : d.nlen ≤ 288 ∧ d.ndist ≤ 32
  lens   : ∀ i, d.lensAt i ≤ 15
  codes  : ∀ i, entryBits (d.codeAt i) ≤ 15 ∧ (isLink (d.codeAt i) = true → entryBits (d.codeAt i) ≤ 9)

/-- The states a run can be in. -/
structure State.Safe (s : State) : Prop where
  mem      : s.MemWf
  history  : s.du.HistoryWf
  cursors  : s.BetweenCommands
  cuRanges : s.cu.status ≠ .noStream → s.cu.Ranges
  duRanges : s.du.Ranges

/-! ## The bitstream as a number (10_state.md R32, 20_memory.md R76) -/

/-- The bits of the stream not yet taken, the next one lowest: `HOLD`, then the rest of the input. -/
def Du.ahead (d : Du) : Nat := d.hold.toNat + 2 ^ d.bits * leNat (d.cur.inp.drop d.cur.nextIn)

/-- How many bits of the stream are there to take. -/
def Du.aheadBits (d : Du) : Nat := d.bits + 8 * d.cur.availIn

/-- The bit accumulator (10_state.md R31, R43) and the input cursor (R25) in range. -/
structure Du.StreamWf (d : Du) : Prop where
  hold   : d.hold.toNat < 2 ^ d.bits
  bits   : d.bits ≤ 32
  cursor : d.cur.nextIn ≤ d.cur.inp.length

/-- A push runs and `n` bits of the stream are there. -/
structure Du.Ready (n : Nat) (d : Du) : Prop where
  run    : d.ctl = .run
  stream : d.StreamWf
  there  : n ≤ d.aheadBits

/-- `e` is `d` with the next `n` bits of the stream taken off and nothing else changed. -/
structure Du.Took (n : Nat) (d e : Du) : Prop where
  value  : e.ahead = d.ahead / 2 ^ n
  count  : e.aheadBits + n = d.aheadBits
  stream : e.StreamWf
  frame  : e = { d with hold := e.hold, bits := e.bits, cur := { d.cur with nextIn := e.cur.nextIn } }

/-! ## Decode tables (43_table_decoder_fastloop.md R277, R288) -/

/-- `lookup(b)` (43_table_decoder_fastloop.md R288) in the table `r` of root width `width`: the entry of the code that stands
first in `b`, and how many bits the code has. -/
def Du.lookup (r : TableRef) (width b : Nat) (d : Du) : Word32 × Nat :=
  let here := d.tableAt r (b % 2 ^ width)
  if Du.isLink here then
    let sub := d.tableAt r (entryVal here + b / 2 ^ entryBits here % 2 ^ entryOp here)
    (sub, entryBits here + entryBits sub)
  else (here, entryBits here)

/-- The table `r` decodes a prefix code over the alphabet with the entries `entry` (43_table_decoder_fastloop.md R277, R288):
every bit string starts with a code of 1 to 15 bits, which its bits alone decide. A link takes the root's width (R274). -/
structure Du.CodeTable (entry : Nat → Nat → Word32) (r : TableRef) (width : Nat) (d : Du) : Prop where
  size     : ∀ b, 1 ≤ (d.lookup r width b).2 ∧ (d.lookup r width b).2 ≤ 15
  alphabet : ∀ b, ∃ w n, (d.lookup r width b).1 = entry w n
  decides  : ∀ b b', b % 2 ^ (d.lookup r width b).2 = b' % 2 ^ (d.lookup r width b).2 → d.lookup r width b' = d.lookup r width b
  link     : ∀ b, Du.isLink (d.tableAt r (b % 2 ^ width)) = true → entryBits (d.tableAt r (b % 2 ^ width)) = width

/-- The tables that the states of a block use are code tables, of counts inside the limits (44_inflate_engine.md R318, R321 to
R323). -/
structure Du.TablesWf (d : Du) : Prop where
  counts  : d.mode ∈ [.lenlens, .codelens] → d.nlen ≤ 286 ∧ d.ndist ≤ 30
  lengths : d.mode = .codelens → ∀ b, 1 ≤ entryBits (d.codeAt (b % 2 ^ d.lenbits))
  symbols : d.mode ∈ [.len, .lenext, .dist, .distext, .matchCopy, .lit] →
    d.CodeTable lensEntry d.lencode d.lenbits ∧ d.CodeTable distsEntry d.distcode d.distbits

/-! ## History (30_encoding.md R121, 44_inflate_engine.md R332) -/

/-- The valid bytes of `HWINDOW`, oldest first (20_memory.md R87). -/
def Du.windowBytes (d : Du) : List Byte :=
  (List.range d.whave).map fun i => Mem.rd d.hwindowSize d.hwindow ((d.wnext + d.wsize - d.whave + i) % d.wsize)

/-- `n` bytes appended to a history, each the byte `k` back at its time (R121). -/
def appendMatch (k : Nat) : Nat → List Byte → List Byte
  | 0, h => h
  | n + 1, h => appendMatch k n (h ++ [h.getD (h.length - k) 0#8])

/-! ## The pending queue (20_memory.md R85) and the bits the compressor has sent (42_tree_builder.md R250) -/

/-- The queued bytes, oldest first. -/
def Cu.queue (c : Cu) : List Byte := c.lastQueued c.pending

/-- The bits sent and not yet handed out, the first lowest: the queue, then `BI_BUF`. -/
def Cu.sent (c : Cu) : Nat := leNat c.queue + 2 ^ (8 * c.pending) * c.biBuf.toNat

/-- The bit buffer in range (10_state.md R24, R43 (f)). -/
structure Cu.BitsWf (c : Cu) : Prop where
  bits  : c.biBuf.toNat < 2 ^ c.biValid
  valid : c.biValid ≤ 16

/-- The registers that only `DFL_INIT` writes (10_state.md R23), and the framing kind. -/
structure Cu.SameConfig (c d : Cu) : Prop where
  level      : d.level = c.level
  strategy   : d.strategy = c.strategy
  wBits      : d.wBits = c.wBits
  hashBits   : d.hashBits = c.hashBits
  litBufsize : d.litBufsize = c.litBufsize
  good       : d.goodMatch = c.goodMatch
  maxLazy    : d.maxLazyMatch = c.maxLazyMatch
  nice       : d.niceMatch = c.niceMatch
  chain      : d.maxChainLength = c.maxChainLength
  gzhead     : d.gzhead = c.gzhead
  framing    : d.wrap = c.wrap ∨ d.wrap = -c.wrap

/-! ## Code-length sequences (30_encoding.md R112) -/

/-- The code lengths that a sequence of code-length symbols stands for, appended to those already there. -/
def expandCl : List Cu.ClItem → List Nat → List Nat
  | [], l => l
  | i :: r, l =>
    expandCl r
      (if i.sym < 16 then l ++ [i.sym]
      else if i.sym = 16 then l ++ List.replicate (3 + i.extra) (l.getLastD 0)
      else if i.sym = 17 then l ++ List.replicate (3 + i.extra) 0
      else l ++ List.replicate (11 + i.extra) 0)

/-! ## Runs -/

/-- Iterated steps; a run that stops answers what the last step answered. -/
def runSteps : Nat → State → Host.Outcome State Fault Refusal
  | 0, s => .next s
  | n + 1, s =>
    match step s with
    | .next t => runSteps n t
    | o => o

end Sys2Proof.Machine
end

