-- ==== Sys2Proof/Certificates/Slice0/Obligations.lean ====
section
/-! DEFINITION. The statements about the machine, one `Prop` each, in the order of OBLIGATIONS.json. Helper names stand in
`Sys2Proof.Claims`. The tables of the claims are written out from the spec, not taken from the model. -/

open Sys2Proof Sys2Proof.Machine

namespace Sys2Proof.Claims

/-- Length symbols with base and extra bits (30_encoding.md R118). -/
def lengthRows : List (Instr × Nat × Nat) :=
  [(.len257, 3, 0), (.len258, 4, 0), (.len259, 5, 0), (.len260, 6, 0), (.len261, 7, 0), (.len262, 8, 0),
   (.len263, 9, 0), (.len264, 10, 0), (.len265, 11, 1), (.len266, 13, 1), (.len267, 15, 1), (.len268, 17, 1),
   (.len269, 19, 2), (.len270, 23, 2), (.len271, 27, 2), (.len272, 31, 2), (.len273, 35, 3), (.len274, 43, 3),
   (.len275, 51, 3), (.len276, 59, 3), (.len277, 67, 4), (.len278, 83, 4), (.len279, 99, 4), (.len280, 115, 4),
   (.len281, 131, 5), (.len282, 163, 5), (.len283, 195, 5), (.len284, 227, 5), (.len285, 258, 0)]

/-- Distance symbols with base and extra bits (30_encoding.md R119). -/
def distRows : List (Instr × Nat × Nat) :=
  [(.dist0, 1, 0), (.dist1, 2, 0), (.dist2, 3, 0), (.dist3, 4, 0), (.dist4, 5, 1), (.dist5, 7, 1), (.dist6, 9, 2),
   (.dist7, 13, 2), (.dist8, 17, 3), (.dist9, 25, 3), (.dist10, 33, 4), (.dist11, 49, 4), (.dist12, 65, 5),
   (.dist13, 97, 5), (.dist14, 129, 6), (.dist15, 193, 6), (.dist16, 257, 7), (.dist17, 385, 7), (.dist18, 513, 8),
   (.dist19, 769, 8), (.dist20, 1025, 9), (.dist21, 1537, 9), (.dist22, 2049, 10), (.dist23, 3073, 10),
   (.dist24, 4097, 11), (.dist25, 6145, 11), (.dist26, 8193, 12), (.dist27, 12289, 12), (.dist28, 16385, 13),
   (.dist29, 24577, 13)]

/-- The order of the code-length-code lengths (30_encoding.md R115). -/
def clOrderRow : List Nat := [16, 17, 18, 0, 8, 7, 9, 6, 10, 5, 11, 4, 12, 3, 13, 2, 14, 1, 15]

/-- The level table: good, lazy, nice, chain, function (40_matcher.md R152). -/
def levelRows : List (Nat × Nat × Nat × Nat × Func) :=
  [(0, 0, 0, 0, .stored), (4, 4, 8, 4, .fast), (4, 5, 16, 8, .fast), (4, 6, 32, 32, .fast), (4, 4, 16, 16, .slow),
   (8, 16, 32, 32, .slow), (8, 16, 128, 128, .slow), (8, 32, 128, 256, .slow), (32, 128, 258, 1024, .slow),
   (32, 258, 258, 4096, .slow)]

/-- The seven instructions that push to `CU`, each with the flush value it carries (30_encoding.md R100, R101). -/
def pushRows : List (Instr × (State → Int)) :=
  [(.dflPush, fun s => s.port.flush), (.flushNoFlush, fun _ => 0), (.flushPartialFlush, fun _ => 1),
   (.flushSyncFlush, fun _ => 2), (.flushFullFlush, fun _ => 3), (.flushFinish, fun _ => 4), (.flushBlock, fun _ => 5)]

/-- The instructions executed by `CU`: its commands and the flush values. -/
def cuInstrs : List Instr :=
  [.dflInit, .dflSetdict, .dflPush, .dflReset, .dflEnd, .dflStat, .flushNoFlush, .flushPartialFlush, .flushSyncFlush,
   .flushFullFlush, .flushFinish, .flushBlock]

/-- The commands of `DU`. -/
def duCommands : List Instr := [.iflInit, .iflSetdict, .iflPush, .iflReset, .iflEnd, .iflGethdr, .iflStat]

/-- A result that carries a status and nothing else. -/
def statusOnly (st : Status) : Result := ⟨st, 0, [], none, none⟩

/-- The rank of a flush value (41_deflate_engine.md R185). -/
def rank (f : Int) : Int := if f = 5 then 1 else 2 * f

/-- `window_bits` of `DFL_INIT` selects framing `wrap` and window `wBits` (30_encoding.md R101). -/
def CuWindow (windowBits wrap : Int) (wBits : Nat) : Prop :=
  9 ≤ wBits ∧ wBits ≤ 15 ∧
    (wrap = 0 ∧ windowBits = -(wBits : Int) ∨ wrap = 1 ∧ windowBits = wBits ∨ wrap = 2 ∧ windowBits = wBits + 16)

/-- `window_bits` of `IFL_INIT` selects framing `wrap` and window `wbits` (30_encoding.md R101). -/
def DuWindow (windowBits : Int) (wrap : BitVec 2) (wbits : Nat) : Prop :=
  9 ≤ wbits ∧ wbits ≤ 15 ∧
    (wrap = 0 ∧ windowBits = -(wbits : Int) ∨ wrap = 1 ∧ windowBits = wbits ∨ wrap = 2 ∧ windowBits = wbits + 16 ∨
      wrap = 3 ∧ windowBits = wbits + 32)

/-- A gzip header record that `DFL_INIT` accepts (30_encoding.md R103). -/
def GoodRecord (h : GzHeader) : Prop :=
  (∀ e, h.extra = some e → e.length ≤ 65535) ∧ (∀ n, h.name = some n → 0#8 ∉ n) ∧ (∀ c, h.comment = some c → 0#8 ∉ c)

/-- The operands of `DFL_INIT` are legal and mean `wrap`, `wBits`, `level`, `memLevel`, `strategy` (46_host_commands.md
R371). -/
structure InitOperands (o : Operands) (wrap : Int) (wBits level memLevel strategy : Nat) : Prop where
  window   : CuWindow o.windowBits wrap wBits
  level    : level ≤ 9 ∧ (o.level = level ∨ o.level = -1 ∧ level = 6)
  memLevel : 1 ≤ memLevel ∧ memLevel ≤ 9 ∧ o.memLevel = memLevel
  strategy : strategy ≤ 4 ∧ o.strategy = strategy
  record   : wrap = 2 → ∀ h, o.gzipHeader = some h → GoodRecord h

/-- The causes of `STREAM_ERROR` of each command (60_exceptions.md R405); an instruction that is no command has none. -/
def UsageError (i : Instr) (s : State) : Prop :=
  match i with
  | .dflInit => s.cu.status ≠ .noStream ∨ ¬ ∃ wrap wBits level memLevel strategy,
      InitOperands s.port wrap wBits level memLevel strategy
  | .dflSetdict => s.cu.status = .noStream ∨ s.cu.wrap = 2 ∨ s.cu.wrap < 0 ∨ (s.cu.wrap = 1 ∧ s.cu.status ≠ .init) ∨
      s.cu.lookahead ≠ 0
  | .dflPush => s.cu.status = .noStream ∨ ¬ (0 ≤ s.port.flush ∧ s.port.flush ≤ 5) ∨
      (s.cu.status = .finish ∧ (s.port.flush ≠ 4 ∨ s.port.input ≠ []))
  | .flushNoFlush | .flushPartialFlush | .flushSyncFlush | .flushFullFlush | .flushBlock =>
      s.cu.status = .noStream ∨ s.cu.status = .finish
  | .flushFinish => s.cu.status = .noStream ∨ (s.cu.status = .finish ∧ s.port.input ≠ [])
  | .dflReset | .dflEnd | .dflStat => s.cu.status = .noStream
  | .iflInit => s.du.mode ≠ .noStream ∨ ¬ ∃ wrap wbits, DuWindow s.port.windowBits wrap wbits ∧
      (s.port.capture = true → wrap = 2 ∨ wrap = 3)
  | .iflSetdict => s.du.mode = .noStream ∨ (s.du.wrap ≠ 0 ∧ s.du.mode ≠ .dict)
  | .iflPush => s.du.mode = .noStream ∨ ¬ (0 ≤ s.port.flush ∧ s.port.flush ≤ 5)
  | .iflReset | .iflEnd | .iflStat => s.du.mode = .noStream
  | .iflGethdr => s.du.mode = .noStream ∨ s.du.capture = false
  | _ => False

/-- `MSG` and the result after a `raise` of `CU` (60_exceptions.md R401); nothing is written to a unit in `END`. -/
def cuRaised (st : Status) (m : Msg) (s : State) : State :=
  { s with
    result := some (statusOnly st)
    cu := if s.cu.status = .noStream then s.cu else { s.cu with msg := m } }

/-- The same for `DU`. -/
def duRaised (st : Status) (m : Msg) (s : State) : State :=
  { s with
    result := some (statusOnly st)
    du := if s.du.mode = .noStream then s.du else { s.du with msg := m } }

/-- `DU` in `BAD` with a message (60_exceptions.md R402). -/
def toBad (m : Msg) (d : Du) : Du := { d with msg := m, mode := .bad }

/-- A state of the bitstream's instructions: `s` with another `DU`. -/
def withDu (s : State) (d : Du) : State := { s with du := d }

/-- `bswap32` on a number (44_inflate_engine.md R316). -/
def bytesReversed (v : Nat) : Nat :=
  v % 256 * 2 ^ 24 + v / 256 % 256 * 2 ^ 16 + v / 65536 % 256 * 2 ^ 8 + v / 2 ^ 24 % 256

/-- The bits of `b` from bit `0` on, `l` of them, read as a code: the first bit is the most significant (30_encoding.md R110,
R113). -/
def codeRead (b l : Nat) : Nat := ((List.range l).map fun i => b / 2 ^ i % 2 * 2 ^ (l - 1 - i)).sum

/-- The canonical code of symbol `w` among the code lengths `lens` (30_encoding.md R113): shorter codes come first, each taking
the space of the codes it is a prefix of, then the codes of the same length in symbol order. -/
def canonicalCode (lens : List Nat) (w : Nat) : Nat :=
  ((List.range lens.length).map fun v =>
    if 0 < lens.getD v 0 ∧ lens.getD v 0 < lens.getD w 0 then 2 ^ (lens.getD w 0 - lens.getD v 0)
    else if lens.getD v 0 = lens.getD w 0 ∧ v < w then 1 else 0).sum

/-- The code space that code lengths take, in units of 2^-15 (43_table_decoder_fastloop.md R271). -/
def codeSpace (lens : List Nat) : Nat := (lens.map fun l => if l = 0 then 0 else 2 ^ (15 - l)).sum

/-- The code lengths that `inflate_table` accepts (43_table_decoder_fastloop.md R271, R278): no codes, a complete set, and but
for the code-length alphabet a single code of one bit. -/
def AcceptedLengths (type : TableType) (lens : List Nat) : Prop :=
  codeSpace lens = 0 ∨ codeSpace lens = 2 ^ 15 ∨ type ≠ .codes ∧ lens.filter (· ≠ 0) = [1]

/-- The alphabets of `inflate_table`: how many symbols, the root width asked for, where the table starts
(43_table_decoder_fastloop.md R270). -/
def TableUse (type : TableType) (symbols base bits : Nat) : Prop :=
  match type with
  | .codes => symbols = 19 ∧ base = 0 ∧ bits = 7
  | .lens => 257 ≤ symbols ∧ symbols ≤ 286 ∧ base = 0 ∧ bits = 9
  | .dists => 1 ≤ symbols ∧ symbols ≤ 30 ∧ base ≤ 852 ∧ bits = 6

/-- The extra bits of a symbol of a tree (30_encoding.md R112, R118, R119). -/
def extraOf : Cu.Tree → Nat → Nat
  | .l, n => if 257 ≤ n then (lengthRows.getD (n - 257) (.len257, 0, 0)).2.2 else 0
  | .d, n => (distRows.getD n (.dist0, 0, 0)).2.2
  | .bl, n => if n = 16 then 2 else if n = 17 then 3 else if n = 18 then 7 else 0

/-- How many symbols a tree has, and its longest code (42_tree_builder.md R234, R238). -/
def treeLimits : Cu.Tree → Nat × Nat
  | .l => (286, 15)
  | .d => (30, 15)
  | .bl => (19, 7)

/-- The states that one round can move `MODE` to: the transition table (44_inflate_engine.md R345), with the states that follow
in the same round where one rule falls into the next (R346): the fields of the gzip header, a symbol and its match. -/
def nextModes : Mode → List Mode
  | .head => [.type, .flags, .time, .os, .exlen, .dictid, .bad]
  | .flags => [.time, .bad]
  | .time => [.os]
  | .os => [.exlen]
  | .exlen => [.extra, .name]
  | .extra => [.name]
  | .name => [.comment]
  | .comment => [.hcrc]
  | .hcrc => [.type, .bad]
  | .dictid => [.dict]
  | .dict => [.type]
  | .type => [.check, .stored, .len, .table, .bad]
  | .stored => [.copy, .bad]
  | .copy => [.type]
  | .table => [.lenlens, .bad]
  | .lenlens => [.codelens, .bad]
  | .codelens => [.len, .bad]
  | .len => [.lit, .lenext, .dist, .type, .bad]
  | .lenext => [.dist]
  | .dist => [.distext, .matchCopy, .len, .bad]
  | .distext => [.matchCopy, .len, .bad]
  | .matchCopy => [.len, .bad]
  | .lit => [.len]
  | .check => [.length, .bad]
  | .length => [.done, .bad]
  | .done | .bad | .mem | .noStream => []

/-- The push is suspended for want of input (44_inflate_engine.md R344): `e` is `d` with every byte of the input taken into
`HOLD` and no bit of the stream lost. -/
structure Suspended (d e : Du) : Prop where
  stopped : e.ctl = .stop .ok
  taken   : e.cur.availIn = 0
  value   : e.ahead = d.ahead
  count   : e.aheadBits = d.aheadBits
  frame   : e = { d with ctl := .stop .ok, hold := e.hold, bits := e.bits, cur := { d.cur with nextIn := e.cur.nextIn } }

/-- A round on the slow path alone: in `LEN` the symbol lookup of 44_inflate_engine.md R324 without its first line. -/
def slowRound (d : Du) : Du :=
  if d.mode = .len then d.decodeEntry d.lencode d.lenbits (fun here d => d.applyLl here) else d.rule

/-- What a `MATCH` leaves of `d` (44_inflate_engine.md R328, R334; 30_encoding.md R121): the distance is `k`. -/
def Matched (k : Nat) (d e : Du) : Prop :=
  if d.cur.availOut = 0 then e = { d with ctl := .stop .ok }
  else if 2 ^ d.wbits < k ∨ d.cur.out.length + d.whave < k then e = toBad .invalidDistanceTooFarBack d
  else
    let n := min d.length d.cur.availOut
    e = { d with
          cur := { d.cur with out := e.cur.out, availOut := d.cur.availOut - n }
          length := d.length - n
          mode := if d.length ≤ d.cur.availOut then .len else d.mode } ∧
      d.windowBytes ++ e.cur.out = appendMatch k n (d.windowBytes ++ d.cur.out)

end Sys2Proof.Claims

open Sys2Proof.Claims

/-! ## Encoding -/

/-- For every well-formed instruction, the decoder of its format reads its word back, whatever bits follow it, and its bytes,
whatever bytes follow (the encoder and decoder are the model's; the words are those of 30_encoding.md). So no word of a format
is a prefix of another: the fixed codes among them (30_encoding.md R110, R114). -/
def Obligations.DecodeOfEncodeIsTheInstruction : Prop :=
  ∀ i : Instr, i.wellFormed = true →
    (∀ r : Nat, decode (encode i).1 ((encode i).2 + 2 ^ i.bits * r) = .ok i) ∧
      ∀ rest : List Byte, decodeBytes (encode i).1 (bytesOfWord (encode i).1 (encode i).2 ++ rest) = .ok (i, rest)

/-- What a decoder reads is well formed, and its encoding agrees with the word on all the bits it has (30_encoding.md C). -/
def Obligations.DecodedInstructionsAreWellFormed : Prop :=
  ∀ (f : Format) (w : Nat) (i : Instr), decode f w = .ok i →
    i.wellFormed = true ∧ i.format = f ∧ i.word = w % 2 ^ i.bits

/-- Words written out bit by bit from the spec's encodings (30_encoding.md R100, R101, R105, R106, R108 to R112, R116, R117,
R130). -/
def Obligations.WordsOfTheSpecDecode : Prop :=
  decode .command 0b00000001 = .ok .dflInit ∧ decode .command 0b00010011 = .ok .iflPush ∧
  decode .flushOperand 0b100 = .ok .flushFinish ∧
  decode .blockHeader 0b011 = .ok (.blockFixed true) ∧ decode .blockHeader 0b100 = .ok (.blockDynamic false) ∧
  decode .storedHeader 0xFFFA0005 = .ok (.storedLenNlen 5 0xFFFA) ∧
  decode .dynamicHeader 0b01110000100011 = .ok (.dynamicCounts 3 1 7) ∧
  decode .clSymbol 16 = .ok .clCopyPrev ∧
  decode .llSymbol 0b100000000 = .ok .eob ∧ decode .llSymbol 265 = .ok .len265 ∧
  decode .distSymbol 0b11101 = .ok .dist29 ∧
  decode .fixedLl 0b00010010 = .ok (.fixedLit0To143 0x18) ∧ decode .fixedDist 0b10000 = .ok (.fixedDist 1) ∧
  decode .tableEntry 0x08000048 = .ok (.entryLiteral 8 0x48) ∧ decode .tableEntry 0x05110005 = .ok (.entryBase 5 1 5) ∧
  decode .zlibHeader 0x789C = .ok (.zlibHeader 7 2 false 28) ∧
  decode .gzipHeader 0x03000000000000088B1F = .ok (.gzipHeader 0 0 0 3) ∧
  decode .gzipFlg 0b00000100 = .ok .gzipFextra

/-- The table that the constructor builds from the fixed code lengths is `LENFIX`, and `DISTFIX` likewise
(43_table_decoder_fastloop.md R279); the entries of the reserved symbols; the samples of the rule. -/
def Obligations.FixedTablesAreTheConstructors : Prop :=
  let l := inflateTable .lens
    (List.replicate 144 8 ++ List.replicate 112 9 ++ List.replicate 24 7 ++ List.replicate 8 8) 0 9 [] []
  let d := inflateTable .dists (List.replicate 32 5) 0 6 [] []
  l.ret = 0 ∧ l.root = 9 ∧ l.used = 512 ∧ (∀ i < 512, Mem.rd Du.codesSize l.codes i = lenfix i) ∧
  d.ret = 0 ∧ d.root = 5 ∧ d.used = 32 ∧ (∀ i < 32, Mem.rd Du.codesSize d.codes i = distfix i) ∧
  (∀ i ∈ [0x63, 0x163, 0xE3, 0x1E3], entryOp (lenfix i) = 64) ∧ entryOp (distfix 15) = 64 ∧ entryOp (distfix 31) = 64 ∧
  lenfix 0 = mkEntry 96 7 0 ∧ lenfix 0x1E = mkEntry 0 8 0x48 ∧ lenfix 0x40 = mkEntry 16 7 3 ∧
  lenfix 0x03 = mkEntry 20 8 115 ∧ lenfix 0x1FF = mkEntry 0 9 255 ∧ distfix 0 = mkEntry 16 5 1 ∧
  distfix 4 = mkEntry 17 5 5 ∧ distfix 7 = mkEntry 29 5 16385 ∧ distfix 15 = mkEntry 64 5 0 ∧ distfix 31 = mkEntry 64 5 0

/-! ## Steps -/

/-- A step between pushes runs the oldest command's instruction, with its operands in the port (46_host_commands.md R370). An
opcode that is no command's returns `STREAM_ERROR` and changes no state (30_encoding.md R122, 60_exceptions.md R401 (b)). That
commands wait in a list with their operands (log entry 3), and that with none issued the machine idles (log entry 18), is the
model's choice. -/
def Obligations.StepRunsTheNextCommand : Prop :=
  (∀ s : State, s.du.ctl = .idle →
    (s.cmds = [] → step s = .next s) ∧
    ∀ (c : Command) (rest : List Command) (i : Instr), s.cmds = c :: rest → decode .command c.opcode.toNat = .ok i →
      step s = exec i { s with cmds := rest, port := c.ops }) ∧
  ∀ (s : State) (c : Command) (rest : List Command), s.du.ctl = .idle → s.cmds = c :: rest →
    c.opcode.toNat ∉ [0x01, 0x02, 0x03, 0x04, 0x05, 0x06, 0x11, 0x12, 0x13, 0x14, 0x15, 0x16, 0x17] →
    step s = .next { s with cmds := rest, port := c.ops, result := some (statusOnly .streamError) }

/-- A step inside a push runs the instruction that the next bits decode to, where the state reads one: block headers, stored
lengths, dynamic counts, code-length-code lengths, the decode-table entry of the next code, the framing headers at the head of a
stream, and the gzip fields whose flags are set. Where the state has more than the instruction to do (fast loop, a code not
complete) the claim says nothing; `StepRunsTheNextFixedCode` has the codes of a fixed block. That a step inside a push is one
round of the state loop (log entry 7), and that a gzip flag bit is run by the state it governs (log entry 17), is the model's
choice. -/
def Obligations.StepRunsTheNextStreamInstruction : Prop :=
  ∀ s : State, s.du.ctl = .run →
    (∀ i, s.du.mode = .type → s.du.last = false → decode .blockHeader ((s.du.need 3).peek 3) = .ok i → step s = exec i s) ∧
    (∀ i, s.du.mode = .stored → decode .storedHeader (s.du.bytebits.need 32).hold.toNat = .ok i → step s = exec i s) ∧
    (∀ i, s.du.mode = .table → decode .dynamicHeader ((s.du.need 14).peek 14) = .ok i → step s = exec i s) ∧
    (∀ i, s.du.mode = .lenlens → s.du.haveCount < s.du.ncode → decode .clLen ((s.du.need 3).peek 3) = .ok i →
      step s = exec i s) ∧
    (∀ e i, s.du.mode = .codelens → s.du.haveCount < s.du.nlen + s.du.ndist → e = s.du.codeAt (s.du.peek s.du.lenbits) →
      entryBits e ≤ s.du.bits → decode .tableEntry e.toNat = .ok i → step s = exec i s) ∧
    (∀ e i, s.du.mode = .len → s.du.fastReady = false → e = s.du.tableAt s.du.lencode (s.du.peek s.du.lenbits) →
      entryBits e ≤ s.du.bits → decode .tableEntry e.toNat = .ok i → step s = exec i s) ∧
    (∀ e i, s.du.mode = .dist → e = s.du.tableAt s.du.distcode (s.du.peek s.du.distbits) →
      entryBits e ≤ s.du.bits → decode .tableEntry e.toNat = .ok i → step s = exec i s) ∧
    (∀ i, s.du.mode = .head → s.du.StreamWf → s.du.bits = 0 → 16 ≤ s.du.aheadBits →
      decode .zlibHeader (s.du.ahead % 256 * 256 + s.du.ahead / 256 % 256) = .ok i → step s = exec i s) ∧
    (∀ i, s.du.mode = .head → s.du.StreamWf → s.du.bits = 0 → 80 ≤ s.du.aheadBits →
      decode .gzipHeader (s.du.ahead % 2 ^ 80) = .ok i → step s = exec i s) ∧
    (∀ i, s.du.mode = .flags → s.du.StreamWf → s.du.bits = 0 → 16 ≤ s.du.aheadBits → s.du.ahead % 256 = 8 →
      decode .gzipFlg (s.du.ahead / 256 % 256) = .ok i → i = .gzipFtext ∨ i.format = .gzipFlg ∧ 32 ≤ i.word →
      step s = exec i s) ∧
    (s.du.mode = .exlen → s.du.flags.getLsbD 10 = true → step s = exec .gzipFextra s) ∧
    (s.du.mode = .name → s.du.flags.getLsbD 11 = true → step s = exec .gzipFname s) ∧
    (s.du.mode = .comment → s.du.flags.getLsbD 12 = true → step s = exec .gzipFcomment s) ∧
    (s.du.mode = .hcrc → s.du.flags.getLsbD 9 = true → step s = exec .gzipFhcrc s)

/-- In a block of the fixed codes a step runs the fixed code that stands first in the stream (44_inflate_engine.md R318, R324,
R326; 30_encoding.md R110), when its bits are there and the fast loop is not entered. That a step is one round of the state loop
is the model's choice (log entry 7). -/
def Obligations.StepRunsTheNextFixedCode : Prop :=
  ∀ (s : State) (i : Instr),
    (s.du.mode = .len → s.du.lencode = ⟨.lenfix, 0⟩ → s.du.lenbits = 9 → s.du.fastReady = false →
      decode .fixedLl (s.du.ahead % 512) = .ok i → s.du.Ready i.bits → step s = exec i s) ∧
    (s.du.mode = .dist → s.du.distcode = ⟨.distfix, 0⟩ → s.du.distbits = 5 →
      decode .fixedDist (s.du.ahead % 32) = .ok i → s.du.Ready 5 → step s = exec i s)

/-- `withFetchWord` places a word of the opcode table so that the next step runs the instruction it decodes to, in every state
with the memories of `DU` in canonical form, as every step keeps them (`StepKeepsSafe`). It is the model's own interface (log
entries 4 and 5). -/
def Obligations.PlacedWordIsRunNext : Prop :=
  ∀ (s : State) (nbits w : Nat) (i : Instr), s.du.MemWf → decodeTableWord nbits w = some i →
    (i.format = .command →
      step (s.withFetchWord nbits w) =
        exec i { s with du := { s.du with ctl := .idle } }) ∧
    (i.format ≠ .command → step (s.withFetchWord nbits w) = exec i (s.withFetchWord nbits w))

/-- Every step of the machine has a next state: no fault, no refusal (46_host_commands.md R370, 93_implementation_defined.md:
"every command with every operand value in every state has a result"). -/
def Obligations.EveryStepHasANextState : Prop := ∀ s : State, ∃ t, step s = .next t

/-- An `IFL_PUSH` is its rounds: the command's result is reached from the state in which its push has begun by single steps of
the push (44_inflate_engine.md R302). That the command as one step is a bounded number of rounds, which might leave the push in
progress, is the model's choice (log entry 7); `InflatePushReturns` says that it does not. -/
def Obligations.InflatePushIsItsRounds : Prop :=
  ∀ s : State, s.du.ctl = .idle → ∃ n, exec .iflPush s = .next (State.pushStep^[n] s.startPush)

/-! ## Invariants -/

/-- Every step keeps what holds between steps: canonical memories, the history window's registers, the cursors that do not
persist, and the working registers of both units in their ranges: of `CU` the window bound, the lengths in the trees, the bit
count, the tally count and the place of the queue (10_state.md R43 (a), (d), (f), (g); R25, R27), of `DU` the bit accumulator
(R31, R43), the lengths and the decode tables (20_memory.md R72, R87). Over `DFL_END` and `IFL_END` it rests on the model's
choice that they keep the registers (log entry 2). Of R43 (e), `PENDING`, `QueueAndBitBufferStayInRange` speaks. -/
def Obligations.StepKeepsSafe : Prop := ∀ s t : State, s.Safe → step s = .next t → t.Safe

/-- `Safe` and `TablesWf` hold at power-on; both units are in `END` (10_state.md R39). Only `STATUS` and `MODE` are R39's: that
the memories are empty and every other register is 0 is the model's choice (log entry 1). -/
def Obligations.PowerOnIsSafe : Prop :=
  State.reset.Safe ∧ State.reset.du.TablesWf ∧ State.reset.cu.status = .noStream ∧ State.reset.du.mode = .noStream

/-- `END` of `CU` is entered only by `DFL_END` and left only by `DFL_INIT`; a push moves `STATUS` forward only (10_state.md
R26). That the six flush values are instructions of their own, each a push that carries it, is the model's choice (log entry
6). -/
def Obligations.CuStatusTransitions : Prop :=
  ∀ (i : Instr) (s t : State), exec i s = .next t →
    (s.cu.status ≠ .noStream → t.cu.status = .noStream → i = .dflEnd) ∧
    (s.cu.status = .noStream → t.cu.status ≠ .noStream → i = .dflInit) ∧
    (i ∈ pushRows.map (·.1) → s.cu.status.number ≤ t.cu.status.number)

/-- The configuration registers of `CU` are written by `DFL_INIT` only, `WRAP` being at most negated otherwise, and those of
`DU` by `IFL_INIT` only (10_state.md R23, R30). `FUNC` (R23) is written by `DFL_RESET` too, from `LEVEL` and `STRATEGY` as in
`DFL_INIT`: while it is what they select, nothing but `DFL_INIT` changes it. That `DFL_END` and `IFL_END` keep the registers is
the model's choice (log entry 2; R376 and R383 leave them unspecified). -/
def Obligations.ConfigurationIsWrittenByInitOnly : Prop :=
  ∀ (i : Instr) (s t : State), exec i s = .next t →
    (i ≠ .dflInit → s.cu.SameConfig t.cu) ∧
    (i ≠ .dflInit → s.cu.func = selectFunc s.cu.level s.cu.strategy → t.cu.func = s.cu.func) ∧
    (i ≠ .iflInit → t.du.wrap = s.du.wrap ∧ t.du.wbits = s.du.wbits ∧ t.du.capture = s.du.capture)

/-- One round of the state loop leaves `MODE` or moves it along the transition table (44_inflate_engine.md R345; the rounds are
those of `nextModes`): the conditions of its rows that are one register's are stated here, those of headers, symbols and
trailers in the claims about them. `MODE` stays when the push suspends or returns, and in the states that take several rounds
(`COPY`, `LENLENS`, `CODELENS`, `LEN`, and `MATCH` out of output space). -/
def Obligations.ModeMovesForward : Prop :=
  ∀ d : Du, d.ctl = .run → d.mode ≠ .noStream → d.mode ≠ .mem →
    (d.rule.mode = d.mode ∨ d.rule.mode ∈ nextModes d.mode) ∧
    (d.rule.mode = d.mode → d.rule.ctl ≠ .run ∨ d.mode ∈ [.copy, .lenlens, .codelens, .len, .matchCopy]) ∧
    (d.rule.mode = .bad → d.mode = .bad ∨ d.rule.msg ≠ .none ∧ d.rule.ctl = .run) ∧
    (d.mode = .head → d.wrap = 0 → d.rule = { d with mode := .type }) ∧
    (d.mode = .type → (d.rule.mode = .check ↔ d.last = true)) ∧
    (d.mode = .copy → (d.rule.mode = .type ↔ d.length = 0)) ∧
    (d.mode = .dict → (d.rule.mode = .type ↔ d.havedict = true)) ∧
    (d.mode = .lenlens → d.rule.mode ≠ .lenlens → d.ncode ≤ d.haveCount) ∧
    (d.mode = .codelens → d.rule.mode = .len → d.nlen + d.ndist ≤ d.haveCount) ∧
    (d.mode = .matchCopy → d.rule.mode = .len → d.length ≤ d.cur.availOut) ∧
    (d.mode = .lit → (d.rule.mode = .len ↔ d.cur.availOut ≠ 0)) ∧
    (d.mode = .done → d.rule = { d with ctl := .stop .streamEnd }) ∧
    (d.mode = .bad → d.rule = { d with ctl := .stop .dataError })

/-- Only `IFL_RESET` and `IFL_END` leave a sink state (44_inflate_engine.md R339, R340). -/
def Obligations.SinkStatesAreLeftByResetOrEndOnly : Prop :=
  ∀ (i : Instr) (s t : State), s.du.mode = .bad ∨ s.du.mode = .done → s.du.ctl = .idle → exec i s = .next t →
    t.du.mode = s.du.mode ∨ i = .iflReset ∨ i = .iflEnd

/-! ## Exceptions -/

/-- `STREAM_ERROR` arises for the listed causes, and then changes nothing but `MSG`; for no other cause (60_exceptions.md R405,
R401, 46_host_commands.md R370 (d)). An opcode that is no command's is the first cause. That the six flush values are
instructions of their own is the model's choice (log entry 6). -/
def Obligations.StreamErrorCauses : Prop :=
  (∀ (i : Instr) (s : State), s.du.ctl = .idle → i ∈ cuInstrs ++ duCommands →
    (UsageError i s → i ∈ cuInstrs → exec i s = .next (cuRaised .streamError .streamError s)) ∧
    (UsageError i s → i ∈ duCommands → exec i s = .next (duRaised .streamError .streamError s)) ∧
    (∀ t, ¬ UsageError i s → exec i s = .next t → t.du.ctl = .idle → ∃ r, t.result = some r ∧ r.status ≠ .streamError)) ∧
  ∀ (s : State) (c : Command) (rest : List Command) (e : Reject), s.du.ctl = .idle → s.cmds = c :: rest →
    decode .command c.opcode.toNat = .error e → ∃ t, step s = .next t ∧ t.result = some (statusOnly .streamError)

/-- `BUF_ERROR` of a push to `CU`: no output space, or nothing queued, no input, and a flush value that is not `FINISH` and does
not rank above the previous push's (60_exceptions.md R406, 41_deflate_engine.md R185). The second is stated for `STATUS` `BUSY`:
what a header sub-state does with an empty queue is left out. That the six flush values are instructions of their own is the
model's choice (log entry 6). -/
def Obligations.DeflateBufErrorCauses : Prop :=
  ∀ (i : Instr) (f : State → Int), (i, f) ∈ pushRows → ∀ s : State, s.cu.status ≠ .noStream → 0 ≤ f s → f s ≤ 5 →
    (s.cu.status = .finish → f s = 4 ∧ s.port.input = []) →
    (s.port.availOut = 0 → exec i s = .next (cuRaised .bufError .bufferError s)) ∧
    (s.port.availOut ≠ 0 → s.cu.status = .busy → s.cu.pending = 0 → s.port.input = [] → rank (f s) ≤ rank s.cu.lastFlush →
      f s ≠ 4 → -1 ≤ s.cu.lastFlush → s.cu.lastFlush ≤ 5 →
      exec i s = .next (cuRaised .bufError .bufferError
        { s with cu := { s.cu with cur := Cursor.empty, bflush := false, lastFlush := f s } }))

/-! ## Commands of the compression unit -/

/-- `DFL_INIT`: on a unit without a stream, with legal operands, every register and every memory; otherwise `STREAM_ERROR`
(46_host_commands.md R371, 10_state.md R37). Where a host wrapper's options are absent the operands are legal and mean level 6,
zlib framing, the window of 2^15 bytes, `mem_level` 8 and strategy 0 (R371). -/
def Obligations.DflInitWritesEveryRegister : Prop :=
  InitOperands (default : WrapperOptions).operands 1 15 6 8 0 ∧
  (∀ s : State, (s.cu.status ≠ .noStream ∨
      ¬ ∃ wrap wBits level memLevel strategy, InitOperands s.port wrap wBits level memLevel strategy) →
    exec .dflInit s = .next (cuRaised .streamError .streamError s)) ∧
  ∀ (s : State) (wrap : Int) (wBits level memLevel strategy good maxLazy nice chain : Nat) (func : Func),
    s.cu.status = .noStream → InitOperands s.port wrap wBits level memLevel strategy →
    levelRows[level]? = some (good, maxLazy, nice, chain, func) →
    exec .dflInit s = .next { s with
      result := some (statusOnly .ok)
      cu := { s.cu with
        totalIn := 0, totalOut := 0, adler := if wrap = 2 then 0 else 1, msg := .none
        wrap := wrap, level := level, strategy := strategy, wBits := wBits
        hashBits := memLevel + 7, litBufsize := 2 ^ (memLevel + 6)
        goodMatch := good, maxLazyMatch := maxLazy, niceMatch := nice, maxChainLength := chain
        func := if level = 0 then .stored else if strategy = 2 then .huff else if strategy = 3 then .rle else func
        gzhead := if wrap = 2 then s.port.gzipHeader else none
        status := if wrap = 0 then .busy else .init
        strstart := 0, blockStart := 0, lookahead := 0, matchStart := 0, matchLength := 2, prevMatch := 0, prevLength := 2
        insH := 0, insertCount := 0, pending := 0, pendingOut := 0, biBuf := 0, biValid := 0, lastLit := 0, matchCount := 0
        optLen := 0, staticLen := 0, heapLen := 0, heapMax := 0, lMaxCode := 0, dMaxCode := 0, blMaxCode := 0, gzindex := 0
        matchAvailable := false, lastFlush := 0
        window := [], head := [], prev := [], pendingBuf := [], dBuf := [], lBuf := []
        dynLtree := [(256, ⟨1, 0, 0, 0⟩)], dynDtree := [], blTree := [], heap := [], depth := [], blCount := [] } }

/-- `DFL_RESET`: the registers of 10_state.md R37, column `DFL_RESET`; everything else is kept (46_host_commands.md R374). -/
def Obligations.DflResetKeepsTheConfiguration : Prop :=
  ∀ s : State, s.cu.MemWf → s.cu.status ≠ .noStream → ∃ (l d b : Mem Node),
    exec .dflReset s = .next { s with
      result := some (statusOnly .ok)
      cu := { s.cu with
        wrap := |s.cu.wrap|, totalIn := 0, totalOut := 0, msg := .none, pending := 0, pendingOut := 0
        status := if s.cu.wrap = 0 then .busy else .init
        adler := if |s.cu.wrap| = 2 then 0 else 1
        lastFlush := 0, biBuf := 0, biValid := 0, gzindex := 0, optLen := 0, staticLen := 0, lastLit := 0, matchCount := 0
        head := [], func := selectFunc s.cu.level s.cu.strategy
        strstart := 0, blockStart := 0, lookahead := 0, insertCount := 0
        matchLength := 2, prevLength := 2, matchAvailable := false, insH := 0, matchStart := 0, prevMatch := 0
        dynLtree := l, dynDtree := d, blTree := b } } ∧
    (∀ n < 573, Mem.rd 573 l n = { Mem.rd 573 s.cu.dynLtree n with
      freq := if n = 256 then 1 else if n < 286 then 0 else (Mem.rd 573 s.cu.dynLtree n).freq }) ∧
    (∀ n < 61, Mem.rd 61 d n = { Mem.rd 61 s.cu.dynDtree n with
      freq := if n < 30 then 0 else (Mem.rd 61 s.cu.dynDtree n).freq }) ∧
    (∀ n < 39, Mem.rd 39 b n = { Mem.rd 39 s.cu.blTree n with
      freq := if n < 19 then 0 else (Mem.rd 39 s.cu.blTree n).freq })

/-- `DFL_SETDICT` where it is legal: the registers it leaves, and on a fresh stream the window (46_host_commands.md R373,
40_matcher.md R168). Only the registers listed change. -/
def Obligations.DflSetdictLoadsTheDictionary : Prop :=
  ∀ s : State, s.cu.MemWf → s.cu.status ≠ .noStream → s.cu.wrap = 0 ∨ s.cu.wrap = 1 → (s.cu.wrap = 1 → s.cu.status = .init) →
    s.cu.lookahead = 0 → ∃ c : Cu,
    exec .dflSetdict s = .next { s with result := some (statusOnly .ok), cu := c } ∧
    c = { s.cu with
      adler := if s.cu.wrap = 1 then adler32 s.cu.adler s.port.dictionary else s.cu.adler
      window := c.window, head := c.head, prev := c.prev, insH := c.insH, strstart := c.strstart
      matchStart := c.matchStart, blockStart := c.strstart, insertCount := c.insertCount, lookahead := 0
      matchLength := 2, prevLength := 2, matchAvailable := false } ∧
    c.insertCount ≤ 2 ∧
    (s.cu.strstart = 0 → s.cu.insertCount = 0 → 9 ≤ s.cu.wBits →
      c.strstart = min s.port.dictionary.length (2 ^ s.cu.wBits) ∧
      ∀ k < c.strstart, c.win k = s.port.dictionary.getD (s.port.dictionary.length - c.strstart + k) 0)

/-- A push to `CU` that is neither a usage error nor redundant completes, whichever flush value it carries: the status, what it
consumed and put out, the totals, and what it leaves alone (46_host_commands.md R372, 10_state.md R22, R23, R25). That the six
flush values are instructions of their own is the model's choice (log entry 6). -/
def Obligations.DeflatePushCompletes : Prop :=
  ∀ (i : Instr) (f : State → Int), (i, f) ∈ pushRows → ∀ s : State, s.cu.status ≠ .noStream → 0 ≤ f s → f s ≤ 5 →
    (s.cu.status = .finish → f s = 4 ∧ s.port.input = []) → s.port.availOut ≠ 0 →
    (s.port.input ≠ [] ∨ f s = 4 ∨ rank s.cu.lastFlush < rank (f s)) → -1 ≤ s.cu.lastFlush → s.cu.lastFlush ≤ 5 →
    ∃ (c : Cu) (r : Result), exec i s = .next { s with result := some r, cu := c } ∧
      (r.status = .ok ∨ r.status = .streamEnd ∧ f s = 4 ∧ c.pending = 0 ∧ c.wrap ≤ 0) ∧
      r.consumed ≤ s.port.input.length ∧ r.out.length ≤ s.port.availOut ∧
      c.totalIn = s.cu.totalIn + word32Of r.consumed ∧ c.totalOut = s.cu.totalOut + word32Of r.out.length ∧
      s.cu.SameConfig c ∧ c.msg = s.cu.msg ∧ c.cur = Cursor.empty ∧ c.bflush = false ∧
      (c.lastFlush = f s ∨ c.lastFlush = -1 ∧ r.out.length = s.port.availOut)

/-- `DFL_STAT`, `DFL_END`, `IFL_END`, `IFL_STAT` and `IFL_GETHDR` (46_host_commands.md R375, R376, R381 to R383). What the other
registers hold after `DFL_END` and `IFL_END` is the model's choice (log entry 2) and not stated. -/
def Obligations.StatEndAndGethdr : Prop :=
  (∀ s : State,
    (s.cu.status = .noStream → exec .dflStat s = .next { s with result := some (statusOnly .streamError) } ∧
      exec .dflEnd s = .next { s with result := some (statusOnly .streamError) }) ∧
    (s.cu.status ≠ .noStream →
      exec .dflStat s = .next { s with
        result := some ⟨.ok, 0, [], some ⟨s.cu.totalIn, s.cu.totalOut, s.cu.adler, s.cu.msg⟩, none⟩ } ∧
      ∃ c : Cu, c.status = .noStream ∧ exec .dflEnd s = .next { s with
        result := some (statusOnly (if s.cu.status = .busy then .dataError else .ok)), cu := c })) ∧
  ∀ s : State, s.du.ctl = .idle →
    (∀ i ∈ [Instr.iflEnd, .iflStat, .iflGethdr], s.du.mode = .noStream →
      exec i s = .next { s with result := some (statusOnly .streamError) }) ∧
    (s.du.mode ≠ .noStream →
      (∃ d : Du, d.mode = .noStream ∧ exec .iflEnd s = .next { s with result := some (statusOnly .ok), du := d }) ∧
      exec .iflStat s = .next { s with
        result := some ⟨.ok, 0, [], some ⟨s.du.totalIn, s.du.totalOut, s.du.adler, s.du.msg⟩, none⟩ } ∧
      (s.du.capture = true → exec .iflGethdr s = .next { s with result := some ⟨.ok, 0, [], none, some s.du.hdr⟩ }) ∧
      (s.du.capture = false → exec .iflGethdr s = .next (duRaised .streamError .streamError s)))

/-- A stream of level 0, raw, given whole to one push with `FINISH`, is one stored block, whatever the strategy: `01`, the
length and its complement low byte first, the bytes (30_encoding.md R107 to R109, 41_deflate_engine.md R189). That the flush
value `FINISH` is an instruction of its own, a push that carries it, is the model's choice (log entry 6). And a stored block
begun with an empty queue is put out and queued whole, behind whatever bits `BI_BUF` still held, in a queue that does not
overflow (42_tree_builder.md R248, 20_memory.md R85, 70_reset_and_hazards.md R443); that bytes go out before the block is
complete where it does not fit the queue is the model's inference (log entry 25). -/
def Obligations.StoredStreamIsExact : Prop :=
  (∀ (s : State) (wBits memLevel strategy : Nat), s.cu.status = .noStream → InitOperands s.port 0 wBits 0 memLevel strategy →
    ∀ (t : State) (data : List Byte) (space : Nat), exec .dflInit s = .next t →
    data.length < 2 ^ wBits - 262 → data.length + 5 < 4 * 2 ^ (memLevel + 6) → data.length < 65535 →
    data.length + 5 < space →
    ∃ c : Cu, exec .flushFinish { t with port := { t.port with input := data, availOut := space } } =
      .next { t with
        port := { t.port with input := data, availOut := space }
        result := some ⟨.streamEnd, data.length,
          [1, byteOf data.length, byteOf (data.length / 256), byteOf (65535 - data.length),
            byteOf ((65535 - data.length) / 256)] ++ data, none, none⟩
        cu := c }) ∧
  ∀ (c : Cu) (data : List Byte) (last : Bool), c.MemWf → c.BitsWf → c.biValid ≤ 13 → c.pending = 0 →
    c.pendingOut < c.pendingSize → c.cur.availOut ≠ 0 → data.length ≤ 65535 → data.length + 5 ≤ c.pendingSize →
    let e := c.trStoredBlock data last
    (∃ head, e.cur.out ++ e.queue = c.cur.out ++ head ++ [byteOf data.length, byteOf (data.length / 256),
        byteOf (65535 - data.length), byteOf ((65535 - data.length) / 256)] ++ data ∧
      leNat head = c.biBuf.toNat + 2 ^ c.biValid * last.toNat ∧
      c.biValid + 3 ≤ 8 * head.length ∧ 8 * head.length < c.biValid + 3 + 8) ∧
    e.pending ≤ e.pendingSize ∧ e.cur.availOut + e.cur.out.length = c.cur.availOut + c.cur.out.length ∧
    e = { c with
      cur := { c.cur with out := e.cur.out, availOut := e.cur.availOut }
      totalOut := c.totalOut + word32Of (e.cur.out.length - c.cur.out.length)
      pendingBuf := e.pendingBuf, pending := e.pending, pendingOut := e.pendingOut, biBuf := 0, biValid := 0 }

/-! ## Operations of the compression unit -/

/-- The pending queue is a first-in first-out queue (20_memory.md R85, 41_deflate_engine.md R184). -/
def Obligations.PendingQueueIsFifo : Prop :=
  ∀ c : Cu, c.MemWf → c.pendingOut < c.pendingSize → c.pending ≤ c.pendingSize →
    (∀ b, c.pending < c.pendingSize → (c.putByte b).queue = c.queue ++ [b] ∧ (c.putByte b).pending = c.pending + 1) ∧
    (let n := min c.pending c.cur.availOut
     c.flushPending.queue = c.queue.drop n ∧
     c.flushPending = { c with
       cur := { c.cur with out := c.cur.out ++ c.queue.take n, availOut := c.cur.availOut - n }
       pending := c.pending - n, totalOut := c.totalOut + word32Of n
       pendingOut := if n ≠ 0 ∧ n = c.pending then 0 else (c.pendingOut + n) % c.pendingSize })

/-- In every run from power-on, whatever commands with whatever operands the host issues, the pending queue and the bit buffer
of `CU` are in range between steps: `PENDING <= PENDING_SIZE`, and no bit of `BI_BUF` above `BI_VALID` (10_state.md R43 (e),
(f); 20_memory.md R85; 42_tree_builder.md R248, R250). It is stated over runs, not over every state, because that a block fits
the queue rests on the whole history of the block: the hash chains hold positions of the window, the frequencies count the
tallied symbols. -/
def Obligations.QueueAndBitBufferStayInRange : Prop :=
  ∀ (cmds : List Command) (n : Nat) (t : State), runSteps n { State.reset with cmds := cmds } = .next t →
    t.cu.status ≠ .noStream → t.cu.pending ≤ t.cu.pendingSize ∧ t.cu.pendingOut < t.cu.pendingSize ∧ t.cu.BitsWf

/-- `send_bits(value, length)` appends the value's bits, least significant first, to what has been sent (42_tree_builder.md
R250, 20_memory.md R76); the queue needs room for the two bytes it may take. -/
def Obligations.SendBitsAppends : Prop :=
  ∀ (c : Cu) (value length : Nat), c.MemWf → c.BitsWf → length ≤ 16 → value < 2 ^ length → c.pendingOut < c.pendingSize →
    c.pending + 2 ≤ c.pendingSize →
    (c.sendBits value length).sent = c.sent + 2 ^ (8 * c.pending + c.biValid) * value ∧
    8 * (c.sendBits value length).pending + (c.sendBits value length).biValid = 8 * c.pending + c.biValid + length ∧
    (c.sendBits value length).pending = c.pending + (if 16 < c.biValid + length then 2 else 0) ∧
    (c.sendBits value length).BitsWf ∧
    c.sendBits value length = { c with
      pendingBuf := (c.sendBits value length).pendingBuf, pending := (c.sendBits value length).pending
      biBuf := (c.sendBits value length).biBuf, biValid := (c.sendBits value length).biValid }

/-- The markers of the flush modes (30_encoding.md R123; 41_deflate_engine.md R203, R204; 42_tree_builder.md R248, R249):
`PARTIAL_FLUSH` sends the ten bits `0, 1 0, 0000000`, first bit first, and keeps them all; `SYNC_FLUSH` sends the three bits of
a stored block's header and zeros up to a byte boundary, then `00 00 FF FF`. Nothing but the queue and the bit buffer
changes. -/
def Obligations.FlushMarkers : Prop :=
  ∀ c : Cu, c.MemWf → c.BitsWf → c.pendingOut < c.pendingSize → c.pending + 8 ≤ c.pendingSize →
    let align := c.trAlign
    let sync := c.trStoredBlock [] false
    align.sent = c.sent + 2 ^ (8 * c.pending + c.biValid) * 2 ∧
    8 * align.pending + align.biValid = 8 * c.pending + c.biValid + 10 ∧ align.biValid < 8 ∧ align.BitsWf ∧
    align = { c with
      pendingBuf := align.pendingBuf, pending := align.pending, biBuf := align.biBuf, biValid := align.biValid } ∧
    sync.biValid = 0 ∧ sync.biBuf = 0 ∧
    sync = { c with pendingBuf := sync.pendingBuf, pending := sync.pending, biBuf := 0, biValid := 0 } ∧
    ∃ head, sync.queue = head ++ [0x00, 0x00, 0xFF, 0xFF] ∧ leNat head = c.sent ∧
      8 * c.pending + c.biValid + 3 ≤ 8 * head.length ∧ 8 * head.length < 8 * c.pending + c.biValid + 3 + 8

/-- The zlib header that `CU` writes is one that `DU` accepts: method 8, the window's size, a multiple of 31
(41_deflate_engine.md R206, 30_encoding.md R105). -/
def Obligations.ZlibHeaderIsValid : Prop :=
  ∀ c : Cu, 9 ≤ c.wBits → c.wBits ≤ 15 → c.zlibHeaderWord < 65536 ∧ c.zlibHeaderWord % 31 = 0 ∧
    ∃ check : BitVec 5, decode .zlibHeader c.zlibHeaderWord =
      .ok (.zlibHeader (BitVec.ofNat 4 (c.wBits - 8)) (BitVec.ofNat 2 c.levelFlags) (c.strstart ≠ 0) check)

/-- The window slide (40_matcher.md R160): the upper half moves down, every position is lowered by `W_SIZE`, and a link to a
position that slides out becomes `NIL`. -/
def Obligations.SlideMovesPositions : Prop :=
  ∀ c : Cu, c.MemWf → c.wSize ≤ c.strstart →
    (∀ i < c.wSize, c.slide.win i = c.win (i + c.wSize)) ∧
    (∀ i, c.wSize ≤ i → c.slide.win i = c.win i) ∧
    (∀ h, (c.slide.headAt h).toNat = (c.headAt h).toNat - c.wSize) ∧
    (∀ i, (c.slide.prevAt i).toNat = (c.prevAt i).toNat - c.wSize) ∧
    c.slide = { c with
      window := c.slide.window, head := c.slide.head, prev := c.slide.prev
      strstart := c.strstart - c.wSize, blockStart := c.blockStart - c.wSize
      matchStart := c.matchStart - word32Of c.wSize }

/-- `longest_match` never claims bytes that do not agree: a length that beats `PREV_LENGTH` is a verified match of at most 258
bytes inside the look-ahead, at the `MATCH_START` it writes (40_matcher.md R162). -/
def Obligations.LongestMatchIsVerified : Prop :=
  ∀ (c : Cu) (cand : Nat), cand < 2 ^ 16 →
    (c.longestMatch cand).2 ≤ c.lookahead ∧
    (c.prevLength < (c.longestMatch cand).2 →
      (c.longestMatch cand).2 ≤ 258 ∧
      ∀ k < (c.longestMatch cand).2, c.win ((c.longestMatch cand).1.matchStart.toNat + k) = c.win (c.strstart + k)) ∧
    (c.longestMatch cand).1 = { c with matchStart := (c.longestMatch cand).1.matchStart }

/-- The tallies (42_tree_builder.md R231): the entry of the tally buffer, the frequency, the count of matches, the flag that
says the block is full, and nothing else. -/
def Obligations.TallyRecordsTheSymbol : Prop :=
  ∀ (c : Cu) (b : Byte) (dist len : Nat), c.MemWf → c.lastLit < c.litBufsize → 1 ≤ dist → dist ≤ 32768 → 3 ≤ len → len ≤ 258 →
    let lit := c.tallyLit b
    let copy := c.tallyMatch dist len
    (∀ j, Mem.rd c.litBufsize lit.dBuf j = if j = c.lastLit then 0 else Mem.rd c.litBufsize c.dBuf j) ∧
    (∀ j, Mem.rd c.litBufsize lit.lBuf j = if j = c.lastLit then b else Mem.rd c.litBufsize c.lBuf j) ∧
    (∀ n, lit.node .l n = { c.node .l n with freq := (c.node .l n).freq + (if n = b.toNat then 1 else 0) }) ∧
    lit = { c with
      dBuf := lit.dBuf, lBuf := lit.lBuf, dynLtree := lit.dynLtree, lastLit := c.lastLit + 1
      bflush := decide (c.lastLit + 1 = c.litBufsize - 1) } ∧
    (∀ j, (Mem.rd c.litBufsize copy.dBuf j).toNat =
      if j = c.lastLit then dist else (Mem.rd c.litBufsize c.dBuf j).toNat) ∧
    (∀ j, (Mem.rd c.litBufsize copy.lBuf j).toNat =
      if j = c.lastLit then len - 3 else (Mem.rd c.litBufsize c.lBuf j).toNat) ∧
    (∀ n, copy.node .l n =
      { c.node .l n with freq := (c.node .l n).freq + (if n = 257 + lengthCode len then 1 else 0) }) ∧
    (∀ n, copy.node .d n = { c.node .d n with freq := (c.node .d n).freq + (if n = distCode dist then 1 else 0) }) ∧
    copy = { c with
      dBuf := copy.dBuf, lBuf := copy.lBuf, dynLtree := copy.dynLtree, dynDtree := copy.dynDtree
      lastLit := c.lastLit + 1, matchCount := c.matchCount + 1
      bflush := decide (c.lastLit + 1 = c.litBufsize - 1) }

/-- `build_tree` (42_tree_builder.md R234 to R240), from any frequencies: the lengths of the symbols up to `max_code` are at
most the tree's limit and form a complete prefix code of at least two symbols, with the canonical codes, first bit in bit 0; a
symbol without a frequency has length 0, but a synthetic one, which is there only beside at most one other and then has the
frequency 1; `OPT_LEN` grows by the cost of the symbols there were, modulo 2^32. -/
def Obligations.TreesAreCompleteCodes : Prop :=
  ∀ (t : Cu.Tree) (c : Cu), c.MemWf →
    let e := (c.buildTree t).1
    let maxCode := (c.buildTree t).2
    let (elems, limit) := treeLimits t
    let used := (List.range elems).filter fun n => (c.node t n).freq ≠ 0
    let lens := (List.range (maxCode + 1)).map fun n => (e.node t n).len.toNat
    maxCode < elems ∧ (∀ l ∈ lens, l ≤ limit) ∧ 2 ≤ (lens.filter (· ≠ 0)).length ∧ codeSpace lens = 2 ^ 15 ∧
    (∀ n ∈ used, n ≤ maxCode ∧ (e.node t n).len ≠ 0 ∧ (e.node t n).freq = (c.node t n).freq) ∧
    (∀ n ≤ maxCode, n ∉ used →
      (e.node t n).len = 0 ∧ (e.node t n).freq = 0 ∨ used.length < 2 ∧ n ≤ 2 ∧ (e.node t n).freq = 1) ∧
    (∀ n ≤ maxCode, (e.node t n).len ≠ 0 → (e.node t n).code.toNat < 2 ^ (e.node t n).len.toNat ∧
      codeRead (e.node t n).code.toNat (e.node t n).len.toNat = canonicalCode lens n) ∧
    e.optLen = c.optLen +
      word32Of (used.map fun n => (c.node t n).freq.toNat * ((e.node t n).len.toNat + extraOf t n)).sum

/-- The run-length coding of a tree's code lengths loses nothing: the symbols sent stand for exactly the lengths, and each has
its extra bits in range (42_tree_builder.md R241, 30_encoding.md R112). -/
def Obligations.RunLengthCodingIsLossless : Prop :=
  ∀ lens : List Nat, (∀ l ∈ lens, l ≤ 15) →
    expandCl (Cu.scanOrSend lens) [] = lens ∧
    ∀ i ∈ Cu.scanOrSend lens, i.extra < 2 ^ i.width ∧
      (i.sym ≤ 15 ∧ i.width = 0 ∨ i.sym = 16 ∧ i.width = 2 ∨ i.sym = 17 ∧ i.width = 3 ∨ i.sym = 18 ∧ i.width = 7)

/-! ## Checksums -/

/-- `adler32` (45_checksums.md R360): from the fresh value the two halves are the sums modulo 65521; it may be computed in
pieces; both halves stay below 65521. -/
def Obligations.AdlerIsTheTwoSums : Prop :=
  (∀ data : List Byte, adler32 1 data = word32Of
    ((((List.range data.length).map fun i => (data.length - i) * (data.getD i 0).toNat).sum + data.length) % 65521 * 65536 +
      (1 + (data.map (·.toNat)).sum) % 65521)) ∧
  (∀ (a : Word32) (x y : List Byte), adler32 (adler32 a x) y = adler32 a (x ++ y)) ∧
  (∀ a : Word32, adler32 a [] = a) ∧
  (∀ (a : Word32) (b : Byte), (adler32 a [b]).toNat % 65536 = (a.toNat % 65536 + b.toNat) % 65521 ∧
    (adler32 a [b]).toNat / 65536 = (a.toNat / 65536 + (a.toNat % 65536 + b.toNat) % 65521) % 65521) ∧
  (∀ (a : Word32) (x : List Byte), a.toNat % 65536 < 65521 → a.toNat / 65536 < 65521 →
    (adler32 a x).toNat % 65536 < 65521 ∧ (adler32 a x).toNat / 65536 < 65521)

/-- `crc32` (45_checksums.md R362, R361): the update by one byte, inverted at start and end; it may be computed in pieces; the
empty sequence changes nothing; two different bytes never give the same value. -/
def Obligations.CrcIsIncremental : Prop :=
  (∀ (c : Word32) (x y : List Byte), crc32 (crc32 c x) y = crc32 c (x ++ y)) ∧ (∀ c : Word32, crc32 c [] = c) ∧
  (∀ (c : Word32) (b : Byte), crc32 c [b] =
    ~~~((~~~c >>> 8) ^^^ crcTable (BitVec.ofNat 8 (c.toNat % 256 ^^^ b.toNat ^^^ 255)))) ∧
  (∀ (c : Word32) (b b' : Byte), crc32 c [b] = crc32 c [b'] → b = b') ∧
  crcTable 1 = 0x77073096 ∧ crcTable 128 = 0xEDB88320 ∧ crcTable 255 = 0x2D02EF8D

/-! ## Commands of the decompression unit -/

/-- `IFL_INIT`: on a unit without a stream, with legal operands, every register and memory of 10_state.md R38; otherwise
`STREAM_ERROR` (46_host_commands.md R377). The cursors and the push's temporaries are no persistent state (R25). -/
def Obligations.IflInitWritesEveryRegister : Prop :=
  (∀ s : State, s.du.ctl = .idle →
    (s.du.mode ≠ .noStream ∨ ¬ ∃ wrap wbits, DuWindow s.port.windowBits wrap wbits ∧
      (s.port.capture = true → wrap = 2 ∨ wrap = 3)) →
    exec .iflInit s = .next (duRaised .streamError .streamError s)) ∧
  ∀ (s : State) (wrap : BitVec 2) (wbits : Nat), s.du.ctl = .idle → s.du.mode = .noStream →
    DuWindow s.port.windowBits wrap wbits → (s.port.capture = true → wrap = 2 ∨ wrap = 3) →
    exec .iflInit s = .next { s with
      result := some (statusOnly .ok)
      du := { s.du with
        wrap := wrap, wbits := wbits, capture := s.port.capture, mode := .head, last := false, havedict := false
        totalIn := 0, totalOut := 0, total := 0, adler := if wrap = 1 ∨ wrap = 3 then 1 else 0, check := 0, msg := .none
        hold := 0, bits := 0, flags := 0, length := 0, offset := 0, extra := 0, ncode := 0, nlen := 0, ndist := 0
        haveCount := 0, lenbits := 0, distbits := 0, lencode := ⟨.codes, 0⟩, distcode := ⟨.codes, 0⟩
        wsize := 0, whave := 0, wnext := 0, hwindow := [], codes := [], lens := [], work := []
        hdr := ⟨false, 0, 0, 0, false, 0, [], false, [], false, [], false, 0⟩ } }

/-- `IFL_RESET`: the same values, the configuration and the memories kept (46_host_commands.md R380, 10_state.md R38). -/
def Obligations.IflResetKeepsTheConfiguration : Prop :=
  ∀ s : State, s.du.ctl = .idle →
    (s.du.mode = .noStream → exec .iflReset s = .next { s with result := some (statusOnly .streamError) }) ∧
    (s.du.mode ≠ .noStream → exec .iflReset s = .next { s with
      result := some (statusOnly .ok)
      du := { s.du with
        mode := .head, last := false, havedict := false
        totalIn := 0, totalOut := 0, total := 0, adler := if s.du.wrap = 1 ∨ s.du.wrap = 3 then 1 else 0, check := 0
        msg := .none
        hold := 0, bits := 0, flags := 0, length := 0, offset := 0, extra := 0, ncode := 0, nlen := 0, ndist := 0
        haveCount := 0, lenbits := 0, distbits := 0, lencode := ⟨.codes, 0⟩, distcode := ⟨.codes, 0⟩
        wsize := 0, whave := 0, wnext := 0
        hdr := ⟨false, 0, 0, 0, false, 0, [], false, [], false, [], false, 0⟩ } })

/-- `IFL_SETDICT` (44_inflate_engine.md R343, R342): where it is legal the dictionary is appended to the history and `HAVEDICT`
set, nothing else; a dictionary with another identifier is refused with `DATA_ERROR`; elsewhere it is a `STREAM_ERROR`. -/
def Obligations.IflSetdictAppendsToTheHistory : Prop :=
  ∀ s : State, s.du.ctl = .idle → s.du.HistoryWf → s.du.MemWf →
    (s.du.mode = .noStream ∨ (s.du.wrap ≠ 0 ∧ s.du.mode ≠ .dict) →
      exec .iflSetdict s = .next (duRaised .streamError .streamError s)) ∧
    (s.du.mode ≠ .noStream → s.du.wrap = 0 ∨ s.du.mode = .dict →
      ¬ (s.du.mode = .dict ∧ adler32 1 s.port.dictionary ≠ s.du.check) → ∃ d : Du,
      exec .iflSetdict s = .next { s with result := some (statusOnly .ok), du := d } ∧
      d = { s.du with
        havedict := true, wsize := 2 ^ s.du.wbits, whave := d.whave, wnext := d.wnext, hwindow := d.hwindow } ∧
      d.whave = min (2 ^ s.du.wbits) (s.du.whave + s.port.dictionary.length) ∧
      d.windowBytes = (s.du.windowBytes ++ s.port.dictionary).drop
        (s.du.whave + s.port.dictionary.length - 2 ^ s.du.wbits)) ∧
    (s.du.mode = .dict → adler32 1 s.port.dictionary ≠ s.du.check →
      exec .iflSetdict s = .next (duRaised .dataError .dataError s))

/-- An `IFL_PUSH` with a legal flush value runs; when it returns, the totals have grown by what it consumed and put out, and the
cursors are gone (44_inflate_engine.md R302, R341, R333; 10_state.md R22, R25). It touches `DU` only. That the command is a
bounded number of rounds, so that the next state might be one in which the push has not returned, is the model's choice (log
entry 7); `InflatePushReturns` says that it returns. -/
def Obligations.InflatePushRuns : Prop :=
  ∀ s : State, s.du.ctl = .idle → s.du.mode ≠ .noStream → 0 ≤ s.port.flush → s.port.flush ≤ 5 →
    ∃ (d : Du) (r : Option Result), exec .iflPush s = .next { s with du := d, result := r } ∧
      (d.ctl = .idle → ∃ st consumed out, r = some ⟨st, consumed, out, none, none⟩ ∧
        st ≠ .streamError ∧ (st = .streamEnd → d.mode = .done) ∧ (st = .dataError → d.mode = .bad) ∧
        (st = .needDict → d.mode = .dict) ∧ (st = .ok → s.port.flush ≠ 4 ∧ (consumed ≠ 0 ∨ out ≠ [])) ∧
        d.totalIn = s.du.totalIn + word32Of consumed ∧ d.totalOut = s.du.totalOut + word32Of out.length ∧
        d.total = s.du.total + word32Of out.length ∧ d.cur = Cursor.empty)

/-- In a state that is `Safe` and whose decode tables are code tables an `IFL_PUSH` returns: `DU` is idle again and a result is
there (46_host_commands.md R370 (a), 44_inflate_engine.md R302), so the bound on its rounds, the model's choice (log entry 7),
is never met. Every step keeps the tables, and the bit accumulator and the input cursor in range (43_table_decoder_fastloop.md
R288, R279; 44_inflate_engine.md R301, R321 to R323). -/
def Obligations.InflatePushReturns : Prop :=
  (∀ s t : State, s.Safe → s.du.TablesWf → s.du.StreamWf → step s = .next t → t.du.TablesWf ∧ t.du.StreamWf) ∧
  ∀ s : State, s.Safe → s.du.TablesWf → s.du.ctl = .idle → s.du.mode ≠ .noStream → 0 ≤ s.port.flush → s.port.flush ≤ 5 →
    ∃ (d : Du) (st : Status) (consumed : Nat) (out : List Byte),
      exec .iflPush s = .next { s with du := d, result := some ⟨st, consumed, out, none, none⟩ } ∧
      d.ctl = .idle ∧ d.TablesWf ∧ consumed ≤ s.port.input.length ∧ out.length ≤ s.port.availOut

/-- Pushes in the sinks `DONE`, `BAD` and `MEM`, and in `DICT` without a dictionary, return the same status again, consume
nothing and change nothing (44_inflate_engine.md R317, R339, R340; 60_exceptions.md R402). The clause on `MEM`, which nothing
enters, rests on the reading of R340 that log entry 21 says. -/
def Obligations.InflatePushInASink : Prop :=
  ∀ s : State, s.BetweenCommands → s.du.ctl = .idle → 0 ≤ s.port.flush → s.port.flush ≤ 5 →
    (s.du.mode = .done → exec .iflPush s = .next { s with result := some (statusOnly .streamEnd) }) ∧
    (s.du.mode = .bad → exec .iflPush s = .next { s with result := some (statusOnly .dataError) }) ∧
    (s.du.mode = .mem → exec .iflPush s = .next { s with result := some (statusOnly .memError) }) ∧
    (s.du.mode = .dict → s.du.havedict = false → exec .iflPush s = .next { s with result := some (statusOnly .needDict) })

/-- A push inside a stored block, with room for its input and more of the block to come, puts out its input: output, history
window, totals and checksum (44_inflate_engine.md R320, R341, R342, R333). -/
def Obligations.InflatePushCopiesStoredData : Prop :=
  ∀ s : State, s.MemWf → s.du.HistoryWf → s.BetweenCommands → s.du.ctl = .idle → s.du.mode = .copy → 0 ≤ s.port.flush →
    s.port.flush ≤ 5 → s.port.flush ≠ 4 → s.port.input ≠ [] → s.port.input.length < s.du.length → s.port.input.length < s.port.availOut →
    ∃ d : Du,
      exec .iflPush s = .next { s with
        result := some ⟨.ok, s.port.input.length, s.port.input, none, none⟩, du := d } ∧
      d = { s.du with
        length := s.du.length - s.port.input.length
        totalIn := s.du.totalIn + word32Of s.port.input.length
        totalOut := s.du.totalOut + word32Of s.port.input.length
        total := s.du.total + word32Of s.port.input.length
        check := if s.du.wrap = 0 then s.du.check else if s.du.flags = 0 then adler32 s.du.check s.port.input
          else crc32 s.du.check s.port.input
        adler := if s.du.wrap = 0 then s.du.adler else if s.du.flags = 0 then adler32 s.du.check s.port.input
          else crc32 s.du.check s.port.input
        wsize := 2 ^ s.du.wbits, whave := d.whave, wnext := d.wnext, hwindow := d.hwindow } ∧
      d.windowBytes = (s.du.windowBytes ++ s.port.input).drop (s.du.whave + s.port.input.length - 2 ^ s.du.wbits)

/-- A raw stream of one stored block, given whole to a fresh `DU`, comes out as its bytes with `STREAM_END` (30_encoding.md R107
to R109, 44_inflate_engine.md R318 to R320, R339): the stream is the one `StoredStreamIsExact` says `CU` writes. -/
def Obligations.StoredStreamDecodes : Prop :=
  ∀ (s : State) (data : List Byte) (flush : Int), s.du.ctl = .idle → s.du.mode = .head → s.du.wrap = 0 →
    s.du.hold = 0 → s.du.bits = 0 → s.du.last = false → data.length ≤ 65535 → 0 ≤ flush → flush ≤ 5 →
    s.port.flush = flush → data.length ≤ s.port.availOut →
    s.port.input = [1, byteOf data.length, byteOf (data.length / 256), byteOf (65535 - data.length),
      byteOf ((65535 - data.length) / 256)] ++ data →
    ∃ d : Du, exec .iflPush s = .next { s with
        result := some ⟨.streamEnd, data.length + 5, data, none, none⟩, du := d } ∧ d.mode = .done

/-! ## The bitstream -/

/-- `need(n)` (44_inflate_engine.md R301, R344). With `n` bits there it fetches whole bytes until `n` bits are held, loses and
changes no bit of the stream, and fetches no byte too many. Otherwise it suspends the push: every byte of the input has been
taken into `HOLD`, and nothing is lost. -/
def Obligations.NeedKeepsTheStream : Prop :=
  ∀ (d : Du) (n : Nat), (n ≤ 25 ∨ n ≤ 32 ∧ d.bits % 8 = 0) →
    (d.Ready n → d.Took 0 (d.need n) ∧ n ≤ (d.need n).bits ∧ (d.bits < n → (d.need n).bits < n + 8) ∧
      (n ≤ d.bits → d.need n = d) ∧ (d.need n).peek n = d.ahead % 2 ^ n ∧ d.Took n ((d.need n).drop n)) ∧
    (d.ctl = .run → d.StreamWf → d.aheadBits < n →
      (d.need n).ctl = .stop .ok ∧ (d.need n).cur.availIn = 0 ∧ (d.need n).bits = d.aheadBits ∧
      (d.need n).hold.toNat = d.ahead ∧
      d.need n = { d with
        ctl := .stop .ok, hold := (d.need n).hold, bits := (d.need n).bits
        cur := { d.cur with nextIn := d.cur.inp.length } })

/-- An instruction of the bitstream whose bits are not all there suspends the push and is still to be read: every byte of the
input has been taken, no bit is lost, and nothing else has changed (44_inflate_engine.md R344) but what the rule does before the
bits: the padding before a stored block's lengths goes, a length or distance symbol is in `LENEXT` or `DISTEXT` with its base,
the fields of a gzip header that are complete are done, the bytes of an extra field, a name or a comment are captured and
checksummed as they come, a flag bit's instruction sets its bit. What a link's second lookup does when its bits are missing is
left out. That a flag bit is executed as an instruction (log entry 17), and that a decode-table entry is, in any `MODE`, with
its bits fetched as `need` would fetch them (log entry 16), is the model's choice. -/
def Obligations.MissingBitsSuspend : Prop :=
  ∀ s : State, s.du.ctl = .run → s.du.StreamWf →
    (∀ (i : Instr) (n : Nat), s.du.aheadBits < n →
      i.format = .blockHeader ∧ n = 3 ∨ i.format = .dynamicHeader ∧ n = 14 ∨ i.format = .clLen ∧ n = 3 ∨
        i = .clCopyPrev ∧ n = 2 ∨ i = .clZerosShort ∧ n = 3 ∨ i = .clZerosLong ∧ n = 7 ∨
        (i.format = .fixedLl ∨ i.format = .fixedDist) ∧ n = i.bits ∨
        ((i.format = .zlibHeader ∨ i.format = .gzipHeader) ∧ s.du.wrap ≠ 0 ∨ i = .gzipFtext ∨
          (∃ flg, i = .gzipFlgReserved flg)) ∧ n = 16 →
      ∃ e : Du, Suspended s.du e ∧ exec i s = .next (withDu s e)) ∧
    (∀ len nlen, s.du.aheadBits < s.du.bits % 8 + 32 → ∃ d e : Du, s.du.Took (s.du.bits % 8) d ∧ Suspended d e ∧
      exec (.storedLenNlen len nlen) s = .next (withDu s e)) ∧
    (∀ row ∈ lengthRows, s.du.aheadBits < row.2.2 → ∃ e : Du,
      Suspended { s.du with length := row.2.1, extra := row.2.2, mode := .lenext } e ∧ exec row.1 s = .next (withDu s e)) ∧
    (∀ row ∈ distRows, s.du.aheadBits < row.2.2 → ∃ e : Du,
      Suspended { s.du with offset := row.2.1, extra := row.2.2, mode := .distext } e ∧ exec row.1 s = .next (withDu s e)) ∧
    (∀ (bits : Byte) (extra width : BitVec 4) (val : Word16) (i : Instr), bits.toNat ≤ 15 → s.du.aheadBits < bits.toNat →
      i ∈ [Instr.entryLiteral bits val, .entryLink bits width val, .entryBase bits extra val, .entryEndOfBlock bits,
        .entryInvalid bits] → ∃ e : Du, Suspended s.du e ∧ exec i s = .next (withDu s e)) ∧
    (∀ (bits : Byte) (val : Word16) (extra : Nat), bits.toNat ≤ 15 → (val, extra) ∈ [(16, 2), (17, 3), (18, 7)] →
      s.du.mode = .codelens → s.du.aheadBits < bits.toNat + extra → ∃ e : Du, Suspended s.du e ∧
      exec (.entryLiteral bits val) s = .next (withDu s e)) ∧
    (∀ (flg : BitVec 5) (mtime : Word32) (xfl os : Byte), s.du.wrap = 2 ∨ s.du.wrap = 3 → s.du.bits ∈ [0, 8, 16] →
      let i := Instr.gzipHeader flg mtime xfl os
      let magic (d : Du) : Du := { d with check := crc32 0 [0x1F, 0x8B], mode := .flags }
      let flags (d : Du) : Du := { d with
        flags := BitVec.ofNat 16 (8 + 256 * flg.toNat), mode := .time
        check := crc32 0 ([0x1F, 0x8B] ++ if flg.getLsbD 1 then [8, flg.setWidth 8] else [])
        hdr := if d.capture then { d.hdr with text := flg.getLsbD 0 } else d.hdr }
      let time (d : Du) : Du := { flags d with
        mode := .os
        check := crc32 0 ([0x1F, 0x8B] ++ if flg.getLsbD 1 then [8, flg.setWidth 8] ++ wordBytes mtime 4 else [])
        hdr := if d.capture then { d.hdr with text := flg.getLsbD 0, time := mtime } else d.hdr }
      (16 ≤ s.du.aheadBits → s.du.aheadBits < 32 → ∃ d e : Du, s.du.Took 16 d ∧ Suspended (magic d) e ∧
        exec i s = .next (withDu s e)) ∧
      (32 ≤ s.du.aheadBits → s.du.aheadBits < 64 → ∃ d e : Du, s.du.Took 32 d ∧ Suspended (flags d) e ∧
        exec i s = .next (withDu s e)) ∧
      (64 ≤ s.du.aheadBits → s.du.aheadBits < 80 → ∃ d e : Du, s.du.Took 64 d ∧ Suspended (time d) e ∧
        exec i s = .next (withDu s e))) ∧
    (s.du.aheadBits < 16 → ∃ e : Du, Suspended { s.du with flags := s.du.flags ||| 0x200 } e ∧
      exec .gzipFhcrc s = .next (withDu s e)) ∧
    (s.du.aheadBits < 16 → ∃ e : Du, Suspended { s.du with flags := s.du.flags ||| 0x400 } e ∧
      exec .gzipFextra s = .next (withDu s e)) ∧
    (∀ (size : Nat) (part : List Byte), s.du.bits = 0 → s.du.cur.inp.drop s.du.cur.nextIn = leBytes 2 size ++ part →
      part.length < size → size < 65536 → ∃ d : Du, s.du.Took (16 + 8 * part.length) d ∧
      exec .gzipFextra s = .next (withDu s { d with
        ctl := .stop .ok, flags := s.du.flags ||| 0x400, length := size - part.length, mode := .extra
        check := if s.du.flags.getLsbD 9 then crc32 s.du.check (leBytes 2 size ++ part) else s.du.check
        hdr := if s.du.capture then
            { s.du.hdr with extraPresent := true, extraLen := BitVec.ofNat 16 size, extra := part }
          else s.du.hdr })) ∧
    (let part := s.du.cur.inp.drop s.du.cur.nextIn
     let kept := min part.length (65536 - s.du.length)
     let field (f : List Byte) : List Byte := f.take s.du.length ++ part.take kept ++ f.drop (s.du.length + kept)
     let e : Du := { s.du with
       ctl := .stop .ok, cur := { s.du.cur with nextIn := s.du.cur.inp.length }
       check := if s.du.flags.getLsbD 9 then crc32 s.du.check part else s.du.check
       length := if s.du.capture then s.du.length + kept else s.du.length }
     0#8 ∉ part →
      exec .gzipFname s = .next (withDu s { e with
        flags := s.du.flags ||| 0x800
        hdr := if s.du.capture = true ∧ part ≠ [] then { s.du.hdr with namePresent := true, name := field s.du.hdr.name }
          else s.du.hdr }) ∧
      exec .gzipFcomment s = .next (withDu s { e with
        flags := s.du.flags ||| 0x1000
        hdr := if s.du.capture = true ∧ part ≠ [] then
            { s.du.hdr with commentPresent := true, comment := field s.du.hdr.comment }
          else s.du.hdr }))

/-- The block headers (44_inflate_engine.md R318): `LAST`, the next state, the tables of a fixed block; the reserved type enters
`BAD`. After the last block the bits up to the byte boundary go and the trailer follows. The length word of a stored block
(R319): the bits to the byte boundary go, the lengths must be complements, `LENGTH` takes the length and the copy begins. -/
def Obligations.BlockHeadersAct : Prop :=
  (∀ d : Du, d.ctl = .run → d.StreamWf → d.mode = .type → d.last = true →
    ∃ e : Du, d.Took (d.bits % 8) e ∧ d.rule = { e with mode := .check }) ∧
  (∀ (s : State) (last : Bool), s.du.Ready 3 → ∃ d : Du, s.du.Took 3 d ∧
    exec (.blockStored last) s = .next (withDu s { d with last := last, mode := .stored }) ∧
    exec (.blockFixed last) s = .next (withDu s { d with
      last := last, mode := .len, lencode := ⟨.lenfix, 0⟩, lenbits := 9, distcode := ⟨.distfix, 0⟩, distbits := 5 }) ∧
    exec (.blockDynamic last) s = .next (withDu s { d with last := last, mode := .table }) ∧
    exec (.blockReserved last) s = .next (withDu s (toBad .invalidBlockType { d with last := last }))) ∧
  ∀ (s : State) (len nlen : BitVec 16), s.du.Ready (s.du.bits % 8 + 32) →
    (nlen = ~~~len → ∃ d : Du, s.du.Took (s.du.bits % 8 + 32) d ∧
      exec (.storedLenNlen len nlen) s = .next (withDu s { d with length := len.toNat, mode := .copy })) ∧
    (nlen ≠ ~~~len → ∃ d : Du, s.du.Took (s.du.bits % 8) d ∧
      exec (.storedLenNlen len nlen) s = .next (withDu s (toBad .invalidStoredLengths d)))

/-- The header of a dynamic block (44_inflate_engine.md R321, R322): the counts, their limits, and one length of the code-length
code at its place in the order of 30_encoding.md R115. At the end of `LENLENS` the lengths not sent are 0, and the table of the
code-length code is built from all 19, or the set is refused; what `LENBITS` is then is the model's choice (log entry 24) and
not stated. -/
def Obligations.DynamicHeadersAct : Prop :=
  (∀ s : State, s.du.MemWf →
    (∀ (hlit hdist : BitVec 5) (hclen : BitVec 4), s.du.Ready 14 → ∃ d : Du, s.du.Took 14 d ∧
      exec (.dynamicCounts hlit hdist hclen) s = .next (withDu s
        (let e : Du := { d with nlen := hlit.toNat + 257, ndist := hdist.toNat + 1, ncode := hclen.toNat + 4 }
         if hlit.toNat ≤ 29 ∧ hdist.toNat ≤ 29 then { e with haveCount := 0, mode := .lenlens }
         else toBad .tooManySymbols e))) ∧
    (∀ v : BitVec 3, s.du.Ready 3 → s.du.haveCount < 19 → ∃ (d : Du) (l : Mem Word16), s.du.Took 3 d ∧
      exec (.dynamicCllen v) s = .next (withDu s { d with lens := l, haveCount := s.du.haveCount + 1 }) ∧
      ∀ k < 320, (Mem.rd 320 l k).toNat =
        if k = clOrderRow.getD s.du.haveCount 0 then v.toNat else (Mem.rd 320 s.du.lens k).toNat)) ∧
  ∀ d : Du, d.MemWf → d.ctl = .run → d.mode = .lenlens → d.ncode ≤ d.haveCount → d.haveCount ≤ 19 → ∃ l : Mem Word16,
    (∀ k < 320, Mem.rd 320 l k = if k ∈ clOrderRow.drop d.haveCount then 0 else Mem.rd 320 d.lens k) ∧
    let t := inflateTable .codes ((List.range 19).map fun k => (Mem.rd 320 l k).toNat) 0 7 d.codes d.work
    let e : Du := { d with lens := l, codes := t.codes, work := t.work, lencode := ⟨.codes, 0⟩ }
    (t.ret = 0 → d.rule = { e with lenbits := t.root, haveCount := 0, mode := .codelens }) ∧
    (t.ret ≠ 0 → ∃ width, d.rule = toBad .invalidCodeLengthsSet { e with lenbits := width, haveCount := 19 })

/-- The code-length symbols (44_inflate_engine.md R323, 30_encoding.md R112): a length, a repeat of the last one, runs of zeros;
a repeat without a last length or past the announced lengths enters `BAD`. At the end of `CODELENS` both decode tables are
built, the distance table behind the other, or the lengths are refused; what `LENBITS` and `DISTBITS` are then is the model's
choice (log entry 24) and not stated. -/
def Obligations.CodeLengthSymbolsAct : Prop :=
  (∀ s : State, s.du.MemWf → s.du.ctl = .run → s.du.nlen + s.du.ndist ≤ 320 →
    s.du.haveCount < s.du.nlen + s.du.ndist →
    (∀ v : BitVec 4, ∃ l : Mem Word16,
      exec (.clLength v) s = .next (withDu s { s.du with lens := l, haveCount := s.du.haveCount + 1 }) ∧
      ∀ k < 320, (Mem.rd 320 l k).toNat = if k = s.du.haveCount then v.toNat else (Mem.rd 320 s.du.lens k).toNat) ∧
    (∀ row ∈ [(Instr.clCopyPrev, 3, 2), (.clZerosShort, 3, 3), (.clZerosLong, 11, 7)], s.du.Ready row.2.2 →
      let n := row.2.1 + s.du.ahead % 2 ^ row.2.2
      let v := if row.1 = .clCopyPrev then Mem.rd 320 s.du.lens (s.du.haveCount - 1) else 0
      (row.1 = .clCopyPrev → s.du.haveCount = 0 → ∃ d : Du, s.du.Took 0 d ∧
        exec row.1 s = .next (withDu s (toBad .invalidBitLengthRepeat d))) ∧
      (¬ (row.1 = .clCopyPrev ∧ s.du.haveCount = 0) → s.du.nlen + s.du.ndist < s.du.haveCount + n →
        ∃ d : Du, s.du.Took row.2.2 d ∧ exec row.1 s = .next (withDu s (toBad .invalidBitLengthRepeat d))) ∧
      (¬ (row.1 = .clCopyPrev ∧ s.du.haveCount = 0) → s.du.haveCount + n ≤ s.du.nlen + s.du.ndist →
        ∃ (d : Du) (l : Mem Word16), s.du.Took row.2.2 d ∧
          exec row.1 s = .next (withDu s { d with lens := l, haveCount := s.du.haveCount + n }) ∧
          ∀ k < 320, Mem.rd 320 l k =
            if s.du.haveCount ≤ k ∧ k < s.du.haveCount + n then v else Mem.rd 320 s.du.lens k))) ∧
  ∀ d : Du, d.MemWf → d.ctl = .run → d.mode = .codelens → d.nlen + d.ndist ≤ d.haveCount → d.nlen + d.ndist ≤ 320 →
    let len (k : Nat) : Nat := (Mem.rd 320 d.lens k).toNat
    let l := inflateTable .lens ((List.range d.nlen).map len) 0 9 d.codes d.work
    let t := inflateTable .dists ((List.range' d.nlen d.ndist).map len) l.used 6 l.codes l.work
    let e : Du := { d with codes := l.codes, work := l.work, lencode := ⟨.codes, 0⟩ }
    let f : Du := { e with codes := t.codes, work := t.work, lenbits := l.root, distcode := ⟨.codes, l.used⟩ }
    (len 256 = 0 → d.rule = toBad .missingEndOfBlock d) ∧
    (len 256 ≠ 0 → l.ret ≠ 0 → ∃ width, d.rule = toBad .invalidLiteralLengthsSet { e with lenbits := width }) ∧
    (len 256 ≠ 0 → l.ret = 0 → t.ret ≠ 0 → ∃ width, d.rule = toBad .invalidDistancesSet { f with distbits := width }) ∧
    (len 256 ≠ 0 → l.ret = 0 → t.ret = 0 → d.rule = { f with distbits := t.root, mode := .len })

/-- The symbols. Literals, end of block, and the reserved symbols (44_inflate_engine.md R324, R326, R329; 30_encoding.md R116,
R117). The length symbols: `LENGTH` is the base plus the extra bits, which are taken off the stream, and a distance comes next
(30_encoding.md R118, R120; 44_inflate_engine.md R325). The distance symbols: `OFFSET` is the base plus the extra bits, and the
match is copied byte by byte from the history, or waits for output space, or is too far back (30_encoding.md R119, R121;
44_inflate_engine.md R327, R328, R332, R334). -/
def Obligations.SymbolsAct : Prop :=
  (∀ s : State, s.du.ctl = .run →
    (∀ b : Byte, s.du.cur.availOut ≠ 0 → exec (.lit b) s = .next (withDu s { s.du with
      length := b.toNat, mode := .len
      cur := { s.du.cur with out := s.du.cur.out ++ [b], availOut := s.du.cur.availOut - 1 } })) ∧
    (∀ b : Byte, s.du.cur.availOut = 0 → exec (.lit b) s = .next (withDu s { s.du with
      length := b.toNat, mode := .lit, ctl := .stop .ok })) ∧
    exec .eob s = .next (withDu s { s.du with length := 0, mode := .type }) ∧
    (∀ odd, exec (.llReserved odd) s = .next (withDu s (toBad .invalidLiteralLengthCode { s.du with length := 0 }))) ∧
    (∀ odd, exec (.distReserved odd) s = .next (withDu s (toBad .invalidDistanceCode s.du)))) ∧
  (∀ row ∈ lengthRows, ∀ s : State, s.du.Ready row.2.2 → ∃ d : Du, s.du.Took row.2.2 d ∧
    exec row.1 s = .next (withDu s { d with
      length := row.2.1 + s.du.ahead % 2 ^ row.2.2, extra := row.2.2, mode := .dist })) ∧
  ∀ row ∈ distRows, ∀ s : State, s.du.Ready row.2.2 → s.du.HistoryWf →
    ∃ d e : Du, s.du.Took row.2.2 d ∧ exec row.1 s = .next (withDu s e) ∧
      Matched (row.2.1 + s.du.ahead % 2 ^ row.2.2)
        { d with offset := row.2.1 + s.du.ahead % 2 ^ row.2.2, extra := row.2.2, mode := .matchCopy } e

/-- The fixed codes: the code's bits go, then the symbol acts (30_encoding.md R110). -/
def Obligations.FixedCodesAct : Prop :=
  ∀ (s : State),
    (∀ (b : Byte), b.toNat < 144 → s.du.Ready 8 → ∃ (d : Du) (t : State), s.du.Took 8 d ∧
      exec (.fixedLit0To143 b) s = .next t ∧ exec (.lit b) (withDu s d) = .next t) ∧
    (∀ (b : Byte), 144 ≤ b.toNat → s.du.Ready 9 → ∃ (d : Du) (t : State), s.du.Took 9 d ∧
      exec (.fixedLit144To255 b) s = .next t ∧ exec (.lit b) (withDu s d) = .next t) ∧
    (∀ (v : BitVec 9) (i : Instr), 256 ≤ v.toNat → v.toNat < 280 → decode .llSymbol v.toNat = .ok i → s.du.Ready 7 →
      ∃ (d : Du) (t : State), s.du.Took 7 d ∧
        exec (.fixedLl256To279 v) s = .next t ∧ exec i (withDu s d) = .next t) ∧
    (∀ (v : BitVec 9) (i : Instr), 280 ≤ v.toNat → v.toNat < 288 → decode .llSymbol v.toNat = .ok i → s.du.Ready 8 →
      ∃ (d : Du) (t : State), s.du.Took 8 d ∧
        exec (.fixedLl280To287 v) s = .next t ∧ exec i (withDu s d) = .next t) ∧
    (∀ (v : BitVec 5) (i : Instr), decode .distSymbol v.toNat = .ok i → s.du.Ready 5 →
      ∃ (d : Du) (t : State), s.du.Took 5 d ∧ exec (.fixedDist v) s = .next t ∧ exec i (withDu s d) = .next t)

/-- The decode-table entries, in the state that looks them up (30_encoding.md R130, R131; 44_inflate_engine.md R324, R326): the
entry's bits go, then it acts as the symbol it stands for. A link's sub-table entry acts in its place once all its bits are
held. How an entry is executed as an instruction, in the state `MODE` and with its bits fetched where they are not yet held, is
the model's choice (log entry 16). -/
def Obligations.TableEntriesAct : Prop :=
  ∀ (s : State) (bits : Byte), bits.toNat ≤ 15 →
    (∀ val : Word16, val.toNat < 256 → s.du.mode = .len → s.du.Ready bits.toNat →
      ∃ (d : Du) (t : State), s.du.Took bits.toNat d ∧
        exec (.entryLiteral bits val) s = .next t ∧ exec (.lit (val.setWidth 8)) (withDu s d) = .next t) ∧
    (∀ (val : Word16) (i : Instr), decode .clSymbol val.toNat = .ok i → val.toNat < 32 → s.du.mode = .codelens →
      s.du.Ready (bits.toNat + (if val = 16 then 2 else if val = 17 then 3 else if val = 18 then 7 else 0)) →
      ∃ (d : Du) (t : State), s.du.Took bits.toNat d ∧ exec (.entryLiteral bits val) s = .next t ∧
        exec i (withDu s d) = .next t) ∧
    (s.du.mode = .len → s.du.Ready bits.toNat → ∃ (d : Du) (t u : State), s.du.Took bits.toNat d ∧
      exec (.entryEndOfBlock bits) s = .next t ∧ exec .eob (withDu s d) = .next t ∧
      exec (.entryInvalid bits) s = .next u ∧ exec (.llReserved false) (withDu s d) = .next u) ∧
    (s.du.mode = .dist → s.du.Ready bits.toNat → ∃ (d : Du) (t : State), s.du.Took bits.toNat d ∧
      exec (.entryInvalid bits) s = .next t ∧ exec (.distReserved false) (withDu s d) = .next t) ∧
    (∀ row ∈ lengthRows, s.du.mode = .len → s.du.Ready bits.toNat → ∃ (d : Du) (t : State), s.du.Took bits.toNat d ∧
      exec (.entryBase bits (BitVec.ofNat 4 row.2.2) (BitVec.ofNat 16 row.2.1)) s = .next t ∧
      exec row.1 (withDu s d) = .next t) ∧
    (∀ row ∈ distRows, s.du.mode = .dist → s.du.Ready bits.toNat → ∃ (d : Du) (t : State), s.du.Took bits.toNat d ∧
      exec (.entryBase bits (BitVec.ofNat 4 row.2.2) (BitVec.ofNat 16 row.2.1)) s = .next t ∧
      exec row.1 (withDu s d) = .next t) ∧
    (∀ (width : BitVec 4) (val : Word16) (e : Word32) (i : Instr), 1 ≤ width.toNat → width.toNat ≤ 9 → s.du.ctl = .run →
      s.du.StreamWf → bits.toNat + width.toNat ≤ s.du.bits →
      (s.du.mode = .len ∧
          e = s.du.tableAt s.du.lencode (val.toNat + s.du.ahead / 2 ^ bits.toNat % 2 ^ width.toNat) ∨
        s.du.mode = .dist ∧
          e = s.du.tableAt s.du.distcode (val.toNat + s.du.ahead / 2 ^ bits.toNat % 2 ^ width.toNat)) →
      bits.toNat + entryBits e ≤ s.du.bits → decode .tableEntry e.toNat = .ok i → ¬ (1 ≤ entryOp e ∧ entryOp e ≤ 15) →
      ∃ (d : Du) (t : State), s.du.Took bits.toNat d ∧ exec (.entryLink bits width val) s = .next t ∧
        exec i (withDu s d) = .next t)

/-- The zlib header (44_inflate_engine.md R303, R304): accepted, or refused for the header check, the window size; in raw mode
nothing is read. With a preset dictionary its identifier, big-endian, is read to `CHECK` and `ADLER` (R316), and the engine
waits for the dictionary and then goes on (R317). -/
def Obligations.ZlibHeaderActs : Prop :=
  (∀ (s : State) (cinfo : BitVec 4) (flevel : BitVec 2) (fdict : Bool) (fcheck : BitVec 5), s.du.Ready 16 → s.du.bits ∈ [0, 8, 16] →
    let i := Instr.zlibHeader cinfo flevel fdict fcheck
    let e (d : Du) : Du := { d with
      flags := 0, hdr := if s.du.capture then { s.du.hdr with hdone := -1 } else s.du.hdr }
    (s.du.wrap = 0 → exec i s = .next (withDu s { s.du with mode := .type })) ∧
    (s.du.wrap ≠ 0 → s.du.wrap = 2 ∨ i.word % 31 ≠ 0 → ∃ d : Du, s.du.Took 0 d ∧
      exec i s = .next (withDu s (toBad .incorrectHeaderCheck (e d)))) ∧
    (s.du.wrap = 1 ∨ s.du.wrap = 3 → i.word % 31 = 0 → s.du.wbits < cinfo.toNat + 8 → ∃ d : Du, s.du.Took 4 d ∧
      exec i s = .next (withDu s (toBad .invalidWindowSize (e d)))) ∧
    (s.du.wrap = 1 ∨ s.du.wrap = 3 → i.word % 31 = 0 → cinfo.toNat + 8 ≤ s.du.wbits → ∃ d : Du, s.du.Took 16 d ∧
      exec i s = .next (withDu s { e d with
        adler := 1, check := 1, mode := if fdict then .dictid else .type }))) ∧
  (∀ d : Du, d.Ready 32 → d.mode = .dictid → d.bits % 8 = 0 → ∃ e : Du, d.Took 32 e ∧
    let id := word32Of (bytesReversed (d.ahead % 2 ^ 32))
    d.rule = { e with check := id, adler := id, mode := .dict }) ∧
  (∀ d : Du, d.ctl = .run → d.StreamWf → d.aheadBits < 32 → d.mode = .dictid → ∃ e : Du, Suspended d e ∧ d.rule = e) ∧
  ∀ d : Du, d.ctl = .run → d.mode = .dict →
    (d.havedict = false → d.rule = { d with ctl := .stop .needDict }) ∧
    (d.havedict = true → d.rule = { d with adler := 1, check := 1, mode := .type })

/-- The gzip header (44_inflate_engine.md R303, R305 to R307): flags, captured fields, the CRC of the header bytes; refused
where no gzip is allowed. -/
def Obligations.GzipHeaderActs : Prop :=
  ∀ (s : State) (flg : BitVec 5) (mtime : Word32) (xfl os : Byte), s.du.Ready 80 → s.du.bits ∈ [0, 8, 16] →
    let i := Instr.gzipHeader flg mtime xfl os
    (s.du.wrap = 2 ∨ s.du.wrap = 3 → ∃ d : Du, s.du.Took 80 d ∧
      exec i s = .next (withDu s { d with
        flags := BitVec.ofNat 16 (8 + 256 * flg.toNat), mode := .exlen
        check := if flg.getLsbD 1 then crc32 0 ([0x1F, 0x8B, 8, flg.setWidth 8] ++ wordBytes mtime 4 ++ [xfl, os])
          else crc32 0 [0x1F, 0x8B]
        hdr := if s.du.capture then
            { s.du.hdr with text := flg.getLsbD 0, time := mtime, xflags := xfl, os := os }
          else s.du.hdr })) ∧
    (s.du.wrap = 1 → ∃ d : Du, s.du.Took 0 d ∧
      exec i s = .next (withDu s (toBad .incorrectHeaderCheck { d with
        flags := 0, hdr := if s.du.capture then { s.du.hdr with hdone := -1 } else s.du.hdr }))) ∧
    (s.du.wrap = 0 → exec i s = .next (withDu s { s.du with mode := .type }))

/-- The gzip flag bits (44_inflate_engine.md R305, R308 to R312): the header text flag, the header CRC, the extra field, the
name and the comment, and the reserved bits. That executing a flag bit sets it in `FLAGS` and runs the state it governs is the
model's choice (log entry 17). -/
def Obligations.GzipFlagsAct : Prop :=
  ∀ s : State, s.du.ctl = .run → s.du.StreamWf → s.du.bits = 0 →
    (16 ≤ s.du.aheadBits → s.du.ahead % 256 = 8 → s.du.ahead % 65536 / 2 ^ 13 = 0 → ∃ d : Du, s.du.Took 16 d ∧
      exec .gzipFtext s = .next (withDu s { d with
        flags := BitVec.ofNat 16 (s.du.ahead % 65536 ||| 0x100), mode := .time
        check := if s.du.ahead.testBit 9 then
            crc32 s.du.check [8, BitVec.ofNat 8 (s.du.ahead / 256 ||| 1)] else s.du.check
        hdr := if s.du.capture then { s.du.hdr with text := true } else s.du.hdr })) ∧
    (16 ≤ s.du.aheadBits → s.du.ahead % 256 ≠ 8 ∨ s.du.ahead % 65536 / 2 ^ 13 ≠ 0 → ∃ d : Du, s.du.Took 0 d ∧
      exec .gzipFtext s = .next (withDu s
        (toBad (if s.du.ahead % 256 ≠ 8 then .unknownCompressionMethod else .unknownHeaderFlags)
          { d with flags := BitVec.ofNat 16 (s.du.ahead % 65536 ||| 0x100) }))) ∧
    (16 ≤ s.du.aheadBits → ∃ d : Du, s.du.Took (if s.du.ahead % 65536 = s.du.check.toNat % 65536 then 16 else 0) d ∧
      exec .gzipFhcrc s = .next (withDu s
        (if s.du.ahead % 65536 = s.du.check.toNat % 65536 then
          { d with
            flags := s.du.flags ||| 0x200, adler := 0, check := 0, mode := .type
            hdr := if s.du.capture then { s.du.hdr with hcrc := true, hdone := 1 } else s.du.hdr }
        else toBad .headerCrcMismatch { d with flags := s.du.flags ||| 0x200 }))) ∧
    (∀ (field rest : List Byte), s.du.cur.inp.drop s.du.cur.nextIn = leBytes 2 field.length ++ field ++ rest →
      field.length < 65536 → ∃ d : Du, s.du.Took (16 + 8 * field.length) d ∧
      exec .gzipFextra s = .next (withDu s { d with
        flags := s.du.flags ||| 0x400, length := 0, mode := .name
        check := if s.du.flags.getLsbD 9 then crc32 s.du.check (leBytes 2 field.length ++ field) else s.du.check
        hdr := if s.du.capture then
            { s.du.hdr with extraPresent := true, extraLen := BitVec.ofNat 16 field.length, extra := field }
          else s.du.hdr })) ∧
    (∀ (field rest : List Byte), s.du.cur.inp.drop s.du.cur.nextIn = field ++ [0] ++ rest → 0#8 ∉ field →
      field.length ≤ 65536 → s.du.length = 0 →
      (s.du.hdr.name = [] → ∃ d : Du, s.du.Took (8 * field.length + 8) d ∧
        exec .gzipFname s = .next (withDu s { d with
          flags := s.du.flags ||| 0x800, length := 0, mode := .comment
          check := if s.du.flags.getLsbD 9 then crc32 s.du.check (field ++ [0]) else s.du.check
          hdr := if s.du.capture then { s.du.hdr with namePresent := true, name := field } else s.du.hdr })) ∧
      (s.du.hdr.comment = [] → ∃ d : Du, s.du.Took (8 * field.length + 8) d ∧
        exec .gzipFcomment s = .next (withDu s { d with
          flags := s.du.flags ||| 0x1000, length := 0, mode := .hcrc
          check := if s.du.flags.getLsbD 9 then crc32 s.du.check (field ++ [0]) else s.du.check
          hdr := if s.du.capture then { s.du.hdr with commentPresent := true, comment := field } else s.du.hdr }))) ∧
    (∀ flg : Byte, 32 ≤ flg.toNat → 16 ≤ s.du.aheadBits → ∃ d : Du, s.du.Took 0 d ∧
      exec (.gzipFlgReserved flg) s = .next (withDu s
        (toBad .unknownHeaderFlags { d with flags := BitVec.ofNat 16 (8 + 256 * flg.toNat) })))

/-- The trailer (44_inflate_engine.md R330, R331, R333): the checksum of all the output is compared with the field, big-endian
for zlib and little-endian for gzip, and then, for gzip, the length; raw streams have neither. -/
def Obligations.TrailerIsChecked : Prop :=
  ∀ d : Du,
    (d.mode = .check → d.wrap ≠ 0 → d.bits % 8 = 0 → d.Ready 32 →
      let fresh := d.cur.out.drop d.checked
      let v := if d.flags = 0 then adler32 d.check fresh else crc32 d.check fresh
      let field := if d.flags = 0 then bytesReversed (d.ahead % 2 ^ 32) else d.ahead % 2 ^ 32
      let f (e : Du) : Du := { e with
        totalOut := d.totalOut + word32Of fresh.length, total := d.total + word32Of fresh.length
        checked := d.cur.out.length, check := v, adler := if fresh = [] then d.adler else v }
      (field = v.toNat → ∃ e, d.Took 32 e ∧ d.rule = { f e with mode := .length }) ∧
      (field ≠ v.toNat → ∃ e, d.Took 0 e ∧ d.rule = toBad .incorrectDataCheck (f e))) ∧
    (d.mode = .length → d.wrap ≠ 0 → d.flags ≠ 0 → d.bits % 8 = 0 → d.Ready 32 →
      (d.ahead % 2 ^ 32 = d.total.toNat → ∃ e, d.Took 32 e ∧ d.rule = { e with mode := .done }) ∧
      (d.ahead % 2 ^ 32 ≠ d.total.toNat → ∃ e, d.Took 0 e ∧ d.rule = toBad .incorrectLengthCheck e)) ∧
    (d.mode = .length → d.wrap = 0 ∨ d.flags = 0 → d.rule = { d with mode := .done }) ∧
    (d.mode = .check → d.wrap = 0 → d.rule = { d with mode := .length })

/-! ## Decode tables and the fast loop -/

/-- `inflate_table` (43_table_decoder_fastloop.md R270, R271, R277, R278, R288), in each of its uses: it accepts exactly the
complete sets, the empty one, and a single code of one bit where the alphabet is not that of the code lengths; then a lookup of
any bits finds the entry of the symbol whose canonical code stands first in them, and that code's length, or an invalid entry
where no code does; the table lies in its space, and no other entry of `CODES` changes. -/
def Obligations.InflateTableDecodesTheCode : Prop :=
  ∀ (type : TableType) (lens : List Nat) (base bits : Nat) (codes : Mem Word32) (work : Mem Word16),
    (∀ l ∈ lens, l ≤ 15) → TableUse type lens.length base bits →
    Mem.wf Du.codesSize codes = true → Mem.wf Du.workSize work = true →
    let t := inflateTable type lens base bits codes work
    (t.ret = -1 ↔ ¬ AcceptedLengths type lens) ∧ (t.ret = 0 ∨ t.ret = 1 ∨ t.ret = -1) ∧
    (t.ret = 0 →
      base + t.used ≤ Du.codesSize ∧ (type = .lens → t.used ≤ 852) ∧
      t.root = (if ∀ l ∈ lens, l = 0 then 1 else min (max bits ((lens.filter (· ≠ 0)).foldl min 15)) (lens.foldl max 0)) ∧
      (∀ i, i < base ∨ base + t.used ≤ i → Mem.rd Du.codesSize t.codes i = Mem.rd Du.codesSize codes i) ∧
      ∀ (d : Du) (b : Nat), d.codes = t.codes →
        let here := d.lookup ⟨.codes, base⟩ t.root b
        (∀ w < lens.length, lens.getD w 0 ≠ 0 → codeRead b (lens.getD w 0) = canonicalCode lens w →
          here.1 = tableEntry type w (entryBits here.1) ∧ here.2 = lens.getD w 0) ∧
        ((∀ w < lens.length, lens.getD w 0 ≠ 0 → codeRead b (lens.getD w 0) ≠ canonicalCode lens w) →
          entryOp here.1 = 64))

/-- The fast loop is the slow path (43_table_decoder_fastloop.md R280 to R283, R285, R286): where it is entered, it leaves
exactly what some rounds of the slow path leave, at least one, but for the dead registers `LENGTH`, `OFFSET`, `EXTRA`; it leaves
the engine in `LEN`, `TYPE` or `BAD`, with less than a byte in `HOLD`, and in `LEN` only when fewer than 6 input bytes (but for
those it gives back) or fewer than 258 output bytes remain. -/
def Obligations.FastLoopIsTheSlowPath : Prop :=
  ∀ d : Du, d.ctl = .run → d.mode = .len → d.fastReady = true → d.StreamWf → d.bits < 8 → d.TablesWf →
    d.rule = d.inflateFast ∧
    (∃ (rounds length offset extra : Nat), 1 ≤ rounds ∧
      { slowRound^[rounds] d with length := length, offset := offset, extra := extra } = d.inflateFast) ∧
    d.inflateFast.mode ∈ [.len, .type, .bad] ∧ d.inflateFast.ctl = .run ∧ d.inflateFast.bits < 8 ∧ d.inflateFast.StreamWf ∧
    d.cur.nextIn ≤ d.inflateFast.cur.nextIn ∧
    (d.inflateFast.mode = .len → d.inflateFast.cur.availIn < 6 + 3 ∨ d.inflateFast.cur.availOut < 258)

/-! ## History and isolation -/

/-- `updatewindow` (44_inflate_engine.md R342): afterwards the window holds the last `min(2^WBITS, ...)` bytes of the history
followed by the data; nothing else of the unit changes. -/
def Obligations.HistoryWindowHoldsTheLastBytes : Prop :=
  ∀ (d : Du) (data : List Byte), d.HistoryWf → d.MemWf →
    (d.updateWindow data).HistoryWf ∧ (d.updateWindow data).MemWf ∧
    (d.updateWindow data).whave = min (2 ^ d.wbits) (d.whave + data.length) ∧
    (d.updateWindow data).windowBytes = (d.windowBytes ++ data).drop (d.whave + data.length - 2 ^ d.wbits) ∧
    (d.updateWindow data).wnext =
      (if 2 ^ d.wbits ≤ data.length then 0 else ((if d.wsize = 0 then 0 else d.wnext) + data.length) % 2 ^ d.wbits) ∧
    d.updateWindow data = { d with
      wsize := 2 ^ d.wbits, whave := (d.updateWindow data).whave, wnext := (d.updateWindow data).wnext
      hwindow := (d.updateWindow data).hwindow }

/-- The units share no state (00_scope.md R7, 46_host_commands.md R370 (b)). A unit's instructions leave the other unit's whole
context alone, and learn nothing of it: on two states that agree on this unit and on the operands they leave the same context
and the same result. Over `DFL_END` and `IFL_END` it rests on the model's choice that they keep the registers (log entry 2);
that the six flush values are instructions of `CU` is the model's choice too (log entry 6). -/
def Obligations.UnitsAreIsolated : Prop :=
  ∀ (i : Instr) (s t : State), exec i s = .next t →
    (i ∈ cuInstrs → t.du = s.du) ∧ (i ∉ cuInstrs → t.cu = s.cu) ∧ t.cmds = s.cmds ∧ t.port = s.port ∧
    ∀ s' : State, s.port = s'.port →
      (i ∈ cuInstrs → s.cu = s'.cu → ∃ t', exec i s' = .next t' ∧ t'.cu = t.cu ∧ t'.result = t.result) ∧
      (i ∉ cuInstrs → s.du = s'.du → s.result = s'.result → ∃ t', exec i s' = .next t' ∧ t'.du = t.du ∧
        t'.result = t.result)
end

