-- ==== Sys2Proof/Laws/Memory.lean ====
section
/-! SUPPORT. The laws of memories: every operation keeps the canonical form, and what a read gives after each of them. At the
end, counted loops and wrapping counters. -/

namespace Sys2Proof.Machine.Mem

variable {α : Type} [Inhabited α] [DecidableEq α]

/-- The canonical form as a proposition. -/
theorem wf_iff {n : Nat} {m : Mem α} :
    wf n m = true ↔ m.Pairwise (fun a b => a.1 < b.1) ∧ ∀ e ∈ m, e.1 < n ∧ e.2 ≠ default := by
  simp [wf]

@[simp] theorem wf_nil (n : Nat) : wf n ([] : Mem α) = true := rfl

/-- Below every listed index nothing is listed. -/
theorem get_of_lt {m : Mem α} {i : Nat} (h : ∀ e ∈ m, i < e.1) : get m i = default := by
  cases m with
  | nil => rfl
  | cons e r => simp [get, h e (by simp)]

/-- An entry of the memory after a write is the entry written or an old one. -/
theorem mem_set {m : Mem α} {i : Nat} {v : α} {e : Nat × α} (h : e ∈ set m i v) :
    (e = (i, v) ∧ v ≠ default) ∨ e ∈ m := by
  induction m with
  | nil => simp only [set] at h; split at h <;> simp_all
  | cons a r ih =>
    simp only [set] at h
    split at h
    · split at h <;> simp_all
    · split at h
      · split at h <;> simp_all [or_comm] <;> tauto
      · simp only [List.mem_cons] at h ⊢
        rcases h with h | h
        · exact .inr (.inl h)
        · rcases ih h with h | h
          · exact .inl h
          · exact .inr (.inr h)

/-- A write keeps the indexes strictly rising. -/
theorem pairwise_set {m : Mem α} {i : Nat} {v : α} (h : m.Pairwise fun a b => a.1 < b.1) :
    (set m i v).Pairwise fun a b => a.1 < b.1 := by
  induction m with
  | nil => simp only [set]; split <;> simp
  | cons a r ih =>
    obtain ⟨h1, h2⟩ := List.pairwise_cons.1 h
    simp only [set]
    split
    · split
      · exact h
      · rename_i hlt _
        refine List.pairwise_cons.2 ⟨?_, h⟩
        intro e he
        rcases List.mem_cons.1 he with rfl | he
        · exact hlt
        · exact lt_trans hlt (h1 e he)
    · split
      · rename_i heq
        split
        · exact h2
        · exact List.pairwise_cons.2 ⟨fun e he => by simpa [heq] using h1 e he, h2⟩
      · refine List.pairwise_cons.2 ⟨?_, ih h2⟩
        intro e he
        rcases mem_set he with ⟨rfl, _⟩ | he
        · show a.1 < i; omega
        · exact h1 e he

/-- A write inside the memory keeps the canonical form. -/
theorem wf_set {n : Nat} {m : Mem α} {i : Nat} {v : α} (h : wf n m = true) (hi : i < n) : wf n (set m i v) = true := by
  rw [wf_iff] at h ⊢
  refine ⟨pairwise_set h.1, fun e he => ?_⟩
  rcases mem_set he with ⟨rfl, hv⟩ | he
  · exact ⟨hi, hv⟩
  · exact h.2 e he

/-- Every bounded write keeps the canonical form. -/
theorem wf_wr {n : Nat} {m : Mem α} {i : Nat} {v : α} (h : wf n m = true) : wf n (wr n m i v) = true := by
  unfold wr
  split
  · exact wf_set h ‹_›
  · exact h

/-- A sequence of writes keeps the canonical form. -/
theorem wf_writeList {n : Nat} {m : Mem α} {a : Nat} {l : List α} (h : wf n m = true) :
    wf n (writeList n m a l) = true := by
  induction l generalizing m a with
  | nil => exact h
  | cons v r ih => exact ih (wf_wr h)

/-- Replacing every entry keeps the canonical form. -/
theorem wf_mapVals {n : Nat} {m : Mem α} {f : α → α} (h : wf n m = true) : wf n (mapVals f m) = true := by
  rw [wf_iff] at h ⊢
  constructor
  · unfold mapVals
    rw [List.pairwise_filterMap]
    refine h.1.imp fun {a b} hab c hc d hd => ?_
    split at hc <;> split at hd <;> simp_all
    rw [← hc, ← hd]; exact hab
  · intro e he
    simp only [mapVals, List.mem_filterMap] at he
    obtain ⟨a, ha, hae⟩ := he
    split at hae
    · exact absurd hae (by simp)
    · rename_i hne
      obtain rfl : (a.1, f a.2) = e := by simpa using hae
      exact ⟨(h.2 a ha).1, hne⟩

/-- The slide copy keeps the canonical form. -/
theorem wf_slideDown {w : Nat} {m : Mem α} (h : wf (2 * w) m = true) : wf (2 * w) (slideDown w m) = true := by
  rw [wf_iff] at h ⊢
  unfold slideDown
  constructor
  · rw [List.pairwise_append]
    refine ⟨?_, h.1.filter _, ?_⟩
    · rw [List.pairwise_filterMap]
      refine h.1.imp fun {a b} hab c hc d hd => ?_
      split at hc <;> split at hd <;> simp_all
      rw [← hc, ← hd]; simp; omega
    · intro a ha b hb
      simp only [List.mem_filterMap] at ha
      obtain ⟨x, hx, hxa⟩ := ha
      split at hxa
      · obtain rfl : (x.1 - w, x.2) = a := by simpa using hxa
        have := (List.mem_filter.1 hb).2
        simp at this
        show x.1 - w < b.1
        omega
      · exact absurd hxa (by simp)
  · intro e he
    rcases List.mem_append.1 he with he | he
    · simp only [List.mem_filterMap] at he
      obtain ⟨x, hx, hxa⟩ := he
      split at hxa
      · obtain rfl : (x.1 - w, x.2) = e := by simpa using hxa
        have := h.2 x hx
        exact ⟨by show x.1 - w < 2 * w; omega, this.2⟩
      · exact absurd hxa (by simp)
    · exact h.2 e (List.mem_filter.1 he).1

/-- Read after write. -/
theorem get_set {m : Mem α} {i j : Nat} {v : α} (h : m.Pairwise fun a b => a.1 < b.1) :
    get (set m i v) j = if j = i then v else get m j := by
  induction m with
  | nil =>
    simp only [set]
    split <;> simp [get] <;> grind
  | cons a r ih =>
    obtain ⟨h1, h2⟩ := List.pairwise_cons.1 h
    have hr : j ≤ a.1 → get r j = default := fun hj => get_of_lt fun e he => lt_of_le_of_lt hj (h1 e he)
    simp only [set]
    split
    · split <;> simp only [get] <;> grind
    · split
      · split <;> simp only [get] <;> grind
      · simp only [get, ih h2]; grind

/-- Read after a bounded write. -/
theorem rd_wr {n : Nat} {m : Mem α} {i j : Nat} {v : α} (h : wf n m = true) :
    rd n (wr n m i v) j = if j = i ∧ i < n then v else rd n m j := by
  have hp := (wf_iff.1 h).1
  unfold rd wr
  split <;> split <;> simp_all [get_set] <;> grind

/-- Two memories in canonical form with the same reads are the same list. -/
theorem ext_get {n : Nat} {m m' : Mem α} (h : wf n m = true) (h' : wf n m' = true) (hg : ∀ i, get m i = get m' i) :
    m = m' := by
  induction m generalizing m' with
  | nil =>
    cases m' with
    | nil => rfl
    | cons b r =>
      have := hg b.1
      simp [get] at this
      exact absurd this.symm ((wf_iff.1 h').2 b (by simp)).2
  | cons a r ih =>
    cases m' with
    | nil =>
      have := hg a.1
      simp [get] at this
      exact absurd this ((wf_iff.1 h).2 a (by simp)).2
    | cons b r' =>
      have ha := (wf_iff.1 h).2 a (by simp)
      have hb := (wf_iff.1 h').2 b (by simp)
      have hab : a.1 = b.1 := by
        rcases lt_trichotomy a.1 b.1 with hl | he | hl
        · have := hg a.1
          simp [get, hl] at this
          exact absurd this ha.2
        · exact he
        · have := hg b.1
          simp [get, hl] at this
          exact absurd this.symm hb.2
      have hv : a.2 = b.2 := by simpa [get, hab] using hg a.1
      have hp := List.pairwise_cons.1 (wf_iff.1 h).1
      have hp' := List.pairwise_cons.1 (wf_iff.1 h').1
      have hw : wf n r = true := wf_iff.2 ⟨hp.2, fun e he => (wf_iff.1 h).2 e (by simp [he])⟩
      have hw' : wf n r' = true := wf_iff.2 ⟨hp'.2, fun e he => (wf_iff.1 h').2 e (by simp [he])⟩
      have : r = r' := by
        refine ih hw hw' fun i => ?_
        by_cases hi : i ≤ a.1
        · rw [get_of_lt fun e he => lt_of_le_of_lt hi (hp.1 e he),
            get_of_lt fun e he => lt_of_le_of_lt (hab ▸ hi) (hp'.1 e he)]
        · have := hg i
          simp only [get] at this
          rwa [if_neg (by omega), if_neg (by omega), if_neg (by omega), if_neg (by omega)] at this
      rw [this, Prod.ext hab hv]

/-- What a read gives after a sequence of writes. -/
theorem rd_writeList {n : Nat} {m : Mem α} {a : Nat} {l : List α} (h : wf n m = true) (j : Nat) :
    rd n (writeList n m a l) j = if a ≤ j ∧ j < a + l.length ∧ j < n then l.getD (j - a) default else rd n m j := by
  induction l generalizing m a with
  | nil => simp [writeList]; omega
  | cons v r ih =>
    rw [writeList, ih (wf_wr h), rd_wr h]
    by_cases h1 : j = a
    · subst h1
      by_cases h2 : j < n <;> simp [h2]
    · by_cases h2 : a ≤ j
      · obtain ⟨k, rfl⟩ := Nat.exists_eq_add_of_lt (lt_of_le_of_ne h2 (Ne.symm h1))
        have e1 : a + k + 1 - a = k + 1 := by omega
        have e2 : a + k + 1 - (a + 1) = k := by omega
        simp only [List.length_cons, e1, e2, List.getD_cons_succ, h1, false_and, if_false]
        congr 1
        apply propext
        omega
      · rw [if_neg (by omega), if_neg (by omega), if_neg (by simp; omega)]

/-- What a read gives after every entry has been replaced, for a function that keeps zero. -/
theorem get_mapVals {m : Mem α} {f : α → α} (hf : f default = default) (h : m.Pairwise fun a b => a.1 < b.1) (i : Nat) :
    get (mapVals f m) i = f (get m i) := by
  induction m with
  | nil => simp [mapVals, get, hf]
  | cons a r ih =>
    obtain ⟨h1, h2⟩ := List.pairwise_cons.1 h
    have hr : i ≤ a.1 → get (mapVals f r) i = default := fun hi => by
      rw [ih h2, get_of_lt fun e he => lt_of_le_of_lt hi (h1 e he), hf]
    by_cases hd : f a.2 = default
    · have : mapVals f (a :: r) = mapVals f r := by simp [mapVals, hd]
      rw [this]
      simp only [get]
      split
      · rw [hr (by omega), hf]
      · split
        · rw [hr (by omega), hd]
        · exact ih h2
    · have : mapVals f (a :: r) = (a.1, f a.2) :: mapVals f r := by simp [mapVals, hd]
      rw [this]
      simp only [get]
      split
      · exact hf.symm
      · split
        · rfl
        · exact ih h2

end Sys2Proof.Machine.Mem

namespace Sys2Proof.Machine

/-! ## Loops -/

/-- A counted loop keeps what every round keeps. -/
theorem forRange_induction {σ : Type} (P : σ → Prop) (lo n : Nat) (f : Nat → σ → σ) (hf : ∀ i s, P s → P (f i s)) (s : σ)
    (h : P s) : P (forRange lo n f s) := by
  unfold forRange
  induction List.range' lo n generalizing s with
  | nil => exact h
  | cons i r ih => exact ih _ (hf i s h)

/-! ## Wrapping counters -/

theorem word32Of_add (a b : Nat) : word32Of (a + b) = word32Of a + word32Of b := by simp [word32Of, BitVec.ofNat_add]

end Sys2Proof.Machine
end

