-- ==== Sys2Proof/Laws/CuKeeps.lean ====
section
/-! SUPPORT. What the operations of `CU` leave alone and what they may move: one lemma per operation, up to a whole push and a
dictionary load. `Quiet` operations touch working registers and memories only; `Moves` operations may also take input, put out
bytes and advance `STATUS`. -/

namespace Sys2Proof.Machine

namespace Cu

/-! ## Quiet operations -/

/-- The registers that no operation inside a push writes, but for `WRAP` and `LAST_FLUSH` at the end of one. -/
def fixed (c : Cu) :=
  (c.level, c.strategy, c.wBits, c.hashBits, c.litBufsize, c.goodMatch, c.maxLazyMatch, c.niceMatch, c.maxChainLength, c.func,
    c.gzhead, c.msg, c.wrap, c.lastFlush)

/-- The registers that count and carry the command's data, and `STATUS`. -/
def traffic (c : Cu) := (c.cur, c.totalIn, c.totalOut, c.status)

/-- `d` differs from `c` in working registers and memory contents only. -/
structure Quiet (c d : Cu) : Prop where
  fixed   : d.fixed = c.fixed
  traffic : d.traffic = c.traffic
  mem     : c.MemWf → d.MemWf

/-- Any update of the working registers of a unit is quiet. -/
theorem quiet_regs (c : Cu) (strstart : Nat) (blockStart : Int) (lookahead : Nat) (matchStart : Word32) (matchLength : Nat) (prevMatch : Word32) (prevLength : Nat) (insH : Word16) (insertCount : Nat) (pending : Nat) (pendingOut : Nat) (biBuf : Word16) (biValid : Nat) (lastLit : Nat) (matchCount : Nat) (optLen : Word32) (staticLen : Word32) (heapLen : Nat) (heapMax : Nat) (lMaxCode : Nat) (dMaxCode : Nat) (blMaxCode : Nat) (gzindex : Nat) (matchAvailable : Bool) (bflush : Bool) (adler : Word32) :
    c.Quiet { c with strstart := strstart, blockStart := blockStart, lookahead := lookahead, matchStart := matchStart, matchLength := matchLength, prevMatch := prevMatch, prevLength := prevLength, insH := insH, insertCount := insertCount, pending := pending, pendingOut := pendingOut, biBuf := biBuf, biValid := biValid, lastLit := lastLit, matchCount := matchCount, optLen := optLen, staticLen := staticLen, heapLen := heapLen, heapMax := heapMax, lMaxCode := lMaxCode, dMaxCode := dMaxCode, blMaxCode := blMaxCode, gzindex := gzindex, matchAvailable := matchAvailable, bflush := bflush, adler := adler } := ⟨rfl, rfl, fun h => { h with }⟩
theorem Quiet.refl (c : Cu) : c.Quiet c := ⟨rfl, rfl, id⟩
theorem Quiet.trans {a b c : Cu} (h : a.Quiet b) (k : b.Quiet c) : a.Quiet c :=
  ⟨k.fixed.trans h.fixed, k.traffic.trans h.traffic, k.mem ∘ h.mem⟩

/-- A quiet operation after a quiet one. -/
theorem Quiet.then {a b : Cu} (h : a.Quiet b) {f : Cu → Cu} (k : ∀ c : Cu, c.Quiet (f c)) : a.Quiet (f b) := h.trans (k b)

theorem quiet_forRange (lo n : Nat) (f : Nat → Cu → Cu) (hf : ∀ i c, Quiet c (f i c)) (c : Cu) : c.Quiet (forRange lo n f c) :=
  forRange_induction (fun d => c.Quiet d) lo n f (fun i _ h => h.trans (hf i _)) c (.refl c)

theorem quiet_foldl {α : Type} (f : Cu → α → Cu) (hf : ∀ c x, Quiet c (f c x)) (l : List α) (c : Cu) :
    c.Quiet (l.foldl f c) := by
  induction l generalizing c with
  | nil => exact .refl c
  | cons x r ih => exact (hf c x).trans (ih _)

theorem quiet_ite {p : Prop} [Decidable p] {c a b : Cu} (ha : c.Quiet a) (hb : c.Quiet b) : c.Quiet (if p then a else b) := by
  split <;> assumption

theorem quiet_setNode (c : Cu) (t : Tree) (n : Nat) (v : Node) : c.Quiet (c.setNode t n v) := by
  cases t
  · exact ⟨rfl, rfl, fun h => { h with dynLtree := Mem.wf_wr h.dynLtree }⟩
  · exact ⟨rfl, rfl, fun h => { h with dynDtree := Mem.wf_wr h.dynDtree }⟩
  · exact ⟨rfl, rfl, fun h => { h with blTree := Mem.wf_wr h.blTree }⟩

theorem quiet_setFreq (c : Cu) (t : Tree) (n : Nat) (v : Word16) : c.Quiet (c.setFreq t n v) := quiet_setNode ..
theorem quiet_setCode (c : Cu) (t : Tree) (n : Nat) (v : Word16) : c.Quiet (c.setCode t n v) := quiet_setNode ..
theorem quiet_setLen (c : Cu) (t : Tree) (n v : Nat) : c.Quiet (c.setLen t n v) := quiet_setNode ..
theorem quiet_setDad (c : Cu) (t : Tree) (n v : Nat) : c.Quiet (c.setDad t n v) := quiet_setNode ..
theorem quiet_setHeap (c : Cu) (i v : Nat) : c.Quiet (c.setHeap i v) :=
  ⟨rfl, rfl, fun h => { h with heap := Mem.wf_wr h.heap }⟩
theorem quiet_setDepth (c : Cu) (i v : Nat) : c.Quiet (c.setDepth i v) :=
  ⟨rfl, rfl, fun h => { h with depth := Mem.wf_wr h.depth }⟩
theorem quiet_setBlCount (c : Cu) (i v : Nat) : c.Quiet (c.setBlCount i v) :=
  ⟨rfl, rfl, fun h => { h with blCount := Mem.wf_wr h.blCount }⟩

/-! ### The queue and the bit packer -/

theorem quiet_putByte (c : Cu) (b : Byte) : c.Quiet (c.putByte b) :=
  ⟨rfl, rfl, fun h => { h with pendingBuf := Mem.wf_wr h.pendingBuf }⟩
theorem quiet_putBytes (c : Cu) (bs : List Byte) : c.Quiet (c.putBytes bs) := quiet_foldl _ quiet_putByte bs c
theorem quiet_putShort (c : Cu) (w : Nat) : c.Quiet (c.putShort w) := (quiet_putByte ..).trans (quiet_putByte ..)
theorem quiet_putShortMsb (c : Cu) (w : Nat) : c.Quiet (c.putShortMsb w) := (quiet_putByte ..).trans (quiet_putByte ..)

theorem quiet_sendBits (c : Cu) (v n : Nat) : c.Quiet (c.sendBits v n) := by
  unfold sendBits
  split
  · exact (quiet_putShort c _).trans (quiet_regs ..)
  · exact (quiet_regs ..)

theorem quiet_biFlush (c : Cu) : c.Quiet c.biFlush := by
  unfold biFlush
  split
  · exact (quiet_putShort c _).trans (quiet_regs ..)
  · split
    · exact (quiet_putByte c _).trans (quiet_regs ..)
    · exact .refl c

theorem quiet_biWindup (c : Cu) : c.Quiet c.biWindup := by
  unfold biWindup
  exact (quiet_ite (quiet_putShort ..) (quiet_ite (quiet_putByte ..) (.refl c))).trans (quiet_regs ..)

/-! ### Tally and trees -/

theorem quiet_tallyEntry (c : Cu) (d : Nat) (lc : Byte) : c.Quiet (c.tallyEntry d lc) :=
  ⟨rfl, rfl, fun h => { h with dBuf := Mem.wf_wr h.dBuf, lBuf := Mem.wf_wr h.lBuf }⟩
theorem quiet_incFreq (c : Cu) (t : Tree) (n : Nat) : c.Quiet (c.incFreq t n) := quiet_setFreq ..
theorem quiet_setBflush (c : Cu) : c.Quiet c.setBflush := (quiet_regs ..)
theorem quiet_tallyLit (c : Cu) (b : Byte) : c.Quiet (c.tallyLit b) :=
  ((quiet_tallyEntry ..).trans (quiet_incFreq ..)).trans (quiet_setBflush _)
theorem quiet_tallyMatch (c : Cu) (d l : Nat) : c.Quiet (c.tallyMatch d l) := by
  unfold tallyMatch
  refine Quiet.trans ?_ (quiet_setBflush _)
  refine Quiet.trans ?_ (quiet_incFreq ..)
  refine Quiet.trans ?_ (quiet_incFreq ..)
  exact (quiet_tallyEntry c d (byteOf (l - Config.minMatch))).trans (quiet_regs ..)

theorem quiet_initBlock (c : Cu) : c.Quiet c.initBlock := by
  unfold initBlock
  refine Quiet.trans ?_ (quiet_regs ..)
  refine Quiet.trans ?_ (quiet_setFreq ..)
  refine Quiet.trans ?_ (quiet_forRange _ _ _ (fun _ _ => quiet_setFreq ..) _)
  refine Quiet.trans ?_ (quiet_forRange _ _ _ (fun _ _ => quiet_setFreq ..) _)
  exact quiet_forRange _ _ _ (fun _ _ => quiet_setFreq ..) _

theorem quiet_siftLoop (t : Tree) (v : Nat) : ∀ fuel k j c, Quiet c (siftLoop t v fuel k j c)
  | 0, k, _, c => quiet_setHeap c k v
  | fuel + 1, k, j, c => by
    simp only [siftLoop]
    split
    · exact quiet_setHeap ..
    · split
      · split
        · exact quiet_setHeap ..
        · exact (quiet_setHeap ..).trans (quiet_siftLoop t v fuel _ _ _)
      · split
        · exact quiet_setHeap ..
        · exact (quiet_setHeap ..).trans (quiet_siftLoop t v fuel _ _ _)

theorem quiet_pqdownheap (t : Tree) (k : Nat) (c : Cu) : c.Quiet (c.pqdownheap t k) := quiet_siftLoop ..

theorem quiet_heapSymbols (t : Tree) (c : Cu) : c.Quiet (c.heapSymbols t).1 := by
  unfold heapSymbols
  refine forRange_induction (fun p : Cu × Int => c.Quiet p.1) _ _ _ ?_ _ (quiet_regs ..)
  rintro n ⟨d, m⟩ h
  simp only
  split
  · refine Quiet.trans ?_ (quiet_setDepth ..)
    refine Quiet.trans ?_ (quiet_setHeap ..)
    exact h.trans (quiet_regs ..)
  · exact h.trans (quiet_setLen ..)

theorem quiet_forceSymbol (t : Tree) (c : Cu) (m : Int) : c.Quiet (c.forceSymbol t m).1 := by
  have key : ∀ node : Nat, c.Quiet (((({ c with heapLen := c.heapLen + 1 } : Cu).setHeap (c.heapLen + 1) node).setFreq t node
      1).setDepth node 0) := fun node => by
    refine Quiet.trans ?_ (quiet_setDepth ..)
    refine Quiet.trans ?_ (quiet_setFreq ..)
    refine Quiet.trans ?_ (quiet_setHeap ..)
    exact (quiet_regs ..)
  unfold forceSymbol
  split
  exact (key _).trans (quiet_regs ..)

theorem quiet_forceTwo (t : Tree) (p : Cu × Int) : p.1.Quiet (forceTwo t p).1 := by
  obtain ⟨c, m⟩ := p
  simp only [forceTwo]
  split
  · exact (quiet_forceSymbol t c m).trans (quiet_forceSymbol t _ _)
  · split
    · exact quiet_forceSymbol ..
    · exact .refl c

theorem quiet_buildHeap (t : Tree) (c : Cu) : c.Quiet (c.buildHeap t).1 :=
  ((quiet_heapSymbols t c).trans (quiet_forceTwo ..)).trans (quiet_foldl _ (fun _ _ => quiet_pqdownheap ..) _ _)

theorem quiet_mergeRound (t : Tree) (node : Nat) (c : Cu) : c.Quiet (c.mergeRound t node) := by
  unfold mergeRound
  refine Quiet.trans ?_ (quiet_pqdownheap ..)
  refine Quiet.trans ?_ (quiet_setHeap ..)
  refine Quiet.trans ?_ (quiet_setDad ..)
  refine Quiet.trans ?_ (quiet_setDad ..)
  refine Quiet.trans ?_ (quiet_setDepth ..)
  refine Quiet.trans ?_ (quiet_setFreq ..)
  refine Quiet.trans ?_ (quiet_setHeap ..)
  refine Quiet.trans ?_ (quiet_setHeap ..)
  refine Quiet.trans ?_ (quiet_regs ..)
  refine Quiet.trans ?_ (quiet_pqdownheap ..)
  exact (quiet_setHeap ..).trans (quiet_regs ..)

theorem quiet_mergeLoop (t : Tree) : ∀ fuel node c, Quiet c (mergeLoop t fuel node c)
  | 0, _, c => .refl c
  | fuel + 1, node, c => by
    simp only [mergeLoop]
    split
    · exact quiet_mergeRound ..
    · exact (quiet_mergeRound ..).trans (quiet_mergeLoop t fuel _ _)

theorem quiet_mergeTree (t : Tree) (c : Cu) : c.Quiet (c.mergeTree t) := by
  unfold mergeTree
  refine Quiet.trans ?_ (quiet_setHeap ..)
  exact (quiet_mergeLoop ..).trans (quiet_regs ..)

theorem quiet_bitlenNode (t : Tree) (m h : Nat) (p : Cu × Nat) : p.1.Quiet (bitlenNode t m h p).1 := by
  obtain ⟨c, o⟩ := p
  simp only [bitlenNode]
  split
  · exact quiet_setLen ..
  · exact ((quiet_setLen ..).trans (quiet_setBlCount ..)).trans (quiet_regs ..)

theorem quiet_genBitlen (t : Tree) (m : Nat) (c : Cu) : c.Quiet (c.genBitlen t m).1 := by
  unfold genBitlen
  refine forRange_induction (fun p : Cu × Nat => c.Quiet p.1) _ _ _ (fun i p h => h.trans (quiet_bitlenNode ..)) _ ?_
  exact (quiet_forRange _ _ _ (fun _ _ => quiet_setBlCount ..) c).trans (quiet_setLen ..)

theorem quiet_repairLoop (t : Tree) : ∀ fuel o c, Quiet c (repairLoop t fuel o c)
  | 0, _, c => .refl c
  | fuel + 1, o, c => by
    simp only [repairLoop]
    split
    · exact ((quiet_setBlCount ..).trans (quiet_setBlCount ..)).trans (quiet_setBlCount ..)
    · exact (((quiet_setBlCount ..).trans (quiet_setBlCount ..)).trans (quiet_setBlCount ..)).trans (quiet_repairLoop t fuel _ _)

theorem quiet_relenLoop (t : Tree) (m b : Nat) : ∀ h n c, Quiet c (relenLoop t m b h n c).1
  | 0, _, c => .refl c
  | h + 1, n, c => by
    simp only [relenLoop]
    split
    · exact .refl c
    · split
      · exact quiet_relenLoop t m b h n c
      · refine Quiet.trans ?_ (quiet_relenLoop t m b h _ _)
        exact quiet_ite ((quiet_setLen ..).trans (quiet_regs ..)) (.refl c)

theorem quiet_repairBitlen (t : Tree) (m o : Nat) (c : Cu) : c.Quiet (c.repairBitlen t m o) := by
  unfold repairBitlen
  refine quiet_ite (.refl c) ?_
  simp only
  have h0 : c.Quiet (repairLoop t o o c, Config.heapSize).1 := quiet_repairLoop ..
  revert h0
  generalize (repairLoop t o o c, Config.heapSize) = p
  intro h0
  induction (List.range' 1 t.maxLength).reverse generalizing p with
  | nil => exact h0
  | cons x r ih => exact ih _ (h0.trans (quiet_relenLoop ..))

theorem quiet_genCodes (t : Tree) (m : Nat) (c : Cu) : c.Quiet (c.genCodes t m) := by
  unfold genCodes
  refine forRange_induction (fun p : Cu × List Word16 => c.Quiet p.1) _ _ _ ?_ _ (.refl c)
  rintro n ⟨d, next⟩ h
  simp only
  split
  · exact h
  · exact h.trans (quiet_setCode ..)

theorem quiet_buildTree (t : Tree) (c : Cu) : c.Quiet (c.buildTree t).1 := by
  unfold buildTree
  refine Quiet.trans ?_ (quiet_genCodes ..)
  refine Quiet.trans ?_ (quiet_repairBitlen ..)
  exact ((quiet_buildHeap t c).trans (quiet_mergeTree ..)).trans (quiet_genBitlen ..)

theorem quiet_scanTree (t : Tree) (m : Nat) (c : Cu) : c.Quiet (c.scanTree t m) := quiet_foldl _ (fun _ _ => quiet_incFreq ..) _ _

theorem quiet_sendClItem (c : Cu) (i : ClItem) : c.Quiet (c.sendClItem i) := by
  unfold sendClItem
  exact quiet_ite (quiet_sendBits ..) ((quiet_sendBits ..).trans (quiet_sendBits ..))

theorem quiet_sendTree (t : Tree) (m : Nat) (c : Cu) : c.Quiet (c.sendTree t m) := quiet_foldl _ quiet_sendClItem _ _

theorem quiet_buildBlTree (c : Cu) : c.Quiet c.buildBlTree.1 := by
  unfold buildBlTree
  refine Quiet.trans ?_ (quiet_regs ..)
  refine Quiet.trans ?_ (quiet_regs ..)
  exact ((quiet_scanTree ..).trans (quiet_scanTree ..)).trans (quiet_buildTree ..)

theorem quiet_sendAllTrees (c : Cu) (l d b : Nat) : c.Quiet (c.sendAllTrees l d b) := by
  unfold sendAllTrees
  refine Quiet.trans ?_ (quiet_sendTree ..)
  refine Quiet.trans ?_ (quiet_sendTree ..)
  refine Quiet.trans ?_ (quiet_forRange _ _ _ (fun _ _ => quiet_sendBits ..) _)
  exact ((quiet_sendBits ..).trans (quiet_sendBits ..)).trans (quiet_sendBits ..)

theorem quiet_sendCode (c : Cu) (s : Bool) (t : Tree) (n : Nat) : c.Quiet (c.sendCode s t n) := quiet_sendBits ..

theorem quiet_sendExtra (c : Cu) (v w : Nat) : c.Quiet (c.sendExtra v w) := by
  unfold sendExtra; exact quiet_ite (.refl c) (quiet_sendBits ..)

theorem quiet_compressEntry (s : Bool) (lx : Nat) (c : Cu) : c.Quiet (c.compressEntry s lx) := by
  unfold compressEntry
  refine quiet_ite (quiet_sendCode ..) ?_
  exact (((quiet_sendCode ..).trans (quiet_sendExtra ..)).trans (quiet_sendCode ..)).trans (quiet_sendExtra ..)

theorem quiet_compressBlock (s : Bool) (c : Cu) : c.Quiet (c.compressBlock s) :=
  (quiet_forRange _ _ _ (fun _ _ => quiet_compressEntry ..) c).trans (quiet_sendCode ..)

theorem quiet_trAlign (c : Cu) : c.Quiet c.trAlign :=
  ((quiet_sendBits ..).trans (quiet_sendCode ..)).trans (quiet_biFlush _)

theorem quiet_blockSizes (n : Nat) (c : Cu) : c.Quiet (c.blockSizes n).1 := by
  unfold blockSizes
  split
  · have h1 := quiet_buildTree .l c
    generalize c.buildTree .l = p at h1 ⊢
    obtain ⟨c1, l⟩ := p
    have h2 : c.Quiet (Cu.buildTree .d { c1 with lMaxCode := l }).1 := (h1.trans (quiet_regs ..)).trans (quiet_buildTree ..)
    simp only
    generalize Cu.buildTree .d { c1 with lMaxCode := l } = q at h2 ⊢
    obtain ⟨c2, d⟩ := q
    exact (h2.trans (quiet_regs ..)).trans (quiet_buildBlTree _)
  · exact .refl c

/-! ### Matcher -/

theorem quiet_updateHash (c : Cu) (b : Byte) : c.Quiet (c.updateHash b) := (quiet_regs ..)
theorem quiet_linkString (c : Cu) (s : Nat) : c.Quiet (c.linkString s).1 :=
  ⟨rfl, rfl, fun h => { h with prev := Mem.wf_wr h.prev, head := Mem.wf_wr h.head }⟩
theorem quiet_insertString (c : Cu) (s : Nat) : c.Quiet (c.insertString s).1 := (quiet_updateHash ..).trans (quiet_linkString ..)

theorem quiet_slide (c : Cu) : c.Quiet c.slide :=
  ⟨rfl, rfl, fun h => { h with
    window := Mem.wf_slideDown h.window, head := Mem.wf_mapVals h.head, prev := Mem.wf_mapVals h.prev }⟩

theorem quiet_catchUpLoop : ∀ k s c, Quiet c (catchUpLoop k s c)
  | 0, _, c => .refl c
  | k + 1, s, c => by
    have h : c.Quiet { ((c.updateHash (c.win (s + 2))).linkString s).1 with insertCount := k } :=
      ((quiet_updateHash ..).trans (quiet_linkString ..)).trans (quiet_regs ..)
    simp only [catchUpLoop]
    exact quiet_ite h (h.trans (quiet_catchUpLoop k _ _))

theorem quiet_catchUp (c : Cu) : c.Quiet c.catchUp := by
  unfold catchUp
  refine quiet_ite ?_ (.refl c)
  refine Quiet.trans ?_ (quiet_catchUpLoop ..)
  refine Quiet.trans ?_ (quiet_updateHash ..)
  exact (quiet_regs ..)

theorem quiet_longestMatch (c : Cu) (m : Nat) : c.Quiet (c.longestMatch m).1 := by
  simp only [longestMatch]
  split
  · exact (quiet_regs ..)
  · exact .refl c

theorem quiet_dictInsert (s : Nat) (c : Cu) : c.Quiet (dictInsert s c) := (quiet_updateHash ..).trans (quiet_linkString ..)

/-! ## Operations that move data -/

/-- `d` follows `c` in a push: configuration kept, memories canonical, input taken and output put out in order and counted,
`STATUS` not moved back. -/
structure Moves (c d : Cu) : Prop where
  fixed    : d.fixed = c.fixed
  mem      : c.MemWf → d.MemWf
  inp      : d.cur.inp = c.cur.inp
  next     : c.cur.nextIn ≤ d.cur.nextIn
  bound    : c.cur.nextIn ≤ c.cur.inp.length → d.cur.nextIn ≤ c.cur.inp.length
  totalIn  : d.totalIn = c.totalIn + word32Of (d.cur.nextIn - c.cur.nextIn)
  out      : ∃ l, d.cur.out = c.cur.out ++ l ∧ d.totalOut = c.totalOut + word32Of l.length ∧
    d.cur.availOut + l.length = c.cur.availOut
  status   : c.status.number ≤ d.status.number

theorem Moves.refl (c : Cu) : c.Moves c :=
  ⟨rfl, id, rfl, le_refl _, id, by simp [word32Of], ⟨[], by simp [word32Of]⟩, le_refl _⟩

theorem Moves.trans {a b c : Cu} (h : a.Moves b) (k : b.Moves c) : a.Moves c where
  fixed := k.fixed.trans h.fixed
  mem := k.mem ∘ h.mem
  inp := k.inp.trans h.inp
  next := h.next.trans k.next
  bound := fun hb => by
    have h1 := h.bound hb
    have h2 := k.bound
    rw [h.inp] at h2
    exact h2 h1
  totalIn := by
    have := h.next
    have := k.next
    rw [k.totalIn, h.totalIn, BitVec.add_assoc, ← word32Of_add]
    congr 2
    omega
  out := by
    obtain ⟨l, h1, h2, h3⟩ := h.out
    obtain ⟨m, k1, k2, k3⟩ := k.out
    refine ⟨l ++ m, by rw [k1, h1, List.append_assoc], ?_, by simp; omega⟩
    rw [k2, h2, BitVec.add_assoc, ← word32Of_add, List.length_append]
  status := h.status.trans k.status

/-- A quiet operation moves nothing. -/
theorem Quiet.moves {c d : Cu} (h : c.Quiet d) : c.Moves d := by
  have ht := h.traffic
  simp only [Cu.traffic, Prod.mk.injEq] at ht
  obtain ⟨h1, h2, h3, h4⟩ := ht
  exact ⟨h.fixed, h.mem, by rw [h1], by rw [h1], by rw [h1]; exact id, by rw [h2, h1]; simp [word32Of],
    ⟨[], by rw [h1, h3]; simp [word32Of]⟩, by rw [h4]⟩

/-- A quiet operation after one that moves data. -/
theorem Moves.quiet {a b c : Cu} (h : a.Moves b) (k : b.Quiet c) : a.Moves c := h.trans k.moves

theorem moves_ite {p : Prop} [Decidable p] {c a b : Cu} (ha : c.Moves a) (hb : c.Moves b) : c.Moves (if p then a else b) := by
  split <;> assumption

theorem flushLoop_facts (n : Nat) (c : Cu) (h : n ≤ c.cur.availOut) :
    let d := forRange 0 n (fun _ c => c.flushByte) c
    d.fixed = c.fixed ∧ (c.MemWf → d.MemWf) ∧ d.cur.inp = c.cur.inp ∧ d.cur.nextIn = c.cur.nextIn ∧ d.totalIn = c.totalIn ∧
      d.totalOut = c.totalOut ∧ d.status = c.status ∧ d.pending = c.pending ∧
      ∃ l, d.cur.out = c.cur.out ++ l ∧ l.length = n ∧ d.cur.availOut + n = c.cur.availOut := by
  unfold forRange
  generalize 0 = lo
  induction n generalizing c lo with
  | zero => exact ⟨rfl, id, rfl, rfl, rfl, rfl, rfl, rfl, [], by simp⟩
  | succ n ih =>
    have hav : c.flushByte.cur.availOut = c.cur.availOut - 1 := rfl
    obtain ⟨h1, h2, h3, h4, h5, h6, h7, h8, l, h9, h10, h11⟩ := ih c.flushByte (lo := lo + 1) (by omega)
    rw [List.range'_succ, List.foldl_cons]
    refine ⟨h1.trans rfl, fun hm => h2 { hm with }, h3.trans rfl, h4.trans rfl, h5.trans rfl, h6.trans rfl, h7.trans rfl,
      h8.trans rfl, Mem.rd c.pendingSize c.pendingBuf c.pendingOut :: l, h9.trans ?_, by simp [h10],
      (congrArg (· + 1) (h11.trans hav)).trans (by omega)⟩
    show (c.cur.out ++ [_]) ++ l = _
    rw [List.append_assoc]; rfl

theorem moves_flushPending (c : Cu) : c.Moves c.flushPending := by
  unfold flushPending
  simp only
  split
  · exact .refl c
  · obtain ⟨h1, h2, h3, h4, h5, h6, h7, h8, l, h9, h10, h11⟩ :=
      flushLoop_facts (min c.pending c.cur.availOut) c (Nat.min_le_right ..)
    have key : c.Moves { forRange 0 (min c.pending c.cur.availOut) (fun _ c => c.flushByte) c with
        pending := (forRange 0 (min c.pending c.cur.availOut) (fun _ c => c.flushByte) c).pending -
          min c.pending c.cur.availOut
        totalOut := (forRange 0 (min c.pending c.cur.availOut) (fun _ c => c.flushByte) c).totalOut +
          word32Of (min c.pending c.cur.availOut) } :=
      ⟨h1, fun hm => { h2 hm with }, h3, by rw [h4], by rw [h4]; exact id, by rw [h5, h4]; simp [word32Of],
        ⟨l, h9, by rw [h10]; exact congrArg (· + _) h6, by rw [h10]; exact h11⟩, by rw [h7]⟩
    exact moves_ite (key.quiet (quiet_regs ..)) key

theorem moves_makeRoom (n : Nat) (c : Cu) : c.Moves (c.makeRoom n) := moves_ite (moves_flushPending c) (.refl c)

/-- Where the bytes fit, nothing has to go out first. -/
theorem makeRoom_of_le {n : Nat} {c : Cu} (h : c.pending + n ≤ c.pendingSize) : c.makeRoom n = c := if_neg (Nat.not_lt.2 h)

/-! ### Block emission: a stored block may have to make room in the queue -/

theorem moves_trStoredBlock (buf : List Byte) (l : Bool) (c : Cu) : c.Moves (c.trStoredBlock buf l) := by
  unfold trStoredBlock
  refine Moves.quiet ?_ (quiet_putBytes ..)
  refine Moves.quiet ?_ (quiet_putShort ..)
  refine Moves.quiet ?_ (quiet_putShort ..)
  exact ((quiet_sendBits ..).trans (quiet_biWindup _)).moves.trans (moves_makeRoom ..)

theorem moves_emitBlock (buf : Option (List Byte)) (n : Nat) (l : Bool) (p : Cu × Nat × Nat × Nat) :
    p.1.Moves (emitBlock buf n l p) := by
  obtain ⟨c, o, s, m⟩ := p
  unfold emitBlock
  refine moves_ite (moves_trStoredBlock ..) (moves_ite ?_ ?_)
  · exact ((quiet_sendBits ..).trans (quiet_compressBlock ..)).moves
  · exact (((quiet_sendBits ..).trans (quiet_sendAllTrees ..)).trans (quiet_compressBlock ..)).moves

theorem moves_trFlushBlock (buf : Option (List Byte)) (n : Nat) (l : Bool) (c : Cu) : c.Moves (c.trFlushBlock buf n l) := by
  unfold trFlushBlock
  have h := ((quiet_blockSizes n c).moves.trans (moves_emitBlock buf n l _)).quiet (quiet_initBlock _)
  exact moves_ite (h.quiet (quiet_biWindup _)) h

theorem moves_readBuf (c : Cu) (src : Source) (pos size : Nat) : c.Moves (c.readBuf src pos size).1 := by
  unfold readBuf
  simp only
  split
  · exact .refl c
  · split
    · refine ⟨rfl, fun h => { h with window := Mem.wf_writeList h.window }, rfl, Nat.le_add_right .., ?_, ?_,
        ⟨[], by simp [Cursor.advance, word32Of]⟩, le_refl _⟩
      · intro h; simp only [Cursor.advance, srcAvail, Cursor.availIn]; omega
      · simp [Cursor.advance]
    · exact Quiet.moves ⟨rfl, rfl, fun h => { h with window := Mem.wf_writeList h.window }⟩

/-- A dictionary source leaves the command's traffic alone. -/
theorem quiet_readBuf (c : Cu) (d : List Byte) (pos size : Nat) :
    c.Quiet (c.readBuf (some d) pos size).1 ∧ ∃ e, (c.readBuf (some d) pos size).2.1 = some e := by
  unfold readBuf
  simp only
  split
  · exact ⟨.refl c, _, rfl⟩
  · exact ⟨⟨rfl, rfl, fun h => { h with window := Mem.wf_writeList h.window }⟩, _, rfl⟩

theorem moves_fillLoop : ∀ fuel c src, Moves c (fillLoop fuel c src).1
  | 0, c, _ => .refl c
  | fuel + 1, c, src => by
    rw [fillLoop]
    split
    rename_i c1 more he
    have h1 : c.Quiet c1 := by
      split at he <;> cases he
      · exact quiet_slide c
      · exact .refl c
    simp only
    split
    · exact h1.moves
    · have h2 := (h1.moves.trans (moves_readBuf c1 src (c1.strstart + c1.lookahead) more)).quiet
        ((show Quiet _ { (c1.readBuf src (c1.strstart + c1.lookahead) more).1 with
          lookahead := (c1.readBuf src (c1.strstart + c1.lookahead) more).1.lookahead +
            (c1.readBuf src (c1.strstart + c1.lookahead) more).2.2 } from (quiet_regs ..)).trans (quiet_catchUp _))
      split
      · exact h2.trans (moves_fillLoop fuel _ _)
      · exact h2

theorem quiet_fillLoop : ∀ fuel c d, Quiet c (fillLoop fuel c (some d)).1 ∧ ∃ e, (fillLoop fuel c (some d)).2 = some e
  | 0, c, d => ⟨.refl c, d, rfl⟩
  | fuel + 1, c, d => by
    rw [fillLoop]
    split
    rename_i c1 more he
    have h1 : c.Quiet c1 := by
      split at he <;> cases he
      · exact quiet_slide c
      · exact .refl c
    simp only
    split
    · exact ⟨h1, _, rfl⟩
    · obtain ⟨k1, e, k2⟩ := quiet_readBuf c1 d (c1.strstart + c1.lookahead) more
      have h2 := (h1.trans k1).trans
        ((show Quiet _ { (c1.readBuf (some d) (c1.strstart + c1.lookahead) more).1 with
          lookahead := (c1.readBuf (some d) (c1.strstart + c1.lookahead) more).1.lookahead +
            (c1.readBuf (some d) (c1.strstart + c1.lookahead) more).2.2 } from
              (quiet_regs ..)).trans (quiet_catchUp _))
      split
      · rw [k2]; exact ⟨h2.trans (quiet_fillLoop fuel _ _).1, (quiet_fillLoop fuel _ _).2⟩
      · exact ⟨h2, e, k2⟩

theorem moves_fillWindow (c : Cu) : c.Moves c.fillWindow := moves_fillLoop ..

theorem quiet_fillWindowFrom (c : Cu) (d : List Byte) :
    c.Quiet (c.fillWindowFrom (some d)).1 ∧ ∃ e, (c.fillWindowFrom (some d)).2 = some e := quiet_fillLoop ..

theorem quiet_dictLoop : ∀ fuel c d, Quiet c (dictLoop fuel c (some d))
  | 0, c, _ => .refl c
  | fuel + 1, c, d => by
    rw [dictLoop]
    refine quiet_ite ?_ (.refl c)
    simp only
    have h1 : c.Quiet { forRange c.strstart (c.lookahead - (Config.minMatch - 1)) dictInsert c with
        strstart := c.strstart + (c.lookahead - (Config.minMatch - 1)), lookahead := Config.minMatch - 1 } :=
      (quiet_forRange _ _ _ (fun _ _ => quiet_dictInsert ..) c).trans (quiet_regs ..)
    obtain ⟨h2, e, h3⟩ := quiet_fillWindowFrom { forRange c.strstart (c.lookahead - (Config.minMatch - 1)) dictInsert c with
        strstart := c.strstart + (c.lookahead - (Config.minMatch - 1)), lookahead := Config.minMatch - 1 } d
    rw [h3]
    exact (h1.trans h2).trans (quiet_dictLoop fuel _ _)

theorem quiet_loadDictionary (c : Cu) (d : List Byte) : c.Quiet (c.loadDictionary d) := by
  unfold loadDictionary
  simp only
  refine Quiet.trans (b := dictLoop _ _ _) ?_ (quiet_regs ..)
  have h0 : c.Quiet (if c.wSize ≤ d.length ∧ c.wrap = 0 then
      ({ c with head := [], strstart := 0, blockStart := 0, insertCount := 0 } : Cu) else c) :=
    quiet_ite ⟨rfl, rfl, fun h => { h with head := Mem.wf_nil _ }⟩ (.refl c)
  obtain ⟨h1, e, h2⟩ := quiet_fillWindowFrom (if c.wSize ≤ d.length ∧ c.wrap = 0 then
      ({ c with head := [], strstart := 0, blockStart := 0, insertCount := 0 } : Cu) else c)
    (if c.wSize ≤ d.length then d.drop (d.length - c.wSize) else d)
  rw [h2]
  exact (h0.trans h1).trans (quiet_dictLoop ..)

/-! ## The Deflate engine -/

theorem moves_flushBlockOnly (last : Bool) (c : Cu) : c.Moves (c.flushBlockOnly last) := by
  unfold flushBlockOnly
  exact ((moves_trFlushBlock ..).quiet (quiet_regs ..)).trans (moves_flushPending _)

theorem moves_finishBlocks (c : Cu) : c.Moves c.finishBlocks.1 := moves_flushBlockOnly ..

theorem moves_blockBlocks (r : Bool) (c : Cu) : c.Moves (c.blockBlocks r).1 := by
  unfold blockBlocks
  split
  · exact moves_flushBlockOnly ..
  · exact .refl c

theorem moves_finishTail (f : Int) (c : Cu) : c.Moves (c.finishTail f).1 := by
  unfold finishTail
  split
  · exact moves_finishBlocks c
  · exact moves_blockBlocks ..

theorem moves_closeIfFull (c : Cu) : c.Moves c.closeIfFull.1 := by
  unfold closeIfFull
  split
  · exact moves_flushBlockOnly ..
  · exact .refl c

theorem moves_refill (want : Nat) (f : Int) (c : Cu) : c.Moves (c.refill want f).1 := by
  have h := moves_fillWindow c
  unfold refill
  generalize c.fillWindow = d at h ⊢
  simp only
  split
  · split
    · exact h
    · split <;> exact h
  · exact .refl c

theorem moves_storedRound (f : Int) (c : Cu) : c.Moves (c.storedRound f).1 := by
  have h := moves_refill 1 f c
  unfold storedRound
  split
  · rename_i c1 he
    rw [he] at h
    have h2 : c.Moves { c1 with strstart := c1.strstart + 1, lookahead := c1.lookahead - 1 } :=
      h.quiet (quiet_regs ..)
    simp only
    split
    · exact h2.trans (moves_flushBlockOnly ..)
    · exact h2
  · exact h

theorem quiet_fastSymbol (c : Cu) : c.Quiet c.fastSymbol := by
  have hl : ∀ x : Cu, x.Quiet { x with lookahead := x.lookahead - c.matchLength } := fun x => (quiet_regs ..)
  unfold fastSymbol
  simp only
  split
  · have h1 := (quiet_tallyMatch c (c.strstart - c.matchStart.toNat) c.matchLength).trans (hl _)
    split
    · refine (h1.trans (quiet_forRange _ _ _ (fun _ _ => quiet_insertString ..) _)).trans (quiet_regs ..)
    · refine Quiet.trans ?_ (quiet_updateHash ..)
      exact h1.trans (quiet_regs ..)
  · exact (quiet_tallyLit ..).trans (quiet_regs ..)

theorem quiet_insertHere (c : Cu) : c.Quiet c.insertHere.1 := by
  unfold insertHere
  split
  · exact quiet_insertString ..
  · exact .refl c

theorem moves_fastRound (f : Int) (c : Cu) : c.Moves (c.fastRound f).1 := by
  have h := moves_refill Config.minLookahead f c
  unfold fastRound
  split
  · rename_i c1 he
    rw [he] at h
    have h2 := h.quiet (quiet_insertHere c1)
    simp only
    refine Moves.trans ?_ (moves_closeIfFull _)
    refine Moves.quiet ?_ (quiet_fastSymbol _)
    split
    · exact h2.quiet ((quiet_longestMatch ..).trans (quiet_regs ..))
    · exact h2
  · exact h

theorem quiet_slowSearch (head : Nat) (c : Cu) : c.Quiet (c.slowSearch head) := by
  have h1 : c.Quiet { c with prevLength := c.matchLength, prevMatch := c.matchStart, matchLength := Config.minMatch - 1 } :=
    (quiet_regs ..)
  unfold slowSearch
  simp only
  split
  · exact (h1.trans (quiet_longestMatch ..)).trans (quiet_regs ..)
  · exact h1

theorem quiet_slowEmitMatch (c : Cu) : c.Quiet c.slowEmitMatch := by
  unfold slowEmitMatch
  simp only
  refine Quiet.trans (b := forRange _ _ _ _) ?_ (quiet_regs ..)
  refine Quiet.trans ?_ (quiet_forRange _ _ _ (fun _ _ => quiet_ite (quiet_insertString ..) (.refl _)) _)
  exact (quiet_tallyMatch ..).trans (quiet_regs ..)

theorem moves_slowRound (f : Int) (c : Cu) : c.Moves (c.slowRound f).1 := by
  have h := moves_refill Config.minLookahead f c
  unfold slowRound
  split
  · rename_i c1 he
    rw [he] at h
    have h2 := (h.quiet (quiet_insertHere c1)).quiet (quiet_slowSearch c1.insertHere.2 _)
    simp only
    split
    · exact (h2.quiet (quiet_slowEmitMatch _)).trans (moves_closeIfFull _)
    · split
      · refine Moves.quiet (b := if _ then _ else _) ?_ (quiet_regs ..)
        exact moves_ite ((h2.quiet (quiet_tallyLit ..)).trans (moves_flushBlockOnly ..)) (h2.quiet (quiet_tallyLit ..))
      · exact h2.quiet (quiet_regs ..)
  · exact h

theorem moves_rleRound (f : Int) (c : Cu) : c.Moves (c.rleRound f).1 := by
  have h := moves_refill (Config.maxMatch + 1) f c
  unfold rleRound
  split
  · rename_i c1 he
    rw [he] at h
    have h2 : c.Moves { c1 with matchLength := c1.rleLength } := h.quiet (quiet_regs ..)
    simp only
    refine Moves.trans ?_ (moves_closeIfFull _)
    split
    · exact h2.quiet ((quiet_tallyMatch ..).trans (quiet_regs ..))
    · exact h2.quiet ((quiet_tallyLit ..).trans (quiet_regs ..))
  · exact h

theorem moves_huffRound (f : Int) (c : Cu) : c.Moves (c.huffRound f).1 := by
  have h := moves_refill 1 f c
  unfold huffRound
  split
  · rename_i c1 he
    rw [he] at h
    have h2 : c.Moves { c1 with matchLength := 0 } := h.quiet (quiet_regs ..)
    simp only
    refine Moves.trans ?_ (moves_closeIfFull _)
    exact h2.quiet ((quiet_tallyLit ..).trans (quiet_regs ..))
  · exact h

theorem moves_strategyLoop {round : Cu → Cu × Round} {tail : Cu → Cu × BState} (hr : ∀ c, Moves c (round c).1)
    (ht : ∀ c, Moves c (tail c).1) : ∀ fuel c, Moves c (strategyLoop round tail fuel c).1
  | 0, c => .refl c
  | fuel + 1, c => by
    have h := hr c
    rw [strategyLoop]
    split
    · rename_i c1 he; rw [he] at h; exact h.trans (moves_strategyLoop hr ht fuel c1)
    · rename_i c1 he; rw [he] at h; exact h.trans (ht c1)
    · rename_i c1 b he; rw [he] at h; exact h

theorem moves_storedTail (f : Int) (c : Cu) : c.Moves (c.storedTail f).1 := by
  have h : c.Moves { c with insertCount := 0 } := Quiet.moves (quiet_regs ..)
  unfold storedTail
  simp only
  split
  · exact h.trans (moves_finishBlocks _)
  · exact h.trans (moves_blockBlocks ..)

theorem moves_fastTail (f : Int) (c : Cu) : c.Moves (c.fastTail f).1 := by
  unfold fastTail
  exact (Quiet.moves (quiet_regs ..)).trans (moves_finishTail ..)

theorem moves_slowTail (f : Int) (c : Cu) : c.Moves (c.slowTail f).1 := by
  unfold slowTail
  refine Moves.trans ?_ (moves_fastTail ..)
  exact moves_ite (Quiet.moves ((quiet_tallyLit ..).trans (quiet_regs ..))) (.refl c)

theorem moves_runTail (f : Int) (c : Cu) : c.Moves (c.runTail f).1 := by
  unfold runTail
  exact (Quiet.moves (quiet_regs ..)).trans (moves_finishTail ..)

theorem moves_runFunc (f : Int) (c : Cu) : c.Moves (c.runFunc f).1 := by
  unfold runFunc
  split
  · exact moves_strategyLoop (moves_storedRound f) (moves_storedTail f) _ c
  · exact moves_strategyLoop (moves_fastRound f) (moves_fastTail f) _ c
  · exact moves_strategyLoop (moves_slowRound f) (moves_slowTail f) _ c
  · exact moves_strategyLoop (moves_rleRound f) (moves_runTail f) _ c
  · exact moves_strategyLoop (moves_huffRound f) (moves_runTail f) _ c

theorem quiet_fullFlushClear (c : Cu) : c.Quiet c.fullFlushClear := by
  have h : c.Quiet { c with head := [] } := ⟨rfl, rfl, fun h => { h with head := Mem.wf_nil _ }⟩
  exact quiet_ite (h.trans (quiet_regs ..)) h

theorem moves_flushMarker (f : Int) (c : Cu) : c.Moves (c.flushMarker f) := by
  have h := moves_trStoredBlock [] false c
  exact moves_ite (quiet_trAlign c).moves (moves_ite (moves_ite (h.quiet (quiet_fullFlushClear _)) h) (.refl c))

theorem quiet_fieldCrc (hc : Bool) (n : Nat) (c : Cu) : c.Quiet (c.fieldCrc hc n) := by
  unfold fieldCrc
  exact quiet_ite (quiet_regs ..) (.refl c)

theorem moves_emitLoop (data : List Byte) (z hc : Bool) : ∀ fuel n c, Moves c (emitLoop data z hc fuel n c).1
  | 0, _, c => .refl c
  | fuel + 1, n, c => by
    have h1 : c.Moves (if c.pending = c.pendingSize then (c.fieldCrc hc n).flushPending else c) :=
      moves_ite ((quiet_fieldCrc hc n c).moves.trans (moves_flushPending _)) (.refl c)
    rw [emitLoop]
    simp only
    generalize (if c.pending = c.pendingSize then (c.fieldCrc hc n).flushPending else c) = c1 at h1 ⊢
    split
    · exact .refl c
    · split
      · exact h1
      · have h2 : c.Moves (Cu.putByte { c1 with gzindex := c1.gzindex + 1 } (data.getD c1.gzindex 0#8)) :=
          h1.quiet (Quiet.trans (quiet_regs ..) (quiet_putByte ..))
        split
        · exact h2
        · exact h2.trans (moves_emitLoop data z hc fuel _ _)

theorem moves_emitField (data : List Byte) (z hc : Bool) (c : Cu) : c.Moves (c.emitField data z hc).1 :=
  (moves_emitLoop data z hc (data.length + 2) c.pending c).quiet (quiet_fieldCrc hc _ _)

/-- `STATUS` moved forward and nothing else. -/
theorem moves_setStatus (c : Cu) (st : CuStatus) (h : c.status.number ≤ st.number) : c.Moves { c with status := st } :=
  ⟨rfl, fun h => { h with }, rfl, le_refl _, id, by simp [word32Of], ⟨[], by simp [word32Of]⟩, h⟩

theorem status_emitField (data : List Byte) (z hc : Bool) (c : Cu) : (c.emitField data z hc).1.status = c.status := by
  have hfp : ∀ x : Cu, x.flushPending.status = x.status := fun x => by
    unfold flushPending
    simp only
    split
    · rfl
    · obtain ⟨_, _, _, _, _, _, h7, _⟩ := flushLoop_facts (min x.pending x.cur.availOut) x (Nat.min_le_right ..)
      split <;> exact h7
  have hfc : ∀ (x : Cu) n, (x.fieldCrc hc n).status = x.status := fun x n => by unfold fieldCrc; split <;> rfl
  have hl : ∀ fuel n (x : Cu), (emitLoop data z hc fuel n x).1.status = x.status := by
    intro fuel
    induction fuel with
    | zero => intro n x; rfl
    | succ fuel ih =>
      intro n x
      have h1 : (if x.pending = x.pendingSize then (x.fieldCrc hc n).flushPending else x).status = x.status := by
        split
        · rw [hfp, hfc]
        · rfl
      rw [emitLoop]
      simp only
      generalize (if x.pending = x.pendingSize then (x.fieldCrc hc n).flushPending else x) = x1 at h1 ⊢
      split
      · rfl
      · split
        · exact h1
        · split
          · exact h1
          · exact (ih _ _).trans h1
  unfold emitField
  exact (hfc _ _).trans (hl _ _ _)

theorem moves_doField (field : Option (List Byte)) (z hc : Bool) (next : CuStatus) (c : Cu)
    (h : c.status.number ≤ next.number) : c.Moves (c.doField field z hc next) := by
  unfold doField
  split
  · exact moves_setStatus c next h
  · rename_i data
    have h1 := moves_emitField data z hc c
    have h2 : (c.emitField data z hc).1.status.number ≤ next.number := by rw [status_emitField]; exact h
    simp only
    split
    · exact (h1.quiet (show Quiet _ { (c.emitField data z hc).1 with gzindex := 0 } from (quiet_regs ..))).trans
        (moves_setStatus _ next h2)
    · exact h1

theorem moves_doHcrc (r : GzHeader) (c : Cu) (h : c.status = .hcrc) : c.Moves (c.doHcrc r) := by
  have hs : ∀ x : Cu, x.flushPending.status = x.status := fun x => by
    unfold flushPending
    simp only
    split
    · rfl
    · obtain ⟨_, _, _, _, _, _, h7, _⟩ := flushLoop_facts (min x.pending x.cur.availOut) x (Nat.min_le_right ..)
      split <;> exact h7
  unfold doHcrc
  split
  · exact moves_setStatus c _ (by rw [h]; decide)
  · have h1 := moves_makeRoom 2 c
    have h2 : (c.makeRoom 2).status = .hcrc := by
      unfold makeRoom
      split
      · rw [hs, h]
      · exact h
    simp only
    generalize c.makeRoom 2 = c1 at h1 h2 ⊢
    split
    · have q : c1.Quiet { c1.putShort (c1.adler.toNat % 65536) with adler := 0 } := (quiet_putShort ..).trans (quiet_regs ..)
      have hq := q.traffic
      simp only [Cu.traffic, Prod.mk.injEq] at hq
      exact (h1.quiet q).trans (moves_setStatus _ .busy (by rw [hq.2.2.2, h2]; decide))
    · exact h1

theorem moves_headerFields (c : Cu) : c.Moves c.headerFields := by
  unfold headerFields
  split
  · exact .refl c
  · rename_i r _
    have step : ∀ (x : Cu) (st : CuStatus) (f : Cu → Cu), (x.status = st → x.Moves (f x)) →
        x.Moves (if x.status = st then f x else x) := fun x st f hf => by
      split
      · exact hf ‹_›
      · exact .refl x
    simp only
    refine Moves.trans ?_ (step _ .hcrc _ fun h => moves_doHcrc r _ h)
    refine Moves.trans ?_ (step _ .comment _ fun h => moves_doField _ _ _ _ _ (by rw [h]; decide))
    refine Moves.trans ?_ (step _ .name _ fun h => moves_doField _ _ _ _ _ (by rw [h]; decide))
    exact step _ .extra _ fun h => moves_doField _ _ _ _ _ (by rw [h]; decide)

theorem moves_emitHeader (c : Cu) (h : c.status = .init) : c.Moves c.emitHeader := by
  have hb : c.status.number ≤ CuStatus.number .busy := by rw [h]; decide
  have he : c.status.number ≤ CuStatus.number .extra := by rw [h]; decide
  unfold emitHeader
  split
  · unfold emitGzipHeader
    split
    · exact (((show c.Quiet { c with adler := 0 } from (quiet_regs ..)).trans (quiet_putBytes ..)).moves).trans
        (moves_setStatus _ _ (by
          have := ((show c.Quiet { c with adler := 0 } from (quiet_regs ..)).trans (quiet_putBytes _
            [0x1F#8, 0x8B#8, 8#8, 0#8, 0#8, 0#8, 0#8, 0#8, c.gzipXfl, Config.osCode])).traffic
          simp only [Cu.traffic, Prod.mk.injEq] at this
          rw [this.2.2.2]; exact hb))
    · rename_i r _
      simp only
      have q := ((show c.Quiet { c with adler := 0 } from (quiet_regs ..)).trans (quiet_putBytes _
        (c.gzHeaderBytes r))).trans (show Quiet _ { (Cu.putBytes { c with adler := 0 } (c.gzHeaderBytes r)) with
          adler := if r.hcrc then crc32 0 (c.gzHeaderBytes r) else 0, gzindex := 0 } from (quiet_regs ..))
      refine q.moves.trans (moves_setStatus _ .extra ?_)
      have := q.traffic
      simp only [Cu.traffic, Prod.mk.injEq] at this
      rw [this.2.2.2]; exact he
  · unfold emitZlibHeader
    simp only
    refine Moves.quiet ?_ (quiet_regs ..)
    have h0 := (moves_setStatus c .busy hb).quiet (quiet_putShortMsb { c with status := .busy } c.zlibHeaderWord)
    exact moves_ite (h0.quiet ((quiet_putShortMsb ..).trans (quiet_putShortMsb ..))) h0

/-- `d` follows `c` as in `Moves`, but for `LAST_FLUSH` and the sign of `WRAP`. -/
structure Pushed (c d : Cu) : Prop where
  config   : c.SameConfig d
  rest     : d.func = c.func ∧ d.msg = c.msg
  mem      : c.MemWf → d.MemWf
  inp      : d.cur.inp = c.cur.inp
  next     : c.cur.nextIn ≤ d.cur.nextIn
  bound    : c.cur.nextIn ≤ c.cur.inp.length → d.cur.nextIn ≤ c.cur.inp.length
  totalIn  : d.totalIn = c.totalIn + word32Of (d.cur.nextIn - c.cur.nextIn)
  out      : ∃ l, d.cur.out = c.cur.out ++ l ∧ d.totalOut = c.totalOut + word32Of l.length ∧
    d.cur.availOut + l.length = c.cur.availOut
  status   : c.status.number ≤ d.status.number

theorem SameConfig.trans {a b c : Cu} (h : a.SameConfig b) (k : b.SameConfig c) : a.SameConfig c where
  level := k.level.trans h.level
  strategy := k.strategy.trans h.strategy
  wBits := k.wBits.trans h.wBits
  hashBits := k.hashBits.trans h.hashBits
  litBufsize := k.litBufsize.trans h.litBufsize
  good := k.good.trans h.good
  maxLazy := k.maxLazy.trans h.maxLazy
  nice := k.nice.trans h.nice
  chain := k.chain.trans h.chain
  gzhead := k.gzhead.trans h.gzhead
  framing := by
    rcases h.framing with h | h <;> rcases k.framing with k | k <;> rw [k, h] <;> simp

theorem Moves.pushed {c d : Cu} (h : c.Moves d) : c.Pushed d := by
  have hf := h.fixed
  simp only [Cu.fixed, Prod.mk.injEq] at hf
  obtain ⟨h1, h2, h3, h4, h5, h6, h7, h8, h9, h10, h11, h12, h13, h14⟩ := hf
  exact ⟨⟨h1, h2, h3, h4, h5, h6, h7, h8, h9, h11, .inl h13⟩, ⟨h10, h12⟩, h.mem, h.inp, h.next, h.bound, h.totalIn, h.out,
    h.status⟩

theorem Pushed.trans {a b c : Cu} (h : a.Pushed b) (k : b.Pushed c) : a.Pushed c where
  config := h.config.trans k.config
  rest := ⟨k.rest.1.trans h.rest.1, k.rest.2.trans h.rest.2⟩
  mem := k.mem ∘ h.mem
  inp := k.inp.trans h.inp
  next := h.next.trans k.next
  bound := fun hb => by
    have h1 := h.bound hb
    have h2 := k.bound
    rw [h.inp] at h2
    exact h2 h1
  totalIn := by
    have := h.next
    have := k.next
    rw [k.totalIn, h.totalIn, BitVec.add_assoc, ← word32Of_add]
    congr 2
    omega
  out := by
    obtain ⟨l, h1, h2, h3⟩ := h.out
    obtain ⟨m, k1, k2, k3⟩ := k.out
    refine ⟨l ++ m, by rw [k1, h1, List.append_assoc], ?_, by simp; omega⟩
    rw [k2, h2, BitVec.add_assoc, ← word32Of_add, List.length_append]
  status := h.status.trans k.status

theorem pushed_lastFlush (c : Cu) (f : Int) : c.Pushed { c with lastFlush := f } :=
  ⟨⟨rfl, rfl, rfl, rfl, rfl, rfl, rfl, rfl, rfl, rfl, .inl rfl⟩, ⟨rfl, rfl⟩, fun h => { h with }, rfl, le_refl _, id,
    by simp [word32Of], ⟨[], by simp [word32Of]⟩, le_refl _⟩

theorem pushed_negWrap (c : Cu) : c.Pushed { c with wrap := -c.wrap } :=
  ⟨⟨rfl, rfl, rfl, rfl, rfl, rfl, rfl, rfl, rfl, rfl, .inr rfl⟩, ⟨rfl, rfl⟩, fun h => { h with }, rfl, le_refl _, id,
    by simp [word32Of], ⟨[], by simp [word32Of]⟩, le_refl _⟩

theorem moves_toFinish (c : Cu) : c.Moves { c with status := .finish } :=
  moves_setStatus c .finish (by cases c.status <;> decide)

theorem pushed_runStrategy (f : Int) (c : Cu) : c.Pushed (c.runStrategy f).1 := by
  have h := moves_runFunc f c
  unfold runStrategy
  generalize c.runFunc f = p at h ⊢
  obtain ⟨c1, b⟩ := p
  have h2 : c.Moves (if b = .finishStarted ∨ b = .finishDone then { c1 with status := .finish } else c1) :=
    moves_ite (h.trans (moves_toFinish c1)) h
  simp only
  generalize (if b = .finishStarted ∨ b = .finishDone then ({ c1 with status := .finish } : Cu) else c1) = c2 at h2 ⊢
  have h3 := (h2.trans (moves_flushMarker f c2)).trans (moves_flushPending _)
  have hl : c.Pushed (if c2.cur.availOut = 0 then { c2 with lastFlush := -1 } else c2) := by
    split
    · exact h2.pushed.trans (pushed_lastFlush ..)
    · exact h2.pushed
  cases b
  · exact hl
  · simp only
    split
    · exact h3.pushed.trans (pushed_lastFlush ..)
    · exact h3.pushed
  · exact hl
  · exact h2.pushed

theorem pushed_writeTrailer (c : Cu) : c.Pushed c.writeTrailer := by
  have h := (quiet_putBytes c c.trailerBytes).moves.trans (moves_flushPending _)
  unfold writeTrailer
  generalize (c.putBytes c.trailerBytes).flushPending = d at h ⊢
  exact h.pushed.trans (pushed_negWrap d)

theorem pushed_pushCode (f : Int) (c : Cu) : c.Pushed (c.pushCode f).1 := by
  have h : c.Pushed (if c.cur.availIn ≠ 0 ∨ c.lookahead ≠ 0 ∨ (f ≠ flushNo ∧ c.status ≠ .finish) then c.runStrategy f
      else (c, false)).1 := by
    split
    · exact pushed_runStrategy f c
    · exact (Moves.refl c).pushed
  unfold pushCode
  generalize (if c.cur.availIn ≠ 0 ∨ c.lookahead ≠ 0 ∨ (f ≠ flushNo ∧ c.status ≠ .finish) then c.runStrategy f
      else (c, false)) = p at h ⊢
  obtain ⟨c1, ret⟩ := p
  have h2 := h.trans (pushed_writeTrailer c1)
  simp only
  split
  · exact h
  · split
    · exact h
    · split
      · exact h
      · exact h2

/-- What a push does, whatever it returns: the configuration and `MSG` kept, the input taken and the output put out in order and
counted, the memories canonical, `STATUS` not moved back. -/
theorem pushed_push (f : Int) (c : Cu) : c.Pushed (c.push f).1 := by
  have h1 := pushed_lastFlush c f
  have h2 : c.Pushed (if ({ c with lastFlush := f } : Cu).status = .init then
      Cu.emitHeader { c with lastFlush := f } else { c with lastFlush := f }) := by
    generalize ({ c with lastFlush := f } : Cu) = c1 at h1 ⊢
    split
    · exact h1.trans (moves_emitHeader c1 ‹_›).pushed
    · exact h1
  unfold push
  generalize ({ c with lastFlush := f } : Cu) = c1 at h2 ⊢
  simp only
  generalize (if c1.status = .init then c1.emitHeader else c1) = c2 at h2 ⊢
  have h3 := h2.trans (moves_headerFields c2).pushed
  generalize c2.headerFields = c3 at h3 ⊢
  have h4 := h3.trans (moves_flushPending c3).pushed
  split
  · generalize c3.flushPending = c4 at h4 ⊢
    split
    · exact h4.trans (pushed_lastFlush ..)
    · exact h4.trans (pushed_pushCode ..)
  · split
    · exact h3
    · exact h3.trans (pushed_pushCode ..)

end Cu

end Sys2Proof.Machine
end

