-- ==== Sys2Proof/Laws/DuKeeps.lean ====
section
/-! SUPPORT. What the rules of the Inflate engine leave alone, and what a whole push may move: one lemma per operation, up to the
state loop and the leave sequence. -/

namespace Sys2Proof.Machine

/-! ## The table constructor keeps the memories canonical -/

/-- Canonical memories of a table's result. -/
def TableResult.wf (r : TableResult) : Prop := Mem.wf Du.codesSize r.codes = true ∧ Mem.wf Du.workSize r.work = true

theorem wf_foldl_wr {α : Type} (size : Nat) (f : α → Nat) (v : Word32) (l : List α) (m : Mem Word32) (h : Mem.wf size m = true) :
    Mem.wf size (l.foldl (fun m k => Mem.wr size m (f k) v) m) = true := by
  induction l generalizing m with
  | nil => exact h
  | cons k r ih => exact ih _ (Mem.wf_wr h)

theorem wf_replicate (e : FillEnv) (f : Fill) (h : Mem.wf Du.codesSize f.codes = true) :
    Mem.wf Du.codesSize (f.replicate e).codes = true := by
  unfold Fill.replicate
  exact wf_foldl_wr _ _ _ _ _ h

theorem wf_newSubTable (e : FillEnv) (f : Fill) (h : Mem.wf Du.codesSize f.codes = true) :
    Mem.wf Du.codesSize (f.newSubTable e).1.codes = true := by
  unfold Fill.newSubTable
  extract_lets dr nx cu us f1 lo
  split
  · exact h
  · exact Mem.wf_wr h

theorem wf_newSubTable_eq {e : FillEnv} {f g : Fill} {b : Bool} (he : f.newSubTable e = (g, b))
    (h : Mem.wf Du.codesSize f.codes = true) : Mem.wf Du.codesSize g.codes = true := by
  have h4 := wf_newSubTable e f h
  rw [he] at h4
  exact h4

theorem wf_finalFill (f : Fill) (h : Mem.wf Du.codesSize f.codes = true) : Mem.wf Du.codesSize f.finalFill.codes = true := by
  unfold Fill.finalFill
  split
  · exact Mem.wf_wr h
  · exact h

theorem wf_fillTableLoop (e : FillEnv) : ∀ fuel f, Mem.wf Du.codesSize (Fill.codes f) = true →
    Mem.wf Du.codesSize (fillTableLoop e fuel f).1.codes = true
  | 0, _, h => h
  | fuel + 1, f, h => by
    have h1 := wf_replicate e f h
    rw [fillTableLoop]
    generalize f.replicate e = f1 at h1 ⊢
    simp only
    split
    · exact wf_finalFill _ h1
    · split <;> split
      · split
        · rename_i he; exact wf_newSubTable_eq he h1
        · rename_i he; exact wf_fillTableLoop e fuel _ (wf_newSubTable_eq he h1)
      · exact wf_fillTableLoop e fuel _ h1
      · split
        · rename_i he; exact wf_newSubTable_eq he h1
        · rename_i he; exact wf_fillTableLoop e fuel _ (wf_newSubTable_eq he h1)
      · exact wf_fillTableLoop e fuel _ h1

theorem wf_sortSymbols (lens count : List Nat) (work : Mem Word16) (h : Mem.wf Du.workSize work = true) :
    Mem.wf Du.workSize (sortSymbols lens count work) = true := by
  unfold sortSymbols
  refine forRange_induction (fun p : Mem Word16 × List Nat => Mem.wf Du.workSize p.1 = true) _ _ _ ?_ _ h
  rintro i ⟨w, o⟩ hw
  simp only
  split
  · exact hw
  · exact Mem.wf_wr hw

theorem wf_inflateTable (type : TableType) (lens : List Nat) (base bits : Nat) (codes : Mem Word32) (work : Mem Word16)
    (hc : Mem.wf Du.codesSize codes = true) (hw : Mem.wf Du.workSize work = true) :
    (inflateTable type lens base bits codes work).wf := by
  have hs := wf_sortSymbols lens (countLens lens) work hw
  unfold inflateTable
  simp only
  split
  · exact ⟨Mem.wf_wr (Mem.wf_wr hc), hw⟩
  · split
    · exact ⟨hc, hw⟩
    · split
      · exact ⟨hc, hw⟩
      · split
        · exact ⟨hc, hs⟩
        · exact ⟨wf_fillTableLoop _ _ _ hc, hs⟩

namespace Du

/-! ## What every rule keeps -/

/-- The registers that no rule of the state loop writes. -/
def fixed (d : Du) :=
  (d.wrap, d.wbits, d.capture, d.wsize, d.whave, d.wnext, d.hwindow, d.havedict, d.pushFlush, d.totalIn, d.cur.inp)

/-- `e` follows `d` in the state loop of a push. -/
structure Keeps (d e : Du) : Prop where
  fixed   : e.fixed = d.fixed
  mem     : d.MemWf → e.MemWf
  running : d.ctl ≠ .idle → e.ctl ≠ .idle
  out     : ∃ l, e.cur.out = d.cur.out ++ l
  counted : d.checked ≤ d.cur.produced → e.checked ≤ e.cur.produced ∧ ∃ n, e.checked = d.checked + n ∧
    e.totalOut = d.totalOut + word32Of n ∧ e.total = d.total + word32Of n

theorem Keeps.refl (d : Du) : d.Keeps d := ⟨rfl, id, id, ⟨[], by simp⟩, fun h => ⟨h, 0, by simp [word32Of]⟩⟩

theorem Keeps.trans {a b c : Du} (h : a.Keeps b) (k : b.Keeps c) : a.Keeps c where
  fixed := k.fixed.trans h.fixed
  mem := k.mem ∘ h.mem
  running := k.running ∘ h.running
  out := by
    obtain ⟨l, hl⟩ := h.out
    obtain ⟨m, hm⟩ := k.out
    exact ⟨l ++ m, by rw [hm, hl, List.append_assoc]⟩
  counted := fun ha => by
    obtain ⟨hb, n, h1, h2, h3⟩ := h.counted ha
    obtain ⟨hc, m, k1, k2, k3⟩ := k.counted hb
    exact ⟨hc, n + m, by omega, by rw [k2, h2, BitVec.add_assoc, word32Of_add],
      by rw [k3, h3, BitVec.add_assoc, word32Of_add]⟩

theorem keeps_ite {p : Prop} [Decidable p] {d a b : Du} (ha : d.Keeps a) (hb : d.Keeps b) : d.Keeps (if p then a else b) := by
  split <;> assumption

theorem keeps_forRange (lo n : Nat) (f : Nat → Du → Du) (hf : ∀ i d, Keeps d (f i d)) (d : Du) : d.Keeps (forRange lo n f d) :=
  forRange_induction (fun e => d.Keeps e) lo n f (fun i _ h => h.trans (hf i _)) d (.refl d)

/-- Any update of the working registers keeps what a rule keeps. -/
theorem keeps_regs (d : Du) (adler : Word32) (msg : Msg) (mode : Mode) (hold : Word32) (bits length offset extra : Nat)
    (flags : Word16) (check : Word32) (ncode nlen ndist haveCount lenbits distbits : Nat) (lencode distcode : TableRef)
    (last : Bool) (hdr : HdrRecord) :
    d.Keeps { d with
      adler := adler, msg := msg, mode := mode, hold := hold, bits := bits, length := length, offset := offset, extra := extra
      flags := flags, check := check, ncode := ncode, nlen := nlen, ndist := ndist, haveCount := haveCount
      lenbits := lenbits, distbits := distbits, lencode := lencode, distcode := distcode, last := last, hdr := hdr } :=
  ⟨rfl, fun h => { h with }, id, ⟨[], by simp⟩, fun h => ⟨h, 0, by simp [word32Of]⟩⟩

theorem keeps_stop (d : Du) (st : Status) : d.Keeps { d with ctl := .stop st } :=
  ⟨rfl, fun h => { h with }, fun _ => nofun, ⟨[], by simp⟩, fun h => ⟨h, 0, by simp [word32Of]⟩⟩
theorem keeps_suspend (d : Du) : d.Keeps d.suspend := keeps_stop d .ok
theorem keeps_bad (d : Du) (m : Msg) : d.Keeps (d.bad m) := keeps_regs ..
theorem keeps_nextIn (d : Du) (n : Nat) : d.Keeps { d with cur := { d.cur with nextIn := n } } :=
  ⟨rfl, fun h => { h with }, id, ⟨[], by simp⟩, fun h => ⟨h, 0, by simp [word32Of]⟩⟩
theorem keeps_advance (d : Du) (n : Nat) : d.Keeps { d with cur := d.cur.advance n } := keeps_nextIn ..
theorem keeps_outPut (d : Du) (b : Byte) : d.Keeps (d.outPut b) :=
  ⟨rfl, fun h => { h with }, id, ⟨[b], rfl⟩, fun h => ⟨by simp only [outPut, Cursor.produced, Cursor.outPut] at *; simp; omega, 0,
    by simp [word32Of, outPut]⟩⟩
theorem keeps_setLens (d : Du) (i v : Nat) : d.Keeps (d.setLens i v) :=
  ⟨rfl, fun h => { h with lens := Mem.wf_wr h.lens }, id, ⟨[], by simp [setLens]⟩, fun h => ⟨h, 0, by simp [word32Of, setLens]⟩⟩
theorem keeps_tables (d : Du) (codes : Mem Word32) (work : Mem Word16) (hc : d.MemWf → Mem.wf codesSize codes = true)
    (hw : d.MemWf → Mem.wf workSize work = true) : d.Keeps { d with codes := codes, work := work } :=
  ⟨rfl, fun h => { h with codes := hc h, work := hw h }, id, ⟨[], by simp⟩, fun h => ⟨h, 0, by simp [word32Of]⟩⟩

/-! ## Bit fetch -/

theorem keeps_fetch (d : Du) : d.Keeps d.fetch := (keeps_advance d 1).trans (keeps_regs ..)
theorem keeps_drop (n : Nat) (d : Du) : d.Keeps (d.drop n) := keeps_regs ..
theorem keeps_initbits (d : Du) : d.Keeps d.initbits := keeps_regs ..
theorem keeps_bytebits (d : Du) : d.Keeps d.bytebits := keeps_drop ..
theorem keeps_pull (d : Du) : d.Keeps d.pull := keeps_ite (keeps_suspend d) (keeps_fetch d)

theorem keeps_andThen {k : Du → Du} (hk : ∀ d, Keeps d (k d)) (d : Du) : d.Keeps (d.andThen k) := keeps_ite (hk d) (.refl d)

theorem keeps_needLoop (n : Nat) : ∀ fuel d, Keeps d (needLoop fuel n d)
  | 0, d => .refl d
  | fuel + 1, d => keeps_ite ((keeps_pull d).trans (keeps_andThen (keeps_needLoop n fuel) _)) (.refl d)

theorem keeps_need (n : Nat) (d : Du) : d.Keeps (d.need n) := keeps_needLoop ..

theorem keeps_needThen (n : Nat) {k : Du → Du} (hk : ∀ d, Keeps d (k d)) (d : Du) : d.Keeps (d.needThen n k) :=
  (keeps_need n d).trans (keeps_andThen hk _)

theorem keeps_fallInto (m : Mode) {k : Du → Du} (hk : ∀ d, Keeps d (k d)) (d : Du) : d.Keeps (d.fallInto m k) :=
  keeps_ite (hk d) (.refl d)

/-! ## Symbols -/

theorem keeps_copyMatch (k n : Nat) (d : Du) : d.Keeps (d.copyMatch k n) := keeps_forRange _ _ _ (fun _ _ => keeps_outPut ..) d

theorem keeps_syncCheck (d : Du) : d.Keeps d.syncCheck := by
  have h : d.Keeps { d with
      totalOut := d.totalOut + word32Of (d.cur.produced - d.checked)
      total := d.total + word32Of (d.cur.produced - d.checked), checked := d.cur.produced } :=
    ⟨rfl, fun h => { h with }, id, ⟨[], by simp⟩, fun h => ⟨le_refl _, d.cur.produced - d.checked, by simp only; omega, rfl, rfl⟩⟩
  unfold syncCheck
  simp only
  split
  · exact h.trans (keeps_regs ..)
  · exact h

theorem keeps_ruleLit (d : Du) : d.Keeps d.ruleLit := by
  unfold ruleLit
  exact keeps_ite (keeps_suspend d) ((keeps_outPut ..).trans (keeps_regs ..))

theorem keeps_ruleLenext (d : Du) : d.Keeps d.ruleLenext :=
  keeps_needThen _ (fun x => (keeps_drop d.extra x).trans (keeps_regs ..)) d

theorem keeps_ruleMatch (d : Du) : d.Keeps d.ruleMatch := by
  unfold ruleMatch
  exact keeps_ite (keeps_suspend d) (keeps_ite (keeps_bad ..) ((keeps_copyMatch ..).trans (keeps_regs ..)))

theorem keeps_ruleDistext (d : Du) : d.Keeps d.ruleDistext :=
  keeps_needThen _ (fun x => ((keeps_drop d.extra x).trans (keeps_regs ..)).trans (keeps_ruleMatch _)) d

theorem keeps_symLit (b : Nat) (d : Du) : d.Keeps (d.symLit b) := Keeps.trans (keeps_regs ..) (keeps_ruleLit _)
theorem keeps_symEob (d : Du) : d.Keeps d.symEob := keeps_regs ..
theorem keeps_symLen (b x : Nat) (d : Du) : d.Keeps (d.symLen b x) := Keeps.trans (keeps_regs ..) (keeps_ruleLenext _)
theorem keeps_symLlInvalid (d : Du) : d.Keeps d.symLlInvalid := keeps_regs ..
theorem keeps_symDist (b x : Nat) (d : Du) : d.Keeps (d.symDist b x) := Keeps.trans (keeps_regs ..) (keeps_ruleDistext _)
theorem keeps_symDistInvalid (d : Du) : d.Keeps d.symDistInvalid := keeps_bad ..

theorem keeps_applyLl (e : Word32) (d : Du) : d.Keeps (d.applyLl e) := by
  unfold applyLl
  exact (keeps_drop ..).trans (keeps_ite (keeps_symLit ..) (keeps_ite (keeps_regs ..) (keeps_ite (keeps_regs ..) (keeps_symLen ..))))

theorem keeps_applyDist (e : Word32) (d : Du) : d.Keeps (d.applyDist e) := by
  unfold applyDist
  exact (keeps_drop ..).trans (keeps_ite (keeps_symDistInvalid ..) (keeps_symDist ..))

/-! ## Lookup -/

theorem keeps_withEntry (entry : Du → Word32) (needed : Word32 → Nat) {k : Word32 → Du → Du} (hk : ∀ e d, Keeps d (k e d))
    (d : Du) : d.Keeps (withEntry entry needed k d) := by
  have : ∀ fuel d, Keeps d (entryLoop entry needed k fuel d) := by
    intro fuel
    induction fuel with
    | zero => exact keeps_suspend
    | succ fuel ih => exact fun d => keeps_ite (hk ..) ((keeps_pull d).trans (keeps_andThen ih _))
  exact this _ d

theorem keeps_viaLink (r : TableRef) (last : Word32) {k : Word32 → Du → Du} (hk : ∀ e d, Keeps d (k e d)) (d : Du) :
    d.Keeps (viaLink r last k d) := keeps_withEntry _ _ (fun e x => (keeps_drop _ x).trans (hk e _)) d

theorem keeps_decodeEntry (r : TableRef) (w : Nat) {k : Word32 → Du → Du} (hk : ∀ e d, Keeps d (k e d)) (d : Du) :
    d.Keeps (decodeEntry r w k d) :=
  keeps_withEntry _ _ (fun e x => keeps_ite (keeps_viaLink r e hk x) (hk e x)) d

/-! ## Code lengths -/

theorem keeps_pushLen (l : Nat) (d : Du) : d.Keeps (d.pushLen l) := (keeps_setLens ..).trans (keeps_regs ..)
theorem keeps_repeatLen (l n : Nat) (d : Du) : d.Keeps (d.repeatLen l n) :=
  keeps_ite (keeps_bad ..) (keeps_forRange _ _ _ (fun _ _ => keeps_pushLen ..) d)
theorem keeps_clLength (b l : Nat) (d : Du) : d.Keeps (d.clLength b l) := (keeps_drop ..).trans (keeps_pushLen ..)
theorem keeps_clCopyPrev (b : Nat) (d : Du) : d.Keeps (d.clCopyPrev b) :=
  keeps_needThen _ (fun x => (keeps_drop b x).trans (keeps_ite (keeps_bad ..) ((keeps_drop ..).trans (keeps_repeatLen ..)))) d
theorem keeps_clZeros (b n w : Nat) (d : Du) : d.Keeps (d.clZeros b n w) :=
  keeps_needThen _ (fun x => ((keeps_drop b x).trans (keeps_drop ..)).trans (keeps_repeatLen ..)) d
theorem keeps_applyCl (e : Word32) (d : Du) : d.Keeps (d.applyCl e) :=
  keeps_ite (keeps_clLength ..) (keeps_ite (keeps_clCopyPrev ..) (keeps_ite (keeps_clZeros ..) (keeps_clZeros ..)))

theorem keeps_buildTables (d : Du) : d.Keeps d.buildTables := by
  unfold buildTables
  split
  · exact keeps_bad ..
  · extract_lets l d1 t d2
    have h1 : d.MemWf → l.wf := fun h => wf_inflateTable _ _ _ _ _ _ h.codes h.work
    have k1 : d.Keeps d1 := (keeps_tables d l.codes l.work (fun h => (h1 h).1) (fun h => (h1 h).2)).trans (keeps_regs ..)
    have h2 : d1.MemWf → t.wf := fun h => wf_inflateTable _ _ _ _ _ _ h.codes h.work
    have k2 : d1.Keeps d2 := (keeps_tables d1 t.codes t.work (fun h => (h2 h).1) (fun h => (h2 h).2)).trans (keeps_regs ..)
    clear_value d2 d1
    exact keeps_ite (k1.trans (keeps_bad ..)) (keeps_ite (k1.trans (k2.trans (keeps_bad ..)))
      (k1.trans (k2.trans (keeps_regs ..))))

theorem keeps_storeClLen (v : Nat) (d : Du) : d.Keeps (d.storeClLen v) :=
  ((keeps_setLens ..).trans (keeps_drop ..)).trans (keeps_regs ..)

theorem keeps_buildClTable (d : Du) : d.Keeps d.buildClTable := by
  unfold buildClTable
  extract_lets d1 t d2
  have k0 : d.Keeps d1 := keeps_forRange _ _ _ (fun _ _ => keeps_setLens ..) d
  clear_value d1
  have h1 : d1.MemWf → t.wf := fun h => wf_inflateTable _ _ _ _ _ _ h.codes h.work
  have k1 : d1.Keeps d2 := by
    clear_value t
    exact (keeps_tables d1 t.codes t.work (fun h => (h1 h).1) (fun h => (h1 h).2)).trans (keeps_regs ..)
  clear_value d2 t
  exact keeps_ite (k0.trans (k1.trans (keeps_bad ..))) (k0.trans (k1.trans (keeps_regs ..)))

/-! ## Headers -/

theorem keeps_dropHeader (f : Bool) (d : Du) : d.Keeps (d.dropHeader f) := (Keeps.trans (keeps_regs ..) (keeps_drop ..)).trans (keeps_drop ..)
theorem keeps_blockStored (f : Bool) (d : Du) : d.Keeps (d.blockStored f) := (keeps_dropHeader ..).trans (keeps_regs ..)
theorem keeps_blockFixed (f : Bool) (d : Du) : d.Keeps (d.blockFixed f) := (keeps_dropHeader ..).trans (keeps_regs ..)
theorem keeps_blockDynamic (f : Bool) (d : Du) : d.Keeps (d.blockDynamic f) := (keeps_dropHeader ..).trans (keeps_regs ..)
theorem keeps_blockReserved (f : Bool) (d : Du) : d.Keeps (d.blockReserved f) := (keeps_dropHeader ..).trans (keeps_bad ..)
theorem keeps_storedLengths (l n : Word16) (d : Du) : d.Keeps (d.storedLengths l n) :=
  keeps_ite (keeps_bad ..) ((keeps_initbits ..).trans (keeps_regs ..))
theorem keeps_dynamicCounts (l n c : Nat) (d : Du) : d.Keeps (d.dynamicCounts l n c) := by
  unfold dynamicCounts
  simp only
  exact keeps_ite (keeps_regs ..) (keeps_regs ..)

theorem keeps_headerCrc (b : List Byte) (d : Du) : d.Keeps (d.headerCrc b) := keeps_ite (keeps_regs ..) (.refl d)
theorem keeps_captureHdr (f : HdrRecord → HdrRecord) (d : Du) : d.Keeps (d.captureHdr f) := keeps_ite (keeps_regs ..) (.refl d)

theorem keeps_zlibCheck (w : Nat) (d : Du) : d.Keeps (d.zlibCheck w) := by
  unfold zlibCheck
  exact keeps_ite (keeps_bad ..) (keeps_ite (keeps_bad ..) ((keeps_drop ..).trans
    (keeps_ite (keeps_bad ..) ((keeps_initbits ..).trans (keeps_regs ..)))))

theorem keeps_headWord (w : Nat) (d : Du) : d.Keeps (d.headWord w) :=
  keeps_ite (keeps_regs ..) ((Keeps.trans (keeps_regs ..) (keeps_captureHdr ..)).trans (keeps_zlibCheck ..))

theorem keeps_flagsWord (w : Word16) (d : Du) : d.Keeps (d.flagsWord w) := by
  have h : d.Keeps { d with flags := w } := keeps_regs ..
  unfold flagsWord
  generalize ({ d with flags := w } : Du) = d1 at h ⊢
  refine keeps_ite (h.trans (keeps_bad ..)) (keeps_ite (h.trans (keeps_bad ..)) ?_)
  exact (((h.trans (keeps_captureHdr ..)).trans (keeps_headerCrc ..)).trans (keeps_initbits ..)).trans (keeps_regs ..)

theorem keeps_timeWord (w : Word32) (d : Du) : d.Keeps (d.timeWord w) :=
  (((keeps_captureHdr ..).trans (keeps_headerCrc ..)).trans (keeps_initbits ..)).trans (keeps_regs ..)
theorem keeps_osBytes (x o : Byte) (d : Du) : d.Keeps (d.osBytes x o) :=
  (((keeps_captureHdr ..).trans (keeps_headerCrc ..)).trans (keeps_initbits ..)).trans (keeps_regs ..)

theorem keeps_ruleExtra (d : Du) : d.Keeps d.ruleExtra := by
  unfold ruleExtra
  refine keeps_ite ?_ (keeps_regs ..)
  have h := (keeps_captureHdr (fun h => { h with extra := h.extra ++ d.cur.nextBytes (min d.length d.cur.availIn) }) d).trans
    (keeps_headerCrc (d.cur.nextBytes (min d.length d.cur.availIn)) _)
  simp only
  generalize Du.headerCrc (d.cur.nextBytes (min d.length d.cur.availIn)) (d.captureHdr (fun h =>
    { h with extra := h.extra ++ d.cur.nextBytes (min d.length d.cur.availIn) })) = d1 at h ⊢
  have h2 : d.Keeps { d1 with
      cur := d1.cur.advance (min d.length d.cur.availIn), length := d1.length - min d.length d.cur.availIn } :=
    (h.trans (keeps_advance d1 (min d.length d.cur.availIn))).trans (keeps_regs ..)
  exact keeps_ite (h2.trans (keeps_suspend _)) (h2.trans (keeps_regs ..))

theorem keeps_ruleExlen (d : Du) : d.Keeps d.ruleExlen := by
  unfold ruleExlen
  refine Keeps.trans ?_ (keeps_fallInto _ keeps_ruleExtra _)
  refine keeps_ite (keeps_needThen _ (fun x => ?_) d) ((keeps_captureHdr ..).trans (keeps_regs ..))
  exact (((Keeps.trans (keeps_regs ..) (keeps_captureHdr ..)).trans (keeps_headerCrc ..)).trans (keeps_initbits ..)).trans
    (keeps_regs ..)

theorem keeps_captureByte (c : Bool) (b : Byte) (d : Du) : d.Keeps (d.captureByte c b) := by
  unfold captureByte
  exact keeps_ite (keeps_regs ..) (.refl d)

theorem keeps_fieldLoop (c : Bool) : ∀ fuel d, Keeps d (fieldLoop c fuel d).1
  | 0, d => .refl d
  | fuel + 1, d => by
    have h := ((keeps_advance d 1).trans (keeps_headerCrc [d.cur.peekByte] _)).trans (keeps_captureByte c d.cur.peekByte _)
    rw [fieldLoop]
    generalize Du.captureByte c d.cur.peekByte _ = d1 at h ⊢
    split
    · exact h
    · exact h.trans (keeps_fieldLoop c fuel d1)

theorem keeps_fieldState (c : Bool) (k : Nat) (m : Mode) (d : Du) : d.Keeps (d.fieldState c k m) := by
  have h := keeps_fieldLoop c d.cur.availIn d
  unfold fieldState
  split
  · split
    · rename_i he; rw [he] at h; exact h.trans (keeps_regs ..)
    · rename_i he; rw [he] at h; exact h.trans (keeps_suspend _)
  · exact (keeps_captureHdr ..).trans (keeps_regs ..)

theorem keeps_headerDone (d : Du) : d.Keeps d.headerDone := (keeps_captureHdr ..).trans (keeps_regs ..)

theorem keeps_ruleHcrc (d : Du) : d.Keeps d.ruleHcrc :=
  keeps_ite (keeps_needThen _ (fun x => keeps_ite (keeps_bad ..) ((keeps_initbits x).trans (keeps_headerDone _))) d)
    (keeps_headerDone d)

/-! ## The fast loop -/

theorem keeps_fetchIf (n : Nat) (d : Du) : d.Keeps (d.fetchIf n) := keeps_ite (keeps_fetch d) (.refl d)
theorem keeps_fetch15 (d : Du) : d.Keeps d.fetch15 := keeps_ite ((keeps_fetch d).trans (keeps_fetch _)) (.refl d)

theorem keeps_fastResolve (r : TableRef) (link : Nat → Bool) : ∀ fuel e d, Keeps d (fastResolve r link fuel e d).2
  | 0, e, d => keeps_drop ..
  | fuel + 1, e, d => by
    rw [fastResolve]
    split
    · exact (keeps_drop ..).trans (keeps_fastResolve r link fuel _ _)
    · exact keeps_drop ..

theorem keeps_fastDist (n : Nat) (d : Du) : d.Keeps (d.fastDist n).1 := by
  have h := keeps_fetch15 d
  unfold fastDist
  generalize d.fetch15 = d1 at h ⊢
  simp only
  have h2 := h.trans (keeps_fastResolve d1.distcode linkDist 2 (d1.tableAt d1.distcode (d1.peek d1.distbits)) d1)
  generalize fastResolve d1.distcode linkDist 2 (d1.tableAt d1.distcode (d1.peek d1.distbits)) d1 = p at h2 ⊢
  obtain ⟨e, d2⟩ := p
  simp only
  split
  · have h3 := ((h2.trans (keeps_fetchIf (entryOp e % 16) d2)).trans (keeps_fetchIf (entryOp e % 16) _)).trans
      (keeps_drop (entryOp e % 16) _)
    split
    · exact h3.trans (keeps_bad ..)
    · exact h3.trans (keeps_copyMatch ..)
  · exact h2.trans (keeps_bad ..)

theorem keeps_fastRound (d : Du) : d.Keeps d.fastRound.1 := by
  have h := keeps_fetch15 d
  unfold fastRound
  generalize d.fetch15 = d1 at h ⊢
  simp only
  have h2 := h.trans (keeps_fastResolve d1.lencode linkLl 2 (d1.tableAt d1.lencode (d1.peek d1.lenbits)) d1)
  generalize fastResolve d1.lencode linkLl 2 (d1.tableAt d1.lencode (d1.peek d1.lenbits)) d1 = p at h2 ⊢
  obtain ⟨e, d2⟩ := p
  simp only
  split
  · exact h2.trans (keeps_outPut ..)
  · split
    · exact ((h2.trans (keeps_fetchIf ..)).trans (keeps_drop ..)).trans (keeps_fastDist ..)
    · split
      · exact h2.trans (keeps_regs ..)
      · exact h2.trans (keeps_bad ..)

theorem keeps_fastLoop : ∀ fuel d, Keeps d (fastLoop fuel d)
  | 0, d => .refl d
  | fuel + 1, d => by
    have h := keeps_fastRound d
    rw [fastLoop]
    split
    · rename_i he; rw [he] at h; exact h
    · rename_i he; rw [he] at h
      split
      · exact h.trans (keeps_fastLoop fuel _)
      · exact h

theorem keeps_returnUnused (d : Du) : d.Keeps d.returnUnused := (keeps_nextIn ..).trans (keeps_regs ..)
theorem keeps_inflateFast (d : Du) : d.Keeps d.inflateFast := (keeps_fastLoop ..).trans (keeps_returnUnused _)

/-! ## The states -/

theorem keeps_copyByte (d : Du) : d.Keeps d.copyByte :=
  (keeps_outPut d d.cur.peekByte).trans (keeps_advance (d.outPut d.cur.peekByte) 1)

theorem keeps_ruleFlags (d : Du) : d.Keeps d.ruleFlags := keeps_needThen _ (fun x => keeps_flagsWord _ x) d
theorem keeps_ruleTime (d : Du) : d.Keeps d.ruleTime := keeps_needThen _ (fun x => keeps_timeWord _ x) d
theorem keeps_ruleOs (d : Du) : d.Keeps d.ruleOs := keeps_needThen _ (fun x => keeps_osBytes _ _ x) d
theorem keeps_ruleHead (d : Du) : d.Keeps d.ruleHead := by
  unfold ruleHead
  refine keeps_ite (keeps_regs ..) ?_
  exact (((keeps_needThen _ (fun x => keeps_headWord _ x) d).trans (keeps_fallInto _ keeps_ruleFlags _)).trans
    (keeps_fallInto _ keeps_ruleTime _)).trans (keeps_fallInto _ keeps_ruleOs _)
theorem keeps_ruleDictid (d : Du) : d.Keeps d.ruleDictid :=
  keeps_needThen _ (fun x => (keeps_initbits x).trans (keeps_regs ..)) d
theorem keeps_ruleDict (d : Du) : d.Keeps d.ruleDict := keeps_ite (keeps_stop ..) (keeps_regs ..)

theorem keeps_ruleType (d : Du) : d.Keeps d.ruleType := by
  unfold ruleType
  refine keeps_ite ((keeps_bytebits ..).trans (keeps_regs ..)) (keeps_needThen _ (fun x => ?_) d)
  simp only
  split
  · exact keeps_blockStored ..
  · exact keeps_blockFixed ..
  · exact keeps_blockDynamic ..
  · exact keeps_blockReserved ..

theorem keeps_ruleStored (d : Du) : d.Keeps d.ruleStored :=
  (keeps_bytebits d).trans (keeps_needThen _ (fun x => keeps_storedLengths _ _ x) _)

theorem keeps_ruleCopy (d : Du) : d.Keeps d.ruleCopy := by
  unfold ruleCopy
  refine keeps_ite (keeps_ite (keeps_suspend d) ?_) (keeps_regs ..)
  exact (keeps_forRange _ _ _ (fun _ => keeps_copyByte) d).trans (keeps_regs ..)

theorem keeps_ruleTable (d : Du) : d.Keeps d.ruleTable := keeps_needThen _ (fun x => keeps_dynamicCounts _ _ _ x) d
theorem keeps_ruleLenlens (d : Du) : d.Keeps d.ruleLenlens :=
  keeps_ite (keeps_needThen _ (fun x => keeps_storeClLen _ x) d) (keeps_buildClTable d)
theorem keeps_ruleCodelens (d : Du) : d.Keeps d.ruleCodelens :=
  keeps_ite (keeps_withEntry _ _ (fun e x => keeps_applyCl e x) d) (keeps_buildTables d)
theorem keeps_ruleLen (d : Du) : d.Keeps d.ruleLen :=
  keeps_ite (keeps_inflateFast d) (keeps_decodeEntry _ _ (fun e x => keeps_applyLl e x) d)
theorem keeps_ruleDist (d : Du) : d.Keeps d.ruleDist := keeps_decodeEntry _ _ (fun e x => keeps_applyDist e x) d

theorem keeps_ruleCheck (d : Du) : d.Keeps d.ruleCheck := by
  unfold ruleCheck
  refine keeps_ite (keeps_needThen _ (fun x => ?_) d) (keeps_regs ..)
  have h := keeps_syncCheck x
  generalize x.syncCheck = y at h ⊢
  exact keeps_ite (h.trans (keeps_bad ..)) ((h.trans (keeps_initbits _)).trans (keeps_regs ..))

theorem keeps_ruleLength (d : Du) : d.Keeps d.ruleLength :=
  keeps_ite (keeps_needThen _ (fun x => keeps_ite (keeps_bad ..) ((keeps_initbits x).trans (keeps_regs ..))) d) (keeps_regs ..)

/-- Every round of the state loop. -/
theorem keeps_rule (d : Du) : d.Keeps d.rule := by
  unfold rule
  split
  · exact keeps_ruleHead d
  · exact keeps_ruleFlags d
  · exact keeps_ruleTime d
  · exact keeps_ruleOs d
  · exact keeps_ruleExlen d
  · exact keeps_ruleExtra d
  · exact keeps_fieldState ..
  · exact keeps_fieldState ..
  · exact keeps_ruleHcrc d
  · exact keeps_ruleDictid d
  · exact keeps_ruleDict d
  · exact keeps_ruleType d
  · exact keeps_ruleStored d
  · exact keeps_ruleCopy d
  · exact keeps_ruleTable d
  · exact keeps_ruleLenlens d
  · exact keeps_ruleCodelens d
  · exact keeps_ruleLen d
  · exact keeps_ruleLenext d
  · exact keeps_ruleDist d
  · exact keeps_ruleDistext d
  · exact keeps_ruleMatch d
  · exact keeps_ruleLit d
  · exact keeps_ruleCheck d
  · exact keeps_ruleLength d
  all_goals exact keeps_stop ..

/-- The state loop. -/
theorem keeps_runLoop : ∀ fuel d, Keeps d (runLoop fuel d)
  | 0, d => .refl d
  | fuel + 1, d => keeps_ite ((keeps_rule d).trans (keeps_runLoop fuel _)) (.refl d)

end Du

end Sys2Proof.Machine
end

