-- ==== Sys2Proof/Laws/Stream.lean ====
section
/-! SUPPORT. The bitstream as a number: what fetching and dropping do to the bits not yet taken (44_inflate_engine.md R301). -/

namespace Sys2Proof

theorem leNat_cons (b : Byte) (r : List Byte) : leNat (b :: r) = b.toNat + 256 * leNat r := rfl

theorem leNat_append (a b : List Byte) : leNat (a ++ b) = leNat a + 2 ^ (8 * a.length) * leNat b := by
  induction a with
  | nil => simp [leNat]
  | cons x r ih =>
    simp only [List.cons_append, leNat, ih, List.length_cons, Nat.mul_add, Nat.pow_add]
    ring

theorem leNat_lt (a : List Byte) : leNat a < 2 ^ (8 * a.length) := by
  induction a with
  | nil => simp [leNat]
  | cons x r ih =>
    simp only [leNat, List.length_cons, Nat.mul_add, Nat.pow_add]
    have := x.isLt
    omega

namespace Machine.Du

theorem drop_zero (d : Du) : d.drop 0 = d := by cases d; simp [drop]

theorem drop_drop (a b : Nat) (d : Du) : (d.drop a).drop b = d.drop (a + b) := by
  simp [drop, BitVec.shiftRight_add, Nat.sub_sub]

theorem ctl_drop (n : Nat) (d : Du) : (d.drop n).ctl = d.ctl := rfl

/-- `HOLD` after a fetch: the byte stands above the bits held. -/
theorem hold_fetch {d : Du} (h : d.StreamWf) (hb : d.bits ≤ 24) :
    d.fetch.hold.toNat = d.hold.toNat + 2 ^ d.bits * d.cur.peekByte.toNat := by
  have h1 := h.hold
  have h2 := d.cur.peekByte.isLt
  have h3 : 2 ^ d.bits ≤ 2 ^ 24 := Nat.pow_le_pow_right (by omega) hb
  have h4 : 2 ^ d.bits * d.cur.peekByte.toNat ≤ 2 ^ 24 * 255 := Nat.mul_le_mul h3 (by omega)
  have h5 : d.cur.peekByte.toNat <<< d.bits % 2 ^ 32 = 2 ^ d.bits * d.cur.peekByte.toNat := by
    rw [Nat.shiftLeft_eq, Nat.mul_comm, Nat.mod_eq_of_lt (by omega)]
  simp only [fetch, BitVec.toNat_add, BitVec.toNat_shiftLeft, BitVec.toNat_setWidth]
  rw [Nat.mod_eq_of_lt (show d.cur.peekByte.toNat < 2 ^ 32 by omega), h5, Nat.mod_eq_of_lt (by omega)]

/-- A fetch takes no bit off the stream and loses none, if the accumulator has room for the byte. -/
theorem took_fetch {d : Du} (h : d.StreamWf) (hb : d.bits ≤ 24) (ha : d.cur.availIn ≠ 0) : d.Took 0 d.fetch := by
  have hc := h.cursor
  have hlt : d.cur.nextIn < d.cur.inp.length := by unfold Cursor.availIn at ha; omega
  have hd : d.cur.inp.drop d.cur.nextIn = d.cur.peekByte :: d.cur.inp.drop (d.cur.nextIn + 1) := by
    rw [List.drop_eq_getElem_cons hlt]; simp [Cursor.peekByte, List.getD_eq_getElem?_getD, hlt]
  have hh := hold_fetch h hb
  have h1 := h.hold
  have h2 := d.cur.peekByte.isLt
  refine ⟨?_, ?_, ⟨?_, ?_, ?_⟩, ?_⟩
  · have e1 : d.fetch.cur.inp.drop d.fetch.cur.nextIn = d.cur.inp.drop (d.cur.nextIn + 1) := rfl
    have e2 : d.fetch.bits = d.bits + 8 := rfl
    simp only [ahead, e1, e2, hh, hd, leNat_cons, Nat.pow_add, Nat.pow_zero, Nat.div_one]
    ring
  · simp only [aheadBits, fetch, Cursor.availIn, Cursor.advance]
    omega
  · rw [hh]
    show _ < 2 ^ (d.bits + 8)
    rw [Nat.pow_add]
    have : 2 ^ d.bits * d.cur.peekByte.toNat ≤ 2 ^ d.bits * 255 := Nat.mul_le_mul_left _ (by omega)
    omega
  · show d.bits + 8 ≤ 32; omega
  · show d.cur.nextIn + 1 ≤ d.cur.inp.length; omega
  · rfl

/-- Dropping bits that are held takes them off the stream. -/
theorem took_drop {d : Du} {n : Nat} (h : d.StreamWf) (hb : n ≤ d.bits) : d.Took n (d.drop n) := by
  have h1 := h.hold
  have hp : 2 ^ d.bits = 2 ^ n * 2 ^ (d.bits - n) := by rw [← Nat.pow_add]; congr 1; omega
  refine ⟨?_, ?_, ⟨?_, ?_, h.cursor⟩, rfl⟩
  · simp only [ahead, drop, BitVec.toNat_ushiftRight, Nat.shiftRight_eq_div_pow]
    rw [hp, Nat.mul_assoc, Nat.add_mul_div_left _ _ (Nat.two_pow_pos n)]
  · simp only [aheadBits, drop]; omega
  · simp only [drop, BitVec.toNat_ushiftRight, Nat.shiftRight_eq_div_pow]
    rw [Nat.div_lt_iff_lt_mul (Nat.two_pow_pos n), Nat.mul_comm, ← hp]; exact h1
  · have := h.bits; simp only [drop]; omega

theorem took_refl {d : Du} (h : d.StreamWf) : d.Took 0 d := ⟨by simp, by simp, h, rfl⟩

/-- Bits taken one after the other. -/
theorem Took.trans {m n : Nat} {a b c : Du} (h : a.Took m b) (k : b.Took n c) : a.Took (m + n) c := by
  refine ⟨?_, ?_, k.stream, ?_⟩
  · rw [k.value, h.value, Nat.div_div_eq_div_mul, Nat.pow_add]
  · have := h.count; have := k.count; omega
  · rw [k.frame, h.frame]

/-- The low bits of `HOLD` are the next bits of the stream. -/
theorem peek_eq {d : Du} {n : Nat} (hb : n ≤ d.bits) : d.peek n = d.ahead % 2 ^ n := by
  have hp : 2 ^ d.bits = 2 ^ n * 2 ^ (d.bits - n) := by rw [← Nat.pow_add]; congr 1; omega
  simp only [peek, ahead]
  rw [hp, Nat.mul_assoc, Nat.add_mul_mod_self_left]

/-- With all the bits held dropped, `initbits` is a drop. -/
theorem initbits_eq {d : Du} (h : d.StreamWf) : d.initbits = d.drop d.bits := by
  have h1 := h.hold
  have : d.hold >>> d.bits = 0 := by
    apply BitVec.eq_of_toNat_eq
    simp [Nat.shiftRight_eq_div_pow, Nat.div_eq_of_lt h1]
  simp [initbits, drop, this]

end Machine.Du

end Sys2Proof
end

