-- ==== Sys2Proof/Laws/DuRanges.lean ====
section
/-! SUPPORT. The registers of `DU` stay in their ranges (10_state.md R43): one lemma per operation, up to a round of the state loop.
The memories are bounded entry by entry, so that no lemma needs their canonical form. -/

namespace Sys2Proof.Machine

/-! ## Memories whose entries all have a property -/

/-- Every listed entry of a memory has the property. -/
def Mem.All {α : Type} (P : α → Prop) (m : Mem α) : Prop := ∀ e ∈ m, P e.2

theorem Mem.all_wr {α : Type} [Inhabited α] [DecidableEq α] {P : α → Prop} {n : Nat} {m : Mem α} {i : Nat} {v : α}
    (h : Mem.All P m) (hv : P v) : Mem.All P (Mem.wr n m i v) := by
  unfold Mem.wr
  split
  · intro e he
    rcases Mem.mem_set he with ⟨rfl, -⟩ | he
    · exact hv
    · exact h e he
  · exact h

theorem Mem.get_all {α : Type} [Inhabited α] {P : α → Prop} {m : Mem α} (h : Mem.All P m) (hd : P default) (i : Nat) :
    P (Mem.get m i) := by
  induction m with
  | nil => exact hd
  | cons e r ih =>
    rw [Mem.get]
    split
    · exact hd
    · split
      · exact h e (by simp)
      · exact ih fun x hx => h x (by simp [hx])

theorem Mem.rd_all {α : Type} [Inhabited α] {P : α → Prop} {n : Nat} {m : Mem α} (h : Mem.All P m) (hd : P default) (i : Nat) :
    P (Mem.rd n m i) := by
  unfold Mem.rd
  split
  · exact Mem.get_all h hd i
  · exact hd

/-- A canonical memory lists nothing but what reading it shows. -/
theorem Mem.all_of_rd {α : Type} [Inhabited α] [DecidableEq α] {P : α → Prop} {n : Nat} {m : Mem α} (hw : Mem.wf n m = true)
    (h : ∀ i, P (Mem.rd n m i)) : Mem.All P m := by
  rw [Mem.wf_iff] at hw
  obtain ⟨hp, hn⟩ := hw
  have hg : ∀ m : Mem α, (m.Pairwise fun a b => a.1 < b.1) → ∀ e ∈ m, Mem.get m e.1 = e.2 := by
    intro m hp e he
    induction m with
    | nil => simp at he
    | cons x r ih =>
      rw [List.pairwise_cons] at hp
      rw [Mem.get]
      rcases List.mem_cons.1 he with rfl | he
      · simp
      · have := hp.1 e he
        rw [if_neg (by omega), if_neg (by omega)]
        exact ih hp.2 he
  intro e he
  have := h e.1
  rw [Mem.rd, if_pos (hn e he).1, hg m hp e he] at this
  exact this

/-! ## Entries -/

theorem entryBits_mkEntry (op bits val : Nat) : entryBits (mkEntry op bits val) = bits % 256 := by
  unfold entryBits mkEntry byteOf word16Of
  simp only [BitVec.extractLsb'_toNat, BitVec.toNat_append, BitVec.toNat_ofNat, Nat.shiftLeft_eq, Nat.shiftRight_eq_div_pow]
  have h1 : val % 2 ^ 16 < 2 ^ 16 := Nat.mod_lt _ (by norm_num)
  have h2 : op % 2 ^ 8 < 2 ^ 8 := Nat.mod_lt _ (by norm_num)
  rw [← Nat.shiftLeft_eq, ← Nat.shiftLeft_eq, ← Nat.shiftLeft_add_eq_or_of_lt h2, ← Nat.shiftLeft_add_eq_or_of_lt h1]
  simp only [Nat.shiftLeft_eq]
  omega

theorem entryOp_mkEntry (op bits val : Nat) : entryOp (mkEntry op bits val) = op % 256 := by
  unfold entryOp mkEntry byteOf word16Of
  simp only [BitVec.extractLsb'_toNat, BitVec.toNat_append, BitVec.toNat_ofNat, Nat.shiftLeft_eq, Nat.shiftRight_eq_div_pow]
  have h1 : val % 2 ^ 16 < 2 ^ 16 := Nat.mod_lt _ (by norm_num)
  have h2 : op % 2 ^ 8 < 2 ^ 8 := Nat.mod_lt _ (by norm_num)
  rw [← Nat.shiftLeft_eq, ← Nat.shiftLeft_eq, ← Nat.shiftLeft_add_eq_or_of_lt h2, ← Nat.shiftLeft_add_eq_or_of_lt h1]
  simp only [Nat.shiftLeft_eq]
  omega

theorem entryVal_mkEntry (op bits val : Nat) : entryVal (mkEntry op bits val) = val % 65536 := by
  unfold entryVal mkEntry byteOf word16Of
  simp only [BitVec.extractLsb'_toNat, BitVec.toNat_append, BitVec.toNat_ofNat, Nat.shiftLeft_eq, Nat.shiftRight_eq_div_pow]
  have h1 : val % 2 ^ 16 < 2 ^ 16 := Nat.mod_lt _ (by norm_num)
  have h2 : op % 2 ^ 8 < 2 ^ 8 := Nat.mod_lt _ (by norm_num)
  rw [← Nat.shiftLeft_eq, ← Nat.shiftLeft_eq, ← Nat.shiftLeft_add_eq_or_of_lt h2, ← Nat.shiftLeft_add_eq_or_of_lt h1]
  simp only [Nat.shiftLeft_eq]
  omega

namespace Du

/-- What every decode-table entry keeps: at most 15 bits, a link at most 9 (43_table_decoder_fastloop.md R270, R274). -/
def EntryOk (e : Word32) : Prop := entryBits e ≤ 15 ∧ (isLink e = true → entryBits e ≤ 9)

theorem entryOk_default : EntryOk default := by unfold EntryOk; decide

/-- An entry that is no link. -/
theorem entryOk_plain {op bits val : Nat} (hb : bits ≤ 15) (ho : op % 256 = 0 ∨ 15 < op % 256) : EntryOk (mkEntry op bits val) := by
  refine ⟨by rw [entryBits_mkEntry]; omega, fun h => ?_⟩
  simp only [isLink, entryOp_mkEntry, Bool.and_eq_true, decide_eq_true_eq] at h
  omega

theorem extraLbits_le (c : Nat) : extraLbits c ≤ 5 := by
  unfold extraLbits lengthExtras
  rcases Nat.lt_or_ge c 29 with h | h
  · interval_cases c <;> decide
  · rw [List.getD_eq_default _ _ (by simpa using h)]; omega

theorem extraDbits_le (c : Nat) : extraDbits c ≤ 13 := by
  unfold extraDbits distExtras
  rcases Nat.lt_or_ge c 30 with h | h
  · interval_cases c <;> decide
  · rw [List.getD_eq_default _ _ (by simpa using h)]; omega

theorem entryOk_tableEntry (t : TableType) (w n : Nat) (hn : n ≤ 15) : EntryOk (tableEntry t w n) := by
  cases t with
  | codes => exact entryOk_plain hn (.inl rfl)
  | lens =>
    have := extraLbits_le (w - 257)
    show EntryOk (lensEntry w n)
    unfold lensEntry
    split
    · exact entryOk_plain hn (.inl rfl)
    · split
      · exact entryOk_plain hn (by omega)
      · split
        · exact entryOk_plain hn (by omega)
        · exact entryOk_plain hn (by omega)
  | dists =>
    have := extraDbits_le w
    show EntryOk (distsEntry w n)
    unfold distsEntry
    split
    · exact entryOk_plain hn (by omega)
    · exact entryOk_plain hn (by omega)

end Du

/-! ## The histogram (43_table_decoder_fastloop.md R271) -/

theorem length_countLens (lens : List Nat) : (countLens lens).length = 16 := by
  unfold countLens
  have : ∀ (l : List Nat) (c : List Nat), (l.foldl (fun c l => c.set l (c.getD l 0 + 1)) c).length = c.length := by
    intro l
    induction l with
    | nil => simp
    | cons a r ih => intro c; rw [List.foldl_cons, ih]; simp
  rw [this]; rfl

/-- `count[l]` counts the symbols of length `l`. -/
theorem getD_countLens (lens : List Nat) {l : Nat} (hl : l < 16) : (countLens lens).getD l 0 = lens.count l := by
  have : ∀ (ls : List Nat) (c : List Nat), c.length = 16 →
      (ls.foldl (fun c l => c.set l (c.getD l 0 + 1)) c).getD l 0 = c.getD l 0 + ls.count l := by
    intro ls
    induction ls with
    | nil => simp
    | cons a r ih =>
      intro c hc
      rw [List.foldl_cons, ih _ (by simpa using hc), List.count_cons]
      by_cases ha : a = l
      · subst ha
        simp [List.getD_eq_getElem?_getD, hc, hl]; omega
      · simp [List.getD_eq_getElem?_getD, ha]
  unfold countLens
  rw [this _ _ (by decide)]
  have h0 : (List.replicate (Config.maxBits + 1) 0).getD l 0 = 0 := by
    simp [List.getD_eq_getElem?_getD, List.getElem?_replicate]; split <;> rfl
  omega

theorem maxUsed_spec (count : List Nat) (n j : Nat) (hj : maxUsed count n < j) (hn : j ≤ n) : count.getD j 0 = 0 := by
  induction n with
  | zero => omega
  | succ n ih =>
    rw [maxUsed] at hj
    split at hj
    · rcases Nat.lt_or_ge n j with h | h
      · obtain rfl : j = n + 1 := by omega
        assumption
      · exact ih hj h
    · omega

theorem maxUsed_le (count : List Nat) (n : Nat) : maxUsed count n ≤ n := by
  induction n with
  | zero => simp [maxUsed]
  | succ n ih => rw [maxUsed]; split <;> omega

theorem minUsed_spec (count : List Nat) (max fuel l j : Nat) (hl : l ≤ j) (hj : j < minUsed count max fuel l) :
    count.getD j 0 = 0 := by
  induction fuel generalizing l with
  | zero => rw [minUsed] at hj; omega
  | succ fuel ih =>
    rw [minUsed] at hj
    split at hj
    · rename_i h
      rcases Nat.eq_or_lt_of_le hl with rfl | h'
      · exact h.2
      · exact ih (l + 1) h' hj
    · omega

theorem le_minUsed (count : List Nat) (max fuel l : Nat) : l ≤ minUsed count max fuel l := by
  induction fuel generalizing l with
  | zero => simp [minUsed]
  | succ fuel ih => rw [minUsed]; split; have := ih (l + 1); omega; omega

theorem minUsed_le (count : List Nat) (max fuel l : Nat) (h : l ≤ max) : minUsed count max fuel l ≤ max := by
  induction fuel generalizing l with
  | zero => simpa [minUsed]
  | succ fuel ih => rw [minUsed]; split; exact ih (l + 1) (by omega); exact h

/-- One round of the code-space loop. -/
theorem leftover_step (count : List Nat) (l : Nat) (r : List Nat) (x y : Int)
    (h : (l :: r).foldl (fun left l => match left with
      | none => none
      | some x => if 2 * x - (count.getD l 0 : Int) < 0 then none else some (2 * x - (count.getD l 0 : Int))) (some x) = some y) :
    0 ≤ 2 * x - (count.getD l 0 : Int) ∧ r.foldl (fun left l => match left with
      | none => none
      | some x => if 2 * x - (count.getD l 0 : Int) < 0 then none else some (2 * x - (count.getD l 0 : Int)))
      (some (2 * x - (count.getD l 0 : Int))) = some y := by
  rw [List.foldl_cons] at h
  have hn : ∀ r : List Nat, r.foldl (fun left l => match left with
      | none => none
      | some x => if 2 * x - (count.getD l 0 : Int) < 0 then none else some (2 * x - (count.getD l 0 : Int))) none = none := by
    intro r
    induction r with
    | nil => rfl
    | cons a r ih => rw [List.foldl_cons]; exact ih
  by_cases hc : 2 * x - (count.getD l 0 : Int) < 0
  · simp only [hc, if_true, hn] at h; exact absurd h (by simp)
  · simp only [hc, if_false] at h; exact ⟨by omega, h⟩

/-- The unused code space of a set without short codes is not 0: few symbols cannot fill it. -/
theorem leftover_pos (count : List Nat) (y : Int) (h : leftover count = some y) (h0 : ∀ l, 1 ≤ l → l < 10 → count.getD l 0 = 0)
    (hs : count.getD 10 0 + count.getD 11 0 + count.getD 12 0 + count.getD 13 0 + count.getD 14 0 + count.getD 15 0 ≤ 288) :
    0 < y := by
  unfold leftover at h
  rw [show List.range' 1 Config.maxBits = [1, 2, 3, 4, 5, 6, 7, 8, 9, 10, 11, 12, 13, 14, 15] from rfl] at h
  have a1 := leftover_step _ _ _ _ _ h
  have a2 := leftover_step _ _ _ _ _ a1.2
  have a3 := leftover_step _ _ _ _ _ a2.2
  have a4 := leftover_step _ _ _ _ _ a3.2
  have a5 := leftover_step _ _ _ _ _ a4.2
  have a6 := leftover_step _ _ _ _ _ a5.2
  have a7 := leftover_step _ _ _ _ _ a6.2
  have a8 := leftover_step _ _ _ _ _ a7.2
  have a9 := leftover_step _ _ _ _ _ a8.2
  have a10 := leftover_step _ _ _ _ _ a9.2
  have a11 := leftover_step _ _ _ _ _ a10.2
  have a12 := leftover_step _ _ _ _ _ a11.2
  have a13 := leftover_step _ _ _ _ _ a12.2
  have a14 := leftover_step _ _ _ _ _ a13.2
  have a15 := leftover_step _ _ _ _ _ a14.2
  have e := a15.2
  rw [List.foldl_nil, Option.some.injEq] at e
  have h1 := h0 1 (by omega) (by omega)
  have h2 := h0 2 (by omega) (by omega)
  have h3 := h0 3 (by omega) (by omega)
  have h4 := h0 4 (by omega) (by omega)
  have h5 := h0 5 (by omega) (by omega)
  have h6 := h0 6 (by omega) (by omega)
  have h7 := h0 7 (by omega) (by omega)
  have h8 := h0 8 (by omega) (by omega)
  have h9 := h0 9 (by omega) (by omega)
  clear a1 a2 a3 a4 a5 a6 a7 a8 a9 a10 a11 a12 a13 a14 a15 h h0
  omega

theorem count_sum_le (lens : List Nat) :
    lens.count 10 + lens.count 11 + lens.count 12 + lens.count 13 + lens.count 14 + lens.count 15 ≤ lens.length := by
  induction lens with
  | nil => simp
  | cons a r ih =>
    simp only [List.count_cons, List.length_cons, beq_iff_eq]
    split_ifs <;> omega

/-! ## The fill (43_table_decoder_fastloop.md R273 to R275) -/

/-- What the fill loop keeps: its entries, its current length, and a root of at most 9 bits where a longer code is left. -/
structure Fill.Ok (e : FillEnv) (f : Fill) : Prop where
  codes : Mem.All Du.EntryOk f.codes
  len   : f.len ≤ 15
  root  : e.root ≤ 9 ∨ f.len ≤ e.root

theorem all_foldl_wr {P : Word32 → Prop} (size : Nat) (g : Nat → Nat) {v : Word32} (hv : P v) (l : List Nat) (m : Mem Word32)
    (h : Mem.All P m) : Mem.All P (l.foldl (fun m k => Mem.wr size m (g k) v) m) := by
  induction l generalizing m with
  | nil => exact h
  | cons k r ih => exact ih _ (Mem.all_wr h hv)

theorem ok_fillTableLoop (e : FillEnv) (hl : ∀ l ∈ e.lens, l ≤ 15) (hr : e.root ≤ 9 ∨ ∀ l ∈ e.lens, l ≤ e.root) :
    ∀ fuel f, Fill.Ok e f → Mem.All Du.EntryOk (fillTableLoop e fuel f).1.codes
  | 0, _, h => h.codes
  | fuel + 1, f, h => by
    have h1 : Mem.All Du.EntryOk (f.replicate e).codes := by
      unfold Fill.replicate
      exact all_foldl_wr _ _ (Du.entryOk_tableEntry _ _ _ (by have := h.len; omega)) _ _ h.codes
    have e1 : (f.replicate e).len = f.len := rfl
    rw [fillTableLoop]
    generalize f.replicate e = f1 at h1 e1 ⊢
    extract_lets f3
    have h3 : Fill.Ok e f3 := by
      have hd : ∀ i, e.lens.getD i 0 ≤ 15 ∧ (e.root ≤ 9 ∨ e.lens.getD i 0 ≤ e.root) := by
        intro i
        rcases Nat.lt_or_ge i e.lens.length with hi | hi
        · have hm : e.lens.getD i 0 ∈ e.lens := by
            rw [List.getD_eq_getElem?_getD, List.getElem?_eq_getElem hi]; simp
          exact ⟨hl _ hm, hr.imp id fun h => h _ hm⟩
        · rw [List.getD_eq_default _ _ hi]; omega
      have hd' := hd (e.workAt (f1.sym + 1))
      have hl' := h.len
      have hr' := h.root
      rw [← e1] at hl' hr'
      show Fill.Ok e (if _ then _ else _)
      split
      · exact ⟨h1, hd'.1, hd'.2⟩
      · exact ⟨h1, hl', hr'⟩
    clear_value f3
    split
    · unfold Fill.finalFill
      split
      · exact Mem.all_wr h1 (Du.entryOk_plain (by have := h.len; show f1.len - _ ≤ 15; omega) (.inr (by norm_num)))
      · exact h1
    · split
      · rename_i hs
        have h4 : Fill.Ok e (f3.newSubTable e).1 := by
          unfold Fill.newSubTable
          extract_lets dr nx cu us g lo
          split
          · exact ⟨h3.codes, h3.len, h3.root⟩
          · refine ⟨Mem.all_wr h3.codes ?_, h3.len, h3.root⟩
            have hr9 : e.root ≤ 9 := by have := h3.root; omega
            exact ⟨by rw [entryBits_mkEntry]; omega, fun _ => by rw [entryBits_mkEntry]; omega⟩
        split
        · rename_i he; rw [he] at h4; exact h4.codes
        · rename_i he; rw [he] at h4; exact ok_fillTableLoop e hl hr fuel _ h4
      · exact ok_fillTableLoop e hl hr fuel _ h3

/-- The constructor writes entries of at most 15 bits, links of at most 9 (43_table_decoder_fastloop.md R270, R274), whatever it
returns. -/
theorem all_inflateTable (t : TableType) (lens : List Nat) (base bits : Nat) (codes : Mem Word32) (work : Mem Word16)
    (hb : bits ≤ 9) (hn : lens.length ≤ 288) (hl : ∀ l ∈ lens, l ≤ 15) (hc : Mem.All Du.EntryOk codes) :
    Mem.All Du.EntryOk (inflateTable t lens base bits codes work).codes := by
  unfold inflateTable
  extract_lets count max e min root work1 used env
  have hmax : max ≤ 15 := maxUsed_le _ _
  split
  · exact Mem.all_wr (Mem.all_wr hc (Du.entryOk_plain (by omega) (.inr (by norm_num))))
      (Du.entryOk_plain (by omega) (.inr (by norm_num)))
  · rename_i hm
    have hmin : min ≤ max := minUsed_le _ _ _ _ (by omega)
    have hlm : ∀ l ∈ lens, l ≤ max := by
      intro l hl'
      by_contra hc'
      have h0 := maxUsed_spec count 15 l (by show max < l; omega) (hl l hl')
      rw [getD_countLens lens (by have := hl l hl'; omega)] at h0
      exact absurd (List.count_pos_iff.2 hl') (by omega)
    split
    · exact hc
    · rename_i left hleft
      split
      · exact hc
      · rename_i hinc
        split
        · exact hc
        · have hroot : root ≤ 9 ∨ ∀ l ∈ lens, l ≤ root := by
            by_cases h1 : 1 < max
            · left
              by_contra hr
              have hpos := leftover_pos count left hleft ?_ ?_
              · exact hinc ⟨hpos, .inr (by omega)⟩
              · intro l h1 h2
                refine minUsed_spec count max Config.maxBits 1 l h1 ?_
                show l < min
                have : root = Nat.max (Nat.min bits max) min := rfl
                have h3 : root ≤ Nat.max bits min := by
                  rw [this]; exact Nat.max_le.2 ⟨le_trans (Nat.min_le_left _ _) (Nat.le_max_left _ _), Nat.le_max_right _ _⟩
                have h4 : Nat.max bits min = bits ∨ Nat.max bits min = min := by
                  rcases Nat.le_total bits min with h | h
                  · right; exact Nat.max_eq_right h
                  · left; exact Nat.max_eq_left h
                omega
              · have := count_sum_le lens
                rw [getD_countLens _ (by omega), getD_countLens _ (by omega), getD_countLens _ (by omega),
                  getD_countLens _ (by omega), getD_countLens _ (by omega), getD_countLens _ (by omega)]
                omega
            · right
              intro l hl'
              have h2 := hlm l hl'
              have h3 : 1 ≤ min := le_minUsed _ _ _ _
              have h4 : min ≤ root := Nat.le_max_right _ _
              omega
          exact ok_fillTableLoop ⟨t, lens, sortSymbols lens count work, base, root, max⟩ hl hroot lens.length
            { codes := codes, count := count, huff := 0, sym := 0, len := min, next := base, curr := root, drop := 0,
              low := -1, used := 2 ^ root, size := 0 } ⟨hc, by show min ≤ 15; omega, .inr (Nat.le_max_right _ _)⟩

namespace Du

/-! ## The ranges, entry by entry -/

/-- `Du.Ranges` without the clause on `MODE`, over the listed entries of the memories. -/
structure Core (d : Du) : Prop where
  hold   : d.hold.toNat < 2 ^ d.bits
  bits   : d.bits ≤ 32
  extra  : d.extra ≤ 15
  counts : d.nlen ≤ 288 ∧ d.ndist ≤ 32
  lens   : Mem.All (fun l => l.toNat ≤ 15) d.lens
  codes  : Mem.All EntryOk d.codes

/-- The clause on `MODE`: whole bytes in the states that fetch 32 bits at once. -/
def Whole (d : Du) : Prop := d.mode ∈ [.time, .dictid, .check, .length] → d.bits % 8 = 0

/-- `Du.Ranges` over the listed entries. -/
def Bounded (d : Du) : Prop := d.Core ∧ d.Whole

theorem Ranges.bounded {d : Du} (h : d.Ranges) (hm : d.MemWf) : d.Bounded :=
  ⟨⟨h.hold, h.bits, h.extra, h.counts, Mem.all_of_rd hm.lens h.lens, Mem.all_of_rd hm.codes h.codes⟩, h.whole⟩

theorem Core.lensAt {d : Du} (h : d.Core) (i : Nat) : d.lensAt i ≤ 15 := Mem.rd_all h.lens (by decide) i
theorem Core.codeAt {d : Du} (h : d.Core) (i : Nat) : EntryOk (d.codeAt i) := Mem.rd_all h.codes entryOk_default i

theorem Bounded.ranges {d : Du} (h : d.Bounded) : d.Ranges :=
  ⟨h.1.hold, h.1.bits, h.2, h.1.extra, h.1.counts, h.1.lensAt, h.1.codeAt⟩

/-- A state whose `MODE` fetches no 32 bits at once. -/
theorem Core.bounded {d : Du} (h : d.Core) (hm : d.mode ∉ [Mode.time, .dictid, .check, .length]) : d.Bounded :=
  ⟨h, fun hm' => absurd hm' hm⟩

/-- The entries of the table a reference selects. -/
theorem Core.tableAt {d : Du} (h : d.Core) (r : TableRef) (i : Nat) : EntryOk (d.tableAt r i) := by
  unfold Du.tableAt
  split
  · exact h.codeAt _
  · have : ∀ n, (fixedLlSymbol n).2 ≤ 15 := by
      intro n
      unfold fixedLlSymbol
      dsimp only
      split_ifs <;> simp
    exact entryOk_tableEntry .lens _ _ (this _)
  · exact entryOk_tableEntry .dists _ 5 (by omega)

/-! ## Primitives -/

/-- The registers outside the bit accumulator and the memories are free but for `EXTRA` and the counts. -/
theorem Core.regs {d e : Du} (h : d.Core) (h1 : e.hold = d.hold) (h2 : e.bits = d.bits) (h3 : e.extra ≤ 15)
    (h4 : e.nlen ≤ 288 ∧ e.ndist ≤ 32) (h5 : e.lens = d.lens) (h6 : e.codes = d.codes) : e.Core :=
  ⟨by rw [h1, h2]; exact h.hold, by rw [h2]; exact h.bits, h3, h4, by rw [h5]; exact h.lens, by rw [h6]; exact h.codes⟩

theorem core_drop (n : Nat) {d : Du} (h : d.Core) : (d.drop n).Core := by
  refine ⟨?_, by have := h.bits; show d.bits - n ≤ 32; omega, h.extra, h.counts, h.lens, h.codes⟩
  show (d.hold >>> n).toNat < 2 ^ (d.bits - n)
  rw [BitVec.toNat_ushiftRight, Nat.shiftRight_eq_div_pow, Nat.div_lt_iff_lt_mul (Nat.two_pow_pos n), ← Nat.pow_add]
  exact lt_of_lt_of_le h.hold (Nat.pow_le_pow_right (by omega) (by omega))

theorem core_initbits {d : Du} (h : d.Core) : d.initbits.Core :=
  ⟨by simp [initbits], by simp [initbits], h.extra, h.counts, h.lens, h.codes⟩

theorem core_fetch {d : Du} (h : d.Core) (hb : d.bits ≤ 24) : d.fetch.Core := by
  refine ⟨?_, by show d.bits + 8 ≤ 32; omega, h.extra, h.counts, h.lens, h.codes⟩
  have h1 := h.hold
  have h2 := d.cur.peekByte.isLt
  have h3 : 2 ^ d.bits ≤ 2 ^ 24 := Nat.pow_le_pow_right (by omega) hb
  have h4 : 2 ^ d.bits * d.cur.peekByte.toNat ≤ 2 ^ 24 * 255 := Nat.mul_le_mul h3 (by omega)
  have h5 : d.cur.peekByte.toNat <<< d.bits % 2 ^ 32 = 2 ^ d.bits * d.cur.peekByte.toNat := by
    rw [Nat.shiftLeft_eq, Nat.mul_comm, Nat.mod_eq_of_lt (by omega)]
  have h6 : 2 ^ d.bits * d.cur.peekByte.toNat ≤ 2 ^ d.bits * 255 := Nat.mul_le_mul_left _ (by omega)
  show (d.hold + ((d.cur.peekByte.setWidth 32) <<< d.bits)).toNat < 2 ^ (d.bits + 8)
  simp only [BitVec.toNat_add, BitVec.toNat_shiftLeft, BitVec.toNat_setWidth]
  rw [Nat.mod_eq_of_lt (show d.cur.peekByte.toNat < 2 ^ 32 by omega), h5, Nat.mod_eq_of_lt (by omega), Nat.pow_add]
  omega

/-- What `need` leaves: the registers in range, `MODE` and whole bytes as they were. -/
structure Fetched (d e : Du) : Prop where
  core : e.Core
  mode : e.mode = d.mode
  mod  : e.bits % 8 = d.bits % 8

theorem Fetched.trans {a b c : Du} (h : a.Fetched b) (k : b.Fetched c) : a.Fetched c :=
  ⟨k.core, k.mode.trans h.mode, k.mod.trans h.mod⟩

theorem Fetched.bounded {d e : Du} (h : d.Fetched e) (hd : d.Bounded) : e.Bounded :=
  ⟨h.core, fun hm => by rw [h.mod]; exact hd.2 (by rw [← h.mode]; exact hm)⟩

theorem fetched_pull {d : Du} (h : d.Core) (hb : d.bits ≤ 24) : d.Fetched d.pull := by
  unfold pull
  split
  · exact ⟨h.regs rfl rfl h.extra h.counts rfl rfl, rfl, rfl⟩
  · exact ⟨core_fetch h hb, rfl, by show (d.bits + 8) % 8 = _; omega⟩

/-- At most 25 bits, or at most 32 from a whole byte, are fetched within 32. -/
def CanNeed (n : Nat) (d : Du) : Prop := n ≤ 25 ∨ n ≤ 32 ∧ d.bits % 8 = 0

theorem fetched_needLoop (n : Nat) : ∀ fuel {d : Du}, d.Core → d.CanNeed n → d.Fetched (needLoop fuel n d)
  | 0, d, h, _ => ⟨h, rfl, rfl⟩
  | fuel + 1, d, h, hn => by
    rw [needLoop]
    split
    · have hb : d.bits ≤ 24 := by rcases hn with hn | hn <;> omega
      have h1 := fetched_pull h hb
      unfold andThen
      split
      · exact h1.trans (fetched_needLoop n fuel h1.core (hn.imp id fun h => ⟨h.1, by rw [h1.mod]; exact h.2⟩))
      · exact h1
    · exact ⟨h, rfl, rfl⟩

/-- `need(n)` and the rest of the rule: the rest sees the registers in range. -/
theorem bounded_needThen {n : Nat} {d : Du} {k : Du → Du} (h : d.Bounded) (hn : d.CanNeed n)
    (hk : ∀ e, d.Fetched e → (k e).Bounded) : (d.needThen n k).Bounded := by
  have h1 := fetched_needLoop n n h.1 hn
  unfold needThen andThen
  split
  · exact hk _ h1
  · exact h1.bounded h

theorem core_bad (m : Msg) {d : Du} (h : d.Core) : (d.bad m).Core := h.regs rfl rfl h.extra h.counts rfl rfl
theorem bounded_bad (m : Msg) {d : Du} (h : d.Core) : (d.bad m).Bounded := (core_bad m h).bounded (by simp [bad])

theorem core_setLens (i v : Nat) (hv : v ≤ 15) {d : Du} (h : d.Core) : (d.setLens i v).Core :=
  ⟨h.hold, h.bits, h.extra, h.counts, Mem.all_wr h.lens (by simp [word16Of]; omega), h.codes⟩

/-- The registers in range, in a state that fetches no 32 bits at once. -/
structure Plain (d : Du) : Prop where
  core : d.Core
  mode : d.mode ∉ [Mode.time, .dictid, .check, .length]

theorem Plain.bounded {d : Du} (h : d.Plain) : d.Bounded := h.core.bounded h.mode

theorem Plain.regs {d e : Du} (h : d.Plain) (h0 : e.mode ∉ [Mode.time, .dictid, .check, .length]) (h1 : e.hold = d.hold)
    (h2 : e.bits = d.bits) (h3 : e.extra ≤ 15) (h4 : e.nlen ≤ 288 ∧ e.ndist ≤ 32) (h5 : e.lens = d.lens)
    (h6 : e.codes = d.codes) : e.Plain := ⟨h.core.regs h1 h2 h3 h4 h5 h6, h0⟩

theorem Fetched.plain {d e : Du} (h : d.Fetched e) (hd : d.Plain) : e.Plain := ⟨h.core, by rw [h.mode]; exact hd.mode⟩

theorem plain_suspend {d : Du} (h : d.Plain) : d.suspend.Plain := h.regs h.mode rfl rfl h.core.extra h.core.counts rfl rfl
theorem plain_bad (m : Msg) {d : Du} (h : d.Core) : (d.bad m).Plain := ⟨core_bad m h, by simp [bad]⟩
theorem plain_drop (n : Nat) {d : Du} (h : d.Plain) : (d.drop n).Plain := ⟨core_drop n h.core, h.mode⟩
theorem plain_outPut (b : Byte) {d : Du} (h : d.Plain) : (d.outPut b).Plain :=
  h.regs h.mode rfl rfl h.core.extra h.core.counts rfl rfl
theorem plain_setLens (i v : Nat) (hv : v ≤ 15) {d : Du} (h : d.Plain) : (d.setLens i v).Plain := ⟨core_setLens i v hv h.core, h.mode⟩
theorem plain_fetch {d : Du} (h : d.Plain) (hb : d.bits ≤ 24) : d.fetch.Plain := ⟨core_fetch h.core hb, h.mode⟩

theorem plain_ite {p : Prop} [Decidable p] {a b : Du} (ha : p → a.Plain) (hb : ¬ p → b.Plain) : (if p then a else b).Plain := by
  split
  · exact ha ‹_›
  · exact hb ‹_›

theorem plain_forRange {lo n : Nat} {f : Nat → Du → Du} (hf : ∀ i {d}, Plain d → (f i d).Plain) {d : Du} (h : d.Plain) :
    (forRange lo n f d).Plain := forRange_induction Plain lo n f (fun i _ h => hf i h) d h

theorem plain_needThen {n : Nat} {d : Du} {k : Du → Du} (h : d.Plain) (hn : n ≤ 25) (hk : ∀ {e}, Plain e → (k e).Plain) :
    (d.needThen n k).Plain := by
  have h1 := (fetched_needLoop n n h.core (.inl hn)).plain h
  unfold needThen andThen
  split
  · exact hk h1
  · exact h1

/-! ## Lookup -/

/-- The lookup loop: an entry of at most 25 bits is completed within 32, and the rest of the rule sees the registers in range. -/
theorem plain_withEntry {entry : Du → Word32} {needed : Word32 → Nat} {k : Word32 → Du → Du}
    (hn : ∀ d, Core d → needed (entry d) ≤ 25) (hk : ∀ {d}, Plain d → (k (entry d) d).Plain) {d : Du} (h : d.Plain) :
    (withEntry entry needed k d).Plain := by
  have : ∀ fuel {d : Du}, d.Plain → (entryLoop entry needed k fuel d).Plain := by
    intro fuel
    induction fuel with
    | zero => exact fun h => plain_suspend h
    | succ fuel ih =>
      intro d h
      rw [entryLoop]
      refine plain_ite (fun _ => hk h) fun hb => ?_
      have h1 := (fetched_pull h.core (by have := hn d h.core; omega)).plain h
      exact plain_ite (fun _ => ih h1) (fun _ => h1)
  exact this _ h

theorem plain_viaLink (r : TableRef) {last : Word32} (k : Word32 → Du → Du) (hl : entryBits last ≤ 9)
    (hk : ∀ e {d}, EntryOk e → Plain d → (k e d).Plain) {d : Du} (h : d.Plain) : (d.viaLink r last k).Plain := by
  unfold viaLink
  refine plain_withEntry (fun x hx => ?_) (fun {x} hx => ?_) h
  rotate_left
  · exact hk _ (hx.core.tableAt ..) (plain_drop (entryBits last) hx)
  have := (hx.tableAt r (entryVal last + x.peek (entryBits last + entryOp last) / 2 ^ entryBits last)).1
  omega

theorem plain_decodeEntry (r : TableRef) (width : Nat) (k : Word32 → Du → Du)
    (hk : ∀ e {d}, EntryOk e → Plain d → (k e d).Plain) {d : Du} (h : d.Plain) : (d.decodeEntry r width k).Plain := by
  unfold decodeEntry
  refine plain_withEntry (fun e he => by have := (he.tableAt r (e.peek width)).1; omega) (fun {e} he => ?_) h
  have ho := he.core.tableAt r (e.peek width)
  exact plain_ite (fun hl => plain_viaLink r k (ho.2 hl) hk he) (fun _ => hk _ ho he)

/-! ## Symbols (44_inflate_engine.md R324 to R329) -/

theorem plain_copyMatch (k n : Nat) {d : Du} (h : d.Plain) : (d.copyMatch k n).Plain :=
  plain_forRange (fun _ {d} h => plain_outPut (d.hist k) h) h

theorem plain_ruleLit {d : Du} (h : d.Plain) : d.ruleLit.Plain := by
  unfold ruleLit
  exact plain_ite (fun _ => plain_suspend h) fun _ =>
    (plain_outPut (byteOf d.length) h).regs (by simp) rfl rfl h.core.extra h.core.counts rfl rfl

theorem plain_ruleLenext {d : Du} (h : d.Plain) : d.ruleLenext.Plain := by
  unfold ruleLenext
  exact plain_needThen h (by have := h.core.extra; omega) fun {e} he =>
    (plain_drop e.extra he).regs (by simp) rfl rfl he.core.extra he.core.counts rfl rfl

theorem plain_ruleMatch {d : Du} (h : d.Plain) : d.ruleMatch.Plain := by
  unfold ruleMatch
  refine plain_ite (fun _ => plain_suspend h) fun _ => plain_ite (fun _ => plain_bad _ h.core) fun _ => ?_
  have h1 := plain_copyMatch d.offset (min d.length d.cur.availOut) h
  refine h1.regs ?_ rfl rfl h1.core.extra h1.core.counts rfl rfl
  show (if _ then _ else _) ∉ _
  split
  · simp
  · exact h.mode

theorem plain_ruleDistext {d : Du} (h : d.Plain) : d.ruleDistext.Plain := by
  unfold ruleDistext
  exact plain_needThen h (by have := h.core.extra; omega) fun {e} he =>
    plain_ruleMatch ((plain_drop e.extra he).regs (by simp) rfl rfl he.core.extra he.core.counts rfl rfl)

theorem plain_symLit (b : Nat) {d : Du} (h : d.Plain) : (d.symLit b).Plain :=
  plain_ruleLit (h.regs (by simp) rfl rfl h.core.extra h.core.counts rfl rfl)
theorem plain_symLen (b x : Nat) (hx : x ≤ 15) {d : Du} (h : d.Plain) : (d.symLen b x).Plain :=
  plain_ruleLenext (h.regs (by simp) rfl rfl hx h.core.counts rfl rfl)
theorem plain_symDist (b x : Nat) (hx : x ≤ 15) {d : Du} (h : d.Plain) : (d.symDist b x).Plain :=
  plain_ruleDistext (h.regs (by simp) rfl rfl hx h.core.counts rfl rfl)

theorem plain_applyLl (e : Word32) {d : Du} (h : d.Plain) : (d.applyLl e).Plain := by
  unfold applyLl
  have h1 := plain_drop (entryBits e) h
  exact plain_ite (fun _ => plain_symLit _ h1) fun _ => plain_ite
    (fun _ => h1.regs (by simp) rfl rfl h1.core.extra h1.core.counts rfl rfl) fun _ => plain_ite
    (fun _ => h1.regs (by simp [bad]) rfl rfl h1.core.extra h1.core.counts rfl rfl) fun _ => plain_symLen _ _ (by omega) h1

theorem plain_applyDist (e : Word32) {d : Du} (h : d.Plain) : (d.applyDist e).Plain := by
  unfold applyDist
  have h1 := plain_drop (entryBits e) h
  exact plain_ite (fun _ => plain_bad _ h1.core) fun _ => plain_symDist _ _ (by omega) h1

/-! ## Code lengths (44_inflate_engine.md R322, R323) -/

theorem plain_pushLen (l : Nat) (hl : l ≤ 15) {d : Du} (h : d.Plain) : (d.pushLen l).Plain :=
  (plain_setLens d.haveCount l hl h).regs h.mode rfl rfl h.core.extra h.core.counts rfl rfl

theorem plain_repeatLen (l n : Nat) (hl : l ≤ 15) {d : Du} (h : d.Plain) : (d.repeatLen l n).Plain :=
  plain_ite (fun _ => plain_bad _ h.core) fun _ => plain_forRange (fun _ {_} h => plain_pushLen l hl h) h

theorem plain_applyCl (e : Word32) (he : EntryOk e) {d : Du} (h : d.Plain) : (d.applyCl e).Plain := by
  have hb := he.1
  have hz : ∀ b w, w ≤ 7 → (d.clZeros (entryBits e) b w).Plain := fun b w hw =>
    plain_needThen h (by omega) fun {x} hx => plain_repeatLen _ _ (by omega) (plain_drop _ (plain_drop _ hx))
  unfold applyCl
  refine plain_ite (fun hv => plain_pushLen _ (by omega) (plain_drop _ h)) fun _ => plain_ite (fun _ => ?_) fun _ =>
    plain_ite (fun _ => hz 3 3 (by omega)) fun _ => hz 11 7 (by omega)
  refine plain_needThen h (by omega) fun {x} hx => ?_
  have h1 := plain_drop (entryBits e) hx
  exact plain_ite (fun _ => plain_bad _ h1.core) fun _ => plain_repeatLen _ _ (h1.core.lensAt _) (plain_drop _ h1)

theorem length_lensRange (d : Du) (a n : Nat) : (d.lensRange a n).length = n := by simp [lensRange]
theorem lensRange_le {d : Du} (h : d.Core) (a n : Nat) : ∀ l ∈ d.lensRange a n, l ≤ 15 := by
  intro l hl
  obtain ⟨i, -, rfl⟩ := List.mem_map.1 hl
  exact h.lensAt i

/-- The memories after a table was built in them. -/
theorem plain_built (t : TableType) (a n base bits : Nat) (hb : bits ≤ 9) (hn : n ≤ 288) {d e : Du} (h : d.Plain)
    (h0 : e.mode ∉ [Mode.time, .dictid, .check, .length]) (h1 : e.hold = d.hold) (h2 : e.bits = d.bits) (h3 : e.extra ≤ 15)
    (h4 : e.nlen ≤ 288 ∧ e.ndist ≤ 32) (h5 : e.lens = d.lens)
    (h6 : e.codes = (inflateTable t (d.lensRange a n) base bits d.codes d.work).codes) : e.Plain := by
  refine ⟨⟨by rw [h1, h2]; exact h.core.hold, by rw [h2]; exact h.core.bits, h3, h4, by rw [h5]; exact h.core.lens, ?_⟩, h0⟩
  rw [h6]
  exact all_inflateTable _ _ _ _ _ _ hb (by rw [length_lensRange]; exact hn) (lensRange_le h.core a n) h.core.codes

theorem plain_buildTables {d : Du} (h : d.Plain) : d.buildTables.Plain := by
  have hc := h.core.counts
  unfold buildTables
  refine plain_ite (fun _ => plain_bad _ h.core) fun _ => ?_
  extract_lets l d1 t d2
  have h1 : d1.Plain := plain_built .lens 0 d.nlen 0 9 (by omega) hc.1 h h.mode rfl rfl h.core.extra hc rfl rfl
  have h2 : d2.Plain := plain_built .dists d1.nlen d1.ndist l.used 6 (by omega) (by have := h1.core.counts; omega) h1 h1.mode rfl
    rfl h1.core.extra h1.core.counts rfl rfl
  exact plain_ite (fun _ => plain_bad _ h1.core) fun _ => plain_ite (fun _ => plain_bad _ h2.core) fun _ =>
    h2.regs (by simp) rfl rfl h2.core.extra h2.core.counts rfl rfl

theorem plain_storeClLen (v : Nat) (hv : v ≤ 15) {d : Du} (h : d.Plain) : (d.storeClLen v).Plain :=
  (plain_drop 3 (plain_setLens (clOrder d.haveCount) v hv h)).regs h.mode rfl rfl h.core.extra h.core.counts rfl rfl

theorem plain_buildClTable {d : Du} (h : d.Plain) : d.buildClTable.Plain := by
  unfold buildClTable
  extract_lets d1 t d2
  have h1 : d1.Plain := plain_forRange (fun i {_} h => plain_setLens (clOrder i) 0 (by omega) h) h
  clear_value d1
  have ht : t = inflateTable .codes (d1.lensRange 0 Config.blCodes) 0 7 d1.codes d1.work := rfl
  clear_value t
  have h2 : d2.Plain := by
    refine plain_built (d := d1) .codes 0 Config.blCodes 0 7 (by omega) (by decide) h1 h1.mode ?_ ?_ h1.core.extra h1.core.counts ?_ ?_
    · rfl
    · rfl
    · rfl
    · rw [← ht]
  clear_value d2
  exact plain_ite (fun _ => plain_bad _ h2.core) fun _ => h2.regs (by simp) rfl rfl h2.core.extra h2.core.counts rfl rfl

/-! ## The fast loop (43_table_decoder_fastloop.md R281, R285) -/

theorem plain_fetch15 {d : Du} (h : d.Plain) : d.fetch15.Plain :=
  plain_ite (fun hb => plain_fetch (plain_fetch h (by omega)) (by show d.bits + 8 ≤ 24; omega)) fun _ => h
theorem plain_fetchIf (n : Nat) (hn : n ≤ 15) {d : Du} (h : d.Plain) : (d.fetchIf n).Plain :=
  plain_ite (fun _ => plain_fetch h (by omega)) fun _ => h

theorem plain_fastResolve (r : TableRef) (link : Nat → Bool) : ∀ fuel e {d : Du}, d.Plain → (fastResolve r link fuel e d).2.Plain
  | 0, e, _, h => plain_drop _ h
  | fuel + 1, e, d, h => by
    rw [fastResolve]
    split
    · exact plain_fastResolve r link fuel _ (plain_drop _ h)
    · exact plain_drop _ h

theorem plain_fastDist (n : Nat) {d : Du} (h : d.Plain) : (d.fastDist n).1.Plain := by
  have h1 := plain_fetch15 h
  unfold fastDist
  generalize d.fetch15 = d1 at h1 ⊢
  simp only
  have h2 := plain_fastResolve d1.distcode linkDist 2 (d1.tableAt d1.distcode (d1.peek d1.distbits)) h1
  generalize fastResolve d1.distcode linkDist 2 (d1.tableAt d1.distcode (d1.peek d1.distbits)) d1 = p at h2 ⊢
  split
  · have h3 := plain_drop (entryOp p.1 % 16)
      (plain_fetchIf (entryOp p.1 % 16) (by omega) (plain_fetchIf (entryOp p.1 % 16) (by omega) h2))
    split
    · exact plain_bad _ h3.core
    · exact plain_copyMatch _ _ h3
  · exact plain_bad _ h2.core

theorem plain_fastRound {d : Du} (h : d.Plain) : d.fastRound.1.Plain := by
  have h1 := plain_fetch15 h
  unfold fastRound
  generalize d.fetch15 = d1 at h1 ⊢
  simp only
  have h2 := plain_fastResolve d1.lencode linkLl 2 (d1.tableAt d1.lencode (d1.peek d1.lenbits)) h1
  generalize fastResolve d1.lencode linkLl 2 (d1.tableAt d1.lencode (d1.peek d1.lenbits)) d1 = p at h2 ⊢
  split
  · exact plain_outPut _ h2
  · split
    · exact plain_fastDist _ (plain_drop _ (plain_fetchIf (entryOp p.1 % 16) (by omega) h2))
    · split
      · exact h2.regs (by simp) rfl rfl h2.core.extra h2.core.counts rfl rfl
      · exact plain_bad _ h2.core

theorem plain_fastLoop : ∀ fuel {d : Du}, d.Plain → (fastLoop fuel d).Plain
  | 0, _, h => h
  | fuel + 1, d, h => by
    have h1 := plain_fastRound h
    rw [fastLoop]
    split
    · rename_i he; rw [he] at h1; exact h1
    · rename_i he
      rw [he] at h1
      exact plain_ite (fun _ => plain_fastLoop fuel h1) fun _ => h1

theorem plain_returnUnused {d : Du} (h : d.Plain) : d.returnUnused.Plain := by
  have hb := h.core.bits
  refine ⟨⟨?_, ?_, h.core.extra, h.core.counts, h.core.lens, h.core.codes⟩, h.mode⟩
  · show (d.hold &&& word32Of (2 ^ (d.bits - 8 * (d.bits / 8)) - 1)).toNat < 2 ^ (d.bits - 8 * (d.bits / 8))
    have h8 : 2 ^ (d.bits - 8 * (d.bits / 8)) ≤ 2 ^ 8 := Nat.pow_le_pow_right (by omega) (by omega)
    have hp := Nat.two_pow_pos (d.bits - 8 * (d.bits / 8))
    have h1 : (word32Of (2 ^ (d.bits - 8 * (d.bits / 8)) - 1)).toNat = 2 ^ (d.bits - 8 * (d.bits / 8)) - 1 := by
      rw [word32Of, BitVec.toNat_ofNat, Nat.mod_eq_of_lt (by omega)]
    rw [BitVec.toNat_and, h1]
    exact lt_of_le_of_lt Nat.and_le_right (by omega)
  · show d.bits - 8 * (d.bits / 8) ≤ 32; omega

theorem plain_inflateFast {d : Du} (h : d.Plain) : d.inflateFast.Plain := plain_returnUnused (plain_fastLoop _ h)

/-! ## The header states (44_inflate_engine.md R303 to R317) -/

theorem core_headerCrc (b : List Byte) {d : Du} (h : d.Core) : (d.headerCrc b).Core := by
  unfold headerCrc
  split
  · exact h.regs rfl rfl h.extra h.counts rfl rfl
  · exact h
theorem core_captureHdr (f : HdrRecord → HdrRecord) {d : Du} (h : d.Core) : (d.captureHdr f).Core := by
  unfold captureHdr
  split
  · exact h.regs rfl rfl h.extra h.counts rfl rfl
  · exact h
theorem mode_headerCrc (b : List Byte) (d : Du) : (d.headerCrc b).mode = d.mode := by unfold headerCrc; split <;> rfl
theorem mode_captureHdr (f : HdrRecord → HdrRecord) (d : Du) : (d.captureHdr f).mode = d.mode := by unfold captureHdr; split <;> rfl

theorem plain_headerCrc (b : List Byte) {d : Du} (h : d.Plain) : (d.headerCrc b).Plain :=
  ⟨core_headerCrc b h.core, by rw [mode_headerCrc]; exact h.mode⟩
theorem plain_captureHdr (f : HdrRecord → HdrRecord) {d : Du} (h : d.Plain) : (d.captureHdr f).Plain :=
  ⟨core_captureHdr f h.core, by rw [mode_captureHdr]; exact h.mode⟩

theorem bounded_regs {d e : Du} (h : d.Core) (h0 : e.mode ∉ [Mode.time, .dictid, .check, .length]) (h1 : e.hold = d.hold)
    (h2 : e.bits = d.bits) (h3 : e.extra ≤ 15) (h4 : e.nlen ≤ 288 ∧ e.ndist ≤ 32) (h5 : e.lens = d.lens)
    (h6 : e.codes = d.codes) : e.Bounded := (h.regs h1 h2 h3 h4 h5 h6).bounded h0

/-- After `initbits` every `MODE` is in order. -/
theorem bounded_initbits {d e : Du} (h : d.Core) (h1 : e.hold = 0) (h2 : e.bits = 0) (h3 : e.extra = d.extra)
    (h4 : e.nlen = d.nlen ∧ e.ndist = d.ndist) (h5 : e.lens = d.lens) (h6 : e.codes = d.codes) : e.Bounded :=
  ⟨⟨by rw [h1, h2]; decide, by omega, by rw [h3]; exact h.extra, by have := h.counts; omega, by rw [h5]; exact h.lens,
    by rw [h6]; exact h.codes⟩, fun _ => by rw [h2]⟩

theorem bounded_ite {p : Prop} [Decidable p] {a b : Du} (ha : p → a.Bounded) (hb : ¬ p → b.Bounded) :
    (if p then a else b).Bounded := by
  split
  · exact ha ‹_›
  · exact hb ‹_›

theorem bounded_fallInto {m : Mode} {k : Du → Du} {d : Du} (h : d.Bounded) (hk : d.mode = m → (k d).Bounded) :
    (d.fallInto m k).Bounded := bounded_ite (fun hm => hk hm.2) fun _ => h

theorem bounded_zlibCheck (w : Nat) {d : Du} (h : d.Core) : (d.zlibCheck w).Bounded := by
  unfold zlibCheck
  refine bounded_ite (fun _ => bounded_bad _ h) fun _ => bounded_ite (fun _ => bounded_bad _ h) fun _ => ?_
  have h1 := core_drop 4 h
  exact bounded_ite (fun _ => bounded_bad _ h1) fun _ => bounded_initbits h1 rfl rfl rfl ⟨rfl, rfl⟩ rfl rfl

theorem bounded_headWord (w : Nat) {d : Du} (h : d.Core) : (d.headWord w).Bounded := by
  unfold headWord
  refine bounded_ite (fun _ => bounded_initbits h rfl rfl rfl ⟨rfl, rfl⟩ rfl rfl) fun _ => bounded_zlibCheck w ?_
  exact core_captureHdr _ (h.regs rfl rfl h.extra h.counts rfl rfl)

theorem bounded_flagsWord (w : Word16) {d : Du} (h : d.Core) : (d.flagsWord w).Bounded := by
  have h1 : Core { d with flags := w } := h.regs rfl rfl h.extra h.counts rfl rfl
  unfold flagsWord
  generalize ({ d with flags := w } : Du) = d1 at h1 ⊢
  refine bounded_ite (fun _ => bounded_bad _ h1) fun _ => bounded_ite (fun _ => bounded_bad _ h1) fun _ => ?_
  have h2 := core_headerCrc (leBytes 2 w.toNat) (core_captureHdr (fun h => { h with text := w.getLsbD 8 }) h1)
  exact bounded_initbits h2 rfl rfl rfl ⟨rfl, rfl⟩ rfl rfl

theorem bounded_timeWord (w : Word32) {d : Du} (h : d.Core) : (d.timeWord w).Bounded :=
  bounded_initbits (core_headerCrc (leBytes 4 w.toNat) (core_captureHdr (fun h => { h with time := w }) h)) rfl rfl rfl ⟨rfl, rfl⟩
    rfl rfl
theorem bounded_osBytes (x o : Byte) {d : Du} (h : d.Core) : (d.osBytes x o).Bounded :=
  bounded_initbits (core_headerCrc [x, o] (core_captureHdr (fun h => { h with xflags := x, os := o }) h)) rfl rfl rfl ⟨rfl, rfl⟩
    rfl rfl

theorem bounded_ruleFlags {d : Du} (h : d.Bounded) : d.ruleFlags.Bounded :=
  bounded_needThen h (.inl (by omega)) fun _ he => bounded_flagsWord _ he.core
theorem bounded_ruleTime {d : Du} (h : d.Bounded) (hm : d.mode = .time) : d.ruleTime.Bounded :=
  bounded_needThen h (.inr ⟨by omega, h.2 (by simp [hm])⟩) fun _ he => bounded_timeWord _ he.core
theorem bounded_ruleOs {d : Du} (h : d.Bounded) : d.ruleOs.Bounded :=
  bounded_needThen h (.inl (by omega)) fun _ he => bounded_osBytes _ _ he.core

theorem bounded_ruleHead {d : Du} (h : d.Bounded) : d.ruleHead.Bounded := by
  unfold ruleHead
  refine bounded_ite (fun _ => bounded_regs h.1 (by simp) rfl rfl h.1.extra h.1.counts rfl rfl) fun _ => ?_
  have h1 : (d.needThen 16 fun d => d.headWord d.hold.toNat).Bounded :=
    bounded_needThen h (.inl (by omega)) fun _ he => bounded_headWord _ he.core
  have h2 := bounded_fallInto (m := .flags) (k := ruleFlags) h1 fun _ => bounded_ruleFlags h1
  have h3 := bounded_fallInto (m := .time) (k := ruleTime) h2 (bounded_ruleTime h2)
  exact bounded_fallInto (m := .os) (k := ruleOs) h3 fun _ => bounded_ruleOs h3

theorem plain_ruleExtra {d : Du} (h : d.Plain) : d.ruleExtra.Plain := by
  unfold ruleExtra
  refine plain_ite (fun _ => ?_) fun _ => h.regs (by simp) rfl rfl h.core.extra h.core.counts rfl rfl
  have h1 := plain_headerCrc (d.cur.nextBytes (min d.length d.cur.availIn)) (plain_captureHdr
    (fun r => { r with extra := r.extra ++ d.cur.nextBytes (min d.length d.cur.availIn) }) h)
  simp only
  generalize Du.headerCrc (d.cur.nextBytes (min d.length d.cur.availIn)) (d.captureHdr _) = d1 at h1 ⊢
  refine plain_ite (fun _ => ?_) fun _ => h1.regs (by simp) rfl rfl h1.core.extra h1.core.counts rfl rfl
  exact h1.regs h1.mode rfl rfl h1.core.extra h1.core.counts rfl rfl

theorem bounded_ruleExlen {d : Du} (h : d.Plain) : d.ruleExlen.Bounded := by
  unfold ruleExlen
  have h1 : (if d.flag 10 then d.needThen 16 fun d =>
        let w := d.hold.setWidth 16
        let d1 := Du.captureHdr (fun h => { h with extraPresent := true, extraLen := w, extra := [] })
          { d with length := w.toNat }
        { (d1.headerCrc (leBytes 2 w.toNat)).initbits with mode := .extra }
      else { d.captureHdr fun h => { h with extraPresent := false } with mode := .extra }).Bounded := by
    refine bounded_ite (fun _ => bounded_needThen h.bounded (.inl (by omega)) fun e he => ?_) fun _ => ?_
    · have h2 : Core { e with length := (e.hold.setWidth 16).toNat } := he.core.regs rfl rfl he.core.extra he.core.counts rfl rfl
      have h3 := core_headerCrc (leBytes 2 (e.hold.setWidth 16).toNat) (core_captureHdr
        (fun h => { h with extraPresent := true, extraLen := e.hold.setWidth 16, extra := [] }) h2)
      exact bounded_initbits h3 rfl rfl rfl ⟨rfl, rfl⟩ rfl rfl
    · have h2 := core_captureHdr (fun h => { h with extraPresent := false }) h.core
      exact bounded_regs h2 (by simp) rfl rfl h2.extra h2.counts rfl rfl
  exact bounded_fallInto h1 fun hm => (plain_ruleExtra ⟨h1.1, by rw [hm]; simp⟩).bounded

theorem plain_captureByte (c : Bool) (b : Byte) {d : Du} (h : d.Plain) : (d.captureByte c b).Plain := by
  unfold captureByte
  exact plain_ite (fun _ => h.regs h.mode rfl rfl h.core.extra h.core.counts rfl rfl) fun _ => h

theorem plain_fieldLoop (c : Bool) : ∀ fuel {d : Du}, d.Plain → (fieldLoop c fuel d).1.Plain
  | 0, _, h => h
  | fuel + 1, d, h => by
    have h0 : Plain { d with cur := d.cur.advance 1 } := h.regs h.mode rfl rfl h.core.extra h.core.counts rfl rfl
    have h1 := plain_captureByte c d.cur.peekByte (plain_headerCrc [d.cur.peekByte] h0)
    rw [fieldLoop]
    generalize Du.captureByte c d.cur.peekByte _ = d1 at h1 ⊢
    split
    · exact h1
    · exact plain_fieldLoop c fuel h1

theorem plain_fieldState (c : Bool) (k : Nat) (m : Mode) (hm : m ∉ [Mode.time, .dictid, .check, .length]) {d : Du} (h : d.Plain) :
    (d.fieldState c k m).Plain := by
  have h1 := plain_fieldLoop c d.cur.availIn h
  unfold fieldState
  split
  · split
    · rename_i he; rw [he] at h1; exact h1.regs hm rfl rfl h1.core.extra h1.core.counts rfl rfl
    · rename_i he; rw [he] at h1; exact plain_suspend h1
  · have h2 := plain_captureHdr (fun h => if c then { h with commentPresent := false } else { h with namePresent := false }) h
    exact h2.regs hm rfl rfl h2.core.extra h2.core.counts rfl rfl

theorem plain_headerDone {d : Du} (h : d.Core) : d.headerDone.Plain := by
  have h1 := core_captureHdr (fun r => { r with hcrc := d.flag 9, hdone := 1 }) h
  exact ⟨h1.regs rfl rfl h1.extra h1.counts rfl rfl, by simp [headerDone]⟩

theorem plain_ruleHcrc {d : Du} (h : d.Plain) : d.ruleHcrc.Plain :=
  plain_ite (fun _ => plain_needThen h (by omega) fun he => plain_ite (fun _ => plain_bad _ he.core) fun _ =>
    plain_headerDone (core_initbits he.core)) fun _ => plain_headerDone h.core

theorem plain_ruleDict {d : Du} (h : d.Plain) : d.ruleDict.Plain :=
  plain_ite (fun _ => h.regs h.mode rfl rfl h.core.extra h.core.counts rfl rfl) fun _ =>
    h.regs (by simp) rfl rfl h.core.extra h.core.counts rfl rfl

/-! ## The block states (44_inflate_engine.md R318 to R323) -/

theorem core_dropHeader (f : Bool) {d : Du} (h : d.Core) : (d.dropHeader f).Core :=
  core_drop 2 (core_drop 1 (h.regs (e := { d with last := f }) rfl rfl h.extra h.counts rfl rfl))

theorem bounded_ruleType {d : Du} (h : d.Plain) : d.ruleType.Bounded := by
  unfold ruleType
  refine bounded_ite (fun _ => ?_) fun _ => bounded_needThen h.bounded (.inl (by omega)) fun e he => ?_
  · have h1 := core_drop (d.bits % 8) h.core
    exact ⟨h1.regs rfl rfl h1.extra h1.counts rfl rfl, fun _ => by show (d.bits - d.bits % 8) % 8 = 0; omega⟩
  · simp only
    have h1 := core_dropHeader (e.hold.getLsbD 0) he.core
    split
    · exact bounded_regs h1 (by simp [blockStored]) rfl rfl h1.extra h1.counts rfl rfl
    · exact bounded_regs h1 (by simp [blockFixed]) rfl rfl h1.extra h1.counts rfl rfl
    · exact bounded_regs h1 (by simp [blockDynamic]) rfl rfl h1.extra h1.counts rfl rfl
    · exact bounded_bad _ h1

theorem bounded_ruleStored {d : Du} (h : d.Plain) : d.ruleStored.Bounded := by
  have h1 : d.bytebits.Plain := plain_drop _ h
  refine bounded_needThen h1.bounded (.inr ⟨by omega, by show (d.bits - d.bits % 8) % 8 = 0; omega⟩) fun e he => ?_
  exact bounded_ite (fun _ => bounded_bad _ he.core) fun _ => bounded_initbits he.core rfl rfl rfl ⟨rfl, rfl⟩ rfl rfl

theorem plain_ruleCopy {d : Du} (h : d.Plain) : d.ruleCopy.Plain := by
  unfold ruleCopy
  refine plain_ite (fun _ => plain_ite (fun _ => plain_suspend h) fun _ => ?_) fun _ =>
    h.regs (by simp) rfl rfl h.core.extra h.core.counts rfl rfl
  have h1 := plain_forRange (lo := 0) (n := min d.length (min d.cur.availIn d.cur.availOut)) (f := fun _ d => d.copyByte)
    (fun _ {d} h => h.regs (e := d.copyByte) h.mode rfl rfl h.core.extra h.core.counts rfl rfl) h
  exact h1.regs h1.mode rfl rfl h1.core.extra h1.core.counts rfl rfl

theorem plain_ruleTable {d : Du} (h : d.Plain) : d.ruleTable.Plain := by
  unfold ruleTable
  refine plain_needThen h (by omega) fun {e} he => ?_
  have h5 : e.peek 5 < 32 := Nat.mod_lt _ (by norm_num)
  have h10 : e.peek 10 / 2 ^ 5 < 32 := by have : e.peek 10 < 1024 := Nat.mod_lt _ (by norm_num); omega
  unfold dynamicCounts
  generalize e.peek 5 = a at h5 ⊢
  generalize e.peek 10 / 2 ^ 5 = b at h10 ⊢
  generalize e.peek 14 / 2 ^ 10 = c
  extract_lets d1 d2
  have hc := he.core.counts
  have h1 : d1.Core := core_drop 5 (core_drop 5 (he.core.regs (e := { e with nlen := a + 257 }) rfl rfl he.core.extra
    ⟨by show a + 257 ≤ 288; omega, hc.2⟩ rfl rfl))
  have hc1 := h1.counts
  have h2 : d2.Core := core_drop 4 (h1.regs (e := { d1 with ndist := b + 1, ncode := c + 4 }) rfl rfl h1.extra
    ⟨hc1.1, by show b + 1 ≤ 32; omega⟩ rfl rfl)
  exact plain_ite (fun _ => plain_bad _ h2) fun _ => ⟨h2.regs rfl rfl h2.extra h2.counts rfl rfl, by simp⟩

theorem plain_ruleLenlens {d : Du} (h : d.Plain) : d.ruleLenlens.Plain :=
  plain_ite (fun _ => plain_needThen h (by omega) fun {e} he => plain_storeClLen _
    (by have : e.peek 3 < 8 := Nat.mod_lt _ (by norm_num); omega) he) fun _ => plain_buildClTable h

theorem plain_ruleCodelens {d : Du} (h : d.Plain) : d.ruleCodelens.Plain := by
  unfold ruleCodelens
  refine plain_ite (fun _ => ?_) fun _ => plain_buildTables h
  refine plain_withEntry (fun e he => by have := (he.codeAt (e.peek e.lenbits)).1; omega) (fun {e} he => ?_) h
  exact plain_applyCl _ (he.core.codeAt _) he

theorem plain_ruleLen {d : Du} (h : d.Plain) : d.ruleLen.Plain :=
  plain_ite (fun _ => plain_inflateFast h) fun _ => plain_decodeEntry _ _ _ (fun e {_} _ h => plain_applyLl e h) h
theorem plain_ruleDist {d : Du} (h : d.Plain) : d.ruleDist.Plain :=
  plain_decodeEntry _ _ _ (fun e {_} _ h => plain_applyDist e h) h

/-! ## The trailer states (44_inflate_engine.md R330, R331) -/

theorem core_syncCheck {d : Du} (h : d.Core) : d.syncCheck.Core := by
  unfold syncCheck
  simp only
  split
  · exact h.regs rfl rfl h.extra h.counts rfl rfl
  · exact h.regs rfl rfl h.extra h.counts rfl rfl

theorem bounded_ruleCheck {d : Du} (h : d.Bounded) (hm : d.mode = .check) : d.ruleCheck.Bounded := by
  have hw := h.2 (by simp [hm])
  unfold ruleCheck
  refine bounded_ite (fun _ => bounded_needThen h (.inr ⟨by omega, hw⟩) fun e he => ?_) fun _ =>
    ⟨h.1.regs rfl rfl h.1.extra h.1.counts rfl rfl, fun _ => hw⟩
  have h1 := core_syncCheck he.core
  exact bounded_ite (fun _ => bounded_bad _ h1) fun _ => bounded_initbits h1 rfl rfl rfl ⟨rfl, rfl⟩ rfl rfl

theorem bounded_ruleLength {d : Du} (h : d.Bounded) (hm : d.mode = .length) : d.ruleLength.Bounded := by
  unfold ruleLength
  refine bounded_ite (fun _ => bounded_needThen h (.inr ⟨by omega, h.2 (by simp [hm])⟩) fun e he => ?_) fun _ =>
    bounded_regs h.1 (by simp) rfl rfl h.1.extra h.1.counts rfl rfl
  exact bounded_ite (fun _ => bounded_bad _ he.core) fun _ => bounded_initbits he.core rfl rfl rfl ⟨rfl, rfl⟩ rfl rfl

/-- Every round of the state loop keeps the registers in range. -/
theorem bounded_rule {d : Du} (h : d.Bounded) : d.rule.Bounded := by
  have hp : ∀ m, d.mode = m → m ∉ [Mode.time, .dictid, .check, .length] → d.Plain := fun m hm hn => ⟨h.1, by rw [hm]; exact hn⟩
  have hs : ∀ c, Bounded { d with ctl := c } := fun c => ⟨h.1.regs rfl rfl h.1.extra h.1.counts rfl rfl, h.2⟩
  unfold rule
  split <;> rename_i hm
  · exact bounded_ruleHead h
  · exact bounded_ruleFlags h
  · exact bounded_ruleTime h hm
  · exact bounded_ruleOs h
  · exact bounded_ruleExlen (hp _ hm (by simp))
  · exact (plain_ruleExtra (hp _ hm (by simp))).bounded
  · exact (plain_fieldState _ _ _ (by simp) (hp _ hm (by simp))).bounded
  · exact (plain_fieldState _ _ _ (by simp) (hp _ hm (by simp))).bounded
  · exact (plain_ruleHcrc (hp _ hm (by simp))).bounded
  · exact bounded_needThen h (.inr ⟨by omega, h.2 (by simp [hm])⟩) fun e he =>
      bounded_initbits he.core rfl rfl rfl ⟨rfl, rfl⟩ rfl rfl
  · exact (plain_ruleDict (hp _ hm (by simp))).bounded
  · exact bounded_ruleType (hp _ hm (by simp))
  · exact bounded_ruleStored (hp _ hm (by simp))
  · exact (plain_ruleCopy (hp _ hm (by simp))).bounded
  · exact (plain_ruleTable (hp _ hm (by simp))).bounded
  · exact (plain_ruleLenlens (hp _ hm (by simp))).bounded
  · exact (plain_ruleCodelens (hp _ hm (by simp))).bounded
  · exact (plain_ruleLen (hp _ hm (by simp))).bounded
  · exact (plain_ruleLenext (hp _ hm (by simp))).bounded
  · exact (plain_ruleDist (hp _ hm (by simp))).bounded
  · exact (plain_ruleDistext (hp _ hm (by simp))).bounded
  · exact (plain_ruleMatch (hp _ hm (by simp))).bounded
  · exact (plain_ruleLit (hp _ hm (by simp))).bounded
  · exact bounded_ruleCheck h hm
  · exact bounded_ruleLength h hm
  all_goals exact hs _

theorem bounded_runLoop : ∀ fuel {d : Du}, d.Bounded → (runLoop fuel d).Bounded
  | 0, _, h => h
  | fuel + 1, d, h => by
    rw [runLoop]
    exact bounded_ite (fun _ => bounded_runLoop fuel (bounded_rule h)) fun _ => h

end Du

end Sys2Proof.Machine
end

