-- ==== Sys2Proof/Laws/CuRanges.lean ====
section
/-! SUPPORT. The registers of `CU` stay in their ranges (10_state.md R43): what the emission of blocks, the tallies and
the matcher keep. -/

namespace Sys2Proof.Machine

namespace Cu

/-! ## What emission keeps -/

/-- The nodes of a tree. -/
def nodes (c : Cu) : Tree → Mem Node
  | .l => c.dynLtree
  | .d => c.dynDtree
  | .bl => c.blTree

/-- What the emission of a block keeps: the bit count, the code lengths, the place of the oldest queued byte. -/
structure Emit (c : Cu) : Prop where
  bitCount : c.biValid ≤ 16
  lengths  : ∀ t, Mem.All (fun n => n.len.toNat ≤ t.maxLength) (c.nodes t)
  queue    : c.pendingOut < c.pendingSize

/-- The registers of the matcher and the configuration that its ranges speak of. -/
def place (c : Cu) := (c.strstart, c.lookahead, c.matchLength, c.wBits, c.litBufsize, c.func)

/-- Everything the ranges speak of. -/
def view (c : Cu) := (c.place, c.lastLit, c.biValid, c.pendingOut, c.dynLtree, c.dynDtree, c.blTree)

/-- `d` follows `c` by emission: the matcher stands where it stood, no symbol is tallied. -/
structure Emits (c d : Cu) : Prop where
  place : d.place = c.place
  lit   : d.lastLit ≤ c.lastLit
  emit  : c.Emit → d.Emit

theorem Emits.refl (c : Cu) : c.Emits c := ⟨rfl, le_refl _, id⟩
theorem Emits.trans {a b c : Cu} (h : a.Emits b) (k : b.Emits c) : a.Emits c :=
  ⟨k.place.trans h.place, k.lit.trans h.lit, k.emit ∘ h.emit⟩

theorem emits_of {c d : Cu} (h : d.view = c.view) : c.Emits d := by
  simp only [view, Prod.mk.injEq] at h
  obtain ⟨h1, h2, h3, h4, h5, h6, h7⟩ := h
  have h8 := h1
  simp only [Cu.place, Prod.mk.injEq] at h8
  refine ⟨h1, h2.le, fun h => ⟨by rw [h3]; exact h.bitCount, ?_, by rw [h4, pendingSize, h8.2.2.2.2.1]; exact h.queue⟩⟩
  intro t
  have := h.lengths t
  cases t <;> simp only [nodes, h5, h6, h7] at this ⊢ <;> exact this

theorem emits_forRange (lo n : Nat) (f : Nat → Cu → Cu) (hf : ∀ i c, Emits c (f i c)) (c : Cu) : c.Emits (forRange lo n f c) :=
  forRange_induction (fun d => c.Emits d) lo n f (fun i _ h => h.trans (hf i _)) c (.refl c)

theorem emits_foldl {α : Type} (f : Cu → α → Cu) (hf : ∀ c x, Emits c (f c x)) (l : List α) (c : Cu) :
    c.Emits (l.foldl f c) := by
  induction l generalizing c with
  | nil => exact .refl c
  | cons x r ih => exact (hf c x).trans (ih _)

theorem emits_ite {p : Prop} [Decidable p] {c a b : Cu} (ha : c.Emits a) (hb : c.Emits b) : c.Emits (if p then a else b) := by
  split <;> assumption

theorem Emit.len {c : Cu} (h : c.Emit) (t : Tree) (n : Nat) : (c.node t n).len.toNat ≤ t.maxLength := by
  have h1 := h.lengths t
  cases t <;> exact Mem.rd_all h1 (Nat.zero_le _) n

theorem emits_setNode (c : Cu) (t : Tree) (n : Nat) (v : Node) (hv : c.Emit → v.len.toNat ≤ t.maxLength) :
    c.Emits (c.setNode t n v) := by
  have key : ∀ u, Mem.All (fun x => x.len.toNat ≤ Tree.maxLength u) (c.nodes u) → c.Emit →
      Mem.All (fun x => x.len.toNat ≤ Tree.maxLength u) ((c.setNode t n v).nodes u) := by
    intro u hu hc
    have := hv hc
    cases t <;> cases u <;> first | exact hu | exact Mem.all_wr hu this
  cases t <;> exact ⟨rfl, le_refl _, fun h => ⟨h.bitCount, fun u => key u (h.lengths u) h, h.queue⟩⟩

theorem emits_setFreq (c : Cu) (t : Tree) (n : Nat) (v : Word16) : c.Emits (c.setFreq t n v) :=
  emits_setNode _ _ _ _ fun h => h.len t n
theorem emits_setCode (c : Cu) (t : Tree) (n : Nat) (v : Word16) : c.Emits (c.setCode t n v) :=
  emits_setNode _ _ _ _ fun h => h.len t n
theorem emits_setDad (c : Cu) (t : Tree) (n v : Nat) : c.Emits (c.setDad t n v) := emits_setNode _ _ _ _ fun h => h.len t n
theorem maxLength_le (t : Tree) : t.maxLength ≤ 15 := by cases t <;> decide
theorem emits_setLen (c : Cu) (t : Tree) (n v : Nat) (hv : v ≤ t.maxLength) : c.Emits (c.setLen t n v) :=
  emits_setNode _ _ _ _ fun _ => by
    have := maxLength_le t
    show (word16Of v).toNat ≤ _
    rw [word16Of, BitVec.toNat_ofNat, Nat.mod_eq_of_lt (by omega)]
    exact hv
theorem emits_setHeap (c : Cu) (i v : Nat) : c.Emits (c.setHeap i v) := emits_of rfl
theorem emits_setDepth (c : Cu) (i v : Nat) : c.Emits (c.setDepth i v) := emits_of rfl
theorem emits_setBlCount (c : Cu) (i v : Nat) : c.Emits (c.setBlCount i v) := emits_of rfl

/-! ### The queue and the bit packer -/

theorem emits_putByte (c : Cu) (b : Byte) : c.Emits (c.putByte b) := emits_of rfl

/-- Any update of the other working registers. -/
theorem emits_regs (c : Cu) (blockStart : Int) (matchStart : Word32) (prevMatch : Word32) (prevLength : Nat) (insH : Word16) (insertCount : Nat) (pending : Nat) (biBuf : Word16) (matchCount : Nat) (optLen : Word32) (staticLen : Word32) (heapLen : Nat) (heapMax : Nat) (lMaxCode : Nat) (dMaxCode : Nat) (blMaxCode : Nat) (gzindex : Nat) (matchAvailable : Bool) (bflush : Bool) (adler : Word32) (status : CuStatus) :
    c.Emits { c with blockStart := blockStart, matchStart := matchStart, prevMatch := prevMatch, prevLength := prevLength, insH := insH, insertCount := insertCount, pending := pending, biBuf := biBuf, matchCount := matchCount, optLen := optLen, staticLen := staticLen, heapLen := heapLen, heapMax := heapMax, lMaxCode := lMaxCode, dMaxCode := dMaxCode, blMaxCode := blMaxCode, gzindex := gzindex, matchAvailable := matchAvailable, bflush := bflush, adler := adler, status := status } := emits_of rfl
theorem emits_putBytes (c : Cu) (bs : List Byte) : c.Emits (c.putBytes bs) := emits_foldl _ emits_putByte bs c
theorem emits_putShort (c : Cu) (w : Nat) : c.Emits (c.putShort w) := (emits_putByte ..).trans (emits_putByte ..)
theorem emits_putShortMsb (c : Cu) (w : Nat) : c.Emits (c.putShortMsb w) := (emits_putByte ..).trans (emits_putByte ..)

/-- The bit buffer after a code of at most 16 bits. -/
theorem emits_bits {c d : Cu} (h : c.Emits d) (biBuf : Word16) (biValid : Nat) (hv : c.Emit → biValid ≤ 16) :
    c.Emits { d with biBuf := biBuf, biValid := biValid } :=
  ⟨h.place, h.lit, fun hc => ⟨hv hc, (h.emit hc).lengths, (h.emit hc).queue⟩⟩

theorem emits_sendBits (c : Cu) (v n : Nat) (hn : c.Emit → n ≤ 16) : c.Emits (c.sendBits v n) := by
  unfold sendBits
  split
  · exact emits_bits (emits_putShort c _) _ _ fun h => by have := h.bitCount; have := hn h; omega
  · exact emits_bits (.refl c) _ _ fun h => by have := h.bitCount; have := hn h; omega

theorem emits_biFlush (c : Cu) : c.Emits c.biFlush := by
  unfold biFlush
  split
  · exact emits_bits (emits_putShort c _) _ _ fun h => by omega
  · split
    · exact emits_bits (emits_putByte c _) _ _ fun h => by have := h.bitCount; omega
    · exact .refl c

theorem emits_biWindup (c : Cu) : c.Emits c.biWindup := by
  unfold biWindup
  exact emits_bits (emits_ite (emits_putShort ..) (emits_ite (emits_putByte ..) (.refl c))) _ _ fun h => by omega

theorem emits_flushByte (c : Cu) : c.Emits c.flushByte :=
  ⟨rfl, le_refl _, fun h => ⟨h.bitCount, h.lengths, Nat.mod_lt _ (Nat.zero_lt_of_lt h.queue)⟩⟩

theorem emits_flushPending (c : Cu) : c.Emits c.flushPending := by
  have h : c.Emits (forRange 0 (min c.pending c.cur.availOut) (fun _ c => c.flushByte) c) :=
    emits_forRange _ _ _ (fun _ _ => emits_flushByte _) c
  have hp : ∀ d : Cu, d.Emits { d with pendingOut := 0 } := fun d =>
    ⟨rfl, le_refl _, fun k => ⟨k.bitCount, k.lengths, Nat.zero_lt_of_lt k.queue⟩⟩
  unfold flushPending
  simp only
  generalize forRange 0 (min c.pending c.cur.availOut) (fun _ c => c.flushByte) c = d at h ⊢
  have h1 : c.Emits { d with pending := d.pending - min c.pending c.cur.availOut
                             totalOut := d.totalOut + word32Of (min c.pending c.cur.availOut) } := h.trans (emits_of rfl)
  exact emits_ite (.refl c) (emits_ite (h1.trans (hp _)) h1)

theorem emits_makeRoom (n : Nat) (c : Cu) : c.Emits (c.makeRoom n) := emits_ite (emits_flushPending c) (.refl c)

/-! ### Tally and trees -/

theorem emits_incFreq (c : Cu) (t : Tree) (n : Nat) : c.Emits (c.incFreq t n) := emits_setFreq ..

/-- A tally adds one symbol and says when the block is full (42_tree_builder.md R231). -/
structure Tallies (c d : Cu) : Prop where
  place : d.place = c.place
  lit   : d.lastLit = c.lastLit + 1
  emit  : c.Emit → d.Emit
  full  : d.bflush = decide (d.lastLit = d.litBufsize - 1)

theorem lastLit_setNode (c : Cu) (t : Tree) (n : Nat) (v : Node) : (c.setNode t n v).lastLit = c.lastLit := by cases t <;> rfl

theorem tallies_tallyLit (c : Cu) (b : Byte) : c.Tallies (c.tallyLit b) := by
  have h1 : Emits { c with lastLit := c.lastLit + 1 } (c.tallyEntry 0 b) := emits_of rfl
  have h2 := h1.trans (emits_incFreq (c.tallyEntry 0 b) .l b.toNat)
  exact ⟨h2.place, lastLit_setNode .., fun h => h2.emit ⟨h.bitCount, h.lengths, h.queue⟩ |> fun k => ⟨k.bitCount, k.lengths, k.queue⟩, rfl⟩

theorem tallies_tallyMatch (c : Cu) (d l : Nat) : c.Tallies (c.tallyMatch d l) := by
  have h1 : Emits { c with lastLit := c.lastLit + 1 } { c.tallyEntry d (byteOf (l - Config.minMatch)) with
    matchCount := (c.tallyEntry d (byteOf (l - Config.minMatch))).matchCount + 1 } := emits_of rfl
  have h2 := (h1.trans (emits_incFreq _ .l (257 + lengthCode l))).trans (emits_incFreq _ .d (distCode d))
  refine ⟨h2.place, ?_, fun h => h2.emit ⟨h.bitCount, h.lengths, h.queue⟩ |> fun k => ⟨k.bitCount, k.lengths, k.queue⟩, rfl⟩
  exact (lastLit_setNode ..).trans (lastLit_setNode ..)

theorem emits_initBlock (c : Cu) : c.Emits c.initBlock ∧ c.initBlock.lastLit = 0 := by
  refine ⟨?_, by simp only [initBlock]⟩
  have h1 := emits_forRange 0 Config.lCodes (fun n c => c.setFreq .l n 0) (fun _ _ => emits_setFreq ..) c
  have h2 := h1.trans (emits_forRange 0 Config.dCodes (fun n c => c.setFreq .d n 0) (fun _ _ => emits_setFreq ..) _)
  have h3 := h2.trans (emits_forRange 0 Config.blCodes (fun n c => c.setFreq .bl n 0) (fun _ _ => emits_setFreq ..) _)
  have h4 := h3.trans (emits_setFreq _ .l Config.endBlock 1)
  simp only [initBlock]
  revert h4
  generalize Cu.setFreq _ Tree.l Config.endBlock 1 = d
  exact fun h => ⟨h.place, Nat.zero_le _, fun k => ⟨(h.emit k).bitCount, (h.emit k).lengths, (h.emit k).queue⟩⟩

theorem emits_siftLoop (t : Tree) (v : Nat) : ∀ fuel k j c, Emits c (siftLoop t v fuel k j c)
  | 0, k, _, c => emits_setHeap c k v
  | fuel + 1, k, j, c => by
    simp only [siftLoop]
    split
    · exact emits_setHeap ..
    · split
      · split
        · exact emits_setHeap ..
        · exact (emits_setHeap ..).trans (emits_siftLoop t v fuel _ _ _)
      · split
        · exact emits_setHeap ..
        · exact (emits_setHeap ..).trans (emits_siftLoop t v fuel _ _ _)

theorem emits_pqdownheap (t : Tree) (k : Nat) (c : Cu) : c.Emits (c.pqdownheap t k) := emits_siftLoop ..

theorem emits_heapSymbols (t : Tree) (c : Cu) : c.Emits (c.heapSymbols t).1 := by
  unfold heapSymbols
  refine forRange_induction (fun p : Cu × Int => c.Emits p.1) _ _ _ ?_ _ (emits_regs ..)
  rintro n ⟨d, m⟩ h
  simp only
  split
  · refine Emits.trans ?_ (emits_setDepth ..)
    refine Emits.trans ?_ (emits_setHeap ..)
    exact h.trans (emits_regs ..)
  · exact h.trans (emits_setLen _ _ _ _ (Nat.zero_le _))

theorem emits_forceSymbol (t : Tree) (c : Cu) (m : Int) : c.Emits (c.forceSymbol t m).1 := by
  have key : ∀ node : Nat, c.Emits (((({ c with heapLen := c.heapLen + 1 } : Cu).setHeap (c.heapLen + 1) node).setFreq t node
      1).setDepth node 0) := fun node => by
    refine Emits.trans ?_ (emits_setDepth ..)
    refine Emits.trans ?_ (emits_setFreq ..)
    refine Emits.trans ?_ (emits_setHeap ..)
    exact (emits_regs ..)
  unfold forceSymbol
  split
  exact (key _).trans (emits_regs ..)

theorem emits_forceTwo (t : Tree) (p : Cu × Int) : p.1.Emits (forceTwo t p).1 := by
  obtain ⟨c, m⟩ := p
  simp only [forceTwo]
  split
  · exact (emits_forceSymbol t c m).trans (emits_forceSymbol t _ _)
  · split
    · exact emits_forceSymbol ..
    · exact .refl c

theorem emits_buildHeap (t : Tree) (c : Cu) : c.Emits (c.buildHeap t).1 :=
  ((emits_heapSymbols t c).trans (emits_forceTwo ..)).trans (emits_foldl _ (fun _ _ => emits_pqdownheap ..) _ _)

theorem emits_mergeRound (t : Tree) (node : Nat) (c : Cu) : c.Emits (c.mergeRound t node) := by
  unfold mergeRound
  refine Emits.trans ?_ (emits_pqdownheap ..)
  refine Emits.trans ?_ (emits_setHeap ..)
  refine Emits.trans ?_ (emits_setDad ..)
  refine Emits.trans ?_ (emits_setDad ..)
  refine Emits.trans ?_ (emits_setDepth ..)
  refine Emits.trans ?_ (emits_setFreq ..)
  refine Emits.trans ?_ (emits_setHeap ..)
  refine Emits.trans ?_ (emits_setHeap ..)
  refine Emits.trans ?_ (emits_regs ..)
  refine Emits.trans ?_ (emits_pqdownheap ..)
  exact (emits_setHeap ..).trans (emits_regs ..)

theorem emits_mergeLoop (t : Tree) : ∀ fuel node c, Emits c (mergeLoop t fuel node c)
  | 0, _, c => .refl c
  | fuel + 1, node, c => by
    simp only [mergeLoop]
    split
    · exact emits_mergeRound ..
    · exact (emits_mergeRound ..).trans (emits_mergeLoop t fuel _ _)

theorem emits_mergeTree (t : Tree) (c : Cu) : c.Emits (c.mergeTree t) := by
  unfold mergeTree
  refine Emits.trans ?_ (emits_setHeap ..)
  exact (emits_mergeLoop ..).trans (emits_regs ..)

theorem emits_bitlenNode (t : Tree) (m h : Nat) (p : Cu × Nat) : p.1.Emits (bitlenNode t m h p).1 := by
  obtain ⟨c, o⟩ := p
  simp only [bitlenNode]
  have h1 := emits_setLen c t (c.heapAt h) _ (Nat.min_le_right ((c.node t (c.node t (c.heapAt h)).dad.toNat).len.toNat + 1) t.maxLength)
  split
  · exact h1
  · exact (h1.trans (emits_setBlCount ..)).trans (emits_regs ..)

theorem emits_genBitlen (t : Tree) (m : Nat) (c : Cu) : c.Emits (c.genBitlen t m).1 := by
  unfold genBitlen
  refine forRange_induction (fun p : Cu × Nat => c.Emits p.1) _ _ _ (fun i p h => h.trans (emits_bitlenNode ..)) _ ?_
  exact (emits_forRange _ _ _ (fun _ _ => emits_setBlCount ..) c).trans (emits_setLen _ _ _ _ (Nat.zero_le _))

theorem emits_repairLoop (t : Tree) : ∀ fuel o c, Emits c (repairLoop t fuel o c)
  | 0, _, c => .refl c
  | fuel + 1, o, c => by
    simp only [repairLoop]
    split
    · exact ((emits_setBlCount ..).trans (emits_setBlCount ..)).trans (emits_setBlCount ..)
    · exact (((emits_setBlCount ..).trans (emits_setBlCount ..)).trans (emits_setBlCount ..)).trans (emits_repairLoop t fuel _ _)

theorem emits_relenLoop (t : Tree) (m b : Nat) (hb : b ≤ t.maxLength) : ∀ h n c, Emits c (relenLoop t m b h n c).1
  | 0, _, c => .refl c
  | h + 1, n, c => by
    simp only [relenLoop]
    split
    · exact .refl c
    · split
      · exact emits_relenLoop t m b hb h n c
      · refine Emits.trans ?_ (emits_relenLoop t m b hb h _ _)
        exact emits_ite ((emits_setLen c t (c.heapAt h) b hb).trans (emits_regs ..)) (.refl c)

theorem emits_repairBitlen (t : Tree) (m o : Nat) (c : Cu) : c.Emits (c.repairBitlen t m o) := by
  unfold repairBitlen
  refine emits_ite (.refl c) ?_
  simp only
  have h0 : c.Emits (repairLoop t o o c, Config.heapSize).1 := emits_repairLoop ..
  have hl : ∀ b ∈ (List.range' 1 t.maxLength).reverse, b ≤ t.maxLength := by
    intro b hb
    simp only [List.mem_reverse, List.mem_range'_1] at hb
    omega
  revert h0
  generalize (repairLoop t o o c, Config.heapSize) = p
  intro h0
  generalize (List.range' 1 t.maxLength).reverse = bs at hl
  induction bs generalizing p with
  | nil => exact h0
  | cons x r ih =>
    exact ih _ (h0.trans (emits_relenLoop _ _ _ (hl x (by simp)) ..)) (fun b hb => hl b (by simp [hb]))

theorem emits_genCodes (t : Tree) (m : Nat) (c : Cu) : c.Emits (c.genCodes t m) := by
  unfold genCodes
  refine forRange_induction (fun p : Cu × List Word16 => c.Emits p.1) _ _ _ ?_ _ (.refl c)
  rintro n ⟨d, next⟩ h
  simp only
  split
  · exact h
  · exact h.trans (emits_setCode ..)

theorem emits_buildTree (t : Tree) (c : Cu) : c.Emits (c.buildTree t).1 := by
  unfold buildTree
  refine Emits.trans ?_ (emits_genCodes ..)
  refine Emits.trans ?_ (emits_repairBitlen ..)
  exact ((emits_buildHeap t c).trans (emits_mergeTree ..)).trans (emits_genBitlen ..)

theorem emits_scanTree (t : Tree) (m : Nat) (c : Cu) : c.Emits (c.scanTree t m) := emits_foldl _ (fun _ _ => emits_incFreq ..) _ _

/-- The items of the run-length coding have at most 7 extra bits (42_tree_builder.md R241). -/
theorem width_scanLoop : ∀ lens prev count maxCount minCount, ∀ i ∈ scanLoop lens prev count maxCount minCount, i.width ≤ 7
  | [], _, _, _, _, i, hi => by simp [scanLoop] at hi
  | cur :: rest, prev, count, maxCount, minCount, i, hi => by
    rw [scanLoop] at hi
    simp only at hi
    split at hi
    · exact width_scanLoop rest _ _ _ _ i hi
    · rcases List.mem_append.1 hi with hi | hi
      · unfold runItems at hi
        split_ifs at hi
        · rw [List.eq_of_mem_replicate hi]; exact Nat.zero_le _
        · simp at hi; rcases hi with rfl | rfl <;> simp
        · simp at hi; subst hi; simp
        · simp at hi; subst hi; simp
        · simp at hi; subst hi; simp
      · exact width_scanLoop rest _ _ _ _ i hi

theorem width_scanOrSend (lens : List Nat) : ∀ i ∈ scanOrSend lens, i.width ≤ 7 := by
  unfold scanOrSend
  split <;> exact width_scanLoop _ _ _ _ _

theorem Emit.len_le {c : Cu} (h : c.Emit) (t : Tree) (n : Nat) : (c.node t n).len.toNat ≤ 15 := (h.len t n).trans (maxLength_le t)

theorem emits_sendClItem (c : Cu) (i : ClItem) (hi : i.width ≤ 7) : c.Emits (c.sendClItem i) := by
  unfold sendClItem
  have h1 := emits_sendBits c (c.node .bl i.sym).code.toNat (c.node .bl i.sym).len.toNat fun h => by have := h.len_le .bl i.sym; omega
  exact emits_ite h1 (h1.trans (emits_sendBits _ _ _ fun _ => by omega))

theorem emits_sendTree (t : Tree) (m : Nat) (c : Cu) : c.Emits (c.sendTree t m) := by
  unfold sendTree
  have hw := width_scanOrSend (c.treeLens t m)
  generalize scanOrSend (c.treeLens t m) = l at hw
  induction l generalizing c with
  | nil => exact .refl c
  | cons i r ih => exact (emits_sendClItem c i (hw i (by simp))).trans (ih _ fun j hj => hw j (by simp [hj]))

theorem emits_buildBlTree (c : Cu) : c.Emits c.buildBlTree.1 := by
  unfold buildBlTree
  have h1 := (emits_scanTree .l c.lMaxCode c).trans (emits_scanTree .d c.dMaxCode _)
  simp only
  generalize (c.scanTree .l c.lMaxCode).scanTree .d c.dMaxCode = c1 at h1 ⊢
  have h2 := h1.trans (emits_buildTree .bl c1)
  generalize c1.buildTree .bl = p at h2 ⊢
  obtain ⟨c2, m⟩ := p
  generalize Cu.maxBlindex { c2 with blMaxCode := m } 18 = k
  exact h2.trans (emits_of rfl)

theorem emits_sendAllTrees (c : Cu) (l d b : Nat) : c.Emits (c.sendAllTrees l d b) := by
  unfold sendAllTrees
  refine Emits.trans ?_ (emits_sendTree ..)
  refine Emits.trans ?_ (emits_sendTree ..)
  refine Emits.trans ?_ (emits_forRange _ _ _ (fun _ _ => emits_sendBits _ _ _ fun _ => by omega) _)
  exact ((emits_sendBits _ _ _ fun _ => by omega).trans (emits_sendBits _ _ _ fun _ => by omega)).trans
    (emits_sendBits _ _ _ fun _ => by omega)

theorem staticCode_le (t : Tree) (n : Nat) : (staticCode t n).2 ≤ 9 := by
  have h : (fixedLlCode n).2 ≤ 9 := by unfold fixedLlCode; split_ifs <;> simp
  cases t <;> first | exact h | exact (by decide : (5 : Nat) ≤ 9)

theorem emits_sendCode (c : Cu) (s : Bool) (t : Tree) (n : Nat) : c.Emits (c.sendCode s t n) :=
  emits_sendBits _ _ _ fun h => by
    unfold codeOf
    split
    · have := staticCode_le t n; omega
    · have := h.len_le t n; show (c.node t n).len.toNat ≤ 16; omega

theorem emits_sendExtra (c : Cu) (v w : Nat) (hw : w ≤ 13) : c.Emits (c.sendExtra v w) := by
  unfold sendExtra; exact emits_ite (.refl c) (emits_sendBits _ _ _ fun _ => by omega)

theorem emits_compressEntry (s : Bool) (lx : Nat) (c : Cu) : c.Emits (c.compressEntry s lx) := by
  unfold compressEntry
  refine emits_ite (emits_sendCode ..) ?_
  exact (((emits_sendCode ..).trans (emits_sendExtra _ _ _ ((Du.extraLbits_le _).trans (by omega)))).trans (emits_sendCode ..)).trans
    (emits_sendExtra _ _ _ (Du.extraDbits_le _))

theorem emits_compressBlock (s : Bool) (c : Cu) : c.Emits (c.compressBlock s) :=
  (emits_forRange _ _ _ (fun _ _ => emits_compressEntry ..) c).trans (emits_sendCode ..)

theorem emits_trStoredBlock (buf : List Byte) (l : Bool) (c : Cu) : c.Emits (c.trStoredBlock buf l) := by
  unfold trStoredBlock
  refine Emits.trans ?_ (emits_putBytes ..)
  refine Emits.trans ?_ (emits_putShort ..)
  refine Emits.trans ?_ (emits_putShort ..)
  exact ((emits_sendBits _ _ _ fun _ => by omega).trans (emits_biWindup _)).trans (emits_makeRoom ..)

theorem emits_trAlign (c : Cu) : c.Emits c.trAlign :=
  ((emits_sendBits _ _ _ fun _ => by omega).trans (emits_sendCode ..)).trans (emits_biFlush _)

theorem emits_blockSizes (n : Nat) (c : Cu) : c.Emits (c.blockSizes n).1 := by
  unfold blockSizes
  split
  · have h1 := emits_buildTree .l c
    generalize c.buildTree .l = p at h1 ⊢
    obtain ⟨c1, l⟩ := p
    have h2 : c.Emits (Cu.buildTree .d { c1 with lMaxCode := l }).1 := (h1.trans (emits_regs ..)).trans (emits_buildTree ..)
    simp only
    generalize Cu.buildTree .d { c1 with lMaxCode := l } = q at h2 ⊢
    obtain ⟨c2, d⟩ := q
    exact (h2.trans (emits_regs ..)).trans (emits_buildBlTree _)
  · exact .refl c

theorem emits_emitBlock (buf : Option (List Byte)) (n : Nat) (l : Bool) (p : Cu × Nat × Nat × Nat) :
    p.1.Emits (emitBlock buf n l p) := by
  obtain ⟨c, o, s, m⟩ := p
  unfold emitBlock
  refine emits_ite (emits_trStoredBlock ..) (emits_ite ?_ ?_)
  · exact (emits_sendBits _ _ _ fun _ => by omega).trans (emits_compressBlock ..)
  · exact ((emits_sendBits _ _ _ fun _ => by omega).trans (emits_sendAllTrees ..)).trans (emits_compressBlock ..)

/-- A block leaves no symbol tallied (42_tree_builder.md R244). -/
theorem emits_trFlushBlock (buf : Option (List Byte)) (n : Nat) (l : Bool) (c : Cu) :
    c.Emits (c.trFlushBlock buf n l) ∧ (c.trFlushBlock buf n l).lastLit = 0 := by
  unfold trFlushBlock
  obtain ⟨h1, h2⟩ := emits_initBlock (emitBlock buf n l (c.blockSizes n))
  have h := ((emits_blockSizes n c).trans (emits_emitBlock buf n l _)).trans h1
  have h3 := emits_biWindup (emitBlock buf n l (c.blockSizes n)).initBlock
  simp only
  split
  · exact ⟨h.trans h3, by have := h3.lit; omega⟩
  · exact ⟨h, h2⟩

/-! ### Matcher -/

theorem emits_updateHash (c : Cu) (b : Byte) : c.Emits (c.updateHash b) := (emits_regs ..)
theorem emits_linkString (c : Cu) (s : Nat) : c.Emits (c.linkString s).1 := emits_of rfl
theorem emits_insertString (c : Cu) (s : Nat) : c.Emits (c.insertString s).1 := (emits_updateHash ..).trans (emits_linkString ..)
theorem emits_dictInsert (s : Nat) (c : Cu) : c.Emits (dictInsert s c) := (emits_updateHash ..).trans (emits_linkString ..)

theorem emits_catchUpLoop : ∀ k s c, Emits c (catchUpLoop k s c)
  | 0, _, c => .refl c
  | k + 1, s, c => by
    have h : c.Emits { ((c.updateHash (c.win (s + 2))).linkString s).1 with insertCount := k } := emits_of rfl
    simp only [catchUpLoop]
    exact emits_ite h (h.trans (emits_catchUpLoop k _ _))

theorem emits_catchUp (c : Cu) : c.Emits c.catchUp := by
  unfold catchUp
  refine emits_ite ?_ (.refl c)
  refine Emits.trans ?_ (emits_catchUpLoop ..)
  exact emits_of rfl

theorem emits_longestMatch (c : Cu) (m : Nat) : c.Emits (c.longestMatch m).1 ∧ (c.longestMatch m).2 ≤ c.lookahead := by
  simp only [longestMatch]
  split
  · exact ⟨emits_of rfl, Nat.min_le_right _ _⟩
  · exact ⟨.refl c, Nat.min_le_right _ _⟩


end Cu

end Sys2Proof.Machine
end

