-- ==== Sys2Proof/Laws/PerInstr.lean ====
section
/-! SUPPORT. What holds of every instruction as syntax: its word fits in the bits the opcode table gives it, and those in the
whole bytes of its format. One lemma per constructor. -/

namespace Sys2Proof.Laws

/-- `biReverse` gives a number of the width it reverses. -/
theorem biReverse_lt (c n : Nat) : biReverse c n < 2 ^ n := by
  induction n generalizing c with
  | zero => simp [biReverse]
  | succ n ih =>
    have h := ih (c / 2)
    have h2 : c % 2 < 2 := Nat.mod_lt _ (by decide)
    have h3 : c % 2 * 2 ^ n ≤ 1 * 2 ^ n := Nat.mul_le_mul_right _ (by omega)
    rw [biReverse, Nat.pow_succ]
    omega

/-- The word of a well-formed instruction has the width of its row, which the bytes of its format hold. -/
def WordFits.Statement (i : Instr) : Prop := i.wellFormed = true → i.word < 2 ^ i.bits ∧ i.bits ≤ 8 * i.format.bytes

theorem WordFits.dflInit : WordFits.Statement .dflInit := fun _ => by decide
theorem WordFits.dflSetdict : WordFits.Statement .dflSetdict := fun _ => by decide
theorem WordFits.dflPush : WordFits.Statement .dflPush := fun _ => by decide
theorem WordFits.dflReset : WordFits.Statement .dflReset := fun _ => by decide
theorem WordFits.dflEnd : WordFits.Statement .dflEnd := fun _ => by decide
theorem WordFits.dflStat : WordFits.Statement .dflStat := fun _ => by decide
theorem WordFits.iflInit : WordFits.Statement .iflInit := fun _ => by decide
theorem WordFits.iflSetdict : WordFits.Statement .iflSetdict := fun _ => by decide
theorem WordFits.iflPush : WordFits.Statement .iflPush := fun _ => by decide
theorem WordFits.iflReset : WordFits.Statement .iflReset := fun _ => by decide
theorem WordFits.iflEnd : WordFits.Statement .iflEnd := fun _ => by decide
theorem WordFits.iflGethdr : WordFits.Statement .iflGethdr := fun _ => by decide
theorem WordFits.iflStat : WordFits.Statement .iflStat := fun _ => by decide
theorem WordFits.flushNoFlush : WordFits.Statement .flushNoFlush := fun _ => by decide
theorem WordFits.flushPartialFlush : WordFits.Statement .flushPartialFlush := fun _ => by decide
theorem WordFits.flushSyncFlush : WordFits.Statement .flushSyncFlush := fun _ => by decide
theorem WordFits.flushFullFlush : WordFits.Statement .flushFullFlush := fun _ => by decide
theorem WordFits.flushFinish : WordFits.Statement .flushFinish := fun _ => by decide
theorem WordFits.flushBlock : WordFits.Statement .flushBlock := fun _ => by decide
theorem WordFits.blockStored (bfinal : Bool) : WordFits.Statement (.blockStored bfinal) := fun _ => by cases bfinal <;> decide
theorem WordFits.blockFixed (bfinal : Bool) : WordFits.Statement (.blockFixed bfinal) := fun _ => by cases bfinal <;> decide
theorem WordFits.blockDynamic (bfinal : Bool) : WordFits.Statement (.blockDynamic bfinal) := fun _ => by cases bfinal <;> decide
theorem WordFits.blockReserved (bfinal : Bool) : WordFits.Statement (.blockReserved bfinal) := fun _ => by cases bfinal <;> decide
theorem WordFits.storedLenNlen (len nlen : BitVec 16) : WordFits.Statement (.storedLenNlen len nlen) := by
  intro h
  refine ⟨?_, by simp [Instr.bits, Instr.format, Format.bytes]⟩
  simp only [Instr.word, Instr.bits, Instr.format]
  omega
theorem WordFits.dynamicCounts (hlit hdist : BitVec 5) (hclen : BitVec 4) : WordFits.Statement (.dynamicCounts hlit hdist hclen) := by
  intro h
  refine ⟨?_, by simp [Instr.bits, Instr.format, Format.bytes]⟩
  simp only [Instr.word, Instr.bits, Instr.format]
  omega
theorem WordFits.dynamicCllen (v : BitVec 3) : WordFits.Statement (.dynamicCllen v) := by
  intro h
  refine ⟨?_, by simp [Instr.bits, Instr.format, Format.bytes]⟩
  simp only [Instr.word, Instr.bits, Instr.format]
  omega
theorem WordFits.clLength (len : BitVec 4) : WordFits.Statement (.clLength len) := by
  intro h
  refine ⟨?_, by simp [Instr.bits, Instr.format, Format.bytes]⟩
  simp only [Instr.word, Instr.bits, Instr.format]
  omega
theorem WordFits.clCopyPrev : WordFits.Statement .clCopyPrev := fun _ => by decide
theorem WordFits.clZerosShort : WordFits.Statement .clZerosShort := fun _ => by decide
theorem WordFits.clZerosLong : WordFits.Statement .clZerosLong := fun _ => by decide
theorem WordFits.lit (b : Byte) : WordFits.Statement (.lit b) := by
  intro h
  refine ⟨?_, by simp [Instr.bits, Instr.format, Format.bytes]⟩
  simp only [Instr.word, Instr.bits, Instr.format]
  omega
theorem WordFits.eob : WordFits.Statement .eob := fun _ => by decide
theorem WordFits.len257 : WordFits.Statement .len257 := fun _ => by decide
theorem WordFits.len258 : WordFits.Statement .len258 := fun _ => by decide
theorem WordFits.len259 : WordFits.Statement .len259 := fun _ => by decide
theorem WordFits.len260 : WordFits.Statement .len260 := fun _ => by decide
theorem WordFits.len261 : WordFits.Statement .len261 := fun _ => by decide
theorem WordFits.len262 : WordFits.Statement .len262 := fun _ => by decide
theorem WordFits.len263 : WordFits.Statement .len263 := fun _ => by decide
theorem WordFits.len264 : WordFits.Statement .len264 := fun _ => by decide
theorem WordFits.len265 : WordFits.Statement .len265 := fun _ => by decide
theorem WordFits.len266 : WordFits.Statement .len266 := fun _ => by decide
theorem WordFits.len267 : WordFits.Statement .len267 := fun _ => by decide
theorem WordFits.len268 : WordFits.Statement .len268 := fun _ => by decide
theorem WordFits.len269 : WordFits.Statement .len269 := fun _ => by decide
theorem WordFits.len270 : WordFits.Statement .len270 := fun _ => by decide
theorem WordFits.len271 : WordFits.Statement .len271 := fun _ => by decide
theorem WordFits.len272 : WordFits.Statement .len272 := fun _ => by decide
theorem WordFits.len273 : WordFits.Statement .len273 := fun _ => by decide
theorem WordFits.len274 : WordFits.Statement .len274 := fun _ => by decide
theorem WordFits.len275 : WordFits.Statement .len275 := fun _ => by decide
theorem WordFits.len276 : WordFits.Statement .len276 := fun _ => by decide
theorem WordFits.len277 : WordFits.Statement .len277 := fun _ => by decide
theorem WordFits.len278 : WordFits.Statement .len278 := fun _ => by decide
theorem WordFits.len279 : WordFits.Statement .len279 := fun _ => by decide
theorem WordFits.len280 : WordFits.Statement .len280 := fun _ => by decide
theorem WordFits.len281 : WordFits.Statement .len281 := fun _ => by decide
theorem WordFits.len282 : WordFits.Statement .len282 := fun _ => by decide
theorem WordFits.len283 : WordFits.Statement .len283 := fun _ => by decide
theorem WordFits.len284 : WordFits.Statement .len284 := fun _ => by decide
theorem WordFits.len285 : WordFits.Statement .len285 := fun _ => by decide
theorem WordFits.llReserved (odd : Bool) : WordFits.Statement (.llReserved odd) := fun _ => by cases odd <;> decide
theorem WordFits.dist0 : WordFits.Statement .dist0 := fun _ => by decide
theorem WordFits.dist1 : WordFits.Statement .dist1 := fun _ => by decide
theorem WordFits.dist2 : WordFits.Statement .dist2 := fun _ => by decide
theorem WordFits.dist3 : WordFits.Statement .dist3 := fun _ => by decide
theorem WordFits.dist4 : WordFits.Statement .dist4 := fun _ => by decide
theorem WordFits.dist5 : WordFits.Statement .dist5 := fun _ => by decide
theorem WordFits.dist6 : WordFits.Statement .dist6 := fun _ => by decide
theorem WordFits.dist7 : WordFits.Statement .dist7 := fun _ => by decide
theorem WordFits.dist8 : WordFits.Statement .dist8 := fun _ => by decide
theorem WordFits.dist9 : WordFits.Statement .dist9 := fun _ => by decide
theorem WordFits.dist10 : WordFits.Statement .dist10 := fun _ => by decide
theorem WordFits.dist11 : WordFits.Statement .dist11 := fun _ => by decide
theorem WordFits.dist12 : WordFits.Statement .dist12 := fun _ => by decide
theorem WordFits.dist13 : WordFits.Statement .dist13 := fun _ => by decide
theorem WordFits.dist14 : WordFits.Statement .dist14 := fun _ => by decide
theorem WordFits.dist15 : WordFits.Statement .dist15 := fun _ => by decide
theorem WordFits.dist16 : WordFits.Statement .dist16 := fun _ => by decide
theorem WordFits.dist17 : WordFits.Statement .dist17 := fun _ => by decide
theorem WordFits.dist18 : WordFits.Statement .dist18 := fun _ => by decide
theorem WordFits.dist19 : WordFits.Statement .dist19 := fun _ => by decide
theorem WordFits.dist20 : WordFits.Statement .dist20 := fun _ => by decide
theorem WordFits.dist21 : WordFits.Statement .dist21 := fun _ => by decide
theorem WordFits.dist22 : WordFits.Statement .dist22 := fun _ => by decide
theorem WordFits.dist23 : WordFits.Statement .dist23 := fun _ => by decide
theorem WordFits.dist24 : WordFits.Statement .dist24 := fun _ => by decide
theorem WordFits.dist25 : WordFits.Statement .dist25 := fun _ => by decide
theorem WordFits.dist26 : WordFits.Statement .dist26 := fun _ => by decide
theorem WordFits.dist27 : WordFits.Statement .dist27 := fun _ => by decide
theorem WordFits.dist28 : WordFits.Statement .dist28 := fun _ => by decide
theorem WordFits.dist29 : WordFits.Statement .dist29 := fun _ => by decide
theorem WordFits.distReserved (odd : Bool) : WordFits.Statement (.distReserved odd) := fun _ => by cases odd <;> decide
theorem WordFits.fixedLit0To143 (s : Byte) : WordFits.Statement (.fixedLit0To143 s) :=
  fun _ => ⟨biReverse_lt _ _, by simp [Instr.bits, Instr.format, Format.bytes]⟩
theorem WordFits.fixedLit144To255 (s : Byte) : WordFits.Statement (.fixedLit144To255 s) :=
  fun _ => ⟨biReverse_lt _ _, by simp [Instr.bits, Instr.format, Format.bytes]⟩
theorem WordFits.fixedLl256To279 (s : BitVec 9) : WordFits.Statement (.fixedLl256To279 s) :=
  fun _ => ⟨biReverse_lt _ _, by simp [Instr.bits, Instr.format, Format.bytes]⟩
theorem WordFits.fixedLl280To287 (s : BitVec 9) : WordFits.Statement (.fixedLl280To287 s) :=
  fun _ => ⟨biReverse_lt _ _, by simp [Instr.bits, Instr.format, Format.bytes]⟩
theorem WordFits.fixedDist (s : BitVec 5) : WordFits.Statement (.fixedDist s) :=
  fun _ => ⟨biReverse_lt _ _, by simp [Instr.bits, Instr.format, Format.bytes]⟩
theorem WordFits.entryLiteral (bits : Byte) (val : Word16) : WordFits.Statement (.entryLiteral bits val) := by
  intro h
  refine ⟨?_, by simp [Instr.bits, Instr.format, Format.bytes]⟩
  simp only [Instr.word, Instr.bits, Instr.format]
  omega
theorem WordFits.entryLink (bits : Byte) (width : BitVec 4) (val : Word16) : WordFits.Statement (.entryLink bits width val) := by
  intro h
  refine ⟨?_, by simp [Instr.bits, Instr.format, Format.bytes]⟩
  simp only [Instr.word, Instr.bits, Instr.format, Instr.wellFormed, Bool.and_eq_true, decide_eq_true_eq] at h ⊢
  omega
theorem WordFits.entryBase (bits : Byte) (extra : BitVec 4) (val : Word16) : WordFits.Statement (.entryBase bits extra val) := by
  intro h
  refine ⟨?_, by simp [Instr.bits, Instr.format, Format.bytes]⟩
  simp only [Instr.word, Instr.bits, Instr.format, Instr.wellFormed, Bool.and_eq_true, decide_eq_true_eq] at h ⊢
  omega
theorem WordFits.entryEndOfBlock (bits : Byte) : WordFits.Statement (.entryEndOfBlock bits) := by
  intro h
  refine ⟨?_, by simp [Instr.bits, Instr.format, Format.bytes]⟩
  simp only [Instr.word, Instr.bits, Instr.format]
  omega
theorem WordFits.entryInvalid (bits : Byte) : WordFits.Statement (.entryInvalid bits) := by
  intro h
  refine ⟨?_, by simp [Instr.bits, Instr.format, Format.bytes]⟩
  simp only [Instr.word, Instr.bits, Instr.format]
  omega
theorem WordFits.zlibHeader (cinfo : BitVec 4) (flevel : BitVec 2) (fdict : Bool) (fcheck : BitVec 5) : WordFits.Statement (.zlibHeader cinfo flevel fdict fcheck) := by
  intro h
  refine ⟨?_, by simp [Instr.bits, Instr.format, Format.bytes]⟩
  simp only [Instr.word, Instr.bits, Instr.format]
  have := Bool.toNat_lt fdict
  omega
theorem WordFits.gzipHeader (flg : BitVec 5) (mtime : Word32) (xfl os : Byte) : WordFits.Statement (.gzipHeader flg mtime xfl os) := by
  intro h
  refine ⟨?_, by simp [Instr.bits, Instr.format, Format.bytes]⟩
  simp only [Instr.word, Instr.bits, Instr.format]
  omega
theorem WordFits.gzipFtext : WordFits.Statement .gzipFtext := fun _ => by decide
theorem WordFits.gzipFhcrc : WordFits.Statement .gzipFhcrc := fun _ => by decide
theorem WordFits.gzipFextra : WordFits.Statement .gzipFextra := fun _ => by decide
theorem WordFits.gzipFname : WordFits.Statement .gzipFname := fun _ => by decide
theorem WordFits.gzipFcomment : WordFits.Statement .gzipFcomment := fun _ => by decide
theorem WordFits.gzipFlgReserved (flg : Byte) : WordFits.Statement (.gzipFlgReserved flg) := by
  intro h
  refine ⟨?_, by simp [Instr.bits, Instr.format, Format.bytes]⟩
  simp only [Instr.word, Instr.bits, Instr.format, Instr.wellFormed, Bool.and_eq_true, decide_eq_true_eq] at h ⊢
  omega

end Sys2Proof.Laws
end

