-- ==== Sys2Proof/Laws/State.lean ====
section
/-! SUPPORT. What each shared update leaves in each field, one lemma a field, true by definition. -/

namespace Sys2Proof.Machine

/-! ## `DU` -/

@[simp] theorem Du.suspend_cur (d : Du) : (d.suspend).cur = d.cur := rfl
@[simp] theorem Du.suspend_totalIn (d : Du) : (d.suspend).totalIn = d.totalIn := rfl
@[simp] theorem Du.suspend_totalOut (d : Du) : (d.suspend).totalOut = d.totalOut := rfl
@[simp] theorem Du.suspend_adler (d : Du) : (d.suspend).adler = d.adler := rfl
@[simp] theorem Du.suspend_msg (d : Du) : (d.suspend).msg = d.msg := rfl
@[simp] theorem Du.suspend_ctl (d : Du) : (d.suspend).ctl = .stop .ok := rfl
@[simp] theorem Du.suspend_pushFlush (d : Du) : (d.suspend).pushFlush = d.pushFlush := rfl
@[simp] theorem Du.suspend_checked (d : Du) : (d.suspend).checked = d.checked := rfl
@[simp] theorem Du.suspend_wrap (d : Du) : (d.suspend).wrap = d.wrap := rfl
@[simp] theorem Du.suspend_wbits (d : Du) : (d.suspend).wbits = d.wbits := rfl
@[simp] theorem Du.suspend_capture (d : Du) : (d.suspend).capture = d.capture := rfl
@[simp] theorem Du.suspend_mode (d : Du) : (d.suspend).mode = d.mode := rfl
@[simp] theorem Du.suspend_hold (d : Du) : (d.suspend).hold = d.hold := rfl
@[simp] theorem Du.suspend_bits (d : Du) : (d.suspend).bits = d.bits := rfl
@[simp] theorem Du.suspend_length (d : Du) : (d.suspend).length = d.length := rfl
@[simp] theorem Du.suspend_offset (d : Du) : (d.suspend).offset = d.offset := rfl
@[simp] theorem Du.suspend_extra (d : Du) : (d.suspend).extra = d.extra := rfl
@[simp] theorem Du.suspend_flags (d : Du) : (d.suspend).flags = d.flags := rfl
@[simp] theorem Du.suspend_check (d : Du) : (d.suspend).check = d.check := rfl
@[simp] theorem Du.suspend_total (d : Du) : (d.suspend).total = d.total := rfl
@[simp] theorem Du.suspend_ncode (d : Du) : (d.suspend).ncode = d.ncode := rfl
@[simp] theorem Du.suspend_nlen (d : Du) : (d.suspend).nlen = d.nlen := rfl
@[simp] theorem Du.suspend_ndist (d : Du) : (d.suspend).ndist = d.ndist := rfl
@[simp] theorem Du.suspend_haveCount (d : Du) : (d.suspend).haveCount = d.haveCount := rfl
@[simp] theorem Du.suspend_lenbits (d : Du) : (d.suspend).lenbits = d.lenbits := rfl
@[simp] theorem Du.suspend_distbits (d : Du) : (d.suspend).distbits = d.distbits := rfl
@[simp] theorem Du.suspend_lencode (d : Du) : (d.suspend).lencode = d.lencode := rfl
@[simp] theorem Du.suspend_distcode (d : Du) : (d.suspend).distcode = d.distcode := rfl
@[simp] theorem Du.suspend_wsize (d : Du) : (d.suspend).wsize = d.wsize := rfl
@[simp] theorem Du.suspend_whave (d : Du) : (d.suspend).whave = d.whave := rfl
@[simp] theorem Du.suspend_wnext (d : Du) : (d.suspend).wnext = d.wnext := rfl
@[simp] theorem Du.suspend_last (d : Du) : (d.suspend).last = d.last := rfl
@[simp] theorem Du.suspend_havedict (d : Du) : (d.suspend).havedict = d.havedict := rfl
@[simp] theorem Du.suspend_codes (d : Du) : (d.suspend).codes = d.codes := rfl
@[simp] theorem Du.suspend_lens (d : Du) : (d.suspend).lens = d.lens := rfl
@[simp] theorem Du.suspend_work (d : Du) : (d.suspend).work = d.work := rfl
@[simp] theorem Du.suspend_hwindow (d : Du) : (d.suspend).hwindow = d.hwindow := rfl
@[simp] theorem Du.suspend_hdr (d : Du) : (d.suspend).hdr = d.hdr := rfl

@[simp] theorem Du.bad_cur (d : Du) (m : Msg) : (d.bad m).cur = d.cur := rfl
@[simp] theorem Du.bad_totalIn (d : Du) (m : Msg) : (d.bad m).totalIn = d.totalIn := rfl
@[simp] theorem Du.bad_totalOut (d : Du) (m : Msg) : (d.bad m).totalOut = d.totalOut := rfl
@[simp] theorem Du.bad_adler (d : Du) (m : Msg) : (d.bad m).adler = d.adler := rfl
@[simp] theorem Du.bad_msg (d : Du) (m : Msg) : (d.bad m).msg = m := rfl
@[simp] theorem Du.bad_ctl (d : Du) (m : Msg) : (d.bad m).ctl = d.ctl := rfl
@[simp] theorem Du.bad_pushFlush (d : Du) (m : Msg) : (d.bad m).pushFlush = d.pushFlush := rfl
@[simp] theorem Du.bad_checked (d : Du) (m : Msg) : (d.bad m).checked = d.checked := rfl
@[simp] theorem Du.bad_wrap (d : Du) (m : Msg) : (d.bad m).wrap = d.wrap := rfl
@[simp] theorem Du.bad_wbits (d : Du) (m : Msg) : (d.bad m).wbits = d.wbits := rfl
@[simp] theorem Du.bad_capture (d : Du) (m : Msg) : (d.bad m).capture = d.capture := rfl
@[simp] theorem Du.bad_mode (d : Du) (m : Msg) : (d.bad m).mode = .bad := rfl
@[simp] theorem Du.bad_hold (d : Du) (m : Msg) : (d.bad m).hold = d.hold := rfl
@[simp] theorem Du.bad_bits (d : Du) (m : Msg) : (d.bad m).bits = d.bits := rfl
@[simp] theorem Du.bad_length (d : Du) (m : Msg) : (d.bad m).length = d.length := rfl
@[simp] theorem Du.bad_offset (d : Du) (m : Msg) : (d.bad m).offset = d.offset := rfl
@[simp] theorem Du.bad_extra (d : Du) (m : Msg) : (d.bad m).extra = d.extra := rfl
@[simp] theorem Du.bad_flags (d : Du) (m : Msg) : (d.bad m).flags = d.flags := rfl
@[simp] theorem Du.bad_check (d : Du) (m : Msg) : (d.bad m).check = d.check := rfl
@[simp] theorem Du.bad_total (d : Du) (m : Msg) : (d.bad m).total = d.total := rfl
@[simp] theorem Du.bad_ncode (d : Du) (m : Msg) : (d.bad m).ncode = d.ncode := rfl
@[simp] theorem Du.bad_nlen (d : Du) (m : Msg) : (d.bad m).nlen = d.nlen := rfl
@[simp] theorem Du.bad_ndist (d : Du) (m : Msg) : (d.bad m).ndist = d.ndist := rfl
@[simp] theorem Du.bad_haveCount (d : Du) (m : Msg) : (d.bad m).haveCount = d.haveCount := rfl
@[simp] theorem Du.bad_lenbits (d : Du) (m : Msg) : (d.bad m).lenbits = d.lenbits := rfl
@[simp] theorem Du.bad_distbits (d : Du) (m : Msg) : (d.bad m).distbits = d.distbits := rfl
@[simp] theorem Du.bad_lencode (d : Du) (m : Msg) : (d.bad m).lencode = d.lencode := rfl
@[simp] theorem Du.bad_distcode (d : Du) (m : Msg) : (d.bad m).distcode = d.distcode := rfl
@[simp] theorem Du.bad_wsize (d : Du) (m : Msg) : (d.bad m).wsize = d.wsize := rfl
@[simp] theorem Du.bad_whave (d : Du) (m : Msg) : (d.bad m).whave = d.whave := rfl
@[simp] theorem Du.bad_wnext (d : Du) (m : Msg) : (d.bad m).wnext = d.wnext := rfl
@[simp] theorem Du.bad_last (d : Du) (m : Msg) : (d.bad m).last = d.last := rfl
@[simp] theorem Du.bad_havedict (d : Du) (m : Msg) : (d.bad m).havedict = d.havedict := rfl
@[simp] theorem Du.bad_codes (d : Du) (m : Msg) : (d.bad m).codes = d.codes := rfl
@[simp] theorem Du.bad_lens (d : Du) (m : Msg) : (d.bad m).lens = d.lens := rfl
@[simp] theorem Du.bad_work (d : Du) (m : Msg) : (d.bad m).work = d.work := rfl
@[simp] theorem Du.bad_hwindow (d : Du) (m : Msg) : (d.bad m).hwindow = d.hwindow := rfl
@[simp] theorem Du.bad_hdr (d : Du) (m : Msg) : (d.bad m).hdr = d.hdr := rfl

@[simp] theorem Du.fetch_cur (d : Du) : (d.fetch).cur = d.cur.advance 1 := rfl
@[simp] theorem Du.fetch_totalIn (d : Du) : (d.fetch).totalIn = d.totalIn := rfl
@[simp] theorem Du.fetch_totalOut (d : Du) : (d.fetch).totalOut = d.totalOut := rfl
@[simp] theorem Du.fetch_adler (d : Du) : (d.fetch).adler = d.adler := rfl
@[simp] theorem Du.fetch_msg (d : Du) : (d.fetch).msg = d.msg := rfl
@[simp] theorem Du.fetch_ctl (d : Du) : (d.fetch).ctl = d.ctl := rfl
@[simp] theorem Du.fetch_pushFlush (d : Du) : (d.fetch).pushFlush = d.pushFlush := rfl
@[simp] theorem Du.fetch_checked (d : Du) : (d.fetch).checked = d.checked := rfl
@[simp] theorem Du.fetch_wrap (d : Du) : (d.fetch).wrap = d.wrap := rfl
@[simp] theorem Du.fetch_wbits (d : Du) : (d.fetch).wbits = d.wbits := rfl
@[simp] theorem Du.fetch_capture (d : Du) : (d.fetch).capture = d.capture := rfl
@[simp] theorem Du.fetch_mode (d : Du) : (d.fetch).mode = d.mode := rfl
@[simp] theorem Du.fetch_hold (d : Du) : (d.fetch).hold = d.hold + ((d.cur.peekByte.setWidth 32) <<< d.bits) := rfl
@[simp] theorem Du.fetch_bits (d : Du) : (d.fetch).bits = d.bits + 8 := rfl
@[simp] theorem Du.fetch_length (d : Du) : (d.fetch).length = d.length := rfl
@[simp] theorem Du.fetch_offset (d : Du) : (d.fetch).offset = d.offset := rfl
@[simp] theorem Du.fetch_extra (d : Du) : (d.fetch).extra = d.extra := rfl
@[simp] theorem Du.fetch_flags (d : Du) : (d.fetch).flags = d.flags := rfl
@[simp] theorem Du.fetch_check (d : Du) : (d.fetch).check = d.check := rfl
@[simp] theorem Du.fetch_total (d : Du) : (d.fetch).total = d.total := rfl
@[simp] theorem Du.fetch_ncode (d : Du) : (d.fetch).ncode = d.ncode := rfl
@[simp] theorem Du.fetch_nlen (d : Du) : (d.fetch).nlen = d.nlen := rfl
@[simp] theorem Du.fetch_ndist (d : Du) : (d.fetch).ndist = d.ndist := rfl
@[simp] theorem Du.fetch_haveCount (d : Du) : (d.fetch).haveCount = d.haveCount := rfl
@[simp] theorem Du.fetch_lenbits (d : Du) : (d.fetch).lenbits = d.lenbits := rfl
@[simp] theorem Du.fetch_distbits (d : Du) : (d.fetch).distbits = d.distbits := rfl
@[simp] theorem Du.fetch_lencode (d : Du) : (d.fetch).lencode = d.lencode := rfl
@[simp] theorem Du.fetch_distcode (d : Du) : (d.fetch).distcode = d.distcode := rfl
@[simp] theorem Du.fetch_wsize (d : Du) : (d.fetch).wsize = d.wsize := rfl
@[simp] theorem Du.fetch_whave (d : Du) : (d.fetch).whave = d.whave := rfl
@[simp] theorem Du.fetch_wnext (d : Du) : (d.fetch).wnext = d.wnext := rfl
@[simp] theorem Du.fetch_last (d : Du) : (d.fetch).last = d.last := rfl
@[simp] theorem Du.fetch_havedict (d : Du) : (d.fetch).havedict = d.havedict := rfl
@[simp] theorem Du.fetch_codes (d : Du) : (d.fetch).codes = d.codes := rfl
@[simp] theorem Du.fetch_lens (d : Du) : (d.fetch).lens = d.lens := rfl
@[simp] theorem Du.fetch_work (d : Du) : (d.fetch).work = d.work := rfl
@[simp] theorem Du.fetch_hwindow (d : Du) : (d.fetch).hwindow = d.hwindow := rfl
@[simp] theorem Du.fetch_hdr (d : Du) : (d.fetch).hdr = d.hdr := rfl

@[simp] theorem Du.drop_cur (n : Nat) (d : Du) : (d.drop n).cur = d.cur := rfl
@[simp] theorem Du.drop_totalIn (n : Nat) (d : Du) : (d.drop n).totalIn = d.totalIn := rfl
@[simp] theorem Du.drop_totalOut (n : Nat) (d : Du) : (d.drop n).totalOut = d.totalOut := rfl
@[simp] theorem Du.drop_adler (n : Nat) (d : Du) : (d.drop n).adler = d.adler := rfl
@[simp] theorem Du.drop_msg (n : Nat) (d : Du) : (d.drop n).msg = d.msg := rfl
@[simp] theorem Du.drop_ctl (n : Nat) (d : Du) : (d.drop n).ctl = d.ctl := rfl
@[simp] theorem Du.drop_pushFlush (n : Nat) (d : Du) : (d.drop n).pushFlush = d.pushFlush := rfl
@[simp] theorem Du.drop_checked (n : Nat) (d : Du) : (d.drop n).checked = d.checked := rfl
@[simp] theorem Du.drop_wrap (n : Nat) (d : Du) : (d.drop n).wrap = d.wrap := rfl
@[simp] theorem Du.drop_wbits (n : Nat) (d : Du) : (d.drop n).wbits = d.wbits := rfl
@[simp] theorem Du.drop_capture (n : Nat) (d : Du) : (d.drop n).capture = d.capture := rfl
@[simp] theorem Du.drop_mode (n : Nat) (d : Du) : (d.drop n).mode = d.mode := rfl
@[simp] theorem Du.drop_hold (n : Nat) (d : Du) : (d.drop n).hold = d.hold >>> n := rfl
@[simp] theorem Du.drop_bits (n : Nat) (d : Du) : (d.drop n).bits = d.bits - n := rfl
@[simp] theorem Du.drop_length (n : Nat) (d : Du) : (d.drop n).length = d.length := rfl
@[simp] theorem Du.drop_offset (n : Nat) (d : Du) : (d.drop n).offset = d.offset := rfl
@[simp] theorem Du.drop_extra (n : Nat) (d : Du) : (d.drop n).extra = d.extra := rfl
@[simp] theorem Du.drop_flags (n : Nat) (d : Du) : (d.drop n).flags = d.flags := rfl
@[simp] theorem Du.drop_check (n : Nat) (d : Du) : (d.drop n).check = d.check := rfl
@[simp] theorem Du.drop_total (n : Nat) (d : Du) : (d.drop n).total = d.total := rfl
@[simp] theorem Du.drop_ncode (n : Nat) (d : Du) : (d.drop n).ncode = d.ncode := rfl
@[simp] theorem Du.drop_nlen (n : Nat) (d : Du) : (d.drop n).nlen = d.nlen := rfl
@[simp] theorem Du.drop_ndist (n : Nat) (d : Du) : (d.drop n).ndist = d.ndist := rfl
@[simp] theorem Du.drop_haveCount (n : Nat) (d : Du) : (d.drop n).haveCount = d.haveCount := rfl
@[simp] theorem Du.drop_lenbits (n : Nat) (d : Du) : (d.drop n).lenbits = d.lenbits := rfl
@[simp] theorem Du.drop_distbits (n : Nat) (d : Du) : (d.drop n).distbits = d.distbits := rfl
@[simp] theorem Du.drop_lencode (n : Nat) (d : Du) : (d.drop n).lencode = d.lencode := rfl
@[simp] theorem Du.drop_distcode (n : Nat) (d : Du) : (d.drop n).distcode = d.distcode := rfl
@[simp] theorem Du.drop_wsize (n : Nat) (d : Du) : (d.drop n).wsize = d.wsize := rfl
@[simp] theorem Du.drop_whave (n : Nat) (d : Du) : (d.drop n).whave = d.whave := rfl
@[simp] theorem Du.drop_wnext (n : Nat) (d : Du) : (d.drop n).wnext = d.wnext := rfl
@[simp] theorem Du.drop_last (n : Nat) (d : Du) : (d.drop n).last = d.last := rfl
@[simp] theorem Du.drop_havedict (n : Nat) (d : Du) : (d.drop n).havedict = d.havedict := rfl
@[simp] theorem Du.drop_codes (n : Nat) (d : Du) : (d.drop n).codes = d.codes := rfl
@[simp] theorem Du.drop_lens (n : Nat) (d : Du) : (d.drop n).lens = d.lens := rfl
@[simp] theorem Du.drop_work (n : Nat) (d : Du) : (d.drop n).work = d.work := rfl
@[simp] theorem Du.drop_hwindow (n : Nat) (d : Du) : (d.drop n).hwindow = d.hwindow := rfl
@[simp] theorem Du.drop_hdr (n : Nat) (d : Du) : (d.drop n).hdr = d.hdr := rfl

@[simp] theorem Du.initbits_cur (d : Du) : (d.initbits).cur = d.cur := rfl
@[simp] theorem Du.initbits_totalIn (d : Du) : (d.initbits).totalIn = d.totalIn := rfl
@[simp] theorem Du.initbits_totalOut (d : Du) : (d.initbits).totalOut = d.totalOut := rfl
@[simp] theorem Du.initbits_adler (d : Du) : (d.initbits).adler = d.adler := rfl
@[simp] theorem Du.initbits_msg (d : Du) : (d.initbits).msg = d.msg := rfl
@[simp] theorem Du.initbits_ctl (d : Du) : (d.initbits).ctl = d.ctl := rfl
@[simp] theorem Du.initbits_pushFlush (d : Du) : (d.initbits).pushFlush = d.pushFlush := rfl
@[simp] theorem Du.initbits_checked (d : Du) : (d.initbits).checked = d.checked := rfl
@[simp] theorem Du.initbits_wrap (d : Du) : (d.initbits).wrap = d.wrap := rfl
@[simp] theorem Du.initbits_wbits (d : Du) : (d.initbits).wbits = d.wbits := rfl
@[simp] theorem Du.initbits_capture (d : Du) : (d.initbits).capture = d.capture := rfl
@[simp] theorem Du.initbits_mode (d : Du) : (d.initbits).mode = d.mode := rfl
@[simp] theorem Du.initbits_hold (d : Du) : (d.initbits).hold = 0 := rfl
@[simp] theorem Du.initbits_bits (d : Du) : (d.initbits).bits = 0 := rfl
@[simp] theorem Du.initbits_length (d : Du) : (d.initbits).length = d.length := rfl
@[simp] theorem Du.initbits_offset (d : Du) : (d.initbits).offset = d.offset := rfl
@[simp] theorem Du.initbits_extra (d : Du) : (d.initbits).extra = d.extra := rfl
@[simp] theorem Du.initbits_flags (d : Du) : (d.initbits).flags = d.flags := rfl
@[simp] theorem Du.initbits_check (d : Du) : (d.initbits).check = d.check := rfl
@[simp] theorem Du.initbits_total (d : Du) : (d.initbits).total = d.total := rfl
@[simp] theorem Du.initbits_ncode (d : Du) : (d.initbits).ncode = d.ncode := rfl
@[simp] theorem Du.initbits_nlen (d : Du) : (d.initbits).nlen = d.nlen := rfl
@[simp] theorem Du.initbits_ndist (d : Du) : (d.initbits).ndist = d.ndist := rfl
@[simp] theorem Du.initbits_haveCount (d : Du) : (d.initbits).haveCount = d.haveCount := rfl
@[simp] theorem Du.initbits_lenbits (d : Du) : (d.initbits).lenbits = d.lenbits := rfl
@[simp] theorem Du.initbits_distbits (d : Du) : (d.initbits).distbits = d.distbits := rfl
@[simp] theorem Du.initbits_lencode (d : Du) : (d.initbits).lencode = d.lencode := rfl
@[simp] theorem Du.initbits_distcode (d : Du) : (d.initbits).distcode = d.distcode := rfl
@[simp] theorem Du.initbits_wsize (d : Du) : (d.initbits).wsize = d.wsize := rfl
@[simp] theorem Du.initbits_whave (d : Du) : (d.initbits).whave = d.whave := rfl
@[simp] theorem Du.initbits_wnext (d : Du) : (d.initbits).wnext = d.wnext := rfl
@[simp] theorem Du.initbits_last (d : Du) : (d.initbits).last = d.last := rfl
@[simp] theorem Du.initbits_havedict (d : Du) : (d.initbits).havedict = d.havedict := rfl
@[simp] theorem Du.initbits_codes (d : Du) : (d.initbits).codes = d.codes := rfl
@[simp] theorem Du.initbits_lens (d : Du) : (d.initbits).lens = d.lens := rfl
@[simp] theorem Du.initbits_work (d : Du) : (d.initbits).work = d.work := rfl
@[simp] theorem Du.initbits_hwindow (d : Du) : (d.initbits).hwindow = d.hwindow := rfl
@[simp] theorem Du.initbits_hdr (d : Du) : (d.initbits).hdr = d.hdr := rfl

@[simp] theorem Du.outPut_cur (d : Du) (b : Byte) : (d.outPut b).cur = d.cur.outPut b := rfl
@[simp] theorem Du.outPut_totalIn (d : Du) (b : Byte) : (d.outPut b).totalIn = d.totalIn := rfl
@[simp] theorem Du.outPut_totalOut (d : Du) (b : Byte) : (d.outPut b).totalOut = d.totalOut := rfl
@[simp] theorem Du.outPut_adler (d : Du) (b : Byte) : (d.outPut b).adler = d.adler := rfl
@[simp] theorem Du.outPut_msg (d : Du) (b : Byte) : (d.outPut b).msg = d.msg := rfl
@[simp] theorem Du.outPut_ctl (d : Du) (b : Byte) : (d.outPut b).ctl = d.ctl := rfl
@[simp] theorem Du.outPut_pushFlush (d : Du) (b : Byte) : (d.outPut b).pushFlush = d.pushFlush := rfl
@[simp] theorem Du.outPut_checked (d : Du) (b : Byte) : (d.outPut b).checked = d.checked := rfl
@[simp] theorem Du.outPut_wrap (d : Du) (b : Byte) : (d.outPut b).wrap = d.wrap := rfl
@[simp] theorem Du.outPut_wbits (d : Du) (b : Byte) : (d.outPut b).wbits = d.wbits := rfl
@[simp] theorem Du.outPut_capture (d : Du) (b : Byte) : (d.outPut b).capture = d.capture := rfl
@[simp] theorem Du.outPut_mode (d : Du) (b : Byte) : (d.outPut b).mode = d.mode := rfl
@[simp] theorem Du.outPut_hold (d : Du) (b : Byte) : (d.outPut b).hold = d.hold := rfl
@[simp] theorem Du.outPut_bits (d : Du) (b : Byte) : (d.outPut b).bits = d.bits := rfl
@[simp] theorem Du.outPut_length (d : Du) (b : Byte) : (d.outPut b).length = d.length := rfl
@[simp] theorem Du.outPut_offset (d : Du) (b : Byte) : (d.outPut b).offset = d.offset := rfl
@[simp] theorem Du.outPut_extra (d : Du) (b : Byte) : (d.outPut b).extra = d.extra := rfl
@[simp] theorem Du.outPut_flags (d : Du) (b : Byte) : (d.outPut b).flags = d.flags := rfl
@[simp] theorem Du.outPut_check (d : Du) (b : Byte) : (d.outPut b).check = d.check := rfl
@[simp] theorem Du.outPut_total (d : Du) (b : Byte) : (d.outPut b).total = d.total := rfl
@[simp] theorem Du.outPut_ncode (d : Du) (b : Byte) : (d.outPut b).ncode = d.ncode := rfl
@[simp] theorem Du.outPut_nlen (d : Du) (b : Byte) : (d.outPut b).nlen = d.nlen := rfl
@[simp] theorem Du.outPut_ndist (d : Du) (b : Byte) : (d.outPut b).ndist = d.ndist := rfl
@[simp] theorem Du.outPut_haveCount (d : Du) (b : Byte) : (d.outPut b).haveCount = d.haveCount := rfl
@[simp] theorem Du.outPut_lenbits (d : Du) (b : Byte) : (d.outPut b).lenbits = d.lenbits := rfl
@[simp] theorem Du.outPut_distbits (d : Du) (b : Byte) : (d.outPut b).distbits = d.distbits := rfl
@[simp] theorem Du.outPut_lencode (d : Du) (b : Byte) : (d.outPut b).lencode = d.lencode := rfl
@[simp] theorem Du.outPut_distcode (d : Du) (b : Byte) : (d.outPut b).distcode = d.distcode := rfl
@[simp] theorem Du.outPut_wsize (d : Du) (b : Byte) : (d.outPut b).wsize = d.wsize := rfl
@[simp] theorem Du.outPut_whave (d : Du) (b : Byte) : (d.outPut b).whave = d.whave := rfl
@[simp] theorem Du.outPut_wnext (d : Du) (b : Byte) : (d.outPut b).wnext = d.wnext := rfl
@[simp] theorem Du.outPut_last (d : Du) (b : Byte) : (d.outPut b).last = d.last := rfl
@[simp] theorem Du.outPut_havedict (d : Du) (b : Byte) : (d.outPut b).havedict = d.havedict := rfl
@[simp] theorem Du.outPut_codes (d : Du) (b : Byte) : (d.outPut b).codes = d.codes := rfl
@[simp] theorem Du.outPut_lens (d : Du) (b : Byte) : (d.outPut b).lens = d.lens := rfl
@[simp] theorem Du.outPut_work (d : Du) (b : Byte) : (d.outPut b).work = d.work := rfl
@[simp] theorem Du.outPut_hwindow (d : Du) (b : Byte) : (d.outPut b).hwindow = d.hwindow := rfl
@[simp] theorem Du.outPut_hdr (d : Du) (b : Byte) : (d.outPut b).hdr = d.hdr := rfl

/-! ## `CU` -/

@[simp] theorem Cu.putByte_cur (c : Cu) (b : Byte) : (c.putByte b).cur = c.cur := rfl
@[simp] theorem Cu.putByte_totalIn (c : Cu) (b : Byte) : (c.putByte b).totalIn = c.totalIn := rfl
@[simp] theorem Cu.putByte_totalOut (c : Cu) (b : Byte) : (c.putByte b).totalOut = c.totalOut := rfl
@[simp] theorem Cu.putByte_adler (c : Cu) (b : Byte) : (c.putByte b).adler = c.adler := rfl
@[simp] theorem Cu.putByte_msg (c : Cu) (b : Byte) : (c.putByte b).msg = c.msg := rfl
@[simp] theorem Cu.putByte_wrap (c : Cu) (b : Byte) : (c.putByte b).wrap = c.wrap := rfl
@[simp] theorem Cu.putByte_level (c : Cu) (b : Byte) : (c.putByte b).level = c.level := rfl
@[simp] theorem Cu.putByte_strategy (c : Cu) (b : Byte) : (c.putByte b).strategy = c.strategy := rfl
@[simp] theorem Cu.putByte_wBits (c : Cu) (b : Byte) : (c.putByte b).wBits = c.wBits := rfl
@[simp] theorem Cu.putByte_hashBits (c : Cu) (b : Byte) : (c.putByte b).hashBits = c.hashBits := rfl
@[simp] theorem Cu.putByte_litBufsize (c : Cu) (b : Byte) : (c.putByte b).litBufsize = c.litBufsize := rfl
@[simp] theorem Cu.putByte_goodMatch (c : Cu) (b : Byte) : (c.putByte b).goodMatch = c.goodMatch := rfl
@[simp] theorem Cu.putByte_maxLazyMatch (c : Cu) (b : Byte) : (c.putByte b).maxLazyMatch = c.maxLazyMatch := rfl
@[simp] theorem Cu.putByte_niceMatch (c : Cu) (b : Byte) : (c.putByte b).niceMatch = c.niceMatch := rfl
@[simp] theorem Cu.putByte_maxChainLength (c : Cu) (b : Byte) : (c.putByte b).maxChainLength = c.maxChainLength := rfl
@[simp] theorem Cu.putByte_func (c : Cu) (b : Byte) : (c.putByte b).func = c.func := rfl
@[simp] theorem Cu.putByte_gzhead (c : Cu) (b : Byte) : (c.putByte b).gzhead = c.gzhead := rfl
@[simp] theorem Cu.putByte_status (c : Cu) (b : Byte) : (c.putByte b).status = c.status := rfl
@[simp] theorem Cu.putByte_strstart (c : Cu) (b : Byte) : (c.putByte b).strstart = c.strstart := rfl
@[simp] theorem Cu.putByte_blockStart (c : Cu) (b : Byte) : (c.putByte b).blockStart = c.blockStart := rfl
@[simp] theorem Cu.putByte_lookahead (c : Cu) (b : Byte) : (c.putByte b).lookahead = c.lookahead := rfl
@[simp] theorem Cu.putByte_matchStart (c : Cu) (b : Byte) : (c.putByte b).matchStart = c.matchStart := rfl
@[simp] theorem Cu.putByte_matchLength (c : Cu) (b : Byte) : (c.putByte b).matchLength = c.matchLength := rfl
@[simp] theorem Cu.putByte_prevMatch (c : Cu) (b : Byte) : (c.putByte b).prevMatch = c.prevMatch := rfl
@[simp] theorem Cu.putByte_prevLength (c : Cu) (b : Byte) : (c.putByte b).prevLength = c.prevLength := rfl
@[simp] theorem Cu.putByte_insH (c : Cu) (b : Byte) : (c.putByte b).insH = c.insH := rfl
@[simp] theorem Cu.putByte_insertCount (c : Cu) (b : Byte) : (c.putByte b).insertCount = c.insertCount := rfl
@[simp] theorem Cu.putByte_pending (c : Cu) (b : Byte) : (c.putByte b).pending = c.pending + 1 := rfl
@[simp] theorem Cu.putByte_pendingOut (c : Cu) (b : Byte) : (c.putByte b).pendingOut = c.pendingOut := rfl
@[simp] theorem Cu.putByte_biBuf (c : Cu) (b : Byte) : (c.putByte b).biBuf = c.biBuf := rfl
@[simp] theorem Cu.putByte_biValid (c : Cu) (b : Byte) : (c.putByte b).biValid = c.biValid := rfl
@[simp] theorem Cu.putByte_lastLit (c : Cu) (b : Byte) : (c.putByte b).lastLit = c.lastLit := rfl
@[simp] theorem Cu.putByte_matchCount (c : Cu) (b : Byte) : (c.putByte b).matchCount = c.matchCount := rfl
@[simp] theorem Cu.putByte_optLen (c : Cu) (b : Byte) : (c.putByte b).optLen = c.optLen := rfl
@[simp] theorem Cu.putByte_staticLen (c : Cu) (b : Byte) : (c.putByte b).staticLen = c.staticLen := rfl
@[simp] theorem Cu.putByte_heapLen (c : Cu) (b : Byte) : (c.putByte b).heapLen = c.heapLen := rfl
@[simp] theorem Cu.putByte_heapMax (c : Cu) (b : Byte) : (c.putByte b).heapMax = c.heapMax := rfl
@[simp] theorem Cu.putByte_lMaxCode (c : Cu) (b : Byte) : (c.putByte b).lMaxCode = c.lMaxCode := rfl
@[simp] theorem Cu.putByte_dMaxCode (c : Cu) (b : Byte) : (c.putByte b).dMaxCode = c.dMaxCode := rfl
@[simp] theorem Cu.putByte_blMaxCode (c : Cu) (b : Byte) : (c.putByte b).blMaxCode = c.blMaxCode := rfl
@[simp] theorem Cu.putByte_gzindex (c : Cu) (b : Byte) : (c.putByte b).gzindex = c.gzindex := rfl
@[simp] theorem Cu.putByte_matchAvailable (c : Cu) (b : Byte) : (c.putByte b).matchAvailable = c.matchAvailable := rfl
@[simp] theorem Cu.putByte_lastFlush (c : Cu) (b : Byte) : (c.putByte b).lastFlush = c.lastFlush := rfl
@[simp] theorem Cu.putByte_bflush (c : Cu) (b : Byte) : (c.putByte b).bflush = c.bflush := rfl
@[simp] theorem Cu.putByte_window (c : Cu) (b : Byte) : (c.putByte b).window = c.window := rfl
@[simp] theorem Cu.putByte_head (c : Cu) (b : Byte) : (c.putByte b).head = c.head := rfl
@[simp] theorem Cu.putByte_prev (c : Cu) (b : Byte) : (c.putByte b).prev = c.prev := rfl
@[simp] theorem Cu.putByte_pendingBuf (c : Cu) (b : Byte) : (c.putByte b).pendingBuf = Mem.wr c.pendingSize c.pendingBuf ((c.pendingOut + c.pending) % c.pendingSize) b := rfl
@[simp] theorem Cu.putByte_dBuf (c : Cu) (b : Byte) : (c.putByte b).dBuf = c.dBuf := rfl
@[simp] theorem Cu.putByte_lBuf (c : Cu) (b : Byte) : (c.putByte b).lBuf = c.lBuf := rfl
@[simp] theorem Cu.putByte_dynLtree (c : Cu) (b : Byte) : (c.putByte b).dynLtree = c.dynLtree := rfl
@[simp] theorem Cu.putByte_dynDtree (c : Cu) (b : Byte) : (c.putByte b).dynDtree = c.dynDtree := rfl
@[simp] theorem Cu.putByte_blTree (c : Cu) (b : Byte) : (c.putByte b).blTree = c.blTree := rfl
@[simp] theorem Cu.putByte_heap (c : Cu) (b : Byte) : (c.putByte b).heap = c.heap := rfl
@[simp] theorem Cu.putByte_depth (c : Cu) (b : Byte) : (c.putByte b).depth = c.depth := rfl
@[simp] theorem Cu.putByte_blCount (c : Cu) (b : Byte) : (c.putByte b).blCount = c.blCount := rfl

@[simp] theorem Cu.flushByte_cur (c : Cu) : (c.flushByte).cur = c.cur.outPut (Mem.rd c.pendingSize c.pendingBuf c.pendingOut) := rfl
@[simp] theorem Cu.flushByte_totalIn (c : Cu) : (c.flushByte).totalIn = c.totalIn := rfl
@[simp] theorem Cu.flushByte_totalOut (c : Cu) : (c.flushByte).totalOut = c.totalOut := rfl
@[simp] theorem Cu.flushByte_adler (c : Cu) : (c.flushByte).adler = c.adler := rfl
@[simp] theorem Cu.flushByte_msg (c : Cu) : (c.flushByte).msg = c.msg := rfl
@[simp] theorem Cu.flushByte_wrap (c : Cu) : (c.flushByte).wrap = c.wrap := rfl
@[simp] theorem Cu.flushByte_level (c : Cu) : (c.flushByte).level = c.level := rfl
@[simp] theorem Cu.flushByte_strategy (c : Cu) : (c.flushByte).strategy = c.strategy := rfl
@[simp] theorem Cu.flushByte_wBits (c : Cu) : (c.flushByte).wBits = c.wBits := rfl
@[simp] theorem Cu.flushByte_hashBits (c : Cu) : (c.flushByte).hashBits = c.hashBits := rfl
@[simp] theorem Cu.flushByte_litBufsize (c : Cu) : (c.flushByte).litBufsize = c.litBufsize := rfl
@[simp] theorem Cu.flushByte_goodMatch (c : Cu) : (c.flushByte).goodMatch = c.goodMatch := rfl
@[simp] theorem Cu.flushByte_maxLazyMatch (c : Cu) : (c.flushByte).maxLazyMatch = c.maxLazyMatch := rfl
@[simp] theorem Cu.flushByte_niceMatch (c : Cu) : (c.flushByte).niceMatch = c.niceMatch := rfl
@[simp] theorem Cu.flushByte_maxChainLength (c : Cu) : (c.flushByte).maxChainLength = c.maxChainLength := rfl
@[simp] theorem Cu.flushByte_func (c : Cu) : (c.flushByte).func = c.func := rfl
@[simp] theorem Cu.flushByte_gzhead (c : Cu) : (c.flushByte).gzhead = c.gzhead := rfl
@[simp] theorem Cu.flushByte_status (c : Cu) : (c.flushByte).status = c.status := rfl
@[simp] theorem Cu.flushByte_strstart (c : Cu) : (c.flushByte).strstart = c.strstart := rfl
@[simp] theorem Cu.flushByte_blockStart (c : Cu) : (c.flushByte).blockStart = c.blockStart := rfl
@[simp] theorem Cu.flushByte_lookahead (c : Cu) : (c.flushByte).lookahead = c.lookahead := rfl
@[simp] theorem Cu.flushByte_matchStart (c : Cu) : (c.flushByte).matchStart = c.matchStart := rfl
@[simp] theorem Cu.flushByte_matchLength (c : Cu) : (c.flushByte).matchLength = c.matchLength := rfl
@[simp] theorem Cu.flushByte_prevMatch (c : Cu) : (c.flushByte).prevMatch = c.prevMatch := rfl
@[simp] theorem Cu.flushByte_prevLength (c : Cu) : (c.flushByte).prevLength = c.prevLength := rfl
@[simp] theorem Cu.flushByte_insH (c : Cu) : (c.flushByte).insH = c.insH := rfl
@[simp] theorem Cu.flushByte_insertCount (c : Cu) : (c.flushByte).insertCount = c.insertCount := rfl
@[simp] theorem Cu.flushByte_pending (c : Cu) : (c.flushByte).pending = c.pending := rfl
@[simp] theorem Cu.flushByte_pendingOut (c : Cu) : (c.flushByte).pendingOut = (c.pendingOut + 1) % c.pendingSize := rfl
@[simp] theorem Cu.flushByte_biBuf (c : Cu) : (c.flushByte).biBuf = c.biBuf := rfl
@[simp] theorem Cu.flushByte_biValid (c : Cu) : (c.flushByte).biValid = c.biValid := rfl
@[simp] theorem Cu.flushByte_lastLit (c : Cu) : (c.flushByte).lastLit = c.lastLit := rfl
@[simp] theorem Cu.flushByte_matchCount (c : Cu) : (c.flushByte).matchCount = c.matchCount := rfl
@[simp] theorem Cu.flushByte_optLen (c : Cu) : (c.flushByte).optLen = c.optLen := rfl
@[simp] theorem Cu.flushByte_staticLen (c : Cu) : (c.flushByte).staticLen = c.staticLen := rfl
@[simp] theorem Cu.flushByte_heapLen (c : Cu) : (c.flushByte).heapLen = c.heapLen := rfl
@[simp] theorem Cu.flushByte_heapMax (c : Cu) : (c.flushByte).heapMax = c.heapMax := rfl
@[simp] theorem Cu.flushByte_lMaxCode (c : Cu) : (c.flushByte).lMaxCode = c.lMaxCode := rfl
@[simp] theorem Cu.flushByte_dMaxCode (c : Cu) : (c.flushByte).dMaxCode = c.dMaxCode := rfl
@[simp] theorem Cu.flushByte_blMaxCode (c : Cu) : (c.flushByte).blMaxCode = c.blMaxCode := rfl
@[simp] theorem Cu.flushByte_gzindex (c : Cu) : (c.flushByte).gzindex = c.gzindex := rfl
@[simp] theorem Cu.flushByte_matchAvailable (c : Cu) : (c.flushByte).matchAvailable = c.matchAvailable := rfl
@[simp] theorem Cu.flushByte_lastFlush (c : Cu) : (c.flushByte).lastFlush = c.lastFlush := rfl
@[simp] theorem Cu.flushByte_bflush (c : Cu) : (c.flushByte).bflush = c.bflush := rfl
@[simp] theorem Cu.flushByte_window (c : Cu) : (c.flushByte).window = c.window := rfl
@[simp] theorem Cu.flushByte_head (c : Cu) : (c.flushByte).head = c.head := rfl
@[simp] theorem Cu.flushByte_prev (c : Cu) : (c.flushByte).prev = c.prev := rfl
@[simp] theorem Cu.flushByte_pendingBuf (c : Cu) : (c.flushByte).pendingBuf = c.pendingBuf := rfl
@[simp] theorem Cu.flushByte_dBuf (c : Cu) : (c.flushByte).dBuf = c.dBuf := rfl
@[simp] theorem Cu.flushByte_lBuf (c : Cu) : (c.flushByte).lBuf = c.lBuf := rfl
@[simp] theorem Cu.flushByte_dynLtree (c : Cu) : (c.flushByte).dynLtree = c.dynLtree := rfl
@[simp] theorem Cu.flushByte_dynDtree (c : Cu) : (c.flushByte).dynDtree = c.dynDtree := rfl
@[simp] theorem Cu.flushByte_blTree (c : Cu) : (c.flushByte).blTree = c.blTree := rfl
@[simp] theorem Cu.flushByte_heap (c : Cu) : (c.flushByte).heap = c.heap := rfl
@[simp] theorem Cu.flushByte_depth (c : Cu) : (c.flushByte).depth = c.depth := rfl
@[simp] theorem Cu.flushByte_blCount (c : Cu) : (c.flushByte).blCount = c.blCount := rfl

/-! ## The machine -/

@[simp] theorem State.post_cmds (s : State) (r : Result) : (s.post r).cmds = s.cmds := rfl
@[simp] theorem State.post_port (s : State) (r : Result) : (s.post r).port = s.port := rfl
@[simp] theorem State.post_result (s : State) (r : Result) : (s.post r).result = some r := rfl
@[simp] theorem State.post_cu (s : State) (r : Result) : (s.post r).cu = s.cu := rfl
@[simp] theorem State.post_du (s : State) (r : Result) : (s.post r).du = s.du := rfl

@[simp] theorem State.finishCu_cmds (s : State) (r : Result) : (s.finishCu r).cmds = s.cmds := rfl
@[simp] theorem State.finishCu_port (s : State) (r : Result) : (s.finishCu r).port = s.port := rfl
@[simp] theorem State.finishCu_result (s : State) (r : Result) : (s.finishCu r).result = some r := rfl
@[simp] theorem State.finishCu_cu (s : State) (r : Result) : (s.finishCu r).cu = { s.cu with cur := Cursor.empty, bflush := false } := rfl
@[simp] theorem State.finishCu_du (s : State) (r : Result) : (s.finishCu r).du = s.du := rfl

@[simp] theorem State.finishDu_cmds (s : State) (r : Result) : (s.finishDu r).cmds = s.cmds := rfl
@[simp] theorem State.finishDu_port (s : State) (r : Result) : (s.finishDu r).port = s.port := rfl
@[simp] theorem State.finishDu_result (s : State) (r : Result) : (s.finishDu r).result = some r := rfl
@[simp] theorem State.finishDu_cu (s : State) (r : Result) : (s.finishDu r).cu = s.cu := rfl
@[simp] theorem State.finishDu_du (s : State) (r : Result) : (s.finishDu r).du = { s.du with cur := Cursor.empty, ctl := .idle, pushFlush := 0, checked := 0 } := rfl

@[simp] theorem State.raise_cu_cmds (st : Status) (s : State) : (s.raise .cu st).cmds = s.cmds := by
  simp only [State.raise]; split <;> rfl
@[simp] theorem State.raise_cu_port (st : Status) (s : State) : (s.raise .cu st).port = s.port := by
  simp only [State.raise]; split <;> rfl
@[simp] theorem State.raise_cu_result (st : Status) (s : State) : (s.raise .cu st).result = some (Result.ofStatus st) := by
  simp only [State.raise]; split <;> rfl
@[simp] theorem State.raise_cu_cu (st : Status) (s : State) : (s.raise .cu st).cu = if s.cu.status = .noStream then s.cu else { s.cu with msg := st.raiseMsg } := by
  simp only [State.raise]; split <;> rfl
@[simp] theorem State.raise_cu_du (st : Status) (s : State) : (s.raise .cu st).du = s.du := by
  simp only [State.raise]; split <;> rfl

@[simp] theorem State.raise_du_cmds (st : Status) (s : State) : (s.raise .du st).cmds = s.cmds := by
  simp only [State.raise]; split <;> rfl
@[simp] theorem State.raise_du_port (st : Status) (s : State) : (s.raise .du st).port = s.port := by
  simp only [State.raise]; split <;> rfl
@[simp] theorem State.raise_du_result (st : Status) (s : State) : (s.raise .du st).result = some (Result.ofStatus st) := by
  simp only [State.raise]; split <;> rfl
@[simp] theorem State.raise_du_cu (st : Status) (s : State) : (s.raise .du st).cu = s.cu := by
  simp only [State.raise]; split <;> rfl
@[simp] theorem State.raise_du_du (st : Status) (s : State) : (s.raise .du st).du = if s.du.mode = .noStream then s.du else { s.du with msg := st.raiseMsg } := by
  simp only [State.raise]; split <;> rfl

end Sys2Proof.Machine
end

