-- ==== Sys2Proof/Laws/Tables.lean ====
section
/-! SUPPORT. The fixed tables are code tables (43_table_decoder_fastloop.md R279, R288). -/

namespace Sys2Proof.Machine

namespace Du

/-- A table without links is a code table when every entry it holds is the alphabet's, takes 1 to 15 bits and stands at every index
that starts with its code. -/
theorem codeTable_of_flat (entry : Nat → Nat → Word32) (r : TableRef) (width : Nat) (d : Du)
    (plain : ∀ i < 2 ^ width, isLink (d.tableAt r i) = false)
    (size : ∀ i < 2 ^ width, 1 ≤ entryBits (d.tableAt r i) ∧ entryBits (d.tableAt r i) ≤ min width 15)
    (alphabet : ∀ i < 2 ^ width, ∃ w n, d.tableAt r i = entry w n)
    (decides : ∀ i < 2 ^ width, ∀ j < 2 ^ width,
      i % 2 ^ entryBits (d.tableAt r i) = j % 2 ^ entryBits (d.tableAt r i) → d.tableAt r j = d.tableAt r i) :
    d.CodeTable entry r width := by
  have lt : ∀ b, b % 2 ^ width < 2 ^ width := fun b => Nat.mod_lt _ (Nat.two_pow_pos _)
  have look : ∀ b, d.lookup r width b = (d.tableAt r (b % 2 ^ width), entryBits (d.tableAt r (b % 2 ^ width))) := by
    intro b
    simp only [lookup, plain _ (lt b), Bool.false_eq_true, if_false]
  refine ⟨fun b => ?_, fun b => ?_, fun b b' h => ?_, fun b h => ?_⟩
  · rw [look]
    have := size _ (lt b)
    exact ⟨this.1, by omega⟩
  · rw [look]
    exact alphabet _ (lt b)
  · rw [look] at h
    have hs := (size _ (lt b)).2
    have e : d.tableAt r (b' % 2 ^ width) = d.tableAt r (b % 2 ^ width) := by
      refine decides _ (lt b) _ (lt b') ?_
      have hd : 2 ^ entryBits (d.tableAt r (b % 2 ^ width)) ∣ 2 ^ width := Nat.pow_dvd_pow 2 (by omega)
      rw [Nat.mod_mod_of_dvd _ hd, Nat.mod_mod_of_dvd _ hd]
      exact h
    rw [look, look, e]
  · rw [plain _ (lt b)] at h
    exact absurd h (by decide)

/-- What index `i` of `LENFIX` holds: one of 288 symbols, with the bits of its code. -/
theorem lenfix_flat : ∀ i < 512, isLink (lenfix i) = false ∧ 7 ≤ entryBits (lenfix i) ∧ entryBits (lenfix i) ≤ 9 ∧
    ∀ k < 4, lenfix (i % 2 ^ entryBits (lenfix i) + 2 ^ entryBits (lenfix i) * (k % 2 ^ (9 - entryBits (lenfix i)))) = lenfix i := by
  decide +kernel

theorem distfix_flat : ∀ i < 32, isLink (distfix i) = false ∧ entryBits (distfix i) = 5 := by decide +kernel

/-- `LENFIX` is a code table (43_table_decoder_fastloop.md R279). -/
theorem codeTable_lenfix (d : Du) : d.CodeTable lensEntry ⟨.lenfix, 0⟩ 9 := by
  refine codeTable_of_flat _ _ _ _ (fun i hi => (lenfix_flat i hi).1) (fun i hi => ?_) (fun i _ => ⟨_, _, rfl⟩) ?_
  · have := lenfix_flat i hi
    exact ⟨by show 1 ≤ entryBits (lenfix i); omega, by show entryBits (lenfix i) ≤ 9; omega⟩
  · intro i hi j hj h
    show lenfix j = lenfix i
    replace h : i % 2 ^ entryBits (lenfix i) = j % 2 ^ entryBits (lenfix i) := h
    obtain ⟨-, h7, h9, hk⟩ := lenfix_flat i hi
    have hj' : j = i % 2 ^ entryBits (lenfix i) + 2 ^ entryBits (lenfix i) * (j / 2 ^ entryBits (lenfix i)) := by
      rw [h]; exact (Nat.mod_add_div _ _).symm
    have hq : j / 2 ^ entryBits (lenfix i) < 2 ^ (9 - entryBits (lenfix i)) := by
      rw [Nat.div_lt_iff_lt_mul (Nat.two_pow_pos _), ← pow_add, Nat.sub_add_cancel h9]
      exact hj
    have h4 : 2 ^ (9 - entryBits (lenfix i)) ≤ 4 := by
      calc 2 ^ (9 - entryBits (lenfix i)) ≤ 2 ^ 2 := Nat.pow_le_pow_right (by omega) (by omega)
        _ = 4 := rfl
    have := hk (j / 2 ^ entryBits (lenfix i)) (by omega)
    rw [Nat.mod_eq_of_lt hq, ← hj'] at this
    exact this

/-- `DISTFIX` is a code table (43_table_decoder_fastloop.md R279). -/
theorem codeTable_distfix (d : Du) : d.CodeTable distsEntry ⟨.distfix, 0⟩ 5 := by
  refine codeTable_of_flat _ _ _ _ (fun i hi => (distfix_flat i hi).1) (fun i hi => ?_) (fun i _ => ⟨_, _, rfl⟩) ?_
  · have h : entryBits (d.tableAt ⟨.distfix, 0⟩ i) = 5 := (distfix_flat i hi).2
    rw [h]
    decide
  · intro i hi j hj h
    have hb : entryBits (d.tableAt ⟨.distfix, 0⟩ i) = 5 := (distfix_flat i hi).2
    rw [hb, Nat.mod_eq_of_lt hi, Nat.mod_eq_of_lt hj] at h
    rw [h]

end Du

end Sys2Proof.Machine
end

