-- ==== Sys2Proof/Tests/Slice0.lean ====
section
/-! SUPPORT. Tests: ill-formed terms that `wellFormed` refuses, words written out from 30_encoding.md that decode to what they
stand for, instructions run on the vectors of 95_test_vectors.md (numbers V1, E7, ...) or on values worked out from the rules,
and for every obligation with hypotheses a witness that meets them. -/

-- One theorem at a time: each kernel evaluation below would otherwise hold a thread of its own while it waits its turn.
set_option Elab.async false

open Sys2Proof Sys2Proof.Machine Sys2Proof.Claims

namespace Sys2Proof.Tests

/-! ## Ill-formed terms -/

theorem test_wf_fixedLit0To143 : (Instr.fixedLit0To143 144).wellFormed = false := by decide
theorem test_wf_fixedLit144To255 : (Instr.fixedLit144To255 143).wellFormed = false := by decide
theorem test_wf_fixedLl256To279 :
    (Instr.fixedLl256To279 255).wellFormed = false ∧ (Instr.fixedLl256To279 280).wellFormed = false := by decide
theorem test_wf_fixedLl280To287 :
    (Instr.fixedLl280To287 279).wellFormed = false ∧ (Instr.fixedLl280To287 288).wellFormed = false := by decide
theorem test_wf_entryLink :
    (Instr.entryLink 9 0 0).wellFormed = false ∧ (Instr.entryLink 9 10 0).wellFormed = false := by decide
theorem test_wf_entryBase : (Instr.entryBase 9 14 0).wellFormed = false := by decide
theorem test_wf_gzipFlgReserved : (Instr.gzipFlgReserved 0x1F).wellFormed = false := by decide

/-! ## Words of 30_encoding.md, bit 0 last -/

theorem test_decode_commands :
    decode .command 0b00000001 = .ok .dflInit ∧ decode .command 0b00000010 = .ok .dflSetdict ∧
    decode .command 0b00000011 = .ok .dflPush ∧ decode .command 0b00000100 = .ok .dflReset ∧
    decode .command 0b00000101 = .ok .dflEnd ∧ decode .command 0b00000110 = .ok .dflStat ∧
    decode .command 0b00010001 = .ok .iflInit ∧ decode .command 0b00010010 = .ok .iflSetdict ∧
    decode .command 0b00010011 = .ok .iflPush ∧ decode .command 0b00010100 = .ok .iflReset ∧
    decode .command 0b00010101 = .ok .iflEnd ∧ decode .command 0b00010110 = .ok .iflGethdr ∧
    decode .command 0b00010111 = .ok .iflStat := by decide
theorem test_decode_reservedCommands :
    ∀ w ∈ [0x00, 0x07, 0x10, 0x18, 0xFF], decode .command w = .error .reservedOpcode := by decide
theorem test_decode_flush :
    decode .flushOperand 0b000 = .ok .flushNoFlush ∧ decode .flushOperand 0b001 = .ok .flushPartialFlush ∧
    decode .flushOperand 0b010 = .ok .flushSyncFlush ∧ decode .flushOperand 0b011 = .ok .flushFullFlush ∧
    decode .flushOperand 0b100 = .ok .flushFinish ∧ decode .flushOperand 0b101 = .ok .flushBlock ∧
    decode .flushOperand 0b110 = .error .reservedFlush ∧ decode .flushOperand 0b111 = .error .reservedFlush := by decide
theorem test_decode_blocks :
    decode .blockHeader 0b001 = .ok (.blockStored true) ∧ decode .blockHeader 0b011 = .ok (.blockFixed true) ∧
    decode .blockHeader 0b100 = .ok (.blockDynamic false) ∧ decode .blockHeader 0b111 = .ok (.blockReserved true) := by decide
theorem test_decode_stored : decode .storedHeader 0xFFFC0003 = .ok (.storedLenNlen 3 0xFFFC) := by decide
/-- The counts of V8: `HLIT = 1`, `HDIST = 1`, `HCLEN = 14`. -/
theorem test_decode_dynamic : decode .dynamicHeader 0b11100000100001 = .ok (.dynamicCounts 1 1 14) ∧
    decode .clLen 0b110 = .ok (.dynamicCllen 6) := by decide
theorem test_decode_cl :
    decode .clSymbol 0b01111 = .ok (.clLength 15) ∧ decode .clSymbol 0b10000 = .ok .clCopyPrev ∧
    decode .clSymbol 0b10001 = .ok .clZerosShort ∧ decode .clSymbol 0b10010 = .ok .clZerosLong ∧
    decode .clSymbol 0b10011 = .error .noSuchSymbol := by decide
theorem test_decode_ll :
    decode .llSymbol 0b011111111 = .ok (.lit 255) ∧ decode .llSymbol 0b100000000 = .ok .eob ∧
    decode .llSymbol 286 = .ok (.llReserved false) ∧ decode .llSymbol 287 = .ok (.llReserved true) ∧
    decode .llSymbol 288 = .error .noSuchSymbol := by decide
theorem test_decode_lengths :
    [257, 258, 259, 260, 261, 262, 263, 264, 265, 266, 267, 268, 269, 270, 271, 272, 273, 274, 275, 276, 277, 278, 279, 280, 281,
      282, 283, 284, 285].map (decode .llSymbol) = lengthRows.map fun r => .ok r.1 := by decide
theorem test_decode_distances :
    [0, 1, 2, 3, 4, 5, 6, 7, 8, 9, 10, 11, 12, 13, 14, 15, 16, 17, 18, 19, 20, 21, 22, 23, 24, 25, 26, 27, 28, 29].map
      (decode .distSymbol) = distRows.map (fun r => .ok r.1) ∧
    decode .distSymbol 0b11110 = .ok (.distReserved false) ∧ decode .distSymbol 0b11111 = .ok (.distReserved true) := by decide
/-- V1: `H` is `01111000`, `o` is `10011111`, length symbol 266 `0001010`; symbol 280 is `11000000`, literal 255 `111111111`
(R110), first bit lowest here. -/
theorem test_decode_fixed :
    decode .fixedLl 0b00011110 = .ok (.fixedLit0To143 0x48) ∧ decode .fixedLl 0b11111001 = .ok (.fixedLit0To143 0x6F) ∧
    decode .fixedLl 0b0101000 = .ok (.fixedLl256To279 266) ∧ decode .fixedLl 0b00000011 = .ok (.fixedLl280To287 280) ∧
    decode .fixedLl 0b111111111 = .ok (.fixedLit144To255 255) ∧ decode .fixedDist 0b10100 = .ok (.fixedDist 5) := by decide
/-- R130, R131: `BITS`, `OP`, `VAL`. -/
theorem test_decode_entries :
    decode .tableEntry 0x08000048 = .ok (.entryLiteral 8 0x48) ∧ decode .tableEntry 0x09030200 = .ok (.entryLink 9 3 0x200) ∧
    decode .tableEntry 0x07140073 = .ok (.entryBase 7 4 115) ∧ decode .tableEntry 0x07600000 = .ok (.entryEndOfBlock 7) ∧
    decode .tableEntry 0x05400000 = .ok (.entryInvalid 5) ∧ decode .tableEntry 0x050A0000 = .error .noSuchOp := by decide
/-- V1, V4: `78 9C` and, with `FDICT`, `78 BB`. -/
theorem test_decode_zlib :
    decode .zlibHeader 0x789C = .ok (.zlibHeader 7 2 false 28) ∧ decode .zlibHeader 0x78BB = .ok (.zlibHeader 7 2 true 27) ∧
    decode .zlibHeader 0x7709 = .error .compressionMethod := by decide
/-- V6: `1F 8B 08 08 00 00 00 5F 00 03`. -/
theorem test_decode_gzip :
    decodeBytes .gzipHeader [0x1F, 0x8B, 0x08, 0x08, 0x00, 0x00, 0x00, 0x5F, 0x00, 0x03] =
      .ok (.gzipHeader 8 0x5F000000 0 3, []) := by decide
theorem test_decode_gzipFlags :
    decode .gzipFlg 0b00000001 = .ok .gzipFtext ∧ decode .gzipFlg 0b00000010 = .ok .gzipFhcrc ∧
    decode .gzipFlg 0b00000100 = .ok .gzipFextra ∧ decode .gzipFlg 0b00001000 = .ok .gzipFname ∧
    decode .gzipFlg 0b00010000 = .ok .gzipFcomment ∧ decode .gzipFlg 0b11100000 = .ok (.gzipFlgReserved 0xE0) ∧
    decode .gzipFlg 0b00000011 = .error .notOneFlag := by decide

/-! ## Small states -/

/-- The next state of an answer. -/
def nextOf (o : Host.Outcome State Fault Refusal) : State :=
  match o with
  | .next t => t
  | _ => State.reset

/-- Operands of the default configuration but for `level` and `window_bits`. -/
def cuOps (level windowBits : Int) : Operands :=
  { (default : Operands) with level := level, windowBits := windowBits, memLevel := 8, strategy := 0 }

/-- After a `DFL_INIT` from power-on. -/
def opened (level windowBits : Int) : State := nextOf (exec .dflInit { State.reset with port := cuOps level windowBits })

/-- Operands of a push. -/
def feed (data : List Byte) (flush : Int) (space : Nat) (s : State) : State :=
  { s with port := { s.port with input := data, flush := flush, availOut := space } }

/-- A dictionary operand. -/
def withDict (d : List Byte) (s : State) : State := { s with port := { s.port with dictionary := d } }

/-- After an `IFL_INIT` from power-on. -/
def openedDu (windowBits : Int) (capture : Bool) : State :=
  nextOf (exec .iflInit { State.reset with port := { (default : Operands) with windowBits := windowBits, capture := capture } })

/-- A push of `DU` in progress in state `m`, window of 512 bytes, at a byte boundary. -/
def running (m : Mode) (inp : List Byte) (space : Nat) : State :=
  { State.reset with du := { Du.powerOn with ctl := .run, mode := m, wbits := 9, cur := Cursor.start inp space } }

/-- `DU` with no push in progress in state `m`. -/
def waiting (m : Mode) : State := { State.reset with du := { Du.powerOn with mode := m, wbits := 9 } }

/-- What a push returns. -/
def returned (st : Status) (consumed : Nat) (out : List Byte) : Option Result := some ⟨st, consumed, out, none, none⟩

/-- `"Hello, Hello, Hello, World!"`. -/
def h27 : List Byte :=
  [0x48, 0x65, 0x6C, 0x6C, 0x6F, 0x2C, 0x20, 0x48, 0x65, 0x6C, 0x6C, 0x6F, 0x2C, 0x20, 0x48, 0x65, 0x6C, 0x6C, 0x6F, 0x2C, 0x20,
   0x57, 0x6F, 0x72, 0x6C, 0x64, 0x21]
/-- Its zlib stream (V1). -/
def z23 : List Byte :=
  [0x78, 0x9C, 0xF3, 0x48, 0xCD, 0xC9, 0xC9, 0xD7, 0x51, 0xF0, 0x40, 0xA1, 0xC2, 0xF3, 0x8B, 0x72, 0x52, 0x14, 0x01, 0x7D, 0xBA,
   0x08, 0xEA]
/-- `"abc"`. -/
def abc : List Byte := [0x61, 0x62, 0x63]

/-! ## Commands of the compression unit -/

/-- V3: the refused operands. -/
theorem test_dflInit_refuses :
    ∀ o ∈ [cuOps 10 15, cuOps 6 8, cuOps 6 0, cuOps 6 16, cuOps 6 47, { cuOps 6 15 with memLevel := 0 },
        { cuOps 6 15 with memLevel := 10 }, { cuOps 6 15 with strategy := 5 }],
      (nextOf (exec .dflInit { State.reset with port := o })).result = returned .streamError 0 [] := by decide +kernel
/-- V3: level -1 is 6; V18: the registers after an init. -/
theorem test_dflInit_default :
    (opened (-1) 15).cu.level = 6 ∧ (opened (-1) 15).cu.maxLazyMatch = 16 ∧ (opened (-1) 15).cu.status = .init ∧
    (opened (-1) 15).cu.adler = 1 ∧ (opened (-1) (-15)).cu.status = .busy ∧ (opened (-1) 31).cu.adler = 0 := by decide +kernel
/-- V4. -/
theorem test_dflSetdict :
    let c := (nextOf (exec .dflSetdict (withDict abc (opened 6 15)))).cu
    c.adler = 0x024D0127 ∧ c.strstart = 3 ∧ c.blockStart = 3 ∧ c.lookahead = 0 ∧ c.insH = 2083 ∧ c.insertCount = 2 := by
  decide +kernel
/-- V4: after the first push a zlib stream takes no dictionary. -/
theorem test_dflSetdict_late :
    (nextOf (exec .dflSetdict (withDict abc (nextOf (exec .dflPush (feed abc 0 100 (opened 6 15))))))).result =
      returned .streamError 0 [] := by decide +kernel
/-- V1. -/
theorem test_dflPush : (nextOf (exec .dflPush (feed h27 4 100 (opened 6 15)))).result = returned .streamEnd 27 z23 := by
  decide +kernel
/-- V15 (a): a reserved flush value. -/
theorem test_dflPush_reserved : (nextOf (exec .dflPush (feed [] 6 10 (opened 6 15)))).result = returned .streamError 0 [] := by
  decide +kernel
/-- V5 (a), `NO_FLUSH`. -/
theorem test_flushNoFlush : (nextOf (exec .flushNoFlush (feed abc 9 100 (opened 6 15)))).result =
    returned .ok 3 [0x78, 0x9C] := by decide +kernel
/-- V5 (a), `PARTIAL_FLUSH`. -/
theorem test_flushPartialFlush :
    let t := nextOf (exec .flushPartialFlush (feed abc 9 100 (opened 6 15)))
    t.result = returned .ok 3 [0x78, 0x9C, 0x4A, 0x4C, 0x4A, 0x06, 0x08] ∧ t.cu.biValid = 4 := by decide +kernel
/-- V5 (a), `SYNC_FLUSH`. -/
theorem test_flushSyncFlush : (nextOf (exec .flushSyncFlush (feed abc 9 100 (opened 6 15)))).result =
    returned .ok 3 [0x78, 0x9C, 0x4A, 0x4C, 0x4A, 0x06, 0x00, 0x00, 0x00, 0xFF, 0xFF] := by decide +kernel
/-- V5 (a), `FULL_FLUSH`; R205 clears `HEAD`. -/
theorem test_flushFullFlush :
    let t := nextOf (exec .flushFullFlush (feed abc 9 100 (opened 6 15)))
    t.result = returned .ok 3 [0x78, 0x9C, 0x4A, 0x4C, 0x4A, 0x06, 0x00, 0x00, 0x00, 0xFF, 0xFF] ∧ t.cu.head = [] := by
  decide +kernel
/-- V3: `"a"` at level 1 and, stored, `"abc"` raw at level 0. -/
theorem test_flushFinish :
    (nextOf (exec .flushFinish (feed [0x61] 9 100 (opened 1 15)))).result =
      returned .streamEnd 1 [0x78, 0x01, 0x4B, 0x04, 0x00, 0x00, 0x62, 0x00, 0x62] ∧
    (nextOf (exec .flushFinish (feed abc 9 100 (opened 0 (-15))))).result =
      returned .streamEnd 3 [0x01, 0x03, 0x00, 0xFC, 0xFF, 0x61, 0x62, 0x63] := by decide +kernel
/-- V5 (a), `BLOCK`. -/
theorem test_flushBlock :
    let t := nextOf (exec .flushBlock (feed abc 9 100 (opened 6 15)))
    t.result = returned .ok 3 [0x78, 0x9C, 0x4A, 0x4C, 0x4A, 0x06] ∧ t.cu.biValid = 2 := by decide +kernel
/-- V18. -/
theorem test_dflReset :
    let c := (nextOf (exec .dflReset (nextOf (exec .dflPush (feed abc 4 100 (opened 6 15)))))).cu
    c.status = .init ∧ c.wrap = 1 ∧ c.adler = 1 ∧ c.totalIn = 0 ∧ c.strstart = 0 ∧ c.head = [] ∧ c.win 0 = 0x61 := by
  decide +kernel
/-- V18: the status says whether the stream was complete. -/
theorem test_dflEnd :
    (nextOf (exec .dflEnd (nextOf (exec .dflPush (feed abc 4 100 (opened 6 15)))))).result = returned .ok 0 [] ∧
    (nextOf (exec .dflEnd (nextOf (exec .dflPush (feed abc 0 100 (opened 6 15)))))).result = returned .dataError 0 [] := by
  decide +kernel
/-- PRG1, line 3. -/
theorem test_dflStat :
    (nextOf (exec .dflStat (nextOf (exec .dflPush (feed h27 4 100 (opened 6 15)))))).result =
      some ⟨.ok, 0, [], some ⟨27, 23, 0x7DBA08EA, .none⟩, none⟩ := by decide +kernel

/-- R385 with every option absent, R371: the stream of PRG1, whose operands are the defaults. -/
theorem test_compress_defaults :
    (State.compress 100 2 h27 default State.reset).2 = .ok z23 ∧ (default : WrapperOptions).operands.memLevel = 8 := by
  decide +kernel
/-- A raw stream with as many bits in `BI_BUF` as three `PARTIAL_FLUSH` pushes leave, the highest but two set, and space for one
byte. The queue has 16 bytes, fewer than any `mem_level` gives, so that the test is small. -/
def sixBitsLeft : Cu :=
  { Cu.powerOn with status := .busy, wBits := 10, litBufsize := 4, hashBits := 8, biBuf := 8, biValid := 6, cur := Cursor.start [] 1 }
/-- R443, R248, R85: the largest stored block after them does not fit the queue; all its bytes are queued or out. -/
theorem test_storedBlockBehindBits :
    let c := sixBitsLeft.trStoredBlock (List.replicate 11 1) false
    c.pending = 16 ∧ c.pendingSize = 16 ∧ c.cur.out = [8] ∧ c.totalOut = 1 ∧
    c.queue = [0, 0x0B, 0x00, 0xF4, 0xFF] ++ List.replicate 11 1 := by decide +kernel

/-! ## Commands of the decompression unit -/

/-- V29, V26 (a): the refused operands. -/
theorem test_iflInit_refuses :
    (∀ w ∈ [8, 0, 16, -8, 48, -16], (openedDu w false).result = returned .streamError 0 []) ∧
    (openedDu 15 true).result = returned .streamError 0 [] := by decide +kernel
theorem test_iflInit_auto :
    (openedDu 47 true).du.wrap = 3 ∧ (openedDu 47 true).du.wbits = 15 ∧ (openedDu 47 true).du.capture = true ∧
    (openedDu 47 true).du.mode = .head := by decide +kernel
/-- V20, with the fast loop. -/
theorem test_iflPush : (nextOf (exec .iflPush (feed z23 0 65536 (openedDu 15 false)))).result = returned .streamEnd 23 h27 := by
  decide +kernel
/-- E17: the trailer is found wrong after all the output. -/
theorem test_iflPush_bad :
    let t := nextOf (exec .iflPush (feed (z23.take 22 ++ [0xEB]) 0 65536 (openedDu 15 false)))
    t.result = returned .dataError 23 h27 ∧ t.du.mode = .bad ∧ t.du.msg.id = 21 ∧ t.du.hold = 0xEB08BA7D := by decide +kernel
/-- PRG2, lines 5 to 7: a wrong dictionary, then the right one. -/
theorem test_iflSetdict :
    let s := nextOf (exec .iflPush (feed [0x78, 0xBB, 0x02, 0x4D, 0x01, 0x27] 0 100 (openedDu 15 false)))
    let t := nextOf (exec .iflSetdict (withDict abc s))
    s.result = returned .needDict 6 [] ∧
    (nextOf (exec .iflSetdict (withDict [0x61, 0x62, 0x64] s))).result = returned .dataError 0 [] ∧
    t.result = returned .ok 0 [] ∧ t.du.havedict = true ∧ t.du.wsize = 32768 ∧ t.du.whave = 3 ∧ t.du.wnext = 3 := by
  decide +kernel
/-- PRG5, line 5. -/
theorem test_iflReset :
    let d := (nextOf (exec .iflReset (nextOf (exec .iflPush (feed [0x78, 0x9D] 0 10 (openedDu 15 false)))))).du
    d.mode = .head ∧ d.msg = .none ∧ d.adler = 1 ∧ d.bits = 0 ∧ d.totalIn = 0 := by decide +kernel
/-- PRG1, lines 9 and 10. -/
theorem test_iflEnd :
    let t := nextOf (exec .iflEnd (openedDu 15 false))
    t.result = returned .ok 0 [] ∧ (nextOf (exec .iflPush (feed z23 0 100 t))).result = returned .streamError 0 [] := by
  decide +kernel
/-- PRG4, line 5: the header so far. -/
theorem test_iflGethdr :
    (nextOf (exec .iflGethdr (nextOf (exec .iflPush (feed [0x1F, 0x8B, 0x08, 0x08, 0x00, 0x00, 0x00, 0x5F, 0x00, 0x03, 0x76, 0x6F,
      0x6C, 0x75, 0x6D] 0 100 (openedDu 47 true)))))).result =
      some ⟨.ok, 0, [], none, some ⟨false, 0x5F000000, 0, 3, false, 0, [], true, [0x76, 0x6F, 0x6C, 0x75, 0x6D], false, [], false,
        0⟩⟩ := by decide +kernel
/-- V23 (a): totals and checksum after a push that stopped inside a match. -/
theorem test_iflStat :
    (nextOf (exec .iflStat (nextOf (exec .iflPush (feed z23 0 10 (openedDu 15 false)))))).result =
      some ⟨.ok, 0, [], some ⟨13, 10, 0x12BF035A, .none⟩, none⟩ := by decide +kernel

/-! ## Instructions of the bitstream -/

/-- R318. -/
theorem test_blockStored :
    let d := (nextOf (exec (.blockStored true) (running .type [0x01] 0))).du
    d.last = true ∧ d.mode = .stored ∧ d.bits = 5 := by decide
theorem test_blockFixed :
    let d := (nextOf (exec (.blockFixed false) (running .type [0x02] 0))).du
    d.last = false ∧ d.mode = .len ∧ d.lencode = ⟨.lenfix, 0⟩ ∧ d.lenbits = 9 ∧ d.distbits = 5 := by decide
theorem test_blockDynamic : (nextOf (exec (.blockDynamic false) (running .type [0x04] 0))).du.mode = .table := by decide
/-- E6. -/
theorem test_blockReserved :
    let d := (nextOf (exec (.blockReserved true) (running .type [0x07] 0))).du
    d.mode = .bad ∧ d.msg.id = 10 := by decide
/-- V27. -/
theorem test_storedLenNlen :
    let d := (nextOf (exec (.storedLenNlen 3 0xFFFC) (running .stored [0x03, 0x00, 0xFC, 0xFF, 0x61] 9))).du
    d.mode = .copy ∧ d.length = 3 ∧ d.bits = 0 ∧ d.cur.nextIn = 4 := by decide
/-- E7: the length word stays in `HOLD`. -/
theorem test_storedLenNlen_bad :
    let d := (nextOf (exec (.storedLenNlen 3 0xFEFC) (running .stored [0x03, 0x00, 0xFC, 0xFE] 9))).du
    d.mode = .bad ∧ d.msg.id = 11 ∧ d.hold = 0xFEFC0003 ∧ d.bits = 32 := by decide
/-- V8. -/
theorem test_dynamicCounts :
    let d := (nextOf (exec (.dynamicCounts 1 1 14) (running .table [0x21, 0x38] 0))).du
    d.nlen = 258 ∧ d.ndist = 2 ∧ d.ncode = 18 ∧ d.mode = .lenlens ∧ d.bits = 2 := by decide
/-- E8. -/
theorem test_dynamicCounts_bad :
    let d := (nextOf (exec (.dynamicCounts 30 0 0) (running .table [0x1E, 0x00] 0))).du
    d.mode = .bad ∧ d.msg.id = 12 := by decide
/-- R115: the first length is that of symbol 16. -/
theorem test_dynamicCllen :
    let d := (nextOf (exec (.dynamicCllen 5) (running .lenlens [0x05] 0))).du
    d.lensAt 16 = 5 ∧ d.haveCount = 1 ∧ d.bits = 5 := by decide
/-- A state inside the code lengths. -/
def coding (inp : List Byte) (have_ : Nat) : State :=
  let s := running .codelens inp 0
  { s with du := { s.du with nlen := 257, ndist := 1, haveCount := have_, lens := [(2, 7)] } }
theorem test_clLength :
    let d := (nextOf (exec (.clLength 4) (coding [] 3))).du
    d.lensAt 3 = 4 ∧ d.lensAt 2 = 7 ∧ d.haveCount = 4 := by decide
/-- R323: three and the two extra bits, `01`, of the last length. -/
theorem test_clCopyPrev :
    let d := (nextOf (exec .clCopyPrev (coding [0x01] 3))).du
    d.lensRange 2 6 = [7, 7, 7, 7, 7, 0] ∧ d.haveCount = 7 ∧ d.bits = 6 := by decide
/-- E10: no length before it. -/
theorem test_clCopyPrev_bad : (nextOf (exec .clCopyPrev (coding [0x01] 0))).du.msg.id = 14 := by decide
theorem test_clZerosShort :
    let d := (nextOf (exec .clZerosShort (coding [0x07] 2))).du
    d.lensRange 0 4 = [0, 0, 0, 0] ∧ d.haveCount = 12 ∧ d.bits = 5 := by decide
/-- V8: 18 with extra bits 86 is 97 zeros; E10b: past the lengths announced. -/
theorem test_clZerosLong :
    (nextOf (exec .clZerosLong (coding [86] 0))).du.haveCount = 97 ∧
    (nextOf (exec .clZerosLong (coding [127] 138))).du.msg.id = 14 := by decide +kernel
theorem test_lit :
    let d := (nextOf (exec (.lit 0x41) (running .len [] 1))).du
    d.cur.out = [0x41] ∧ d.cur.availOut = 0 ∧ d.mode = .len := by decide
/-- V23 (b): without space the literal waits. -/
theorem test_lit_waits :
    let d := (nextOf (exec (.lit 0x48) (running .len [] 0))).du
    d.mode = .lit ∧ d.length = 0x48 ∧ d.ctl = .stop .ok := by decide
theorem test_eob : (nextOf (exec .eob (running .len [] 0))).du.mode = .type := by decide
/-- R118: every length symbol with all its extra bits 1. -/
theorem test_lengths :
    lengthRows.map (fun r => (nextOf (exec r.1 (running .len [0xFF] 0))).du.length) =
      [3, 4, 5, 6, 7, 8, 9, 10, 12, 14, 16, 18, 22, 26, 30, 34, 42, 50, 58, 66, 82, 98, 114, 130, 162, 194, 226, 258, 258] ∧
    ∀ r ∈ lengthRows, (nextOf (exec r.1 (running .len [0xFF] 0))).du.mode = .dist := by decide
/-- E14. -/
theorem test_llReserved : (nextOf (exec (.llReserved false) (running .len [] 0))).du.msg.id = 18 := by decide
/-- R119: every distance symbol with all its extra bits 1; without space the match waits with its distance. -/
theorem test_distances :
    distRows.map (fun r => (nextOf (exec r.1 (running .dist [0xFF, 0xFF] 0))).du.offset) =
      [1, 2, 3, 4, 6, 8, 12, 16, 24, 32, 48, 64, 96, 128, 192, 256, 384, 512, 768, 1024, 1536, 2048, 3072, 4096, 6144, 8192, 12288,
        16384, 24576, 32768] := by decide
/-- A match of length 3 after the output `"ab"`. -/
def matching : State :=
  let s := running .dist [0x00] 9
  { s with du := { s.du with length := 3, cur := { s.du.cur with out := [0x61, 0x62] } } }
/-- The overlapping copy of R121, and E16. -/
theorem test_dist_copies :
    (nextOf (exec .dist1 matching)).du.cur.out = [0x61, 0x62, 0x61, 0x62, 0x61] ∧
    (nextOf (exec .dist0 matching)).du.cur.out = [0x61, 0x62, 0x62, 0x62, 0x62] ∧
    (nextOf (exec .dist2 matching)).du.msg.id = 20 := by decide
/-- E15. -/
theorem test_distReserved : (nextOf (exec (.distReserved false) matching)).du.msg.id = 19 := by decide
/-- V1, F3: the code of `H` is `01111000`. -/
theorem test_fixedLit0To143 :
    let d := (nextOf (exec (.fixedLit0To143 0x48) (running .len [0x1E] 5))).du
    d.cur.out = [0x48] ∧ d.bits = 0 := by decide
theorem test_fixedLit144To255 :
    let d := (nextOf (exec (.fixedLit144To255 0xFF) (running .len [0xFF, 0x01] 5))).du
    d.cur.out = [0xFF] ∧ d.bits = 7 := by decide
/-- V1: length symbol 266 with extra bit 0 is length 13. -/
theorem test_fixedLl256To279 :
    let d := (nextOf (exec (.fixedLl256To279 266) (running .len [0x28] 5))).du
    d.length = 13 ∧ d.mode = .dist ∧ d.bits = 0 := by decide
/-- Symbol 280: 115 and four extra bits. -/
theorem test_fixedLl280To287 :
    let d := (nextOf (exec (.fixedLl280To287 280) (running .len [0x03, 0x05] 5))).du
    d.length = 120 ∧ d.bits = 4 := by decide
theorem test_fixedDist :
    (nextOf (exec (.fixedDist 1) matching)).du.cur.out = [0x61, 0x62, 0x61, 0x62, 0x61] ∧
    (nextOf (exec (.fixedDist 30) matching)).du.msg.id = 19 := by decide
theorem test_entryLiteral :
    (nextOf (exec (.entryLiteral 4 0x41) (running .len [0x00] 5))).du.cur.out = [0x41] ∧
    (nextOf (exec (.entryLiteral 4 6) (coding [0x00] 3))).du.lensAt 3 = 6 := by decide
/-- A link of width 1 to entry 5 of `CODES`, whose code has 2 bits in all after the 4 of the link: literal `B`. -/
theorem test_entryLink :
    let s := running .len [0x10] 5
    let d := (nextOf (exec (.entryLink 4 1 4) { s with du := { s.du with codes := [(5, 0x02000042)] } })).du
    d.cur.out = [0x42] ∧ d.bits = 2 := by decide
theorem test_entryBase :
    (nextOf (exec (.entryBase 4 1 11) (running .len [0x10] 5))).du.length = 12 ∧
    (nextOf (exec (.entryBase 4 0 2) matching)).du.cur.out = [0x61, 0x62, 0x61, 0x62, 0x61] := by decide
theorem test_entryEndOfBlock :
    let d := (nextOf (exec (.entryEndOfBlock 7) (running .len [0x00] 5))).du
    d.mode = .type ∧ d.bits = 1 := by decide
theorem test_entryInvalid :
    (nextOf (exec (.entryInvalid 7) (running .len [0x00] 5))).du.msg.id = 18 ∧
    (nextOf (exec (.entryInvalid 7) (running .dist [0x00] 5))).du.msg.id = 19 := by decide

/-! ## Framing -/

/-- `DU` at the head of a stream, with framing `w` and a 32 KiB window. -/
def atHead (w : BitVec 2) (inp : List Byte) : State :=
  let s := running .head inp 0
  { s with du := { s.du with wrap := w, wbits := 15 } }
/-- V1, V4: `78 9C`, and with `FDICT`. -/
theorem test_zlibHeader :
    let d := (nextOf (exec (.zlibHeader 7 2 false 28) (atHead 1 [0x78, 0x9C]))).du
    d.mode = .type ∧ d.adler = 1 ∧ d.bits = 0 ∧
    (nextOf (exec (.zlibHeader 7 2 true 27) (atHead 1 [0x78, 0xBB]))).du.mode = .dictid := by decide
/-- E1, E3b. -/
theorem test_zlibHeader_bad :
    (nextOf (exec (.zlibHeader 7 2 false 29) (atHead 1 [0x78, 0x9D]))).du.msg.id = 5 ∧
    (nextOf (exec (.zlibHeader 8 0 false 28) (atHead 1 [0x88, 0x1C]))).du.msg.id = 7 := by decide
/-- V6. -/
theorem test_gzipHeader :
    let d := (nextOf (exec (.gzipHeader 8 0x5F000000 0 3)
      (atHead 2 [0x1F, 0x8B, 0x08, 0x08, 0x00, 0x00, 0x00, 0x5F, 0x00, 0x03]))).du
    d.mode = .exlen ∧ d.flags = 0x0808 ∧ d.cur.nextIn = 10 ∧ d.bits = 0 := by decide +kernel
/-- V26 (a): no gzip where only zlib is allowed. -/
theorem test_gzipHeader_bad :
    (nextOf (exec (.gzipHeader 8 0 0 3) (atHead 1 [0x1F, 0x8B, 0x08, 0x08, 0, 0, 0, 0, 0, 3]))).du.msg.id = 5 := by
  decide +kernel
/-- A captured gzip header in state `m`. -/
def capturing (m : Mode) (flags : Word16) (inp : List Byte) : State :=
  let s := running m inp 0
  { s with du := { s.du with wrap := 2, capture := true, flags := flags } }
theorem test_gzipFtext :
    let d := (nextOf (exec .gzipFtext (capturing .flags 0 [0x08, 0x01]))).du
    d.flags = 0x0108 ∧ d.hdr.text = true ∧ d.mode = .time := by decide
/-- E5: the header CRC of the ten bytes `1F 8B 08 02 00 00 00 00 00 03` is `A7 77`. -/
theorem test_gzipFhcrc :
    let c := crc32 0 [0x1F, 0x8B, 0x08, 0x02, 0x00, 0x00, 0x00, 0x00, 0x00, 0x03]
    let s (b : Byte) : State :=
      let s := capturing .hcrc 0x0208 [b, 0x77]
      { s with du := { s.du with check := c } }
    (nextOf (exec .gzipFhcrc (s 0xA7))).du.mode = .type ∧ (nextOf (exec .gzipFhcrc (s 0xA7))).du.hdr.hdone = 1 ∧
    (nextOf (exec .gzipFhcrc (s 0xA6))).du.msg.id = 9 := by decide +kernel
/-- V7: `XLEN = 6`, then the field. -/
theorem test_gzipFextra :
    let d := (nextOf (exec .gzipFextra (capturing .exlen 0x0408 [0x06, 0x00, 0x41, 0x42, 0x02, 0x00, 0x01, 0x02, 0x6E]))).du
    d.hdr.extra = [0x41, 0x42, 0x02, 0x00, 0x01, 0x02] ∧ d.hdr.extraLen = 6 ∧ d.mode = .name ∧ d.cur.nextIn = 8 := by decide
theorem test_gzipFname :
    let d := (nextOf (exec .gzipFname (capturing .name 0x0808 [0x6E, 0x00, 0x63]))).du
    d.hdr.name = [0x6E] ∧ d.mode = .comment ∧ d.cur.nextIn = 2 := by decide
theorem test_gzipFcomment :
    let d := (nextOf (exec .gzipFcomment (capturing .comment 0x1008 [0x63, 0x00]))).du
    d.hdr.comment = [0x63] ∧ d.mode = .hcrc := by decide
/-- E4. -/
theorem test_gzipFlgReserved :
    (nextOf (exec (.gzipFlgReserved 0xE0) (capturing .flags 0 [0x08, 0xE0]))).du.msg.id = 8 := by decide

/-! ## Functions -/

/-- F1. -/
theorem test_updateHash :
    let c := (opened 6 15).cu
    ((c.updateHash 0x48).updateHash 0x65).insH = 0x0965 ∧ (((c.updateHash 0x48).updateHash 0x65).updateHash 0x6C).insH = 0x2CCC := by
  decide +kernel
/-- F2. -/
theorem test_codes :
    [3, 10, 11, 12, 18, 19, 34, 35, 130, 131, 257, 258].map lengthCode = [0, 7, 8, 8, 11, 12, 15, 16, 23, 24, 27, 28] ∧
    [1, 4, 5, 6, 7, 256, 257, 384, 385, 24576, 24577, 32768].map distCode = [0, 3, 4, 4, 5, 15, 16, 16, 17, 28, 29, 29] := by decide
/-- F3. -/
theorem test_biReverse : biReverse 0b0011 4 = 12 ∧ biReverse 1 1 = 1 ∧ biReverse 0x1E 8 = 0x78 ∧ biReverse 0 7 = 0 := by decide
/-- F5. -/
theorem test_sendBits :
    let c : Cu := { (opened 6 15).cu with cur := Cursor.start [] 10 }
    let d := ((c.sendBits 3 3).sendBits 0x1E 8).sendBits 0xA9 8
    ((c.sendBits 3 3).sendBits 0x1E 8).biBuf = 0xF3 ∧ d.queue = [0xF3, 0x48] ∧ d.biBuf = 5 ∧ d.biValid = 3 ∧
    d.biWindup.queue = [0xF3, 0x48, 0x05] := by decide +kernel
/-- F6. -/
theorem test_checksums :
    adler32 1 [0x61] = 0x00620062 ∧ adler32 1 abc = 0x024D0127 ∧ adler32 1 h27 = 0x7DBA08EA ∧ crc32 0 abc = 0x352441C2 ∧
    crc32 0 h27 = 0x7CD8C1E1 := by decide +kernel
/-- F4, rows 1 and 6, in the bit-length tree: lengths and stored codes. -/
theorem test_buildTree :
    let c (f : List Nat) : Cu := ((opened 6 15).cu.zeroMemories.initBlock |> forRange 0 f.length fun n c =>
      c.setFreq .bl n (word16Of (f.getD n 0)))
    let t := (c [1, 1, 2, 3, 5, 8, 13, 21, 34, 55]).buildTree .bl
    let u := (c []).buildTree .bl
    (t.1.treeLens .bl 9 = [7, 7, 7, 7, 6, 6, 4, 3, 2, 1] ∧ t.2 = 9 ∧ t.1.optLen = 365 ∧
      (List.range 10).map (fun n => (t.1.node .bl n).code.toNat) = [31, 95, 63, 127, 15, 47, 7, 3, 1, 0]) ∧
    u.1.treeLens .bl 2 = [1, 1, 0] ∧ u.2 = 1 := by decide +kernel

/-- R287 (a), (b), (c), (e), (f), (g). -/
theorem test_inflateTable :
    let a := inflateTable .dists [2, 1, 3, 3] 0 6 [] []
    let b := inflateTable .dists [1, 2, 3, 4, 5, 6, 7, 7] 0 6 [] []
    let c := inflateTable .dists [1] 0 6 [] []
    (a.ret = 0 ∧ a.root = 3 ∧ a.used = 8 ∧ (List.range 8).map (Mem.rd Du.codesSize a.codes) =
      [mkEntry 16 1 2, mkEntry 16 2 1, mkEntry 16 1 2, mkEntry 16 3 3, mkEntry 16 1 2, mkEntry 16 2 1, mkEntry 16 1 2,
        mkEntry 16 3 4]) ∧
    (b.root = 6 ∧ b.used = 66 ∧ Mem.rd Du.codesSize b.codes 63 = mkEntry 1 6 64 ∧
      Mem.rd Du.codesSize b.codes 64 = mkEntry 18 1 9 ∧ Mem.rd Du.codesSize b.codes 65 = mkEntry 18 1 13) ∧
    (c.ret = 0 ∧ c.used = 2 ∧ Mem.rd Du.codesSize c.codes 0 = mkEntry 16 1 1 ∧ Mem.rd Du.codesSize c.codes 1 = mkEntry 64 1 0) ∧
    (inflateTable .dists [1, 1, 1] 0 6 [] []).ret = -1 ∧ (inflateTable .dists [2, 2] 0 6 [] []).ret = -1 ∧
    (inflateTable .codes (List.replicate 18 0 ++ [1]) 0 7 [] []).ret = -1 := by decide +kernel
/-- R191 with a `MATCH_START` that the slide has wrapped (log entry 26): the match at 761 with the start 511 in a window of 512 bytes
has the distance 250 before the slide, and after it. -/
theorem test_prevDist :
    let c : Cu := { (opened 6 (-9)).cu with strstart := 762, matchStart := 511 }
    let d : Cu := { c.slide with prevMatch := c.slide.matchStart }
    Cu.prevDist { c with prevMatch := c.matchStart } = 250 ∧ d.prevMatch = 0xFFFFFFFF ∧ d.prevDist = 250 := by decide +kernel

/-! ## Witnesses: states and operands that meet the hypotheses of the obligations, clause by clause -/

theorem cuMemWf_empty (c : Cu) (h : c.window = [] ∧ c.head = [] ∧ c.prev = [] ∧ c.pendingBuf = [] ∧ c.dBuf = [] ∧ c.lBuf = [] ∧
    c.dynLtree = [] ∧ c.dynDtree = [] ∧ c.blTree = [] ∧ c.heap = [] ∧ c.depth = [] ∧ c.blCount = []) : c.MemWf := by
  obtain ⟨h1, h2, h3, h4, h5, h6, h7, h8, h9, h10, h11, h12⟩ := h
  constructor <;> simp [h1, h2, h3, h4, h5, h6, h7, h8, h9, h10, h11, h12]

theorem duMemWf_empty (d : Du) (h : d.codes = [] ∧ d.lens = [] ∧ d.work = [] ∧ d.hwindow = []) : d.MemWf := by
  obtain ⟨h1, h2, h3, h4⟩ := h
  constructor <;> simp [h1, h2, h3, h4]

/-- Whether an answer is a next state. -/
def isNext (o : Host.Outcome State Fault Refusal) : Bool :=
  match o with
  | .next _ => true
  | _ => false

theorem next_of {o : Host.Outcome State Fault Refusal} (h : isNext o = true) : o = .next (nextOf o) := by
  cases o
  · rfl
  all_goals cases h

theorem streamWf_fresh (d : Du) (h : d.hold = 0 ∧ d.bits = 0 ∧ d.cur.nextIn = 0) : d.StreamWf :=
  ⟨by simp [h.1, h.2.1], by omega, by omega⟩

theorem ready_running (m : Mode) (inp : List Byte) (space n : Nat) (h : n ≤ 8 * inp.length) : (running m inp space).du.Ready n :=
  ⟨rfl, streamWf_fresh _ ⟨rfl, rfl, rfl⟩, by
    show n ≤ 0 + 8 * (inp.length - 0)
    omega⟩

theorem streamWf_running (m : Mode) (inp : List Byte) (space : Nat) : (running m inp space).du.StreamWf :=
  streamWf_fresh _ ⟨rfl, rfl, rfl⟩

theorem history_fresh (d : Du) (h : d.wsize = 0 ∧ d.whave = 0) : d.HistoryWf :=
  ⟨.inl h.1, by omega, by omega, by omega⟩

/-- Ten zero bytes. -/
def zeros10 : List Byte := List.replicate 10 0

/-- Legal operands of `DFL_INIT`: the smallest and the largest values. -/
theorem initOperands_low : InitOperands { (default : Operands) with windowBits := -9, memLevel := 1, strategy := 0, level := 0 }
    0 9 0 1 0 :=
  ⟨⟨by decide, by decide, by decide⟩, by decide, by decide, by decide, nofun⟩
theorem initOperands_high : InitOperands { (default : Operands) with
      windowBits := 31, memLevel := 9, strategy := 4, level := 9, gzipHeader := some ⟨true, 1, 255, true, none, some [1], none⟩ }
    2 15 9 9 4 := by
  refine ⟨⟨by decide, by decide, by decide⟩, by decide, by decide, by decide, fun _ h hh => ?_⟩
  cases hh
  exact ⟨by simp, by simp, by simp⟩

theorem witness_DecodeOfEncodeIsTheInstruction :
    (Instr.fixedLit0To143 143).wellFormed = true ∧ (Instr.fixedLit144To255 144).wellFormed = true ∧
    (Instr.entryLink 9 9 0).wellFormed = true ∧ (Instr.entryBase 9 13 0).wellFormed = true := by decide
theorem witness_DecodedInstructionsAreWellFormed : decode .fixedLl 0x1FF = .ok (.fixedLit144To255 255) := by decide

/-- A command at the head of the queue. -/
def queued (opcode : Byte) : State := { State.reset with cmds := [⟨opcode, default⟩] }
theorem witness_StepRunsTheNextCommand :
    State.reset.du.ctl = .idle ∧ State.reset.cmds = [] ∧ (queued 6).du.ctl = .idle ∧ (queued 6).cmds = ⟨6, default⟩ :: [] ∧
    decode .command (6#8).toNat = .ok .dflStat := by decide
theorem witness_StepRunsTheNextCommand_reserved :
    (queued 7).du.ctl = .idle ∧ (queued 7).cmds = ⟨7, default⟩ :: [] ∧
    (7#8).toNat ∉ [0x01, 0x02, 0x03, 0x04, 0x05, 0x06, 0x11, 0x12, 0x13, 0x14, 0x15, 0x16, 0x17] := by decide

theorem witness_StepRunsTheNextStreamInstruction :
    (let s := running .type [3] 9
     s.du.ctl = .run ∧ s.du.mode = .type ∧ s.du.last = false ∧ decode .blockHeader ((s.du.need 3).peek 3) = .ok (.blockFixed true)) ∧
    (let s := running .stored [3, 0, 0xFC, 0xFF] 9
     s.du.ctl = .run ∧ s.du.mode = .stored ∧
       decode .storedHeader (s.du.bytebits.need 32).hold.toNat = .ok (.storedLenNlen 3 0xFFFC)) ∧
    (let s := running .table [0x21, 0x38] 9
     s.du.ctl = .run ∧ s.du.mode = .table ∧ decode .dynamicHeader ((s.du.need 14).peek 14) = .ok (.dynamicCounts 1 1 14)) ∧
    (let s : State := { running .lenlens [5] 9 with du := { (running .lenlens [5] 9).du with ncode := 4 } }
     s.du.ctl = .run ∧ s.du.mode = .lenlens ∧ s.du.haveCount < s.du.ncode ∧
       decode .clLen ((s.du.need 3).peek 3) = .ok (.dynamicCllen 5)) ∧
    (let s : State := { coding [] 3 with du := { (coding [] 3).du with codes := [(0, 0x00000004)] } }
     s.du.ctl = .run ∧ s.du.mode = .codelens ∧ s.du.haveCount < s.du.nlen + s.du.ndist ∧
       entryBits (s.du.codeAt (s.du.peek s.du.lenbits)) ≤ s.du.bits ∧
       decode .tableEntry (s.du.codeAt (s.du.peek s.du.lenbits)).toNat = .ok (.entryLiteral 0 4)) ∧
    (let s : State := { running .len [] 9 with du := { (running .len [] 9).du with codes := [(0, 0x00000041)] } }
     s.du.ctl = .run ∧ s.du.mode = .len ∧ s.du.fastReady = false ∧
       entryBits (s.du.tableAt s.du.lencode (s.du.peek s.du.lenbits)) ≤ s.du.bits ∧
       decode .tableEntry (s.du.tableAt s.du.lencode (s.du.peek s.du.lenbits)).toNat = .ok (.entryLiteral 0 0x41)) ∧
    (let s : State := { running .dist [] 9 with du := { (running .dist [] 9).du with codes := [(0, 0x00100001)] } }
     s.du.ctl = .run ∧ s.du.mode = .dist ∧ entryBits (s.du.tableAt s.du.distcode (s.du.peek s.du.distbits)) ≤ s.du.bits ∧
       decode .tableEntry (s.du.tableAt s.du.distcode (s.du.peek s.du.distbits)).toNat = .ok (.entryBase 0 0 1)) := by decide
theorem witness_StepRunsTheNextStreamInstruction_framing :
    (let s := running .head [0x78, 0x9C] 9
     s.du.ctl = .run ∧ s.du.mode = .head ∧ s.du.StreamWf ∧ s.du.bits = 0 ∧ 16 ≤ s.du.aheadBits ∧
       decode .zlibHeader (s.du.ahead % 256 * 256 + s.du.ahead / 256 % 256) = .ok (.zlibHeader 7 2 false 28)) ∧
    (let s := running .head [0x1F, 0x8B, 8, 0, 0, 0, 0, 0, 0, 3] 9
     s.du.ctl = .run ∧ s.du.mode = .head ∧ s.du.StreamWf ∧ s.du.bits = 0 ∧ 80 ≤ s.du.aheadBits ∧
       decode .gzipHeader (s.du.ahead % 2 ^ 80) = .ok (.gzipHeader 0 0 0 3)) ∧
    (let s := running .flags [8, 1] 9
     s.du.ctl = .run ∧ s.du.mode = .flags ∧ s.du.StreamWf ∧ s.du.bits = 0 ∧ 16 ≤ s.du.aheadBits ∧ s.du.ahead % 256 = 8 ∧
       decode .gzipFlg (s.du.ahead / 256 % 256) = .ok .gzipFtext) ∧
    (let s := running .flags [8, 0xE0] 9
     s.du.StreamWf ∧ s.du.ahead % 256 = 8 ∧ decode .gzipFlg (s.du.ahead / 256 % 256) = .ok (.gzipFlgReserved 0xE0) ∧
       32 ≤ (Instr.gzipFlgReserved 0xE0).word) ∧
    (let s := capturing .exlen 0x0400 []
     s.du.ctl = .run ∧ s.du.mode = .exlen ∧ s.du.flags.getLsbD 10 = true) ∧
    (let s := capturing .name 0x0800 []
     s.du.ctl = .run ∧ s.du.mode = .name ∧ s.du.flags.getLsbD 11 = true) ∧
    (let s := capturing .comment 0x1000 []
     s.du.ctl = .run ∧ s.du.mode = .comment ∧ s.du.flags.getLsbD 12 = true) ∧
    (let s := capturing .hcrc 0x0200 []
     s.du.ctl = .run ∧ s.du.mode = .hcrc ∧ s.du.flags.getLsbD 9 = true) := by
  refine ⟨⟨rfl, rfl, streamWf_running .., ?_⟩, ⟨rfl, rfl, streamWf_running .., ?_⟩, ⟨rfl, rfl, streamWf_running .., ?_⟩,
    ⟨streamWf_running .., ?_⟩, ?_⟩ <;> decide +kernel

/-- A fixed-code block in state `m`. -/
def fixedIn (m : Mode) (inp : List Byte) (space : Nat) : State :=
  let s := running m inp space
  { s with du := { s.du with lencode := ⟨.lenfix, 0⟩, lenbits := 9, distcode := ⟨.distfix, 0⟩, distbits := 5 } }
theorem ready_fixedIn (m : Mode) (inp : List Byte) (space n : Nat) (h : n ≤ 8 * inp.length) : (fixedIn m inp space).du.Ready n :=
  ⟨rfl, streamWf_fresh _ ⟨rfl, rfl, rfl⟩, (ready_running m inp space n h).there⟩
/-- The last code of each length: with nothing behind it, and a literal of 9 bits. -/
theorem witness_StepRunsTheNextFixedCode :
    (let s := fixedIn .len [0x1E] 9
     s.du.mode = .len ∧ s.du.lencode = ⟨.lenfix, 0⟩ ∧ s.du.lenbits = 9 ∧ s.du.fastReady = false ∧
       decode .fixedLl (s.du.ahead % 512) = .ok (.fixedLit0To143 0x48) ∧ s.du.Ready (Instr.fixedLit0To143 0x48).bits) ∧
    (let s := fixedIn .len [0xFF, 1] 9
     s.du.fastReady = false ∧ decode .fixedLl (s.du.ahead % 512) = .ok (.fixedLit144To255 255) ∧
       s.du.Ready (Instr.fixedLit144To255 255).bits) ∧
    (let s := fixedIn .dist [0x10] 9
     s.du.mode = .dist ∧ s.du.distcode = ⟨.distfix, 0⟩ ∧ s.du.distbits = 5 ∧
       decode .fixedDist (s.du.ahead % 32) = .ok (.fixedDist 1) ∧ s.du.Ready 5) :=
  ⟨⟨rfl, rfl, rfl, by decide, by decide, ready_fixedIn _ _ _ _ (by decide)⟩,
    ⟨by decide, by decide, ready_fixedIn _ _ _ _ (by decide)⟩,
    ⟨rfl, rfl, rfl, by decide, ready_fixedIn _ _ _ _ (by decide)⟩⟩

/-- A state whose table has entries already, the first where a word is placed; a command, an instruction of the bitstream, and
the entry of literal 0, which is what an unlisted address reads as. -/
theorem witness_PlacedWordIsRunNext :
    let s : State := { State.reset with du := { Du.powerOn with mode := .len, codes := [(0, 0x08000048), (1, 0x60070000)] } }
    s.du.MemWf ∧ State.reset.du.MemWf ∧
    decodeTableWord 8 0x17 = some .iflStat ∧ Instr.format .iflStat = .command ∧
    decodeTableWord 16 286 = some (.llReserved false) ∧ Instr.format (.llReserved false) ≠ .command ∧
    decodeTableWord 9 0 = some (.lit 0) ∧ Instr.format (.lit 0) ≠ .command ∧ lensEntry 0 0 = 0 ∧
    (s.withFetchWord 9 0).du.codes = [(1, 0x60070000)] ∧
    (nextOf (step (s.withFetchWord 9 0))).du.cur.out = [0] ∧ (nextOf (exec (.lit 0) (s.withFetchWord 9 0))).du.cur.out = [0] :=
  ⟨by constructor <;> decide, duMemWf_empty _ (by decide), by decide, by decide, by decide, by decide, by decide, by decide,
    by decide, by decide, by decide, by decide⟩
theorem witness_InflatePushIsItsRounds : State.reset.du.ctl = .idle := rfl

theorem duRanges_fresh (d : Du) (h : d.hold = 0 ∧ d.bits = 0 ∧ d.extra = 0 ∧ d.nlen = 0 ∧ d.ndist = 0 ∧ d.lens = [] ∧ d.codes = []) :
    d.Ranges := by
  obtain ⟨h1, h2, h3, h4, h5, h6, h7⟩ := h
  have lens (i : Nat) : d.lensAt i = 0 := by simp only [Du.lensAt, Mem.rd, Mem.get, h6, ite_self]; rfl
  have codes (i : Nat) : d.codeAt i = 0 := by simp only [Du.codeAt, Mem.rd, Mem.get, h7, ite_self]; rfl
  refine ⟨by simp [h1, h2], by omega, fun _ => by omega, by omega, by omega, fun i => ?_, fun i => ?_⟩
  · rw [lens]; omega
  · rw [codes]; decide
theorem safe_reset : State.reset.Safe :=
  ⟨⟨cuMemWf_empty _ (by decide), duMemWf_empty _ (by decide)⟩, history_fresh _ (by decide), ⟨rfl, rfl, fun _ => ⟨rfl, rfl, rfl⟩⟩,
    fun h => absurd rfl h, duRanges_fresh _ (by decide)⟩
theorem witness_StepKeepsSafe : State.reset.Safe ∧ step State.reset = .next State.reset := ⟨safe_reset, rfl⟩

theorem witness_CuStatusTransitions :
    (let s := opened 0 (-9)
     exec .dflEnd s = .next (nextOf (exec .dflEnd s)) ∧ s.cu.status ≠ .noStream ∧ (nextOf (exec .dflEnd s)).cu.status = .noStream) ∧
    (let s : State := { State.reset with port := cuOps 0 15 }
     exec .dflInit s = .next (nextOf (exec .dflInit s)) ∧ s.cu.status = .noStream ∧
       (nextOf (exec .dflInit s)).cu.status ≠ .noStream) ∧
    (let s := feed [1] 5 9 (opened 0 15)
     exec .flushBlock s = .next (nextOf (exec .flushBlock s)) ∧ Instr.flushBlock ∈ pushRows.map (·.1) ∧
       s.cu.status.number < (nextOf (exec .flushBlock s)).cu.status.number) :=
  ⟨⟨next_of (by decide +kernel), by decide +kernel⟩, ⟨next_of (by decide +kernel), by decide +kernel⟩, next_of (by decide +kernel),
    by decide, by decide +kernel⟩
theorem witness_ConfigurationIsWrittenByInitOnly :
    exec .dflReset (opened 0 15) = .next (nextOf (exec .dflReset (opened 0 15))) ∧ Instr.dflReset ≠ .dflInit ∧
    Instr.dflReset ≠ .iflInit ∧ (opened 0 15).cu.func = selectFunc (opened 0 15).cu.level (opened 0 15).cu.strategy :=
  ⟨next_of (by decide +kernel), by decide, by decide, by decide +kernel⟩
/-- A state for every clause: each mode it speaks of, with the condition true and false, or a round that leaves it. -/
theorem witness_ModeMovesForward :
    (∀ m ∈ [Mode.head, .type, .copy, .dict, .lit, .done, .bad], let d := (running m [0, 0] 9).du
      d.ctl = .run ∧ d.mode = m ∧ d.mode ≠ .noStream ∧ d.mode ≠ .mem ∧ d.wrap = 0 ∧ d.last = false ∧ d.length = 0 ∧
        d.havedict = false ∧ d.cur.availOut ≠ 0) ∧
    (running .time [] 9).du.rule.mode = .time ∧ (running .type [6] 9).du.rule.mode = .bad ∧
    Du.rule { (running .lenlens [] 9).du with haveCount := 19, ncode := 4 } ≠ (running .lenlens [] 9).du ∧
    (Du.rule { (running .lenlens [] 9).du with haveCount := 19, ncode := 4 }).mode ≠ .lenlens ∧
    (let lens := (List.range 257).foldl (fun m i => Mem.wr 320 m i (if i = 0 ∨ i = 256 then 1#16 else 0)) []
     (Du.rule { (running .codelens [] 9).du with haveCount := 258, nlen := 257, ndist := 1, lens := lens }).mode = .len) ∧
    (Du.rule { (running .matchCopy [] 9).du with length := 2, offset := 1, cur := ⟨[], 0, [7], 9⟩ }).mode = .len := by decide +kernel
theorem witness_SinkStatesAreLeftByResetOrEndOnly :
    (waiting .bad).du.mode = .bad ∧ (waiting .bad).du.ctl = .idle ∧ (waiting .done).du.mode = .done ∧
    exec .iflStat (waiting .done) = .next (nextOf (exec .iflStat (waiting .done))) :=
  ⟨by decide, by decide, by decide, next_of (by decide)⟩

/-- An illegal and a legal use of a command of each unit. -/
theorem witness_StreamErrorCauses :
    (State.reset.du.ctl = .idle ∧ Instr.dflStat ∈ cuInstrs ++ duCommands ∧ UsageError .dflStat State.reset ∧
      Instr.dflStat ∈ cuInstrs) ∧
    (Instr.iflGethdr ∈ cuInstrs ++ duCommands ∧ UsageError .iflGethdr (waiting .head) ∧ Instr.iflGethdr ∈ duCommands) ∧
    (let s := opened 0 15
     s.du.ctl = .idle ∧ ¬ UsageError .dflStat s ∧ exec .dflStat s = .next (nextOf (exec .dflStat s)) ∧
       (nextOf (exec .dflStat s)).du.ctl = .idle) ∧
    (queued 0x77).du.ctl = .idle ∧ (queued 0x77).cmds = ⟨0x77, default⟩ :: [] ∧
    decode .command (0x77 : Byte).toNat = .error .reservedOpcode := by
  refine ⟨?_, ?_, ⟨by decide +kernel, ?_, next_of (by decide +kernel), by decide +kernel⟩, by decide +kernel⟩ <;>
    simp only [UsageError] <;> decide +kernel
/-- `DFL_PUSH` with the flush values 5, the largest, and 6. -/
theorem witness_StreamErrorCauses_flush :
    ¬ UsageError .dflPush (feed [] 5 1 (opened 0 15)) ∧ UsageError .dflPush (feed [] 6 1 (opened 0 15)) := by
  simp only [UsageError]
  decide +kernel

/-- The header is out and the queue empty. -/
def busyCu : State := { State.reset with cu := { Cu.powerOn with status := .busy, wBits := 9, litBufsize := 128, hashBits := 8 } }
theorem cuRanges_busy : busyCu.cu.Ranges := by
  refine ⟨by decide, by decide, by decide, by decide, by decide, by decide, by decide, by decide, fun n => ?_⟩
  have h (t : Cu.Tree) : busyCu.cu.node t n = default := by
    cases t <;> simp only [Cu.node, Mem.rd] <;> split <;> rfl
  rw [h, h, h]
  decide
/-- `Safe` with a stream open. -/
theorem witness_StepKeepsSafe_open : busyCu.Safe ∧ busyCu.cu.status ≠ .noStream ∧ step busyCu = .next busyCu :=
  ⟨⟨⟨cuMemWf_empty _ (by decide), duMemWf_empty _ (by decide)⟩, history_fresh _ (by decide), ⟨rfl, rfl, fun _ => ⟨rfl, rfl, rfl⟩⟩,
    fun _ => cuRanges_busy, duRanges_fresh _ (by decide)⟩, by decide, rfl⟩
theorem witness_DeflateBufErrorCauses :
    (Instr.dflPush, fun s : State => s.port.flush) ∈ pushRows ∧
    (let s := feed [] 0 0 busyCu
     s.cu.status ≠ .noStream ∧ 0 ≤ s.port.flush ∧ s.port.flush ≤ 5 ∧ (s.cu.status = .finish → s.port.flush = 4 ∧ s.port.input = []) ∧
       s.port.availOut = 0) ∧
    (let s := feed [] 0 1 busyCu
     s.port.availOut ≠ 0 ∧ s.cu.status = .busy ∧ s.cu.pending = 0 ∧ s.port.input = [] ∧ rank s.port.flush ≤ rank s.cu.lastFlush ∧
       s.port.flush ≠ 4 ∧ -1 ≤ s.cu.lastFlush ∧ s.cu.lastFlush ≤ 5) := by
  refine ⟨by simp [pushRows], ?_, ?_⟩ <;> decide

theorem witness_DflInitWritesEveryRegister :
    busyCu.cu.status ≠ .noStream ∧ levelRows[9]? = some (32, 258, 258, 4096, .slow) ∧
    ∃ s : State, s.cu.status = .noStream ∧ InitOperands s.port 2 15 9 9 4 :=
  ⟨by decide, rfl, { State.reset with port := _ }, rfl, initOperands_high⟩
theorem busyCu_memWf : busyCu.cu.MemWf := cuMemWf_empty _ (by decide)
theorem witness_DflResetKeepsTheConfiguration : busyCu.cu.MemWf ∧ busyCu.cu.status ≠ .noStream := ⟨busyCu_memWf, by decide⟩
theorem witness_DflSetdictLoadsTheDictionary :
    busyCu.cu.MemWf ∧ busyCu.cu.status ≠ .noStream ∧ (busyCu.cu.wrap = 0 ∨ busyCu.cu.wrap = 1) ∧
    (busyCu.cu.wrap = 1 → busyCu.cu.status = .init) ∧ busyCu.cu.lookahead = 0 ∧ busyCu.cu.strstart = 0 ∧
    busyCu.cu.insertCount = 0 ∧ 9 ≤ busyCu.cu.wBits := ⟨busyCu_memWf, by decide⟩
/-- Each of the three reasons for a push to be no redundant one. -/
theorem witness_DeflatePushCompletes :
    (Instr.dflPush, fun s : State => s.port.flush) ∈ pushRows ∧
    ∀ s ∈ [feed [1] 0 1 busyCu, feed [] 4 1 busyCu, feed [] 5 1 busyCu],
      s.cu.status ≠ .noStream ∧ 0 ≤ s.port.flush ∧ s.port.flush ≤ 5 ∧
      (s.cu.status = .finish → s.port.flush = 4 ∧ s.port.input = []) ∧ s.port.availOut ≠ 0 ∧
      (s.port.input ≠ [] ∨ s.port.flush = 4 ∨ rank s.cu.lastFlush < rank s.port.flush) ∧ -1 ≤ s.cu.lastFlush ∧
      s.cu.lastFlush ≤ 5 := by
  refine ⟨by simp [pushRows], ?_⟩
  decide
theorem witness_StoredStreamIsExact :
    InitOperands { (default : Operands) with windowBits := -15, memLevel := 9, strategy := 4, level := 0 } 0 15 0 9 4 ∧
    ∃ s : State, s.cu.status = .noStream ∧ InitOperands s.port 0 9 0 1 0 ∧
      exec .dflInit s = .next (nextOf (exec .dflInit s)) ∧ (List.replicate 249 (1 : Byte)).length < 2 ^ 9 - 262 ∧
      (List.replicate 249 (1 : Byte)).length + 5 < 4 * 2 ^ (1 + 6) ∧ (List.replicate 249 (1 : Byte)).length < 65535 ∧
      (List.replicate 249 (1 : Byte)).length + 5 < 255 :=
  ⟨⟨⟨by decide, by decide, by decide⟩, by decide, by decide, by decide, nofun⟩,
    { State.reset with port := _ }, rfl, initOperands_low, next_of (by decide +kernel), by decide +kernel⟩
/-- The largest block that the queue of `mem_level` 1 holds, behind six bits. -/
theorem witness_StoredStreamIsExact_block :
    let c : Cu := { sixBitsLeft with litBufsize := 128 }
    let data := List.replicate 507 (1 : Byte)
    c.MemWf ∧ c.BitsWf ∧ c.biValid ≤ 13 ∧ c.pending = 0 ∧ c.pendingOut < c.pendingSize ∧ c.cur.availOut ≠ 0 ∧
    data.length ≤ 65535 ∧ data.length + 5 ≤ c.pendingSize := by
  refine ⟨cuMemWf_empty _ (by decide), by constructor <;> decide, by decide, by decide, by decide, by decide, ?_, ?_⟩ <;>
    rw [List.length_replicate] <;> decide

theorem witness_PendingQueueIsFifo :
    let c := busyCu.cu
    c.MemWf ∧ c.pendingOut < c.pendingSize ∧ c.pending ≤ c.pendingSize ∧ c.pending < c.pendingSize :=
  ⟨busyCu_memWf, by decide⟩
/-- The run of one command, `DFL_INIT`. -/
theorem witness_QueueAndBitBufferStayInRange :
    let s : State := { State.reset with cmds := [⟨1, cuOps 0 15⟩] }
    runSteps 1 s = .next (nextOf (runSteps 1 s)) ∧ (nextOf (runSteps 1 s)).cu.status ≠ .noStream :=
  ⟨next_of (by decide +kernel), by decide +kernel⟩
theorem bitsWf_busy : busyCu.cu.BitsWf := ⟨by decide, by decide⟩
theorem witness_SendBitsAppends :
    let c := busyCu.cu
    c.MemWf ∧ c.BitsWf ∧ 16 ≤ 16 ∧ 65535 < 2 ^ 16 ∧ c.pendingOut < c.pendingSize ∧ c.pending + 2 ≤ c.pendingSize :=
  ⟨busyCu_memWf, bitsWf_busy, by decide⟩
theorem witness_FlushMarkers :
    let c := busyCu.cu
    c.MemWf ∧ c.BitsWf ∧ c.pendingOut < c.pendingSize ∧ c.pending + 8 ≤ c.pendingSize :=
  ⟨busyCu_memWf, bitsWf_busy, by decide⟩
theorem witness_ZlibHeaderIsValid : 9 ≤ busyCu.cu.wBits ∧ busyCu.cu.wBits ≤ 15 := by decide
theorem witness_SlideMovesPositions :
    let c : Cu := { busyCu.cu with strstart := 512 }
    c.MemWf ∧ c.wSize ≤ c.strstart := ⟨cuMemWf_empty _ (by decide), by decide⟩
/-- A match of four zero bytes, longer than `PREV_LENGTH`. -/
theorem witness_LongestMatchIsVerified :
    let c : Cu := { busyCu.cu with strstart := 5, lookahead := 4, prevLength := 2, niceMatch := 258, goodMatch := 8, maxChainLength := 4 }
    65535 < 2 ^ 16 ∧ c.prevLength < (c.longestMatch 1).2 := by decide +kernel
theorem witness_TallyRecordsTheSymbol :
    busyCu.cu.MemWf ∧ busyCu.cu.lastLit < busyCu.cu.litBufsize ∧ 1 ≤ 32768 ∧ 32768 ≤ 32768 ∧ 3 ≤ 258 ∧ 258 ≤ 258 :=
  ⟨busyCu_memWf, by decide⟩
/-- No symbol used, one, and three. -/
theorem witness_TreesAreCompleteCodes :
    busyCu.cu.MemWf ∧ (Cu.MemWf ((busyCu.cu.setFreq .bl 18 1).setFreq .bl 3 2)) :=
  ⟨busyCu_memWf, by constructor <;> decide +kernel⟩
theorem witness_RunLengthCodingIsLossless : ∀ l ∈ [0, 0, 0, 0, 15, 15, 15, 15, 15], l ≤ 15 := by decide
theorem witness_AdlerIsTheTwoSums : (65520#32).toNat % 65536 < 65521 ∧ (65520#32).toNat / 65536 < 65521 := by decide
theorem witness_CrcIsIncremental : crc32 0 [5] = crc32 0 [5] := rfl

theorem witness_IflInitWritesEveryRegister :
    State.reset.du.ctl = .idle ∧ State.reset.du.mode = .noStream ∧ (waiting .head).du.ctl = .idle ∧
    (waiting .head).du.mode ≠ .noStream ∧ DuWindow 41 3 9 ∧ DuWindow 15 1 15 ∧
    (true = true → (3 : BitVec 2) = 2 ∨ (3 : BitVec 2) = 3) := by
  refine ⟨rfl, rfl, rfl, by decide, ?_⟩
  unfold DuWindow
  decide
theorem witness_IflResetKeepsTheConfiguration :
    State.reset.du.ctl = .idle ∧ State.reset.du.mode = .noStream ∧ (waiting .bad).du.ctl = .idle ∧
    (waiting .bad).du.mode ≠ .noStream := by decide
theorem witness_IflSetdictAppendsToTheHistory :
    let s : State := { waiting .dict with du := { (waiting .dict).du with wrap := 1, check := 1 } }
    let t : State := { s with du := { s.du with check := 2 } }
    s.du.ctl = .idle ∧ s.du.mode ≠ .noStream ∧ (s.du.wrap = 0 ∨ s.du.mode = .dict) ∧ s.du.HistoryWf ∧ s.du.MemWf ∧
    ¬ (s.du.mode = .dict ∧ adler32 1 s.port.dictionary ≠ s.du.check) ∧
    t.du.mode = .dict ∧ adler32 1 t.port.dictionary ≠ t.du.check ∧ State.reset.du.mode = .noStream :=
  ⟨rfl, by decide, by decide, history_fresh _ (by decide), duMemWf_empty _ (by decide), by decide, by decide⟩
theorem witness_StatEndAndGethdr :
    State.reset.cu.status = .noStream ∧ busyCu.cu.status ≠ .noStream ∧
    (let s : State := { waiting .head with du := { (waiting .head).du with capture := true } }
    s.du.ctl = .idle ∧ s.du.mode ≠ .noStream ∧ s.du.capture = true) ∧ (waiting .head).du.ctl = .idle ∧
    (waiting .head).du.mode ≠ .noStream ∧ (waiting .head).du.capture = false ∧ State.reset.du.mode = .noStream := by decide
theorem witness_InflatePushRuns :
    let s := feed [] 5 1 (waiting .head)
    s.du.ctl = .idle ∧ s.du.mode ≠ .noStream ∧ 0 ≤ s.port.flush ∧ s.port.flush ≤ 5 ∧
    (nextOf (exec .iflPush s)).du.ctl = .idle := by decide +kernel
theorem safe_waiting (m : Mode) (d : List Byte) (f : Int) (n : Nat) : (feed d f n (waiting m)).Safe :=
  ⟨⟨cuMemWf_empty _ ⟨rfl, rfl, rfl, rfl, rfl, rfl, rfl, rfl, rfl, rfl, rfl, rfl⟩, duMemWf_empty _ ⟨rfl, rfl, rfl, rfl⟩⟩,
    history_fresh _ ⟨rfl, rfl⟩,
    ⟨rfl, rfl, fun _ => ⟨rfl, rfl, rfl⟩⟩, fun h => absurd rfl h, duRanges_fresh _ ⟨rfl, rfl, rfl, rfl, rfl, rfl, rfl⟩⟩
/-- In a block of the fixed codes the tables are code tables. -/
theorem tablesWf_fixed (d : Du) (h : d.lencode = ⟨.lenfix, 0⟩ ∧ d.lenbits = 9 ∧ d.distcode = ⟨.distfix, 0⟩ ∧ d.distbits = 5 ∧
    d.mode = .len) : d.TablesWf := by
  obtain ⟨h1, h2, h3, h4, h5⟩ := h
  refine ⟨fun h => ?_, fun h => ?_, fun _ => ?_⟩
  · simp [h5] at h
  · simp [h5] at h
  · rw [h1, h2, h3, h4]
    exact ⟨Du.codeTable_lenfix d, Du.codeTable_distfix d⟩
/-- A push at the head of a stream, and one inside a block of the fixed codes. -/
theorem witness_InflatePushReturns :
    (let s := feed [3, 0] 5 1 (waiting .head)
     s.Safe ∧ s.du.TablesWf ∧ s.du.StreamWf ∧ step s = .next s ∧ s.du.ctl = .idle ∧ s.du.mode ≠ .noStream ∧ 0 ≤ s.port.flush ∧
       s.port.flush ≤ 5) ∧
    (let s : State := { waiting .len with du := { (waiting .len).du with
       lencode := ⟨.lenfix, 0⟩, lenbits := 9, distcode := ⟨.distfix, 0⟩, distbits := 5 } }
     s.Safe ∧ s.du.TablesWf) :=
  ⟨⟨safe_waiting .head _ _ _, ⟨fun h => absurd h (by decide), fun h => absurd h (by decide), fun h => absurd h (by decide)⟩,
      streamWf_fresh _ ⟨rfl, rfl, rfl⟩, rfl, rfl, by decide, by decide, by decide⟩,
    ⟨⟨cuMemWf_empty _ (by decide), duMemWf_empty _ (by decide)⟩, history_fresh _ (by decide), ⟨rfl, rfl, fun _ => ⟨rfl, rfl, rfl⟩⟩,
      fun h => absurd rfl h, duRanges_fresh _ (by decide)⟩,
    tablesWf_fixed _ (by decide)⟩
theorem witness_InflatePushInASink :
    ∀ m ∈ [Mode.done, .bad, .mem, .dict], let s := feed [1] 0 1 (waiting m)
      s.BetweenCommands ∧ s.du.ctl = .idle ∧ 0 ≤ s.port.flush ∧ s.port.flush ≤ 5 ∧ s.du.mode = m ∧ s.du.havedict = false :=
  fun m _ => ⟨(safe_waiting m _ _ _).cursors, rfl, (by decide : (0 : Int) ≤ 0), (by decide : (0 : Int) ≤ 5), rfl, rfl⟩
theorem witness_InflatePushCopiesStoredData :
    let s : State := { feed [1] 0 2 (waiting .copy) with du := { (waiting .copy).du with length := 2 } }
    s.MemWf ∧ s.du.HistoryWf ∧ s.BetweenCommands ∧ s.du.ctl = .idle ∧ s.du.mode = .copy ∧ 0 ≤ s.port.flush ∧ s.port.flush ≤ 5 ∧ s.port.flush ≠ 4 ∧ s.port.input ≠ [] ∧
    s.port.input.length < s.du.length ∧ s.port.input.length < s.port.availOut := by
  refine ⟨⟨cuMemWf_empty _ (by decide), duMemWf_empty _ (by decide)⟩, history_fresh _ (by decide),
    ⟨rfl, rfl, fun _ => ⟨rfl, rfl, rfl⟩⟩, ?_⟩
  decide
/-- The empty block, and one of three bytes. -/
theorem witness_StoredStreamDecodes :
    ∀ data ∈ [[], abc], let s := feed ([1, byteOf data.length, byteOf (data.length / 256), byteOf (65535 - data.length),
        byteOf ((65535 - data.length) / 256)] ++ data) 5 data.length (waiting .head)
      s.du.ctl = .idle ∧ s.du.mode = .head ∧ s.du.wrap = 0 ∧ s.du.hold = 0 ∧ s.du.bits = 0 ∧ s.du.last = false ∧
      data.length ≤ 65535 ∧ s.port.flush = 5 ∧ data.length ≤ s.port.availOut := by decide

/-- 25 bits from none held, and 32 from a whole byte. -/
theorem witness_NeedKeepsTheStream :
    (running .len zeros10 0).du.Ready 25 ∧ (running .len zeros10 0).du.Ready 32 ∧ (running .len zeros10 0).du.bits % 8 = 0 ∧
    (let d := (running .len [1] 0).du
     d.ctl = .run ∧ d.StreamWf ∧ d.aheadBits < 25) :=
  ⟨ready_running _ _ _ _ (by decide), ready_running _ _ _ _ (by decide), rfl, rfl, streamWf_running .., by decide⟩
/-- One bit short, clause by clause. -/
theorem witness_MissingBitsSuspend :
    let s := running .type [] 0
    s.du.ctl = .run ∧ s.du.StreamWf ∧ s.du.aheadBits < 3 ∧ s.du.aheadBits < 14 ∧
    (Instr.len284, 227, 5) ∈ lengthRows ∧ s.du.aheadBits < 5 ∧
    Instr.format (.blockFixed true) = .blockHeader ∧ Instr.format (.dynamicCounts 3 1 7) = .dynamicHeader ∧
    (running .stored [1, 2, 3] 0).du.aheadBits < (running .stored [1, 2, 3] 0).du.bits % 8 + 32 ∧
    (Instr.dist29, 24577, 13) ∈ distRows ∧ (running .dist [1] 0).du.aheadBits < 13 ∧
    s.du.aheadBits < 2 ∧ Instr.format (.dynamicCllen 7) = .clLen ∧ (running .len [1] 0).du.aheadBits < (Instr.fixedLit144To255 144).bits ∧
    Instr.format (.fixedLit144To255 144) = .fixedLl ∧ Instr.format (.fixedDist 3) = .fixedDist ∧
    (15#8).toNat ≤ 15 ∧ (running .len [1] 0).du.aheadBits < (15#8).toNat ∧ (running .head [1] 0).du.aheadBits < 16 ∧
    (18#16, 7) ∈ [(16#16, 2), (17, 3), (18, 7)] ∧ (running .codelens [1] 0).du.mode = .codelens ∧
    (2#8).toNat ≤ (running .codelens [1] 0).du.aheadBits ∧ (running .codelens [1] 0).du.aheadBits < (2#8).toNat + 7 ∧
    (capturing .exlen 0x0600 [3, 0, 7, 8]).du.bits = 0 ∧
    (capturing .exlen 0x0600 [3, 0, 7, 8]).du.cur.inp.drop (capturing .exlen 0x0600 [3, 0, 7, 8]).du.cur.nextIn =
      leBytes 2 3 ++ [7, 8] ∧
    Instr.format (.zlibHeader 7 2 false 28) = .zlibHeader ∧ Instr.format (.gzipHeader 0 0 0 3) = .gzipHeader ∧
    (atHead 1 [1]).du.wrap ≠ 0 ∧
    (∀ l ∈ [[1, 2], [1, 2, 3], [1, 2, 3, 4], [1, 2, 3, 4, 5, 6, 7], [1, 2, 3, 4, 5, 6, 7, 8], [1, 2, 3, 4, 5, 6, 7, 8, 9]],
      (atHead 3 l).du.wrap = 3 ∧ (atHead 3 l).du.bits ∈ [0, 8, 16] ∧ 16 ≤ (atHead 3 l).du.aheadBits ∧ (atHead 3 l).du.aheadBits < 80) ∧
    0#8 ∉ (capturing .name 0x0800 [1]).du.cur.inp.drop (capturing .name 0x0800 [1]).du.cur.nextIn :=
  ⟨rfl, streamWf_running .., by decide⟩
theorem witness_BlockHeadersAct :
    let d : Du := { (running .type zeros10 0).du with last := true }
    (running .type zeros10 0).du.Ready 3 ∧ d.ctl = .run ∧ d.StreamWf ∧ d.mode = .type ∧ d.last = true :=
  ⟨ready_running _ _ _ _ (by decide), rfl, streamWf_fresh _ ⟨rfl, rfl, rfl⟩, rfl, rfl⟩
theorem witness_BlockHeadersAct_lengths :
    (running .stored zeros10 0).du.Ready ((running .stored zeros10 0).du.bits % 8 + 32) ∧ (0xFFFF : BitVec 16) = ~~~0 ∧
    (0 : BitVec 16) ≠ ~~~0 := ⟨ready_running _ _ _ _ (by decide), by decide⟩
theorem witness_DynamicHeadersAct :
    (running .table zeros10 0).du.MemWf ∧ (running .table zeros10 0).du.Ready 14 ∧ (running .table zeros10 0).du.Ready 3 ∧
    (running .table zeros10 0).du.haveCount < 19 :=
  ⟨duMemWf_empty _ (by decide), ready_running _ _ _ _ (by decide), ready_running _ _ _ _ (by decide), by decide⟩
/-- All lengths are there: a complete set, and one that is not. -/
theorem witness_DynamicHeadersAct_end :
    let d (v : Word16) : Du := { (running .lenlens [] 0).du with ncode := 5, haveCount := 5, lens := [(0, v), (8, 1)] }
    (d 1).MemWf ∧ (d 1).ctl = .run ∧ (d 1).mode = .lenlens ∧ (d 1).ncode ≤ (d 1).haveCount ∧ (d 1).haveCount ≤ 19 ∧
    (d 1).rule.mode = .codelens ∧ (d 2).rule.mode = .bad := by
  refine ⟨?_, by decide +kernel⟩
  constructor <;> decide
/-- All lengths are there: none for 256; one symbol alone of two bits; complete, with a distance set that is not, and that is. -/
theorem witness_CodeLengthSymbolsAct_end :
    let lens (a b c : Word16) : Mem Word16 := [(0, a), (256, b), (257, c)].filter fun e => e.2 ≠ 0
    let d (a b c : Word16) : Du := { (running .codelens [] 0).du with nlen := 257, ndist := 1, haveCount := 258, lens := lens a b c }
    (d 1 1 2).MemWf ∧ (d 1 1 2).ctl = .run ∧ (d 1 1 2).mode = .codelens ∧ (d 1 1 2).nlen + (d 1 1 2).ndist ≤ (d 1 1 2).haveCount ∧
    (d 1 1 2).nlen + (d 1 1 2).ndist ≤ 320 ∧ (d 1 0 1).rule.msg.id = 15 ∧ (d 0 2 1).rule.msg.id = 16 ∧ (d 1 1 2).rule.msg.id = 17 ∧
    (d 1 1 1).rule.mode = .len := by
  refine ⟨?_, by decide +kernel⟩
  constructor <;> decide

/-- A state in the code lengths with all the room but `left`. -/
def coded (have_ : Nat) : State :=
  let s := running .codelens zeros10 0
  { s with du := { s.du with nlen := 286, ndist := 30, haveCount := have_ } }
theorem ready_coded (h n : Nat) (hn : n ≤ 80) : (coded h).du.Ready n :=
  ⟨rfl, streamWf_fresh _ ⟨rfl, rfl, rfl⟩, (ready_running .codelens zeros10 0 n hn).there⟩
/-- The first length, a run that just fits, and one that is one too long. -/
theorem witness_CodeLengthSymbolsAct :
    ∀ h ∈ [0, 313, 314], (coded h).du.MemWf ∧ (coded h).du.ctl = .run ∧ (coded h).du.nlen + (coded h).du.ndist ≤ 320 ∧
      (coded h).du.haveCount < (coded h).du.nlen + (coded h).du.ndist ∧ (coded h).du.Ready 7 ∧
      ((coded h).du.haveCount + (3 + (coded h).du.ahead % 2 ^ 2) ≤ (coded h).du.nlen + (coded h).du.ndist ↔ h ≠ 314) := by
  intro h hm
  refine ⟨duMemWf_empty _ ⟨rfl, rfl, rfl, rfl⟩, rfl, by show 286 + 30 ≤ 320; decide, ?_, ready_coded h 7 (by decide), ?_⟩
  · simp at hm; rcases hm with rfl | rfl | rfl <;> decide
  · simp at hm; rcases hm with rfl | rfl | rfl <;> decide
theorem witness_SymbolsAct :
    (running .len [] 1).du.ctl = .run ∧ (running .len [] 1).du.cur.availOut ≠ 0 ∧ (running .len [] 0).du.ctl = .run ∧
    (running .len [] 0).du.cur.availOut = 0 := by decide
theorem witness_SymbolsAct_lengths :
    (Instr.len284, 227, 5) ∈ lengthRows ∧ (running .len [0] 0).du.Ready 5 ∧ (Instr.len257, 3, 0) ∈ lengthRows ∧
    (running .len [] 0).du.Ready 0 :=
  ⟨by decide, ready_running _ _ _ _ (by decide), by decide, ready_running _ _ _ _ (by decide)⟩
theorem witness_SymbolsAct_distances :
    (Instr.dist29, 24577, 13) ∈ distRows ∧ (running .dist zeros10 9).du.Ready 13 ∧ (running .dist zeros10 9).du.HistoryWf :=
  ⟨by decide, ready_running _ _ _ _ (by decide), history_fresh _ (by decide)⟩
/-- The two clauses of `HistoryWf` that a fresh window does not reach: a window half full, and a full one. -/
theorem witness_HistoryWf :
    Du.HistoryWf { (waiting .len).du with wsize := 512, whave := 100, wnext := 100 } ∧
    Du.HistoryWf { (waiting .len).du with wsize := 512, whave := 512, wnext := 511 } :=
  ⟨⟨.inr rfl, by decide, by decide, by decide⟩, ⟨.inr rfl, by decide, by decide, by decide⟩⟩
theorem witness_FixedCodesAct :
    (running .len zeros10 9).du.Ready 9 ∧ (143#8).toNat < 144 ∧ 144 ≤ (144#8).toNat ∧
    decode .llSymbol (279#9).toNat = .ok .len279 ∧ decode .llSymbol (287#9).toNat = .ok (.llReserved true) ∧
    decode .distSymbol (31#5).toNat = .ok (.distReserved true) := ⟨ready_running _ _ _ _ (by decide), by decide +kernel⟩
theorem witness_TableEntriesAct :
    (15#8).toNat ≤ 15 ∧ (running .len zeros10 9).du.mode = .len ∧ (running .len zeros10 9).du.Ready 15 ∧
    (255#16).toNat < 256 ∧ (running .dist zeros10 9).du.mode = .dist ∧ (running .dist zeros10 9).du.Ready 15 ∧
    decode .clSymbol (18#16).toNat = .ok .clZerosLong ∧ (coded 0).du.mode = .codelens ∧ (coded 0).du.Ready (15 + 7) ∧
    (Instr.len285, 258, 0) ∈ lengthRows ∧ (Instr.dist29, 24577, 13) ∈ distRows :=
  ⟨by decide, rfl, ready_running _ _ _ _ (by decide), by decide, rfl, ready_running _ _ _ _ (by decide), by decide, rfl,
    ready_coded _ _ (by decide), by decide, by decide⟩
/-- A link whose sub-table entry's bits are held. -/
theorem witness_TableEntriesAct_link :
    let s : State := { running .len [] 9 with du := { (running .len [] 9).du with bits := 8, codes := [(4, 0x02000042)] } }
    let e := s.du.tableAt s.du.lencode ((4#16).toNat + s.du.ahead / 2 ^ (4#8).toNat % 2 ^ (1#4).toNat)
    s.du.ctl = .run ∧ s.du.StreamWf ∧ (4#8).toNat + (1#4).toNat ≤ s.du.bits ∧ s.du.mode = .len ∧
    (4#8).toNat + entryBits e ≤ s.du.bits ∧ decode .tableEntry e.toNat = .ok (.entryLiteral 2 0x42) ∧
    ¬ (1 ≤ entryOp e ∧ entryOp e ≤ 15) :=
  ⟨rfl, ⟨by decide, by decide, by decide⟩, by decide, rfl, by decide, by decide, by decide⟩

theorem witness_ZlibHeaderActs :
    (∀ w : BitVec 2, (atHead w zeros10).du.Ready 16 ∧ (atHead w zeros10).du.bits ∈ [0, 8, 16] ∧ (atHead w zeros10).du.wrap = w) ∧
    (Instr.zlibHeader 7 2 false 29).word % 31 ≠ 0 ∧ (Instr.zlibHeader 7 2 false 28).word % 31 = 0 ∧
    (Instr.zlibHeader 8 0 false 28).word % 31 = 0 ∧ (atHead 1 zeros10).du.wbits < (8#4).toNat + 8 ∧
    (7#4).toNat + 8 ≤ (atHead 1 zeros10).du.wbits :=
  ⟨fun _ => ⟨⟨rfl, streamWf_fresh _ ⟨rfl, rfl, rfl⟩,
    (ready_running .head zeros10 0 16 (by decide)).there⟩, List.mem_cons_self, rfl⟩, by decide⟩
/-- The identifier read, not all there, and the wait. -/
theorem witness_ZlibHeaderActs_dictionary :
    (running .dictid zeros10 0).du.Ready 32 ∧ (running .dictid zeros10 0).du.mode = .dictid ∧ (running .dictid zeros10 0).du.bits % 8 = 0 ∧
    (running .dictid [1] 0).du.ctl = .run ∧ (running .dictid [1] 0).du.StreamWf ∧ (running .dictid [1] 0).du.aheadBits < 32 ∧
    (running .dict [] 0).du.ctl = .run ∧ (running .dict [] 0).du.mode = .dict ∧ (running .dict [] 0).du.havedict = false :=
  ⟨ready_running _ _ _ _ (by decide), rfl, rfl, rfl, streamWf_running .., by decide⟩
theorem witness_GzipHeaderActs :
    ∀ w : BitVec 2, (atHead w zeros10).du.Ready 80 ∧ (atHead w zeros10).du.bits ∈ [0, 8, 16] ∧ (atHead w zeros10).du.wrap = w :=
  fun _ => ⟨⟨rfl, streamWf_fresh _ ⟨rfl, rfl, rfl⟩,
    (ready_running .head zeros10 0 80 (by decide)).there⟩, List.mem_cons_self, rfl⟩
theorem witness_GzipFlagsAct :
    (let s := capturing .flags 0 [8, 2]
     s.du.ctl = .run ∧ s.du.StreamWf ∧ s.du.bits = 0 ∧ 16 ≤ s.du.aheadBits ∧ s.du.ahead % 256 = 8 ∧
       s.du.ahead % 65536 / 2 ^ 13 = 0 ∧ s.du.ahead.testBit 9 = true) ∧
    (let s := capturing .flags 0 [7, 2]
     16 ≤ s.du.aheadBits ∧ s.du.ahead % 256 ≠ 8) ∧
    (let s := capturing .exlen 0 [2, 0, 0x41, 0x42, 0x43]
     s.du.cur.inp.drop s.du.cur.nextIn = leBytes 2 [0x41#8, 0x42#8].length ++ [0x41, 0x42] ++ [0x43]) ∧
    (let s := capturing .name 0 [0x41, 0, 0x43]
     s.du.cur.inp.drop s.du.cur.nextIn = [0x41] ++ [0] ++ [0x43] ∧ 0#8 ∉ [0x41#8] ∧ s.du.length = 0 ∧ s.du.hdr.name = [] ∧
       s.du.hdr.comment = []) ∧
    32 ≤ (32#8).toNat :=
  ⟨⟨rfl, ⟨by decide, by decide, by decide⟩, by decide⟩, by decide, by decide, by decide, by decide⟩

/-- A trailer of zeros where the check is 0, and one where it is not. -/
theorem witness_TrailerIsChecked :
    (let d : Du := { (running .check zeros10 0).du with wrap := 1 }
     d.mode = .check ∧ d.wrap ≠ 0 ∧ d.bits % 8 = 0 ∧ d.Ready 32 ∧ d.flags = 0 ∧
       bytesReversed (d.ahead % 2 ^ 32) = (adler32 d.check (d.cur.out.drop d.checked)).toNat) ∧
    (let d : Du := { (running .check zeros10 0).du with wrap := 2, flags := 8, check := 1 }
     d.Ready 32 ∧ d.flags ≠ 0 ∧ d.ahead % 2 ^ 32 ≠ (crc32 d.check (d.cur.out.drop d.checked)).toNat) ∧
    (let d : Du := { (running .length zeros10 0).du with wrap := 2, flags := 8 }
     d.mode = .length ∧ d.wrap ≠ 0 ∧ d.flags ≠ 0 ∧ d.bits % 8 = 0 ∧ d.Ready 32 ∧ d.ahead % 2 ^ 32 = d.total.toNat ∧
       d.ahead % 2 ^ 32 ≠ ({ d with total := 1 } : Du).total.toNat) ∧
    (running .length [] 0).du.wrap = 0 ∧ (running .check [] 0).du.wrap = 0 := by
  have r : ∀ (d : Du), d.ctl = .run → d.hold = 0 → d.bits = 0 → d.cur = Cursor.start zeros10 0 → d.Ready 32 := by
    intro d h1 h2 h3 h4
    exact ⟨h1, ⟨by simp [h2, h3], by omega, by simp [h4, Cursor.start]⟩, by
      simp [Du.aheadBits, h3, h4, Cursor.availIn, Cursor.start, zeros10]⟩
  refine ⟨⟨rfl, by decide, rfl, r _ rfl rfl rfl rfl, rfl, by decide⟩, ⟨r _ rfl rfl rfl rfl, by decide, by decide +kernel⟩,
    ⟨rfl, by decide, by decide, rfl, r _ rfl rfl rfl rfl, by decide⟩, by decide⟩

/-- A complete set, an incomplete one, no codes, and one code of one bit; a lookup that finds a code, and one that finds none. -/
theorem witness_InflateTableDecodesTheCode :
    (∀ l ∈ [[2, 1, 3, 3], [2, 2], [0, 0, 0], [1]], (∀ x ∈ l, x ≤ 15) ∧ TableUse .dists l.length 852 6) ∧
    TableUse .lens 286 0 9 ∧ TableUse .codes 19 0 7 ∧ Mem.wf Du.codesSize ([] : Mem Word32) = true ∧
    Mem.wf Du.workSize ([] : Mem Word16) = true ∧
    (inflateTable .dists [2, 1, 3, 3] 852 6 [] []).ret = 0 ∧ AcceptedLengths .dists [2, 1, 3, 3] ∧
    ¬ AcceptedLengths .dists [2, 2] ∧ (inflateTable .dists [2, 2] 852 6 [] []).ret = -1 ∧ AcceptedLengths .dists [1] ∧
    ¬ AcceptedLengths .codes [1] ∧ codeRead 0b011 3 = canonicalCode [2, 1, 3, 3] 2 ∧
    (∀ w < 1, [1].getD w 0 ≠ 0 → codeRead 1 ([1].getD w 0) ≠ canonicalCode [1] w) := by
  unfold TableUse AcceptedLengths
  decide +kernel
/-- A block of the fixed codes with just enough input and room. -/
theorem witness_FastLoopIsTheSlowPath :
    let d := (fixedIn .len [0x4B, 4, 5, 6, 7, 8] 258).du
    d.ctl = .run ∧ d.mode = .len ∧ d.fastReady = true ∧ d.StreamWf ∧ d.bits < 8 ∧ d.TablesWf :=
  ⟨rfl, rfl, by decide, streamWf_fresh _ ⟨rfl, rfl, rfl⟩, by decide, tablesWf_fixed _ (by decide)⟩

theorem witness_HistoryWindowHoldsTheLastBytes : (waiting .len).du.HistoryWf ∧ (waiting .len).du.MemWf :=
  ⟨history_fresh _ (by decide), duMemWf_empty _ (by decide)⟩
theorem witness_UnitsAreIsolated :
    exec .dflStat busyCu = .next (nextOf (exec .dflStat busyCu)) ∧ Instr.dflStat ∈ cuInstrs ∧
    exec .eob (running .len [] 0) = .next (nextOf (exec .eob (running .len [] 0))) ∧ Instr.eob ∉ cuInstrs ∧
    (∃ s' : State, busyCu.port = s'.port ∧ busyCu.cu = s'.cu ∧ busyCu ≠ s') :=
  ⟨next_of (by decide), by decide, next_of (by decide), by decide, { busyCu with result := some (statusOnly .ok) }, rfl, rfl, by decide⟩

end Sys2Proof.Tests
end

section
/-! PROOF. `CU` and `DU` are isolated (00_scope.md R7, 46_host_commands.md R370 (b)). Isolation is one equation between two
runs of an instruction. It is closed under the forms the meanings are written in: a test on the operands and the unit's own
context, a raised status, and the writes of a unit's context with or without a result. Each command is put together from
these; an instruction of the bitstream is a write of `DU`. -/

namespace Sys2Proof.Isolation

open Sys2Proof Sys2Proof.Machine Sys2Proof.Claims

/-! ## What it is to act on one unit -/

/-- `g` acts on `CU` alone: what it answers in one state it answers in every state with the same operands and the same `CU`,
where it writes the same context and the same result and keeps the rest. -/
def CuIsolated (g : State → Answer) : Prop :=
  ∀ s s' t : State, s.port = s'.port → s.cu = s'.cu → g s = .next t → g s' = .next { s' with cu := t.cu, result := t.result }

/-- `g` acts on `DU` alone. Not each of its instructions writes a result, so the states agree on the last result too. -/
def DuIsolated (g : State → Answer) : Prop :=
  ∀ s s' t : State, s.port = s'.port → s.du = s'.du → s.result = s'.result → g s = .next t →
    g s' = .next { s' with du := t.du, result := t.result }

/-- `DuIsolated` for a meaning that is a next state. -/
def DuLocal (f : State → State) : Prop :=
  ∀ s s' : State, s.port = s'.port → s.du = s'.du → s.result = s'.result →
    f s' = { s' with du := (f s).du, result := (f s).result }

theorem CuIsolated.frame {g : State → Answer} (hg : CuIsolated g) {s t : State} (h : g s = .next t) :
    t.du = s.du ∧ t.cmds = s.cmds ∧ t.port = s.port := by
  have ht : t = { s with cu := t.cu, result := t.result } := Host.Outcome.next.inj (h.symm.trans (hg s s t rfl rfl h))
  rw [ht]
  exact ⟨rfl, rfl, rfl⟩

theorem DuIsolated.frame {g : State → Answer} (hg : DuIsolated g) {s t : State} (h : g s = .next t) :
    t.cu = s.cu ∧ t.cmds = s.cmds ∧ t.port = s.port := by
  have ht : t = { s with du := t.du, result := t.result } := Host.Outcome.next.inj (h.symm.trans (hg s s t rfl rfl rfl h))
  rw [ht]
  exact ⟨rfl, rfl, rfl⟩

/-! ## The forms of a meaning over `CU` -/

/-- A test on the operands and the unit's own context. -/
theorem CuIsolated.ite (P : Operands → Cu → Prop) [∀ p c, Decidable (P p c)] {f g : State → Answer} (hf : CuIsolated f)
    (hg : CuIsolated g) : CuIsolated fun s => if P s.port s.cu then f s else g s := by
  intro s s' t hp hc h
  by_cases hP : P s.port s.cu
  · exact (if_pos (hp ▸ hc ▸ hP)).trans (hf s s' t hp hc ((if_pos hP).symm.trans h))
  · exact (if_neg (hp ▸ hc ▸ hP)).trans (hg s s' t hp hc ((if_neg hP).symm.trans h))

/-- The command returns: it writes the unit's context and the result. -/
theorem CuIsolated.post (c : Operands → Cu → Cu) (r : Operands → Cu → Result) :
    CuIsolated fun s => .next (State.post { s with cu := c s.port s.cu } (r s.port s.cu)) := by
  rintro ⟨cmds, p, r, c, d⟩ ⟨cmds', _, r', _, d'⟩ t rfl rfl h
  rw [← Host.Outcome.next.inj h]
  rfl

/-- A status raised in `CU` is a write of its context and the result. -/
theorem raise_cu_eq_post (st : Status) (s : State) :
    s.raise .cu st =
      State.post { s with cu := if s.cu.status = .noStream then s.cu else { s.cu with msg := st.raiseMsg } }
        (Result.ofStatus st) := by
  simp only [State.raise]
  split <;> rfl

theorem CuIsolated.raise (st : Status) : CuIsolated fun s => .next (s.raise .cu st) := by
  simp only [raise_cu_eq_post]
  exact .post (fun _ c => if c.status = .noStream then c else { c with msg := st.raiseMsg }) fun _ _ => .ofStatus st

/-! ## The instructions of `CU` -/

theorem execDflInit_cuIsolated : CuIsolated execDflInit := by
  refine .ite (fun _ c => c.status ≠ .noStream) (.raise .streamError) ?_
  rintro ⟨cmds, p, r, c, d⟩ ⟨cmds', _, r', _, d'⟩ t rfl rfl
  dsimp only
  split
  · exact CuIsolated.raise _ _ _ t rfl rfl
  · exact CuIsolated.post (fun _ _ => _) (fun _ _ => _) ⟨cmds, p, r, c, d⟩ ⟨cmds', p, r', c, d'⟩ t rfl rfl

theorem execDflSetdict_cuIsolated : CuIsolated execDflSetdict :=
  .ite (fun _ c => c.status = .noStream) (.raise .streamError) <|
  .ite (fun _ c => c.wrap = 2 ∨ c.wrap < 0) (.raise .streamError) <|
  .ite (fun _ c => c.wrap = 1 ∧ c.status ≠ .init) (.raise .streamError) <|
  .ite (fun _ c => c.lookahead ≠ 0) (.raise .streamError)
  (CuIsolated.post
    (fun p c => (if c.wrap = 1 then { c with adler := adler32 c.adler p.dictionary } else c).loadDictionary p.dictionary)
    fun _ _ => okResult :)

/-- A push of `CU` whose flush value is one of its operands or fixed. -/
theorem dflPushWith_cuIsolated (flush : Operands → Int) : CuIsolated fun s => .next (s.dflPushWith (flush s.port)) := by
  rintro ⟨cmds, p, r, c, d⟩ ⟨cmds', _, r', _, d'⟩ t rfl rfl
  unfold State.dflPushWith
  dsimp only
  repeat' split
  case h_2 => exact CuIsolated.post (fun _ _ => _) (fun _ _ => _) ⟨cmds, p, r, c, d⟩ ⟨cmds', p, r', c, d'⟩ t rfl rfl
  all_goals exact CuIsolated.raise _ _ _ t rfl rfl

theorem execDflReset_cuIsolated : CuIsolated execDflReset :=
  .ite (fun _ c => c.status = .noStream) (.raise .streamError) <|
  .post (fun _ c => c.resetKeep) fun _ _ => okResult

theorem execDflEnd_cuIsolated : CuIsolated execDflEnd :=
  .ite (fun _ c => c.status = .noStream) (.raise .streamError) <|
  .post (fun _ c => { c with status := .noStream }) fun _ c => .ofStatus (if c.status = .busy then .dataError else .ok)

theorem execDflStat_cuIsolated : CuIsolated execDflStat :=
  .ite (fun _ c => c.status = .noStream) (.raise .streamError) <|
  .post (fun _ c => c) fun _ c => { okResult with stat := some ⟨c.totalIn, c.totalOut, c.adler, c.msg⟩ }

/-- Every instruction of `CU` acts on that unit alone. -/
theorem exec_cuIsolated {i : Instr} (hi : i ∈ cuInstrs) : CuIsolated (exec i) := by
  simp only [cuInstrs, List.mem_cons, List.not_mem_nil, or_false] at hi
  rcases hi with rfl | rfl | rfl | rfl | rfl | rfl | rfl | rfl | rfl | rfl | rfl | rfl
  · exact execDflInit_cuIsolated
  · exact execDflSetdict_cuIsolated
  · exact dflPushWith_cuIsolated (·.flush)
  · exact execDflReset_cuIsolated
  · exact execDflEnd_cuIsolated
  · exact execDflStat_cuIsolated
  · exact dflPushWith_cuIsolated fun _ => flushNo
  · exact dflPushWith_cuIsolated fun _ => flushPartial
  · exact dflPushWith_cuIsolated fun _ => flushSync
  · exact dflPushWith_cuIsolated fun _ => flushFull
  · exact dflPushWith_cuIsolated fun _ => flushFinish
  · exact dflPushWith_cuIsolated fun _ => flushBlock

/-! ## The forms of a meaning over `DU` -/

/-- A test on the operands and the unit's own context. -/
theorem DuLocal.ite (P : Operands → Du → Prop) [∀ p d, Decidable (P p d)] {f g : State → State} (hf : DuLocal f)
    (hg : DuLocal g) : DuLocal fun s => if P s.port s.du then f s else g s := by
  intro s s' hp hd hr
  by_cases hP : P s.port s.du
  · simpa only [hP, hp ▸ hd ▸ hP, if_true] using hf s s' hp hd hr
  · simpa only [hP, hp ▸ hd ▸ hP, if_false] using hg s s' hp hd hr

/-- A write of the unit's context alone. -/
theorem DuLocal.write (d : Operands → Du → Du) : DuLocal fun s => { s with du := d s.port s.du } := by
  rintro ⟨cmds, p, r, c, d⟩ ⟨cmds', _, _, c', _⟩ rfl rfl rfl
  rfl

/-- The command returns: it writes the unit's context and the result. -/
theorem DuLocal.post (d : Operands → Du → Du) (r : Operands → Du → Result) :
    DuLocal fun s => State.post { s with du := d s.port s.du } (r s.port s.du) := by
  rintro ⟨cmds, p, r, c, d⟩ ⟨cmds', _, _, c', _⟩ rfl rfl rfl
  rfl

/-- A status raised in `DU` is a write of its context and the result. -/
theorem raise_du_eq_post (st : Status) (s : State) :
    s.raise .du st =
      State.post { s with du := if s.du.mode = .noStream then s.du else { s.du with msg := st.raiseMsg } }
        (Result.ofStatus st) := by
  simp only [State.raise]
  split <;> rfl

theorem DuLocal.raise (st : Status) : DuLocal fun s => s.raise .du st := by
  simp only [raise_du_eq_post]
  exact .post (fun _ d => if d.mode = .noStream then d else { d with msg := st.raiseMsg }) fun _ _ => .ofStatus st

/-- One update after another. -/
theorem DuLocal.comp {f g : State → State} (hg : DuLocal g) (hf : DuLocal f) : DuLocal fun s => g (f s) := by
  intro s s' hp hd hr
  have hs : f s = { s with du := (f s).du, result := (f s).result } := hf s s rfl rfl rfl
  have hs' : f s' = { s' with du := (f s).du, result := (f s).result } := hf s s' hp hd hr
  have hport : (f s).port = (f s').port := by rw [hs, hs']; exact hp
  have h := hg (f s) (f s') hport (by rw [hs']) (by rw [hs'])
  dsimp only
  rw [h, hs']

/-- A meaning that needs its unit idle, or in a push, and faults otherwise. -/
theorem DuLocal.guarded (ctl : Ctl) (r : Fault) {f : State → State} (hf : DuLocal f) :
    DuIsolated fun s => if s.du.ctl = ctl then .next (f s) else .fault r := by
  intro s s' t hp hd hr h
  by_cases hctl : s.du.ctl = ctl
  · obtain rfl : f s = t := Host.Outcome.next.inj ((if_pos hctl).symm.trans h)
    exact (if_pos (hd ▸ hctl)).trans (congrArg _ (hf s s' hp hd hr))
  · exact absurd ((if_neg hctl).symm.trans h) (by simp)

/-- A command of `DU`. -/
theorem DuLocal.onIdleDu {f : State → State} (hf : DuLocal f) : DuIsolated (onIdleDu f) := hf.guarded .idle .unitBusy

/-- An instruction of the bitstream. -/
theorem onStream_duIsolated (f : Du → Du) : DuIsolated (onStream f) := (DuLocal.write fun _ d => f d).guarded .run .noPush

/-! ## The instructions of `DU` -/

theorem iflInit_duLocal : DuLocal State.iflInit := by
  refine .ite (fun _ d => d.mode ≠ .noStream) (.raise .streamError) ?_
  rintro ⟨cmds, p, r, c, d⟩ ⟨cmds', _, _, c', _⟩ rfl rfl rfl
  dsimp only
  repeat' split
  case isFalse => exact DuLocal.post (fun _ _ => _) (fun _ _ => _) ⟨cmds, p, r, c, d⟩ ⟨cmds', p, r, c', d⟩ rfl rfl rfl
  all_goals exact DuLocal.raise _ _ _ rfl rfl rfl

theorem iflSetdict_duLocal : DuLocal State.iflSetdict :=
  .ite (fun _ d => d.mode = .noStream) (.raise .streamError) <|
  .ite (fun _ d => d.wrap ≠ 0 ∧ d.mode ≠ .dict) (.raise .streamError) <|
  .ite (fun p d => d.mode = .dict ∧ adler32 1 p.dictionary ≠ d.check) (.raise .dataError) <|
  .post (fun p d => { d.updateWindow p.dictionary with havedict := true }) fun _ _ => okResult

theorem startPush_duLocal : DuLocal State.startPush :=
  .ite (fun _ d => d.mode = .noStream) (.raise .streamError) <|
  .ite (fun p _ => ¬ flushLegal p.flush) (.raise .streamError) <|
  .write fun p d => { d with cur := Cursor.start p.input p.availOut, ctl := .run, pushFlush := p.flush, checked := 0 }

theorem pushStep_duLocal : DuLocal State.pushStep := by
  rintro ⟨cmds, p, r, c, d⟩ ⟨cmds', _, _, c', _⟩ rfl rfl rfl
  unfold State.pushStep
  dsimp only
  split <;> rfl

/-- A whole push: it starts, its rounds run, it returns. -/
theorem iflPush_duLocal : DuLocal State.iflPush :=
  pushStep_duLocal.comp <| (DuLocal.write fun _ d => Du.runLoop d.rounds d).comp startPush_duLocal

theorem iflReset_duLocal : DuLocal State.iflReset :=
  .ite (fun _ d => d.mode = .noStream) (.raise .streamError) <|
  .post (fun _ d => d.resetKeep) fun _ _ => okResult

theorem iflEnd_duLocal : DuLocal State.iflEnd :=
  .ite (fun _ d => d.mode = .noStream) (.raise .streamError) <|
  .post (fun _ d => { d with mode := .noStream }) fun _ _ => okResult

theorem iflGethdr_duLocal : DuLocal State.iflGethdr :=
  .ite (fun _ d => d.mode = .noStream) (.raise .streamError) <|
  .ite (fun _ d => ¬ d.capture) (.raise .streamError) <|
  .post (fun _ d => d) fun _ d => { okResult with hdr := some d.hdr }

theorem iflStat_duLocal : DuLocal State.iflStat :=
  .ite (fun _ d => d.mode = .noStream) (.raise .streamError) <|
  .post (fun _ d => d) fun _ d => { okResult with stat := some ⟨d.totalIn, d.totalOut, d.adler, d.msg⟩ }

/-- Every other instruction acts on `DU` alone: its seven commands, and below them the bitstream. -/
theorem exec_duIsolated {i : Instr} (hi : i ∉ cuInstrs) : DuIsolated (exec i) := by
  cases i with
  | dflInit | dflSetdict | dflPush | dflReset | dflEnd | dflStat | flushNoFlush | flushPartialFlush | flushSyncFlush
  | flushFullFlush | flushFinish | flushBlock => exact absurd (by decide) hi
  | iflInit => exact iflInit_duLocal.onIdleDu
  | iflSetdict => exact iflSetdict_duLocal.onIdleDu
  | iflPush => exact iflPush_duLocal.onIdleDu
  | iflReset => exact iflReset_duLocal.onIdleDu
  | iflEnd => exact iflEnd_duLocal.onIdleDu
  | iflGethdr => exact iflGethdr_duLocal.onIdleDu
  | iflStat => exact iflStat_duLocal.onIdleDu
  | _ =>
    unfold exec
    exact onStream_duIsolated _

/-- Settles O60: every instruction acts on one unit alone, so the frame and the second run are the two uses of one equation. -/
theorem unitsAreIsolated : Obligations.UnitsAreIsolated := by
  intro i s t h
  by_cases hi : i ∈ cuInstrs
  · have hcu := exec_cuIsolated hi
    obtain ⟨hdu, hcmds, hport⟩ := hcu.frame h
    exact ⟨fun _ => hdu, (absurd hi ·), hcmds, hport, fun s' hp =>
      ⟨fun _ hc => ⟨_, hcu s s' t hp hc h, rfl, rfl⟩, (absurd hi ·)⟩⟩
  · have hdu := exec_duIsolated hi
    obtain ⟨hcu, hcmds, hport⟩ := hdu.frame h
    exact ⟨(absurd · hi), fun _ => hcu, hcmds, hport, fun s' hp =>
      ⟨(absurd · hi), fun _ hd hr => ⟨_, hdu s s' t hp hd hr h, rfl, rfl⟩⟩⟩

end Sys2Proof.Isolation
end

section
/-! PROOF. What a push of `CU` and a dictionary load keep of the ranges of the working registers (10_state.md R43 (a), (d), (f), (g)).
The ranges are taken over the listed entries of the trees. Emission and the matcher keep them whole; a round of a strategy loop
keeps them because what it passes lies inside the look-ahead, and because it closes the block that its tally fills. -/

namespace Sys2Proof.Machine

namespace Cu

/-! ## The ranges over the listed entries -/

/-- What `Cu.Ranges` says of emission, the configuration and the window: the tree entries taken as they are listed. -/
structure Fit (c : Cu) : Prop where
  emit       : c.Emit
  wBits      : 9 ≤ c.wBits ∧ c.wBits ≤ 15
  litBufsize : 128 ≤ c.litBufsize
  window     : c.strstart + c.lookahead ≤ c.windowSize

/-- What `Cu.Ranges` says of a match found and not yet emitted. -/
structure Found (c : Cu) : Prop where
  fast : c.func = .fast → c.matchLength ≤ 2
  slow : c.func = .slow → c.matchLength ≤ 2 ∨ c.matchLength ≤ c.lookahead + 1

/-- There is room for one more symbol before the block is full. -/
def Room (c : Cu) : Prop := c.lastLit + 1 < c.litBufsize

/-- The ranges between two rounds. -/
structure Fits (c : Cu) : Prop where
  fit   : c.Fit
  found : c.Found
  room  : c.Room

/-- The ranges right after a tally: a full block is marked in `BFLUSH` (42_tree_builder.md R231). -/
structure Tallied (c : Cu) : Prop where
  fit  : c.Fit
  full : c.bflush = false → c.Room

theorem Ranges.fits {c : Cu} (h : c.Ranges) (hm : c.MemWf) : c.Fits where
  fit :=
    { emit :=
        { bitCount := h.bitCount
          queue := h.queue
          lengths := fun t => by
            cases t
            · exact Mem.all_of_rd hm.dynLtree fun n => (h.lengths n).1
            · exact Mem.all_of_rd hm.dynDtree fun n => (h.lengths n).2.1
            · exact Mem.all_of_rd hm.blTree fun n => (h.lengths n).2.2 }
      wBits := h.wBits, litBufsize := h.litBufsize, window := h.window }
  found := ⟨h.fastMatch, h.slowMatch⟩
  room := h.tally

theorem Fits.ranges {c : Cu} (h : c.Fits) : c.Ranges where
  wBits := h.fit.wBits
  litBufsize := h.fit.litBufsize
  window := h.fit.window
  fastMatch := h.found.fast
  slowMatch := h.found.slow
  tally := h.room
  queue := h.fit.emit.queue
  bitCount := h.fit.emit.bitCount
  lengths n := ⟨h.fit.emit.len .l n, h.fit.emit.len .d n, h.fit.emit.len .bl n⟩

/-! ## Emission -/

theorem Emits.place_eq {c d : Cu} (h : c.Emits d) :
    d.strstart = c.strstart ∧ d.lookahead = c.lookahead ∧ d.matchLength = c.matchLength ∧ d.wBits = c.wBits ∧
      d.litBufsize = c.litBufsize ∧ d.func = c.func := by
  have hp := h.place
  simp only [Cu.place, Prod.mk.injEq] at hp
  exact hp

theorem Fit.of_place {c d : Cu} (h : c.Fit) (hp : d.place = c.place) (he : d.Emit) : d.Fit := by
  simp only [place, Prod.mk.injEq] at hp
  obtain ⟨hs, hl, -, hw, hb, -⟩ := hp
  exact ⟨he, hw ▸ h.wBits, hb ▸ h.litBufsize, by rw [windowSize, wSize, hs, hl, hw]; exact h.window⟩

theorem Fit.emits {c d : Cu} (h : c.Fit) (k : c.Emits d) : d.Fit := h.of_place k.place (k.emit h.emit)

theorem Found.of_place {c d : Cu} (h : c.Found) (hp : d.place = c.place) : d.Found := by
  simp only [Cu.place, Prod.mk.injEq] at hp
  obtain ⟨-, hl, hm, -, -, hf⟩ := hp
  exact ⟨by rw [hf, hm]; exact h.fast, by rw [hf, hm, hl]; exact h.slow⟩

theorem Fits.emits {c d : Cu} (h : c.Fits) (k : c.Emits d) : d.Fits :=
  ⟨h.fit.emits k, h.found.of_place k.place, by
    have := h.room
    have := k.lit
    rw [Room, k.place_eq.2.2.2.2.1]
    unfold Room at *
    omega⟩

/-- A tally that had room marks the block it fills. -/
theorem Fit.tallies {c d : Cu} (h : c.Fit) (hr : c.Room) (k : c.Tallies d) : d.Tallied := by
  refine ⟨h.of_place k.place (k.emit h.emit), fun hb => ?_⟩
  have hp := k.place
  simp only [place, Prod.mk.injEq] at hp
  have hfull : ¬ d.lastLit = d.litBufsize - 1 := of_decide_eq_false (k.full.symm.trans hb)
  have hlit := k.lit
  unfold Room at *
  omega

/-- A block whose symbols are out leaves the tally empty. -/
theorem emits_flushBlockOnly (last : Bool) (c : Cu) :
    c.Emits (c.flushBlockOnly last) ∧ (c.flushBlockOnly last).lastLit = 0 := by
  unfold flushBlockOnly
  dsimp only
  generalize hb : (if 0 ≤ c.blockStart then some (Mem.readN c.windowSize c.window c.blockStart.toNat
    ((c.strstart : Int) - c.blockStart).toNat) else none) = buf
  obtain ⟨he, hl⟩ := emits_trFlushBlock buf ((c.strstart : Int) - c.blockStart).toNat last c
  generalize c.trFlushBlock buf ((c.strstart : Int) - c.blockStart).toNat last = d at he hl ⊢
  have hs : d.Emits { d with blockStart := d.strstart } := emits_of rfl
  have hf := hs.trans (emits_flushPending _)
  exact ⟨he.trans hf, Nat.le_zero.1 (hf.lit.trans hl.le)⟩

theorem Fit.flushBlockOnly {c : Cu} (h : c.Fit) (last : Bool) :
    (c.flushBlockOnly last).Fit ∧ (c.flushBlockOnly last).place = c.place ∧ (c.flushBlockOnly last).Room := by
  obtain ⟨he, hl⟩ := emits_flushBlockOnly last c
  refine ⟨h.emits he, he.place, ?_⟩
  have := h.litBufsize
  rw [Room, hl, he.place_eq.2.2.2.2.1]
  omega

theorem Fits.flushBlockOnly {c : Cu} (h : c.Fit) (hm : c.Found) (last : Bool) : (c.flushBlockOnly last).Fits := by
  obtain ⟨hf, hp, hr⟩ := h.flushBlockOnly last
  exact ⟨hf, hm.of_place hp, hr⟩

theorem Fits.finishBlocks {c : Cu} (h : c.Fits) : c.finishBlocks.1.Fits := .flushBlockOnly h.fit h.found true

theorem Fits.blockBlocks {c : Cu} (h : c.Fits) (rest : Bool) : (c.blockBlocks rest).1.Fits := by
  unfold Cu.blockBlocks
  split
  · exact .flushBlockOnly h.fit h.found false
  · exact h

/-- What follows a loop closes the block unless it is empty, so it may have been filled before. -/
theorem Fits.finishTail {c : Cu} (h : c.Fit) (hm : c.Found) (flush : Int) : (c.finishTail flush).1.Fits := by
  unfold Cu.finishTail
  split
  · exact .flushBlockOnly h hm true
  · unfold Cu.blockBlocks
    split
    · exact .flushBlockOnly h hm false
    · rename_i h0
      have h0 : c.lastLit = 0 := by simpa using h0
      have := h.litBufsize
      exact ⟨h, hm, by dsimp only [Room]; omega⟩

theorem Tallied.closeIfFull {c : Cu} (h : c.Tallied) (hm : c.Found) : c.closeIfFull.1.Fits := by
  unfold Cu.closeIfFull
  split
  · exact .flushBlockOnly h.fit hm false
  · exact ⟨h.fit, hm, h.full (by simpa using ‹¬ c.bflush = true›)⟩

/-! ## Filling the window -/

/-- The window before a round of `fill_window` reads: slid where there is a whole half to give up (40_matcher.md R159). -/
def slid (c : Cu) : Cu := if c.wSize + c.maxDist ≤ c.strstart then c.slide else c

/-- How many bytes a round of `fill_window` has space for. -/
def space (c : Cu) : Nat :=
  c.windowSize - c.lookahead - c.strstart + if c.wSize + c.maxDist ≤ c.strstart then c.wSize else 0

/-- What a round of `fill_window` reads, with the deferred insertions. -/
def readRound (src : Source) (more : Nat) (c : Cu) : Cu × Source :=
  let (c1, src1, n) := c.readBuf src (c.strstart + c.lookahead) more
  (Cu.catchUp { c1 with lookahead := c1.lookahead + n }, src1)

theorem fillLoop_succ (fuel : Nat) (c : Cu) (src : Source) :
    fillLoop (fuel + 1) c src =
      if c.slid.srcAvail src = 0 then (c.slid, src)
      else
        let p := c.slid.readRound src c.space
        if p.1.lookahead < Config.minLookahead ∧ p.1.srcAvail p.2 ≠ 0 then fillLoop fuel p.1 p.2 else p := by
  rw [fillLoop, slid, space]
  by_cases h : c.wSize + c.maxDist ≤ c.strstart
  · rw [if_pos h, if_pos h, if_pos h]; rfl
  · rw [if_neg h, if_neg h, if_neg h]; rfl

/-- `read_buf` moves no more bytes than it is given space for, and writes data and its sums only. -/
theorem readBuf_frame (c : Cu) (src : Source) (pos size : Nat) :
    (c.readBuf src pos size).2.2 ≤ size ∧ ∃ nextIn window adler totalIn, (c.readBuf src pos size).1 =
      { c with cur := { c.cur with nextIn := nextIn }, window := window, adler := adler, totalIn := totalIn } := by
  unfold readBuf
  dsimp only
  split
  · exact ⟨Nat.zero_le _, c.cur.nextIn, c.window, c.adler, c.totalIn, rfl⟩
  · split
    · exact ⟨Nat.min_le_right .., _, _, _, _, rfl⟩
    · exact ⟨Nat.min_le_right .., c.cur.nextIn, _, c.adler, c.totalIn, rfl⟩

/-- The data of the window ends inside it. -/
def InWindow (c : Cu) : Prop := c.strstart + c.lookahead ≤ c.windowSize

/-- `d` follows `c` by filling the window: the ranges are kept, and the registers of the match found before stand as they were. -/
structure Fills (c d : Cu) : Prop where
  window : c.InWindow → d.InWindow
  fits   : c.Fits → d.Fits
  same   : d.matchLength = c.matchLength ∧ d.func = c.func
  grows  : c.lookahead ≤ d.lookahead

theorem Fills.refl (c : Cu) : c.Fills c := ⟨id, id, ⟨rfl, rfl⟩, le_refl _⟩
theorem Fills.trans {a b c : Cu} (h : a.Fills b) (k : b.Fills c) : a.Fills c :=
  ⟨k.window ∘ h.window, k.fits ∘ h.fits, ⟨k.same.1.trans h.same.1, k.same.2.trans h.same.2⟩, h.grows.trans k.grows⟩

theorem Emits.fills {c d : Cu} (h : c.Emits d) : c.Fills d := by
  obtain ⟨hs, hl, hm, hw, -, hf⟩ := h.place_eq
  exact ⟨by simp only [InWindow, windowSize, wSize, hs, hl, hw]; exact id, fun hc => hc.emits h, ⟨hm, hf⟩, hl.ge⟩

/-- The slide (40_matcher.md R160) moves the data down. -/
theorem fills_slide (c : Cu) : c.Fills c.slide := by
  have hw : c.InWindow → c.slide.InWindow := fun h => by
    have : c.strstart + c.lookahead ≤ c.windowSize := h
    show c.strstart - c.wSize + c.lookahead ≤ c.windowSize
    omega
  exact ⟨hw, fun h => ⟨⟨⟨h.fit.emit.bitCount, h.fit.emit.lengths, h.fit.emit.queue⟩, h.fit.wBits, h.fit.litBufsize,
    hw h.fit.window⟩, ⟨h.found.fast, h.found.slow⟩, h.room⟩, ⟨rfl, rfl⟩, le_refl _⟩

theorem fills_slid (c : Cu) : c.Fills c.slid := by
  unfold slid
  split
  · exact fills_slide c
  · exact .refl c

/-- The space counted is what the slide leaves behind the data. -/
theorem space_le {c : Cu} (h : c.InWindow) : c.slid.strstart + c.slid.lookahead + c.space ≤ c.slid.windowSize := by
  have hi : c.strstart + c.lookahead ≤ c.windowSize := h
  have hs : c.windowSize = 2 * c.wSize := rfl
  unfold slid space
  split
  · show c.strstart - c.wSize + c.lookahead + _ ≤ c.windowSize
    omega
  · omega

theorem fills_readRound (c : Cu) (src : Source) (more : Nat) (hm : c.strstart + c.lookahead + more ≤ c.windowSize) :
    c.Fills (c.readRound src more).1 := by
  obtain ⟨hn, nextIn, window, adler, totalIn, he⟩ := readBuf_frame c src (c.strstart + c.lookahead) more
  unfold readRound
  dsimp only
  rw [he]
  generalize (c.readBuf src (c.strstart + c.lookahead) more).2.2 = n at hn
  refine Fills.trans ?_ (emits_catchUp _).fills
  have hw : c.strstart + (c.lookahead + n) ≤ c.windowSize := by omega
  refine ⟨fun _ => hw, fun h => ⟨⟨⟨h.fit.emit.bitCount, h.fit.emit.lengths, h.fit.emit.queue⟩, h.fit.wBits, h.fit.litBufsize,
    hw⟩, ⟨h.found.fast, fun hs => ?_⟩, h.room⟩, ⟨rfl, rfl⟩, Nat.le_add_right ..⟩
  show c.matchLength ≤ 2 ∨ c.matchLength ≤ c.lookahead + n + 1
  have := h.found.slow hs
  omega

theorem fills_fillLoop : ∀ fuel (c : Cu) (src : Source), c.InWindow → c.Fills (fillLoop fuel c src).1
  | 0, c, src, _ => by rw [fillLoop]; exact .refl c
  | fuel + 1, c, src, hw => by
    have h1 := fills_slid c
    have h2 := h1.trans (fills_readRound c.slid src c.space (space_le hw))
    rw [fillLoop_succ]
    dsimp only
    generalize c.slid.readRound src c.space = p at h2 ⊢
    split
    · dsimp only
      exact h1
    · split
      · exact h2.trans (fills_fillLoop fuel p.1 p.2 (h2.window hw))
      · exact h2

theorem fills_fillWindowFrom {c : Cu} (src : Source) (hw : c.InWindow) : c.Fills (c.fillWindowFrom src).1 :=
  fills_fillLoop _ c src hw

/-! ## The strategy loops -/

/-- What keeps a property in every round and in what follows the loop keeps it over the whole strategy function. -/
theorem strategyLoop_induction {I : Cu → Prop} {round : Cu → Cu × Round} {tail : Cu → Cu × BState}
    (hr : ∀ c, I c → I (round c).1) (ht : ∀ c, I c → I (tail c).1) : ∀ fuel c, I c → I (strategyLoop round tail fuel c).1
  | 0, _, h => h
  | fuel + 1, c, h => by
    have h1 := hr c h
    rw [strategyLoop]
    split <;> rename_i he <;> rw [he] at h1
    · exact strategyLoop_induction hr ht fuel _ h1
    · exact ht _ h1
    · exact h1

/-- The look-ahead test of the loops: a loop that goes on has a byte to pass. -/
theorem fills_refill (want : Nat) (flush : Int) {c : Cu} (hw : c.InWindow) (hp : 0 < want) :
    c.Fills (c.refill want flush).1 ∧ ((c.refill want flush).2 = .again → 0 < (c.refill want flush).1.lookahead) := by
  have h := fills_fillWindowFrom none hw
  unfold refill fillWindow
  generalize (c.fillWindowFrom none).1 = d at h ⊢
  dsimp only
  split
  · split
    · exact ⟨h, nofun⟩
    · split
      · exact ⟨h, nofun⟩
      · exact ⟨h, fun _ => Nat.pos_of_ne_zero ‹_›⟩
  · exact ⟨.refl c, fun _ => by dsimp only; omega⟩

/-! ### A round behind its look-ahead test -/

/-- A round that tests the look-ahead and then does `body`. -/
def afterRefill (want : Nat) (flush : Int) (body : Cu → Cu × Round) (c : Cu) : Cu × Round :=
  match c.refill want flush with
  | (c1, .again) => body c1
  | r => r

/-- How a round ends: the block is closed if the tally has filled it. -/
def closeRound (c : Cu) : Cu × Round :=
  let (c1, full) := c.closeIfFull
  (c1, if full then .ret .needMore else .again)

/-- `c` after `n` bytes of the look-ahead. -/
def pass (n : Nat) (c : Cu) : Cu := { c with strstart := c.strstart + n, lookahead := c.lookahead - n }

/-- A round of `deflate_stored` behind its look-ahead test. -/
def storedBody (c : Cu) : Cu × Round :=
  let c2 := c.pass 1
  if (c2.strstart : Int) - c2.blockStart = c2.maxBlock then
    let c3 := c2.flushBlockOnly false
    (c3, if c3.cur.availOut = 0 then .ret .needMore else .again)
  else (c2, .again)

/-- The match that `deflate_fast` looks for from the head of a chain. -/
def fastSearch (head : Nat) (c : Cu) : Cu :=
  if head ≠ 0 ∧ c.strstart - head ≤ c.maxDist then
    let (d, l) := c.longestMatch head
    { d with matchLength := l }
  else c

/-- A round of `deflate_fast` behind its look-ahead test. -/
def fastBody (c : Cu) : Cu × Round :=
  let (c2, head) := c.insertHere
  closeRound (c2.fastSearch head).fastSymbol

/-- What `deflate_slow` does where the match at the previous position is not taken: it tallies that position's literal. -/
def slowLiteral (c : Cu) : Cu × Round :=
  let c4 := c.tallyLit (c.win (c.strstart - 1))
  let c6 := (if c4.bflush then c4.flushBlockOnly false else c4).pass 1
  (c6, if c6.cur.availOut = 0 then .ret .needMore else .again)

/-- A round of `deflate_slow` behind its look-ahead test. -/
def slowBody (c : Cu) : Cu × Round :=
  let (c2, head) := c.insertHere
  let c3 := c2.slowSearch head
  if Config.minMatch ≤ c3.prevLength ∧ c3.matchLength ≤ c3.prevLength then closeRound c3.slowEmitMatch
  else if c3.matchAvailable then c3.slowLiteral
  else (pass 1 { c3 with matchAvailable := true }, .again)

/-- The symbol that `deflate_rle` tallies (41_deflate_engine.md R192). -/
def rleSymbol (c : Cu) : Cu :=
  let c2 : Cu := { c with matchLength := c.rleLength }
  if Config.minMatch ≤ c.rleLength then { (c2.tallyMatch 1 c.rleLength).pass c.rleLength with matchLength := 0 }
  else (c2.tallyLit (c2.win c2.strstart)).pass 1

/-- The symbol that `deflate_huff` tallies (41_deflate_engine.md R193). -/
def huffSymbol (c : Cu) : Cu := (Cu.tallyLit { c with matchLength := 0 } (c.win c.strstart)).pass 1

theorem storedRound_eq (flush : Int) : storedRound flush = afterRefill 1 flush storedBody := rfl
theorem fastRound_eq (flush : Int) : fastRound flush = afterRefill Config.minLookahead flush fastBody := rfl
theorem slowRound_eq (flush : Int) : slowRound flush = afterRefill Config.minLookahead flush slowBody := rfl
theorem rleRound_eq (flush : Int) : rleRound flush = afterRefill (Config.maxMatch + 1) flush fun c => closeRound c.rleSymbol := rfl
theorem huffRound_eq (flush : Int) : huffRound flush = afterRefill 1 flush fun c => closeRound c.huffSymbol := rfl

/-! ### What the parts of a round keep -/

/-- The registers of emission and the configuration among those the ranges speak of. -/
def still (c : Cu) := (c.biValid, c.pendingOut, c.dynLtree, c.dynDtree, c.blTree, c.wBits, c.litBufsize, c.func)

/-- The ranges after the matcher has moved. -/
theorem Fit.move {c d : Cu} (h : c.Fit) (hs : d.still = c.still) (hw : d.InWindow) : d.Fit := by
  simp only [Cu.still, Prod.mk.injEq] at hs
  obtain ⟨hv, hq, h1, h2, h3, hb, hL, -⟩ := hs
  refine ⟨⟨hv ▸ h.emit.bitCount, fun t => ?_, by rw [hq, pendingSize, hL]; exact h.emit.queue⟩, hb ▸ h.wBits, hL ▸ h.litBufsize, hw⟩
  have := h.emit.lengths t
  cases t <;> simp only [nodes, h1, h2, h3] at this ⊢ <;> exact this

theorem InWindow.pass {c : Cu} (h : c.InWindow) {n : Nat} (hn : n ≤ c.lookahead) : (c.pass n).InWindow := by
  have : c.strstart + c.lookahead ≤ c.windowSize := h
  show c.strstart + n + (c.lookahead - n) ≤ c.windowSize
  omega

/-- Where no match is held over, none has to fit. -/
theorem found_of_func {c : Cu} (hf : c.func ≠ .fast) (hs : c.func ≠ .slow) : c.Found := ⟨fun h => absurd h hf, fun h => absurd h hs⟩

theorem found_of_le {c : Cu} (h : c.matchLength ≤ 2) : c.Found := ⟨fun _ => h, fun _ => .inl h⟩

/-- `d` follows `c` by insertions into the hash chains. -/
def Links (c d : Cu) : Prop := ∃ insH prev head, d = { c with insH := insH, prev := prev, head := head }

theorem Links.refl (c : Cu) : c.Links c := ⟨c.insH, c.prev, c.head, rfl⟩
theorem Links.trans {a b c : Cu} : a.Links b → b.Links c → a.Links c := by
  rintro ⟨_, _, _, rfl⟩ ⟨x, y, z, rfl⟩
  exact ⟨x, y, z, rfl⟩

theorem links_insertString (c : Cu) (s : Nat) : c.Links (c.insertString s).1 := ⟨_, _, _, rfl⟩
theorem links_insertHere (c : Cu) : c.Links c.insertHere.1 := by
  unfold insertHere
  split
  · exact links_insertString ..
  · exact .refl c

theorem links_forRange (lo n : Nat) (f : Nat → Cu → Cu) (hf : ∀ i c, Links c (f i c)) (c : Cu) : c.Links (forRange lo n f c) :=
  forRange_induction (c.Links ·) lo n f (fun i _ h => h.trans (hf i _)) c (.refl c)

/-- The match that `deflate_fast` tallies: it is passed, and strings inside it may be inserted. -/
theorem fastSymbol_match {c : Cu} (h : Config.minMatch ≤ c.matchLength) : ∃ insH prev head,
    c.fastSymbol = { (c.tallyMatch (c.strstart - c.matchStart.toNat) c.matchLength).pass c.matchLength with
      insH := insH, prev := prev, head := head, matchLength := 0 } := by
  unfold fastSymbol
  dsimp only
  rw [if_pos h]
  generalize c.tallyMatch (c.strstart - c.matchStart.toNat) c.matchLength = d
  split
  · obtain ⟨x, y, z, he⟩ := links_forRange (d.strstart + 1) (c.matchLength - 1) (fun s c => (c.insertString s).1)
      (fun _ _ => links_insertString ..) { d with lookahead := d.lookahead - c.matchLength }
    rw [he]
    exact ⟨x, y, z, rfl⟩
  · exact ⟨_, _, _, rfl⟩

theorem fastSymbol_literal {c : Cu} (h : ¬ Config.minMatch ≤ c.matchLength) :
    c.fastSymbol = (c.tallyLit (c.win c.strstart)).pass 1 := by
  unfold fastSymbol
  rw [if_neg h]
  rfl

/-- The match that `deflate_slow` emits for the previous position. -/
theorem slowEmitMatch_eq {c : Cu} (h : Config.minMatch ≤ c.prevLength) : ∃ insH prev head,
    c.slowEmitMatch = { (c.tallyMatch c.prevDist c.prevLength).pass (c.prevLength - 1) with
      insH := insH, prev := prev, head := head
      prevLength := 0, matchAvailable := false, matchLength := Config.minMatch - 1 } := by
  unfold slowEmitMatch
  dsimp only
  have hs : (c.tallyMatch c.prevDist c.prevLength).strstart = c.strstart := by
    have hp := (tallies_tallyMatch c c.prevDist c.prevLength).place
    simp only [Cu.place, Prod.mk.injEq] at hp
    exact hp.1
  generalize c.tallyMatch c.prevDist c.prevLength = d at hs ⊢
  obtain ⟨x, y, z, he⟩ := links_forRange (c.strstart + 1) (c.prevLength - 2)
    (fun s e => if s ≤ c.strstart + c.lookahead - Config.minMatch then (e.insertString s).1 else e)
    (fun s e => by split; exacts [links_insertString .., .refl e]) { d with lookahead := d.lookahead - (c.prevLength - 1) }
  have hn : c.strstart + (c.prevLength - 2) + 1 = d.strstart + (c.prevLength - 1) := by
    simp only [Config.minMatch] at h
    omega
  rw [he, hn]
  exact ⟨x, y, z, rfl⟩

/-- A symbol tallied and passed. -/
theorem Fits.tallies_pass {c d : Cu} (h : c.Fit) (hr : c.Room) (k : c.Tallies d) {n : Nat} (hn : n ≤ c.lookahead) :
    (d.pass n).Tallied := by
  have ht := h.tallies hr k
  exact ⟨ht.fit.move rfl (InWindow.pass ht.fit.window (by
    have hp := k.place
    simp only [Cu.place, Prod.mk.injEq] at hp
    exact hp.2.1 ▸ hn)), ht.full⟩

/-- `deflate_fast` passes the match or the literal it tallies. -/
theorem tallied_fastSymbol {c : Cu} (h : c.Fit) (hr : c.Room) (hl : 0 < c.lookahead)
    (hm : c.matchLength ≤ 2 ∨ c.matchLength ≤ c.lookahead) : c.fastSymbol.Tallied ∧ c.fastSymbol.matchLength ≤ 2 := by
  by_cases h3 : Config.minMatch ≤ c.matchLength
  · obtain ⟨x, y, z, he⟩ := fastSymbol_match h3
    rw [he]
    have hm : c.matchLength ≤ c.lookahead := hm.resolve_left (by simp only [Config.minMatch] at h3; omega)
    have ht := Fits.tallies_pass h hr (tallies_tallyMatch c (c.strstart - c.matchStart.toNat) c.matchLength) hm
    exact ⟨⟨ht.fit.move rfl ht.fit.window, ht.full⟩, Nat.zero_le _⟩
  · rw [fastSymbol_literal h3]
    have k := tallies_tallyLit c (c.win c.strstart)
    refine ⟨Fits.tallies_pass h hr k hl, ?_⟩
    have hp := k.place
    simp only [Cu.place, Prod.mk.injEq] at hp
    have hq : (c.tallyLit (c.win c.strstart)).matchLength = c.matchLength := hp.2.2.1
    simp only [Config.minMatch] at h3
    show (c.tallyLit (c.win c.strstart)).matchLength ≤ 2
    omega

theorem fits_storedBody {c : Cu} (h : c.Fits) (hf : c.func = .stored) (hl : 0 < c.lookahead) : c.storedBody.1.Fits := by
  have hm : (c.pass 1).Found := found_of_func (by simp [pass, hf]) (by simp [pass, hf])
  have hp : (c.pass 1).Fit := h.fit.move rfl (InWindow.pass h.fit.window hl)
  unfold storedBody
  dsimp only
  split
  · exact .flushBlockOnly hp hm false
  · exact ⟨hp, hm, h.room⟩

theorem Tallied.closeRound {c : Cu} (h : c.Tallied) (hm : c.Found) : (closeRound c).1.Fits := h.closeIfFull hm

/-- `longest_match` writes `MATCH_START` at most and answers a length inside the look-ahead (40_matcher.md R162). -/
theorem longestMatch_frame (c : Cu) (m : Nat) :
    (∃ p, (c.longestMatch m).1 = { c with matchStart := p }) ∧ (c.longestMatch m).2 ≤ c.lookahead := by
  unfold longestMatch
  dsimp only
  split
  · exact ⟨⟨_, rfl⟩, Nat.min_le_right ..⟩
  · exact ⟨⟨c.matchStart, rfl⟩, Nat.min_le_right ..⟩

/-- The search of `deflate_fast` finds nothing longer than the look-ahead. -/
theorem fastSearch_frame (head : Nat) (c : Cu) : ∃ p l, c.fastSearch head = { c with matchStart := p, matchLength := l } ∧
    (l = c.matchLength ∨ l ≤ c.lookahead) := by
  unfold fastSearch
  split
  · obtain ⟨⟨p, hp⟩, hl⟩ := longestMatch_frame c head
    dsimp only
    rw [hp]
    exact ⟨p, _, rfl, .inr hl⟩
  · exact ⟨c.matchStart, c.matchLength, rfl, .inl rfl⟩

theorem fits_fastBody {c : Cu} (h : c.Fits) (hf : c.func = .fast) (hl : 0 < c.lookahead) : c.fastBody.1.Fits := by
  obtain ⟨x, y, z, hi⟩ := links_insertHere c
  unfold fastBody
  dsimp only
  generalize c.insertHere.2 = head
  rw [hi]
  obtain ⟨p, l, hs, hm⟩ := fastSearch_frame head { c with insH := x, prev := y, head := z }
  rw [hs]
  obtain ⟨ht, hm2⟩ := tallied_fastSymbol
    (c := { c with insH := x, prev := y, head := z, matchStart := p, matchLength := l }) (h.fit.move rfl h.fit.window) h.room hl
    (hm.imp_left fun he => (show l = c.matchLength from he) ▸ h.found.fast hf)
  exact ht.closeRound (found_of_le hm2)

/-- What the lazy evaluation leaves: the match of the position before as `PREV_LENGTH`, and one inside the look-ahead. -/
theorem slowSearch_frame (head : Nat) (c : Cu) : ∃ p l,
    c.slowSearch head = { c with
      prevLength := c.matchLength, prevMatch := c.matchStart, matchStart := p, matchLength := l } ∧ (l ≤ 2 ∨ l ≤ c.lookahead) := by
  unfold slowSearch
  dsimp only
  split
  · obtain ⟨⟨p, hp⟩, hl⟩ := longestMatch_frame
      { c with prevLength := c.matchLength, prevMatch := c.matchStart, matchLength := Config.minMatch - 1 } head
    rw [hp]
    refine ⟨p, _, rfl, ?_⟩
    split
    · exact .inl (le_refl _)
    · exact .inr hl
  · exact ⟨c.matchStart, _, rfl, .inl (le_refl _)⟩

theorem fits_slowLiteral {c : Cu} (h : c.Fit) (hr : c.Room) (hf : c.func = .slow) (hl : 0 < c.lookahead)
    (hm : c.matchLength ≤ 2 ∨ c.matchLength ≤ c.lookahead) : c.slowLiteral.1.Fits := by
  have k := tallies_tallyLit c (c.win (c.strstart - 1))
  have ht := h.tallies hr k
  have hp := k.place
  unfold slowLiteral
  generalize c.tallyLit (c.win (c.strstart - 1)) = d at ht hp
  have hd : ∃ e, (if d.bflush then d.flushBlockOnly false else d) = e ∧ e.Fit ∧ e.Room ∧ e.place = c.place := by
    refine ⟨_, rfl, ?_⟩
    split
    · obtain ⟨h1, h2, h3⟩ := ht.fit.flushBlockOnly false
      exact ⟨h1, h3, h2.trans hp⟩
    · exact ⟨ht.fit, ht.full (by simpa using ‹¬ d.bflush = true›), hp⟩
  obtain ⟨e, he, hfit, hroom, hpl⟩ := hd
  simp only [Cu.place, Prod.mk.injEq] at hpl
  obtain ⟨-, ha, hml, -, -, hfe⟩ := hpl
  dsimp only
  rw [he]
  refine ⟨hfit.move rfl (InWindow.pass hfit.window (by omega)), ⟨fun hk => ?_, fun _ => ?_⟩, hroom⟩
  · exact absurd (hk.symm.trans (hfe.trans hf)) (by decide)
  · show e.matchLength ≤ 2 ∨ e.matchLength ≤ e.lookahead - 1 + 1
    omega

theorem fits_slowBody {c : Cu} (h : c.Fits) (hf : c.func = .slow) (hl : 0 < c.lookahead) : c.slowBody.1.Fits := by
  obtain ⟨x, y, z, hi⟩ := links_insertHere c
  unfold slowBody
  dsimp only
  generalize c.insertHere.2 = head
  rw [hi]
  obtain ⟨p, l, hs, hm⟩ := slowSearch_frame head { c with insH := x, prev := y, head := z }
  rw [hs]
  generalize hd : ({ c with
      insH := x, prev := y, head := z, prevLength := c.matchLength, prevMatch := c.matchStart, matchStart := p
      matchLength := l } : Cu) = d
  have hfit : d.Fit := by rw [← hd]; exact h.fit.move rfl h.fit.window
  have hroom : d.Room := by rw [← hd]; exact h.room
  have hfd : d.func = .slow := by rw [← hd]; exact hf
  have hla : d.lookahead = c.lookahead := by rw [← hd]
  have hml : d.matchLength ≤ 2 ∨ d.matchLength ≤ d.lookahead := by rw [← hd]; exact hm
  have hpl : d.prevLength ≤ 2 ∨ d.prevLength ≤ d.lookahead + 1 := by rw [← hd]; exact h.found.slow hf
  split
  · rename_i hc
    obtain ⟨x, y, z, he⟩ := slowEmitMatch_eq hc.1
    rw [he]
    have h3 := hc.1
    simp only [Config.minMatch] at h3
    have ht := Fits.tallies_pass hfit hroom (tallies_tallyMatch d d.prevDist d.prevLength) (n := d.prevLength - 1) (by omega)
    exact Tallied.closeRound ⟨ht.fit.move rfl ht.fit.window, ht.full⟩ (found_of_le (le_refl _))
  · split
    · exact fits_slowLiteral hfit hroom hfd (hla ▸ hl) hml
    · refine ⟨hfit.move rfl (InWindow.pass (n := 1) hfit.window (by omega)), ⟨fun hk => ?_, fun _ => ?_⟩, hroom⟩
      · exact absurd (hk.symm.trans hfd) (by decide)
      · show d.matchLength ≤ 2 ∨ d.matchLength ≤ d.lookahead - 1 + 1
        omega

theorem runLen_le (c : Cu) (p : Byte) : ∀ cap q, c.runLen p cap q ≤ cap
  | 0, _ => le_refl _
  | cap + 1, q => by
    have := runLen_le c p cap (q + 1)
    rw [runLen]
    split <;> omega

/-- The run that `deflate_rle` codes lies inside the look-ahead. -/
theorem rleLength_le (c : Cu) : c.rleLength ≤ c.lookahead ∧ c.rleLength ≤ 258 := by
  unfold rleLength
  split
  · have := runLen_le c (c.win (c.strstart - 1)) (min Config.maxMatch c.lookahead) c.strstart
    dsimp only
    generalize c.runLen (c.win (c.strstart - 1)) (min Config.maxMatch c.lookahead) c.strstart = l at this ⊢
    simp only [Config.maxMatch] at this
    split <;> omega
  · omega

theorem Tallies.func_eq {c d : Cu} (h : c.Tallies d) : d.func = c.func := by
  have hp := h.place
  simp only [Cu.place, Prod.mk.injEq] at hp
  exact hp.2.2.2.2.2

theorem tallied_rleSymbol {c : Cu} (h : c.Fit) (hr : c.Room) (hl : 0 < c.lookahead) :
    c.rleSymbol.Tallied ∧ c.rleSymbol.func = c.func := by
  have hd : Fit { c with matchLength := c.rleLength } := h.move rfl h.window
  unfold rleSymbol
  dsimp only
  split
  · have k := tallies_tallyMatch { c with matchLength := c.rleLength } 1 c.rleLength
    have ht := Fits.tallies_pass hd hr k (rleLength_le c).1
    exact ⟨⟨ht.fit.move rfl ht.fit.window, ht.full⟩, k.func_eq⟩
  · have k := tallies_tallyLit { c with matchLength := c.rleLength } (win { c with matchLength := c.rleLength } c.strstart)
    exact ⟨Fits.tallies_pass hd hr k hl, k.func_eq⟩

theorem tallied_huffSymbol {c : Cu} (h : c.Fit) (hr : c.Room) (hl : 0 < c.lookahead) :
    c.huffSymbol.Tallied ∧ c.huffSymbol.func = c.func := by
  have k := tallies_tallyLit { c with matchLength := 0 } (c.win c.strstart)
  exact ⟨Fits.tallies_pass (c := { c with matchLength := 0 }) (h.move rfl h.window) hr k hl, k.func_eq⟩

/-! ### The loops and what follows them -/

theorem Moves.func_eq {c d : Cu} (h : c.Moves d) : d.func = c.func := by
  have hf := h.fixed
  simp only [Cu.fixed, Prod.mk.injEq] at hf
  exact hf.2.2.2.2.2.2.2.2.2.1

theorem fits_afterRefill (want : Nat) (flush : Int) {body : Cu → Cu × Round} {f : Func} (hp : 0 < want)
    (hb : ∀ c : Cu, c.Fits → c.func = f → 0 < c.lookahead → (body c).1.Fits) {c : Cu} (h : c.Fits) (hf : c.func = f) :
    (afterRefill want flush body c).1.Fits := by
  obtain ⟨h1, hl⟩ := fills_refill want flush h.fit.window hp
  unfold afterRefill
  generalize c.refill want flush = p at h1 hl ⊢
  obtain ⟨c1, r⟩ := p
  cases r with
  | again => exact hb c1 (h1.fits h) (h1.same.2.trans hf) (hl rfl)
  | exitLoop => exact h1.fits h
  | ret b => exact h1.fits h

/-- A strategy function keeps the ranges, if its rounds and what follows them do. -/
theorem fits_strategyLoop {f : Func} {round : Cu → Cu × Round} {tail : Cu → Cu × BState}
    (hr : ∀ c : Cu, c.Fits → c.func = f → (round c).1.Fits) (hm : ∀ c, Moves c (round c).1)
    (ht : ∀ c : Cu, c.Fits → (tail c).1.Fits) (hn : ∀ c, Moves c (tail c).1) (fuel : Nat) {c : Cu} (h : c.Fits)
    (hf : c.func = f) : (strategyLoop round tail fuel c).1.Fits :=
  (strategyLoop_induction (I := fun c => c.Fits ∧ c.func = f) (fun c h => ⟨hr c h.1 h.2, (hm c).func_eq.trans h.2⟩)
    (fun c h => ⟨ht c h.1, (hn c).func_eq.trans h.2⟩) fuel c ⟨h, hf⟩).1

theorem fits_storedTail (flush : Int) {c : Cu} (h : c.Fits) : (c.storedTail flush).1.Fits := by
  have h1 : Fits { c with insertCount := 0 } := h.emits (emits_of rfl)
  unfold storedTail
  dsimp only
  split
  · exact h1.finishBlocks
  · exact h1.blockBlocks _

theorem fits_runTail (flush : Int) {c : Cu} (h : c.Fits) : (c.runTail flush).1.Fits := by
  have h1 : Fits { c with insertCount := 0 } := h.emits (emits_of rfl)
  exact .finishTail h1.fit h1.found flush

theorem fits_fastTail (flush : Int) {c : Cu} (h : c.Fit) (hm : c.Found) : (c.fastTail flush).1.Fits := by
  have k : c.Emits { c with insertCount := min c.strstart (Config.minMatch - 1) } := emits_of rfl
  exact .finishTail (h.emits k) (hm.of_place k.place) flush

theorem fits_slowTail (flush : Int) {c : Cu} (h : c.Fits) : (c.slowTail flush).1.Fits := by
  unfold slowTail
  dsimp only
  split
  · have k := tallies_tallyLit c (c.win (c.strstart - 1))
    have ht := h.fit.tallies h.room k
    have hm := h.found.of_place k.place
    generalize c.tallyLit (c.win (c.strstart - 1)) = d at ht hm ⊢
    exact fits_fastTail flush (c := { d with matchAvailable := false }) (ht.fit.move rfl ht.fit.window) ⟨hm.fast, hm.slow⟩
  · exact fits_fastTail flush h.fit h.found

/-- Every strategy function (41_deflate_engine.md R186). -/
theorem fits_runFunc (flush : Int) {c : Cu} (h : c.Fits) : (c.runFunc flush).1.Fits := by
  unfold runFunc
  split <;> rename_i hf
  · refine fits_strategyLoop (fun c h hf => ?_) (moves_storedRound flush) (fun c h => fits_storedTail flush h)
      (moves_storedTail flush) _ h hf
    rw [storedRound_eq]
    exact fits_afterRefill 1 flush Nat.one_pos (fun c => fits_storedBody) h hf
  · refine fits_strategyLoop (fun c h hf => ?_) (moves_fastRound flush) (fun c h => fits_fastTail flush h.fit h.found)
      (moves_fastTail flush) _ h hf
    rw [fastRound_eq]
    exact fits_afterRefill Config.minLookahead flush (by decide) (fun c => fits_fastBody) h hf
  · refine fits_strategyLoop (fun c h hf => ?_) (moves_slowRound flush) (fun c h => fits_slowTail flush h)
      (moves_slowTail flush) _ h hf
    rw [slowRound_eq]
    exact fits_afterRefill Config.minLookahead flush (by decide) (fun c => fits_slowBody) h hf
  · refine fits_strategyLoop (fun c h hf => ?_) (moves_rleRound flush) (fun c h => fits_runTail flush h)
      (moves_runTail flush) _ h hf
    rw [rleRound_eq]
    refine fits_afterRefill (Config.maxMatch + 1) flush (by decide) (fun c h hf hl => ?_) h hf
    obtain ⟨ht, hk⟩ := tallied_rleSymbol h.fit h.room hl
    exact ht.closeRound (found_of_func (by simp [hk, hf]) (by simp [hk, hf]))
  · refine fits_strategyLoop (fun c h hf => ?_) (moves_huffRound flush) (fun c h => fits_runTail flush h)
      (moves_runTail flush) _ h hf
    rw [huffRound_eq]
    refine fits_afterRefill 1 flush Nat.one_pos (fun c h hf hl => ?_) h hf
    obtain ⟨ht, hk⟩ := tallied_huffSymbol h.fit h.room hl
    exact ht.closeRound (found_of_func (by simp [hk, hf]) (by simp [hk, hf]))

/-! ## The push -/

theorem fits_fullFlushClear {c : Cu} (h : c.Fits) : c.fullFlushClear.Fits := by
  unfold fullFlushClear
  dsimp only
  split
  · rename_i hl
    refine ⟨h.fit.move rfl ?_, ⟨h.found.fast, h.found.slow⟩, h.room⟩
    show 0 + c.lookahead ≤ c.windowSize
    omega
  · exact h.emits (emits_of rfl)

theorem fits_flushMarker (flush : Int) {c : Cu} (h : c.Fits) : (c.flushMarker flush).Fits := by
  unfold flushMarker
  split
  · exact h.emits (emits_trAlign c)
  · split
    · have h1 := h.emits (emits_trStoredBlock [] false c)
      dsimp only
      split
      · exact fits_fullFlushClear h1
      · exact h1
    · exact h

theorem fits_runStrategy (flush : Int) {c : Cu} (h : c.Fits) : (c.runStrategy flush).1.Fits := by
  have h1 := fits_runFunc flush h
  unfold runStrategy
  generalize c.runFunc flush = p at h1 ⊢
  obtain ⟨c1, b⟩ := p
  dsimp only at h1 ⊢
  have h2 : (if b = .finishStarted ∨ b = .finishDone then { c1 with status := .finish } else c1).Fits := by
    split
    · exact h1.emits (emits_of rfl)
    · exact h1
  generalize (if b = .finishStarted ∨ b = .finishDone then ({ c1 with status := .finish } : Cu) else c1) = c2 at h2 ⊢
  have h3 : (if c2.cur.availOut = 0 then { c2 with lastFlush := -1 } else c2).Fits := by
    split
    · exact h2.emits (emits_of rfl)
    · exact h2
  have h4 := (fits_flushMarker flush h2).emits (emits_flushPending _)
  cases b
  · exact h3
  · dsimp only
    split
    · exact h4.emits (emits_of rfl)
    · exact h4
  · exact h3
  · exact h2

theorem emits_writeTrailer (c : Cu) : c.Emits c.writeTrailer := by
  have h := (emits_putBytes c c.trailerBytes).trans (emits_flushPending _)
  unfold writeTrailer
  generalize (c.putBytes c.trailerBytes).flushPending = d at h ⊢
  exact h.trans (emits_of rfl)

theorem fits_pushCode (flush : Int) {c : Cu} (h : c.Fits) : (c.pushCode flush).1.Fits := by
  have h1 : (if c.cur.availIn ≠ 0 ∨ c.lookahead ≠ 0 ∨ (flush ≠ flushNo ∧ c.status ≠ .finish) then c.runStrategy flush
      else (c, false)).1.Fits := by
    split
    · exact fits_runStrategy flush h
    · exact h
  unfold pushCode
  generalize (if c.cur.availIn ≠ 0 ∨ c.lookahead ≠ 0 ∨ (flush ≠ flushNo ∧ c.status ≠ .finish) then c.runStrategy flush
      else (c, false)) = p at h1 ⊢
  obtain ⟨c1, ret⟩ := p
  dsimp only at h1 ⊢
  split
  · exact h1
  · split
    · exact h1
    · split
      · exact h1
      · exact h1.emits (emits_writeTrailer c1)

theorem emits_fieldCrc (hc : Bool) (n : Nat) (c : Cu) : c.Emits (c.fieldCrc hc n) := emits_ite (emits_of rfl) (.refl c)

theorem emits_emitLoop (data : List Byte) (z hc : Bool) : ∀ fuel n c, Emits c (emitLoop data z hc fuel n c).1
  | 0, _, c => by rw [emitLoop]; exact .refl c
  | fuel + 1, n, c => by
    have h1 : c.Emits (if c.pending = c.pendingSize then (c.fieldCrc hc n).flushPending else c) :=
      emits_ite ((emits_fieldCrc hc n c).trans (emits_flushPending _)) (.refl c)
    rw [emitLoop]
    dsimp only
    generalize (if c.pending = c.pendingSize then (c.fieldCrc hc n).flushPending else c) = c1 at h1 ⊢
    have h2 : c.Emits (Cu.putByte { c1 with gzindex := c1.gzindex + 1 } (data.getD c1.gzindex 0#8)) := h1.trans (emits_of rfl)
    split
    · dsimp only
      exact .refl c
    · split
      · exact h1
      · split
        · exact h2
        · exact h2.trans (emits_emitLoop data z hc fuel _ _)

theorem emits_doField (field : Option (List Byte)) (z hc : Bool) (next : CuStatus) (c : Cu) :
    c.Emits (c.doField field z hc next) := by
  unfold doField
  split
  · exact emits_of rfl
  · rename_i data
    have h1 : c.Emits (c.emitField data z hc).1 :=
      (emits_emitLoop data z hc (data.length + 2) c.pending c).trans (emits_fieldCrc hc _ _)
    generalize c.emitField data z hc = p at h1 ⊢
    dsimp only
    exact emits_ite (h1.trans (emits_of rfl)) h1

theorem emits_doHcrc (r : GzHeader) (c : Cu) : c.Emits (c.doHcrc r) := by
  unfold doHcrc
  refine emits_ite (emits_of rfl) ?_
  have h1 := emits_makeRoom 2 c
  dsimp only
  generalize c.makeRoom 2 = c1 at h1 ⊢
  exact emits_ite (h1.trans (emits_of rfl)) h1

theorem emits_headerFields (c : Cu) : c.Emits c.headerFields := by
  unfold headerFields
  split
  · exact .refl c
  · rename_i r _
    have step : ∀ (st : CuStatus) {f : Cu → Cu}, (∀ x : Cu, x.Emits (f x)) → ∀ x : Cu,
        x.Emits (if x.status = st then f x else x) := fun st f hf x => emits_ite (hf x) (.refl x)
    dsimp only
    refine Emits.trans ?_ (step .hcrc (emits_doHcrc r) _)
    refine Emits.trans ?_ (step .comment (f := doComment r) (emits_doField r.comment true r.hcrc .hcrc) _)
    refine Emits.trans ?_ (step .name (f := doName r) (emits_doField r.name true r.hcrc .comment) _)
    exact step .extra (f := doExtra r) (emits_doField r.extra false r.hcrc .name) c

theorem emits_emitHeader (c : Cu) : c.Emits c.emitHeader := by
  unfold emitHeader
  refine emits_ite ?_ ?_
  · have h0 : c.Emits { c with adler := 0 } := emits_of rfl
    unfold emitGzipHeader
    split
    · exact (h0.trans (emits_putBytes ..)).trans (emits_regs ..)
    · exact (h0.trans (emits_putBytes ..)).trans (emits_regs ..)
  · have h0 : c.Emits { c with status := .busy } := emits_of rfl
    have h1 := h0.trans (emits_putShortMsb _ c.zlibHeaderWord)
    unfold emitZlibHeader
    dsimp only
    generalize Cu.putShortMsb { c with status := .busy } c.zlibHeaderWord = d at h1 ⊢
    exact (emits_ite (h1.trans ((emits_putShortMsb ..).trans (emits_putShortMsb ..))) h1).trans (emits_of rfl)

/-- A push keeps the ranges (41_deflate_engine.md R182). -/
theorem fits_push (flush : Int) {c : Cu} (h : c.Fits) : (c.push flush).1.Fits := by
  have h1 : Fits { c with lastFlush := flush } := h.emits (emits_of rfl)
  unfold push
  generalize ({ c with lastFlush := flush } : Cu) = c1 at h1 ⊢
  dsimp only
  have h2 : (if c1.status = .init then c1.emitHeader else c1).Fits := h1.emits (emits_ite (emits_emitHeader c1) (.refl c1))
  generalize (if c1.status = .init then c1.emitHeader else c1) = c2 at h2 ⊢
  have h3 := h2.emits (emits_headerFields c2)
  generalize c2.headerFields = c3 at h3 ⊢
  have h4 := h3.emits (emits_flushPending c3)
  split
  · generalize c3.flushPending = c4 at h4 ⊢
    split
    · exact h4.emits (emits_of rfl)
    · exact fits_pushCode flush h4
  · split
    · exact h3
    · exact fits_pushCode flush h3

/-! ## The dictionary -/

/-- No match is held over, so one byte of look-ahead more or less makes none too long. -/
def Free (c : Cu) : Prop := c.func = .fast ∨ c.func = .slow → c.matchLength ≤ 2

theorem Free.found {c : Cu} (h : c.Free) : c.Found := ⟨fun hf => h (.inl hf), fun hs => .inl (h (.inr hs))⟩

theorem Free.fills {c d : Cu} (h : c.Free) (k : c.Fills d) : d.Free := by
  rw [Free, k.same.1, k.same.2]
  exact h

theorem fits_dictLoop : ∀ fuel {c : Cu} (src : Source), c.Fits → c.Free → (dictLoop fuel c src).Fits
  | 0, c, src, h, _ => by rw [dictLoop]; exact h
  | fuel + 1, c, src, h, hm => by
    rw [dictLoop]
    split
    · rename_i hl
      simp only [Config.minMatch] at hl
      obtain ⟨x, y, z, he⟩ := links_forRange c.strstart (c.lookahead - (Config.minMatch - 1)) dictInsert
        (fun _ _ => ⟨_, _, _, rfl⟩) c
      dsimp only
      rw [he]
      have hw := h.fit.window
      generalize hd : ({ c with
          insH := x, prev := y, head := z, strstart := c.strstart + (c.lookahead - (Config.minMatch - 1))
          lookahead := Config.minMatch - 1 } : Cu) = d
      have hfree : d.Free := by rw [← hd]; exact hm
      have hfits : d.Fits := by
        refine ⟨?_, hfree.found, by rw [← hd]; exact h.room⟩
        rw [← hd]
        refine h.fit.move rfl ?_
        show c.strstart + (c.lookahead - (3 - 1)) + (3 - 1) ≤ c.windowSize
        omega
      have hk := fills_fillWindowFrom src hfits.fit.window
      exact fits_dictLoop fuel _ (hk.fits hfits) (hfree.fills hk)
    · exact h

/-- The window that `load_dictionary` begins with: cleared where the dictionary fills it (40_matcher.md R168). -/
def dictStart (d : List Byte) (c : Cu) : Cu :=
  if c.wSize ≤ d.length ∧ c.wrap = 0 then { c with head := [], strstart := 0, blockStart := 0, insertCount := 0 } else c

/-- The part of a dictionary that is loaded. -/
def dictPart (d : List Byte) (c : Cu) : List Byte := if c.wSize ≤ d.length then d.drop (d.length - c.wSize) else d

/-- `load_dictionary` up to its last writes. -/
def dictLoaded (d : List Byte) (c : Cu) : Cu :=
  let p := (c.dictStart d).fillWindowFrom (some (c.dictPart d))
  dictLoop ((c.dictPart d).length + p.1.lookahead + 1) p.1 p.2

/-- Its last writes. -/
def dictFinish (c : Cu) : Cu :=
  { c with
    strstart := c.strstart + c.lookahead
    blockStart := ((c.strstart + c.lookahead : Nat) : Int)
    insertCount := c.lookahead
    lookahead := 0
    matchLength := 2
    prevLength := 2
    matchAvailable := false }

theorem loadDictionary_eq (d : List Byte) (c : Cu) : c.loadDictionary d = (c.dictLoaded d).dictFinish := by
  unfold loadDictionary dictLoaded dictStart dictPart
  dsimp only [dictFinish]

theorem fits_dictFinish {c : Cu} (h : c.Fits) : c.dictFinish.Fits :=
  ⟨h.fit.move rfl h.fit.window, found_of_le (le_refl _), h.room⟩

/-- A dictionary load keeps the ranges. -/
theorem fits_loadDictionary {c : Cu} (d : List Byte) (h : c.Fits) (hl : c.lookahead = 0) : (c.loadDictionary d).Fits := by
  have hfree : c.Free := fun hf => by
    rcases hf with hf | hf
    · exact h.found.fast hf
    · have := h.found.slow hf
      omega
  have h0 : (c.dictStart d).Fits ∧ (c.dictStart d).Free := by
    unfold dictStart
    split
    · refine ⟨⟨h.fit.move rfl ?_, ⟨h.found.fast, h.found.slow⟩, h.room⟩, hfree⟩
      show 0 + c.lookahead ≤ c.windowSize
      omega
    · exact ⟨h, hfree⟩
  have h1 := fills_fillWindowFrom (some (c.dictPart d)) h0.1.fit.window
  rw [loadDictionary_eq, dictLoaded]
  exact fits_dictFinish (fits_dictLoop _ _ (h1.fits h0.1) (h0.2.fills h1))

end Cu
end Sys2Proof.Machine
end

section
/-! PROOF. Every step keeps the machine's invariant (10_state.md R43): each command of a unit keeps what `State.Safe` says of that
unit and leaves the other alone, and so does a round of a push in progress. Power-on meets it (R39). -/

namespace Sys2Proof.Machine

namespace Cu

/-! ## A new block -/

/-- `d` follows `c` by writes of tree nodes. -/
def Nodes (c d : Cu) : Prop := ∃ l d' bl, d = { c with dynLtree := l, dynDtree := d', blTree := bl }

theorem Nodes.refl (c : Cu) : c.Nodes c := ⟨c.dynLtree, c.dynDtree, c.blTree, rfl⟩
theorem Nodes.trans {a b c : Cu} : a.Nodes b → b.Nodes c → a.Nodes c := by
  rintro ⟨_, _, _, rfl⟩ ⟨x, y, z, rfl⟩
  exact ⟨x, y, z, rfl⟩

theorem nodes_setNode (c : Cu) (t : Tree) (n : Nat) (v : Node) : c.Nodes (c.setNode t n v) := by
  cases t <;> exact ⟨_, _, _, rfl⟩

theorem nodes_forRange (lo n : Nat) (f : Nat → Cu → Cu) (hf : ∀ i c, Nodes c (f i c)) (c : Cu) : c.Nodes (forRange lo n f c) :=
  forRange_induction (c.Nodes ·) lo n f (fun i _ h => h.trans (hf i _)) c (.refl c)

/-- A new block clears the frequencies and the counts of the old one (42_tree_builder.md R233). -/
theorem initBlock_frame (c : Cu) : ∃ l d bl, c.initBlock = { c with
    dynLtree := l, dynDtree := d, blTree := bl, optLen := 0, staticLen := 0, lastLit := 0, matchCount := 0 } := by
  have h1 := nodes_forRange 0 Config.lCodes (fun n c => c.setFreq .l n 0) (fun _ _ => nodes_setNode ..) c
  have h2 := h1.trans (nodes_forRange 0 Config.dCodes (fun n c => c.setFreq .d n 0) (fun _ _ => nodes_setNode ..) _)
  have h3 := h2.trans (nodes_forRange 0 Config.blCodes (fun n c => c.setFreq .bl n 0) (fun _ _ => nodes_setNode ..) _)
  obtain ⟨l, d, bl, h4⟩ := h3.trans (nodes_setNode _ .l Config.endBlock { Cu.node _ .l Config.endBlock with freq := 1 })
  refine ⟨l, d, bl, ?_⟩
  unfold initBlock
  dsimp only
  rw [show Cu.setFreq _ .l Config.endBlock 1 = _ from h4]

/-! ## Reset -/

/-- What `DFL_RESET` writes before it starts a block. -/
def resetRegs (c : Cu) : Cu :=
  let wrap : Int := if c.wrap < 0 then -c.wrap else c.wrap
  { c with
    wrap := wrap
    totalIn := 0, totalOut := 0, msg := .none, pending := 0, pendingOut := 0
    status := if wrap ≠ 0 then .init else .busy
    adler := if wrap = 2 then 0 else 1
    lastFlush := flushNo, biBuf := 0, biValid := 0, gzindex := 0 }

/-- What it writes after it. -/
def resetMatcher (func : Func) (c : Cu) : Cu :=
  { c with
    head := []
    func := func
    strstart := 0, blockStart := 0, lookahead := 0, insertCount := 0
    matchLength := 2, prevLength := 2, matchAvailable := false
    insH := 0, matchStart := 0, prevMatch := 0 }

theorem resetKeep_eq (c : Cu) : c.resetKeep = c.resetRegs.initBlock.resetMatcher (selectFunc c.level c.strategy) := by
  have key : ∀ d e : Cu, d = e → (resetMatcher (selectFunc c.level c.strategy) (initBlock d)) =
      e.initBlock.resetMatcher (selectFunc c.level c.strategy) := by
    rintro d _ rfl
    rfl
  unfold resetMatcher at key ⊢
  exact key _ c.resetRegs rfl

theorem memWf_resetRegs {c : Cu} (h : c.MemWf) : c.resetRegs.MemWf := { h with }

theorem memWf_resetMatcher (f : Func) {c : Cu} (h : c.MemWf) : (c.resetMatcher f).MemWf := { h with head := Mem.wf_nil _ }

theorem memWf_resetKeep {c : Cu} (h : c.MemWf) : c.resetKeep.MemWf := by
  rw [resetKeep_eq]
  exact memWf_resetMatcher _ ((quiet_initBlock _).mem (memWf_resetRegs h))

theorem emit_resetRegs {c : Cu} (hn : ∀ t, Mem.All (fun n => n.len.toNat ≤ t.maxLength) (c.nodes t)) (hL : 128 ≤ c.litBufsize) :
    c.resetRegs.Emit := by
  refine ⟨Nat.zero_le _, fun t => by cases t <;> exact hn _, ?_⟩
  show 0 < 4 * c.litBufsize
  omega

theorem fits_resetMatcher (f : Func) {c : Cu} (he : c.Emit) (hw : 9 ≤ c.wBits ∧ c.wBits ≤ 15) (hL : 128 ≤ c.litBufsize)
    (hl : c.lastLit = 0) : (c.resetMatcher f).Fits := by
  refine ⟨⟨⟨he.bitCount, he.lengths, he.queue⟩, hw, hL, Nat.zero_le _⟩, found_of_le (le_refl _), ?_⟩
  show c.lastLit + 1 < c.litBufsize
  omega

/-- A reset leaves the ranges, whatever the matcher and the queue held. -/
theorem fits_resetKeep {c : Cu} (hn : ∀ t, Mem.All (fun n => n.len.toNat ≤ t.maxLength) (c.nodes t))
    (hw : 9 ≤ c.wBits ∧ c.wBits ≤ 15) (hL : 128 ≤ c.litBufsize) : c.resetKeep.Fits := by
  obtain ⟨he, hl⟩ := emits_initBlock c.resetRegs
  obtain ⟨-, -, -, hwb, hLb, -⟩ := he.place_eq
  rw [resetKeep_eq]
  exact fits_resetMatcher _ (he.emit (emit_resetRegs hn hL)) (by rw [hwb]; exact hw) (by rw [hLb]; exact hL) hl

theorem cur_resetKeep (c : Cu) : c.resetKeep.cur = c.cur ∧ c.resetKeep.bflush = c.bflush := by
  obtain ⟨l, d, bl, he⟩ := initBlock_frame c.resetRegs
  rw [resetKeep_eq, he]
  exact ⟨rfl, rfl⟩

/-! ## What filling the window leaves alone -/

/-- `d` follows `c` by the matcher's work on the window and the hash chains: nothing else is written. -/
def Slides (c d : Cu) : Prop :=
  ∃ nextIn totalIn adler window head prev insH matchStart strstart blockStart lookahead insertCount,
    d = { c with
      cur := { c.cur with nextIn := nextIn }, totalIn := totalIn, adler := adler, window := window, head := head, prev := prev, insH := insH
      matchStart := matchStart, strstart := strstart, blockStart := blockStart, lookahead := lookahead
      insertCount := insertCount }

theorem Slides.refl (c : Cu) : c.Slides c :=
  ⟨c.cur.nextIn, c.totalIn, c.adler, c.window, c.head, c.prev, c.insH, c.matchStart, c.strstart, c.blockStart, c.lookahead,
    c.insertCount, rfl⟩

theorem Slides.trans {a b c : Cu} : a.Slides b → b.Slides c → a.Slides c := by
  rintro ⟨_, _, _, _, _, _, _, _, _, _, _, _, rfl⟩ ⟨x1, x2, x3, x4, x5, x6, x7, x8, x9, x10, x11, x12, rfl⟩
  exact ⟨x1, x2, x3, x4, x5, x6, x7, x8, x9, x10, x11, x12, rfl⟩

theorem slides_slid (c : Cu) : c.Slides c.slid := by
  unfold slid
  split
  · exact ⟨c.cur.nextIn, c.totalIn, c.adler, _, _, _, c.insH, _, _, _, c.lookahead, c.insertCount, rfl⟩
  · exact .refl c

/-- The deferred insertions write the chains and what is left of `INSERT`. -/
theorem slides_catchUpLoop : ∀ k s (c : Cu), c.Slides (catchUpLoop k s c)
  | 0, _, c => by rw [catchUpLoop]; exact .refl c
  | k + 1, s, c => by
    have h : c.Slides { ((c.updateHash (c.win (s + 2))).linkString s).1 with insertCount := k } :=
      ⟨_, _, _, _, _, _, _, _, _, _, _, _, rfl⟩
    rw [catchUpLoop]
    dsimp only
    split
    · exact h
    · exact h.trans (slides_catchUpLoop k _ _)

theorem slides_catchUp (c : Cu) : c.Slides c.catchUp := by
  unfold catchUp
  split
  · exact Slides.trans ⟨_, _, _, _, _, _, _, _, _, _, _, _, rfl⟩ (slides_catchUpLoop ..)
  · exact .refl c

theorem slides_readRound (src : Source) (more : Nat) (c : Cu) : c.Slides (c.readRound src more).1 := by
  obtain ⟨-, nextIn, window, adler, totalIn, he⟩ := readBuf_frame c src (c.strstart + c.lookahead) more
  unfold readRound
  dsimp only
  rw [he]
  exact Slides.trans ⟨_, _, _, _, _, _, _, _, _, _, _, _, rfl⟩ (slides_catchUp _)

theorem slides_fillLoop : ∀ fuel (c : Cu) (src : Source), c.Slides (fillLoop fuel c src).1
  | 0, c, src => by rw [fillLoop]; exact .refl c
  | fuel + 1, c, src => by
    have h1 := slides_slid c
    have h2 := h1.trans (slides_readRound src c.space c.slid)
    rw [fillLoop_succ]
    dsimp only
    generalize c.slid.readRound src c.space = p at h2 ⊢
    split
    · dsimp only
      exact h1
    · split
      · exact h2.trans (slides_fillLoop fuel p.1 p.2)
      · exact h2

theorem slides_dictLoop : ∀ fuel (c : Cu) (src : Source), c.Slides (dictLoop fuel c src)
  | 0, c, src => by rw [dictLoop]; exact .refl c
  | fuel + 1, c, src => by
    rw [dictLoop]
    split
    · obtain ⟨x, y, z, he⟩ := links_forRange c.strstart (c.lookahead - (Config.minMatch - 1)) dictInsert
        (fun _ _ => ⟨_, _, _, rfl⟩) c
      dsimp only
      rw [he]
      refine Slides.trans ?_ (slides_dictLoop fuel _ _)
      exact Slides.trans ⟨_, _, _, _, _, _, _, _, _, _, _, _, rfl⟩ (slides_fillLoop ..)
    · exact .refl c

theorem slides_dictLoaded (d : List Byte) (c : Cu) : c.Slides (c.dictLoaded d) := by
  have h0 : c.Slides (c.dictStart d) := by
    unfold dictStart
    split
    · exact ⟨c.cur.nextIn, c.totalIn, c.adler, c.window, _, c.prev, c.insH, c.matchStart, _, _, c.lookahead, _, rfl⟩
    · exact .refl c
  exact (h0.trans (slides_fillLoop ..)).trans (slides_dictLoop ..)

/-- A dictionary load leaves `BFLUSH` alone. -/
theorem bflush_loadDictionary (c : Cu) (d : List Byte) : (c.loadDictionary d).bflush = c.bflush := by
  obtain ⟨_, _, _, _, _, _, _, _, _, _, _, _, h⟩ := slides_dictLoaded d c
  rw [loadDictionary_eq, h]
  rfl

/-! ## What a push of `CU` answers -/

/-- `CU` with the cursors of a push. -/
def started (o : Operands) (c : Cu) : Cu := { c with cur := Cursor.start o.input o.availOut }

/-- `CU` as a push leaves it, its cursors and `BFLUSH` gone and `m` in `MSG`. -/
def returned (m : Msg) (c : Cu) : Cu := { c with cur := Cursor.empty, bflush := false, msg := m }

/-- The operands of a push are legal where it starts (41_deflate_engine.md R182, steps 1 to 4). -/
structure Starts (o : Operands) (flush : Int) (c : Cu) : Prop where
  stream : c.status ≠ .noStream
  legal  : flushLegal flush = true
  finish : c.status = .finish → flush = flushFinish ∧ o.input = []
  space  : o.availOut ≠ 0

/-- A push is refused, and at most `MSG` written, or it starts and returns. -/
theorem dflPushWith_cases (flush : Int) (s : State) :
    (∃ st, s.dflPushWith flush = s.raise .cu st) ∨
    (s.cu.Starts s.port flush ∧ ∃ m, (s.dflPushWith flush).cu = (Cu.push flush (s.cu.started s.port)).1.returned m) := by
  by_cases h1 : s.cu.status = .noStream
  · exact .inl ⟨.streamError, by rw [State.dflPushWith, if_pos h1]⟩
  by_cases h2 : flushLegal flush = true
  case neg => exact .inl ⟨.streamError, by rw [State.dflPushWith, if_neg h1, if_pos h2]⟩
  by_cases h3 : s.cu.status = .finish ∧ (flush ≠ flushFinish ∨ s.port.input ≠ [])
  · exact .inl ⟨.streamError, by rw [State.dflPushWith, if_neg h1, if_neg (not_not.2 h2), if_pos h3]⟩
  by_cases h4 : s.port.availOut = 0
  · exact .inl ⟨.bufError, by rw [State.dflPushWith, if_neg h1, if_neg (not_not.2 h2), if_neg h3, if_pos h4]⟩
  refine .inr ⟨⟨h1, h2, fun hf => ?_, h4⟩, ?_⟩
  · simpa [hf, not_or] using h3
  · rw [State.dflPushWith, if_neg h1, if_neg (not_not.2 h2), if_neg h3, if_neg h4]
    change ∃ m, (match Cu.push flush (s.cu.started s.port) with
      | (c, .bufError) => State.raise .cu .bufError { s with cu := { c with cur := Cursor.empty, bflush := false } }
      | (c, st) => State.finishCu { s with cu := c } ⟨st, c.cur.nextIn, c.cur.out, none, none⟩).cu = _
    generalize Cu.push flush (s.cu.started s.port) = p
    obtain ⟨c, st⟩ := p
    cases st
    case bufError =>
      dsimp only
      rw [State.raise_cu_cu]
      split
      · exact ⟨c.msg, rfl⟩
      · exact ⟨_, rfl⟩
    all_goals exact ⟨c.msg, rfl⟩

/-- `CU` after a raised status: at most `MSG` is written. -/
theorem raise_cu_eq (st : Status) (s : State) : ∃ m, (s.raise .cu st).cu = { s.cu with msg := m } := by
  rw [State.raise_cu_cu]
  split
  · exact ⟨s.cu.msg, rfl⟩
  · exact ⟨_, rfl⟩

/-! ## The commands of `CU` -/

/-- Well-formed memories and, with a stream open, the ranges. -/
structure Sound (c : Cu) : Prop where
  mem    : c.MemWf
  fits   : c.status ≠ .noStream → c.Fits
  cursor : c.cur = Cursor.empty
  bflush : c.bflush = false

/-- The operand checks leave the ranges of the configuration registers (10_state.md R23). -/
theorem dflInitOperands_ranges {o : Operands} {wrap : Int} {wBits : Nat} (h : dflInitOperands o = some (wrap, wBits)) :
    (9 ≤ wBits ∧ wBits ≤ 15) ∧ 128 ≤ 2 ^ (o.memLevel.toNat + 6) := by
  unfold dflInitOperands at h
  split at h
  · cases h
  · rename_i w b hw
    split at h
    · cases h
    · rename_i hl
      split at h
      · cases h
      · cases h
        refine ⟨?_, ?_⟩
        · unfold cuWindowBits at hw
          split_ifs at hw <;> simp only [Option.some.injEq, Prod.mk.injEq] at hw <;> omega
        · have hm : 1 ≤ o.memLevel := by
            simp only [not_or, not_not, memLevelLegal, Bool.and_eq_true, decide_eq_true_eq] at hl
            exact hl.2.1.1
          calc 128 = 2 ^ 7 := rfl
            _ ≤ 2 ^ (o.memLevel.toNat + 6) := Nat.pow_le_pow_right (by decide) (by omega)

theorem Sound.setMsg {c : Cu} (h : c.Sound) (m : Msg) : Sound { c with msg := m } :=
  ⟨{ h.mem with }, fun hs => (h.fits hs).emits (emits_of rfl), h.cursor, h.bflush⟩

theorem sound_raise {s : State} (h : s.cu.Sound) (st : Status) : (s.raise .cu st).cu.Sound := by
  obtain ⟨m, hm⟩ := raise_cu_eq st s
  exact hm ▸ h.setMsg m

theorem sound_dflInit {s t : State} (h : s.cu.Sound) (he : execDflInit s = .next t) : t.cu.Sound := by
  unfold execDflInit at he
  split at he
  · cases he
    exact sound_raise h _
  · split at he
    · cases he
      exact sound_raise h _
    · rename_i wrap wBits ho
      cases he
      obtain ⟨hw, hL⟩ := dflInitOperands_ranges ho
      have hm : (zeroMemories (s.cu.configure wrap (levelOperand s.port.level).toNat s.port.strategy.toNat wBits
        s.port.memLevel.toNat s.port.gzipHeader)).MemWf := by constructor <;> exact Mem.wf_nil _
      refine ⟨memWf_resetKeep hm, fun _ => fits_resetKeep (fun t => ?_) hw hL, ?_, ?_⟩
      · cases t <;> exact fun _ hn => by cases hn
      · exact (cur_resetKeep _).1.trans h.cursor
      · exact (cur_resetKeep _).2.trans h.bflush

theorem sound_loadDictionary {c : Cu} (h : c.Sound) (hs : c.status ≠ .noStream) (hl : c.lookahead = 0) (d : List Byte) :
    (c.loadDictionary d).Sound := by
  have hq := quiet_loadDictionary c d
  have ht := hq.traffic
  simp only [Cu.traffic, Prod.mk.injEq] at ht
  exact ⟨hq.mem h.mem, fun _ => fits_loadDictionary d (h.fits hs) hl, ht.1.trans h.cursor, (bflush_loadDictionary c d).trans h.bflush⟩

theorem sound_dflSetdict {s t : State} (h : s.cu.Sound) (he : execDflSetdict s = .next t) : t.cu.Sound := by
  unfold execDflSetdict at he
  by_cases h1 : s.cu.status = .noStream
  · rw [if_pos h1] at he
    cases he
    exact sound_raise h _
  · rw [if_neg h1] at he
    split at he
    · cases he
      exact sound_raise h _
    · split at he
      · cases he
        exact sound_raise h _
      · split at he
        · cases he
          exact sound_raise h _
        · rename_i hl
          have hl : s.cu.lookahead = 0 := not_not.1 hl
          cases he
          dsimp only [State.post_cu]
          split
          · exact sound_loadDictionary (c := { s.cu with adler := adler32 s.cu.adler s.port.dictionary })
              ⟨{ h.mem with }, fun hs => (h.fits hs).emits (emits_of rfl), h.cursor, h.bflush⟩ h1 hl _
          · exact sound_loadDictionary h h1 hl _

theorem sound_dflPushWith {s : State} (h : s.cu.Sound) (flush : Int) : (s.dflPushWith flush).cu.Sound := by
  rcases dflPushWith_cases flush s with ⟨st, he⟩ | ⟨hs, m, he⟩
  · rw [he]
    exact sound_raise h st
  · rw [he]
    have hf := fits_push flush ((h.fits hs.stream).emits (d := s.cu.started s.port) (emits_of rfl))
    have hm := (pushed_push flush (s.cu.started s.port)).mem { h.mem with }
    exact ⟨{ hm with }, fun _ => hf.emits (emits_of rfl), rfl, rfl⟩

theorem sound_dflReset {s t : State} (h : s.cu.Sound) (he : execDflReset s = .next t) : t.cu.Sound := by
  unfold execDflReset at he
  split at he <;> cases he
  · exact sound_raise h _
  · rename_i hs
    have hf := (h.fits hs).fit
    exact ⟨memWf_resetKeep h.mem, fun _ => fits_resetKeep hf.emit.lengths hf.wBits hf.litBufsize,
      (cur_resetKeep _).1.trans h.cursor, (cur_resetKeep _).2.trans h.bflush⟩

theorem sound_dflEnd {s t : State} (h : s.cu.Sound) (he : execDflEnd s = .next t) : t.cu.Sound := by
  unfold execDflEnd at he
  split at he <;> cases he
  · exact sound_raise h _
  · exact ⟨{ h.mem with }, fun hs => absurd rfl hs, h.cursor, h.bflush⟩

theorem sound_dflStat {s t : State} (h : s.cu.Sound) (he : execDflStat s = .next t) : t.cu.Sound := by
  unfold execDflStat at he
  split at he <;> cases he
  · exact sound_raise h _
  · exact h

/-- Every instruction keeps what holds of `CU` between steps. -/
theorem sound_exec {i : Instr} {s t : State} (h : s.cu.Sound) (he : exec i s = .next t) : t.cu.Sound := by
  by_cases hi : i ∈ Claims.cuInstrs
  · simp only [Claims.cuInstrs, List.mem_cons, List.not_mem_nil, or_false] at hi
    have push : ∀ flush, t = s.dflPushWith flush → t.cu.Sound := fun flush ht => ht ▸ sound_dflPushWith h flush
    rcases hi with rfl | rfl | rfl | rfl | rfl | rfl | rfl | rfl | rfl | rfl | rfl | rfl
    · exact sound_dflInit h he
    · exact sound_dflSetdict h he
    · exact push _ (Host.Outcome.next.inj he).symm
    · exact sound_dflReset h he
    · exact sound_dflEnd h he
    · exact sound_dflStat h he
    all_goals exact push _ (Host.Outcome.next.inj he).symm
  · rw [(Isolation.exec_duIsolated hi).frame he |>.1]
    exact h

end Cu

namespace Du

/-! ## The commands of `DU` -/

/-- What `State.Safe` says of `DU`. -/
structure Sound (d : Du) : Prop where
  mem     : d.MemWf
  history : d.HistoryWf
  cursor  : d.ctl = .idle → d.cur = Cursor.empty ∧ d.checked = 0 ∧ d.pushFlush = 0
  bounded : d.Bounded

/-- A rule of the state loop keeps the history as it is. -/
theorem Keeps.historyWf {d e : Du} (h : d.Keeps e) (k : d.HistoryWf) : e.HistoryWf := by
  have hf := h.fixed
  simp only [Du.fixed, Prod.mk.injEq] at hf
  obtain ⟨-, hb, -, hs, hv, hn, -⟩ := hf
  exact ⟨by rw [hs, hb]; exact k.size, by rw [hv, hs]; exact k.valid, by rw [hn, hs]; exact k.next,
    by rw [hv, hs, hn]; exact k.linear⟩

/-- What a round of a push in progress keeps. -/
theorem Sound.keeps {d e : Du} (h : d.Sound) (hi : d.ctl ≠ .idle) (k : d.Keeps e) (hb : e.Bounded) : e.Sound :=
  ⟨k.mem h.mem, k.historyWf h.history, fun he => absurd he (k.running hi), hb⟩

/-- The history window once it is allocated (20_memory.md R87). -/
def allocated (d : Du) : Du := if d.wsize = 0 then { d with wsize := 2 ^ d.wbits, wnext := 0, whave := 0 } else d

theorem historyWf_allocated {d : Du} (h : d.HistoryWf) : d.allocated.HistoryWf ∧ 0 < d.allocated.wsize := by
  unfold allocated
  split
  · exact ⟨⟨.inr rfl, Nat.zero_le _, id, fun _ => rfl⟩, Nat.two_pow_pos _⟩
  · exact ⟨h, Nat.pos_of_ne_zero ‹_›⟩

/-- A write to the history (44_inflate_engine.md R342) once the window is allocated. -/
def writeHistory (data : List Byte) (d : Du) : Du :=
  if d.wsize ≤ data.length then
    { d with
      hwindow := Mem.writeList d.hwindowSize d.hwindow 0 (data.drop (data.length - d.wsize)), wnext := 0, whave := d.wsize }
  else
    let dist := min (d.wsize - d.wnext) data.length
    let w := Mem.writeList d.hwindowSize d.hwindow d.wnext (data.take dist)
    if data.length - dist ≠ 0 then
      { d with
        hwindow := Mem.writeList d.hwindowSize w 0 (data.drop dist), wnext := data.length - dist, whave := d.wsize }
    else
      { d with
        hwindow := w
        wnext := if d.wnext + dist = d.wsize then 0 else d.wnext + dist
        whave := if d.whave < d.wsize then d.whave + dist else d.whave }

theorem updateWindow_eq (data : List Byte) (d : Du) : d.updateWindow data = d.allocated.writeHistory data := rfl

/-- It writes the memory and its two counts. -/
theorem writeHistory_frame (data : List Byte) (d : Du) : ∃ hwindow wnext whave,
    d.writeHistory data = { d with hwindow := hwindow, wnext := wnext, whave := whave } ∧
    (d.MemWf → Mem.wf d.hwindowSize hwindow = true) ∧
    (d.HistoryWf → 0 < d.wsize → whave ≤ d.wsize ∧ wnext < d.wsize ∧ (whave < d.wsize → wnext = whave)) := by
  unfold writeHistory
  split
  · exact ⟨_, _, _, rfl, fun h => Mem.wf_writeList h.hwindow, fun _ hp => ⟨le_refl _, hp, fun h => absurd h (lt_irrefl _)⟩⟩
  · rename_i hc
    dsimp only
    split
    · refine ⟨_, _, _, rfl, fun h => Mem.wf_writeList (Mem.wf_writeList h.hwindow), fun h hp => ?_⟩
      have := h.next hp
      exact ⟨le_refl _, by omega, by omega⟩
    · refine ⟨_, _, _, rfl, fun h => Mem.wf_writeList h.hwindow, fun h hp => ?_⟩
      have h1 := h.next hp
      have h2 := h.valid
      have h3 := h.linear
      split_ifs <;> omega

theorem historyWf_updateWindow (data : List Byte) {d : Du} (h : d.HistoryWf) : (d.updateWindow data).HistoryWf := by
  obtain ⟨ha, hp⟩ := historyWf_allocated h
  obtain ⟨w, n, v, he, -, hh⟩ := writeHistory_frame data d.allocated
  obtain ⟨hv, hn, hl⟩ := hh ha hp
  rw [updateWindow_eq, he]
  exact ⟨ha.size, hv, fun _ => hn, hl⟩

theorem memWf_updateWindow (data : List Byte) {d : Du} (h : d.MemWf) : (d.updateWindow data).MemWf := by
  have ha : d.allocated.MemWf := by
    unfold allocated
    split
    · exact { h with }
    · exact h
  obtain ⟨w, n, v, he, hm, -⟩ := writeHistory_frame data d.allocated
  rw [updateWindow_eq, he]
  exact { ha with hwindow := hm ha }

/-- What a write to the history leaves alone. -/
theorem updateWindow_frame (data : List Byte) (d : Du) : ∃ hwindow wnext whave wsize,
    d.updateWindow data = { d with hwindow := hwindow, wnext := wnext, whave := whave, wsize := wsize } := by
  obtain ⟨w, n, v, he, -⟩ := writeHistory_frame data d.allocated
  rw [updateWindow_eq, he]
  unfold allocated
  split
  · exact ⟨w, n, v, _, rfl⟩
  · exact ⟨w, n, v, d.wsize, rfl⟩

theorem Bounded.updateWindow {d : Du} (h : d.Bounded) (data : List Byte) : (d.updateWindow data).Bounded := by
  obtain ⟨w, n, v, z, he⟩ := updateWindow_frame data d
  rw [he]
  exact ⟨h.1.regs rfl rfl h.1.extra h.1.counts rfl rfl, h.2⟩

/-- What the leave sequence of a push keeps (44_inflate_engine.md R341). -/
structure Leaves (d e : Du) : Prop where
  mem     : d.MemWf → e.MemWf
  history : d.HistoryWf → e.HistoryWf
  bounded : d.Bounded → e.Bounded
  config  : e.wrap = d.wrap ∧ e.wbits = d.wbits ∧ e.capture = d.capture

theorem Leaves.refl (d : Du) : d.Leaves d := ⟨id, id, id, rfl, rfl, rfl⟩
theorem Leaves.trans {a b c : Du} (h : a.Leaves b) (k : b.Leaves c) : a.Leaves c :=
  ⟨k.mem ∘ h.mem, k.history ∘ h.history, k.bounded ∘ h.bounded, k.config.1.trans h.config.1, k.config.2.1.trans h.config.2.1,
    k.config.2.2.trans h.config.2.2⟩

theorem leaves_updateWindow (data : List Byte) (d : Du) : d.Leaves (d.updateWindow data) := by
  refine ⟨memWf_updateWindow data, historyWf_updateWindow data, fun h => h.updateWindow data, ?_⟩
  obtain ⟨w, n, v, z, he⟩ := updateWindow_frame data d
  rw [he]
  exact ⟨rfl, rfl, rfl⟩

theorem Keeps.leaves {d e : Du} (h : d.Keeps e) (hb : d.Bounded → e.Bounded) : d.Leaves e := by
  have hf := h.fixed
  simp only [Du.fixed, Prod.mk.injEq] at hf
  exact ⟨h.mem, h.historyWf, hb, hf.1, hf.2.1, hf.2.2.1⟩

theorem leaves_syncCheck (d : Du) : d.Leaves d.syncCheck := by
  refine (keeps_syncCheck d).leaves fun h => ⟨core_syncCheck h.1, ?_⟩
  have hk : d.syncCheck.mode = d.mode ∧ d.syncCheck.bits = d.bits := by
    unfold syncCheck
    dsimp only
    split <;> exact ⟨rfl, rfl⟩
  rw [Whole, hk.1, hk.2]
  exact h.2

theorem leaves_leave (ret : Status) (d : Du) : d.Leaves (d.leave ret).1 := by
  have h1 : d.Leaves (if d.cur.produced ≠ 0 then d.updateWindow d.cur.out else d) := by
    split
    · exact leaves_updateWindow ..
    · exact .refl d
  unfold leave
  generalize (if d.cur.produced ≠ 0 then d.updateWindow d.cur.out else d) = d1 at h1 ⊢
  have h2 : d1.Leaves { d1 with totalIn := d1.totalIn + word32Of d1.cur.nextIn } :=
    ⟨fun h => { h with }, fun h => ⟨h.size, h.valid, h.next, h.linear⟩,
      fun h => ⟨h.1.regs rfl rfl h.1.extra h.1.counts rfl rfl, h.2⟩, rfl, rfl, rfl⟩
  have h3 := (h1.trans h2).trans (leaves_syncCheck _)
  dsimp only
  generalize Du.syncCheck { d1 with totalIn := d1.totalIn + word32Of d1.cur.nextIn } = d2 at h3 ⊢
  split
  · exact .refl d
  · split
    · exact h3.trans ((keeps_regs ..).leaves fun h => ⟨h.1.regs rfl rfl h.1.extra h.1.counts rfl rfl, h.2⟩)
    · exact h3

/-- A push in progress, round by round and back from it. -/
theorem sound_pushStep {s : State} (h : s.du.Sound) : s.pushStep.du.Sound := by
  unfold State.pushStep
  split
  · exact h
  · rename_i hc
    exact h.keeps (by rw [hc]; nofun) (keeps_rule _) (bounded_rule h.bounded)
  · rename_i ret _
    have k := leaves_leave ret s.du
    have hb := k.bounded h.bounded
    have hh := k.history h.history
    exact ⟨{ k.mem h.mem with }, ⟨hh.size, hh.valid, hh.next, hh.linear⟩, fun _ => ⟨rfl, rfl, rfl⟩,
      ⟨hb.1.regs rfl rfl hb.1.extra hb.1.counts rfl rfl, hb.2⟩⟩

theorem Sound.setMsg {d : Du} (h : d.Sound) (m : Msg) : Sound { d with msg := m } :=
  ⟨{ h.mem with }, ⟨h.history.size, h.history.valid, h.history.next, h.history.linear⟩, h.cursor,
    ⟨h.bounded.1.regs rfl rfl h.bounded.1.extra h.bounded.1.counts rfl rfl, h.bounded.2⟩⟩

theorem sound_raise {s : State} (h : s.du.Sound) (st : Status) : (s.raise .du st).du.Sound := by
  rw [State.raise_du_du]
  split
  · exact h
  · exact h.setMsg _

theorem sound_startPush {s : State} (h : s.du.Sound) : s.startPush.du.Sound := by
  unfold State.startPush
  split
  · exact sound_raise h _
  · split
    · exact sound_raise h _
    · exact ⟨{ h.mem with }, ⟨h.history.size, h.history.valid, h.history.next, h.history.linear⟩, nofun,
        ⟨h.bounded.1.regs rfl rfl h.bounded.1.extra h.bounded.1.counts rfl rfl, h.bounded.2⟩⟩

theorem sound_runLoop : ∀ fuel {d : Du}, d.Sound → (runLoop fuel d).Sound
  | 0, _, h => h
  | fuel + 1, d, h => by
    rw [runLoop]
    split
    · exact sound_runLoop fuel (h.keeps (by simp [*]) (keeps_rule d) (bounded_rule h.bounded))
    · exact h

theorem sound_iflPush {s : State} (h : s.du.Sound) : s.iflPush.du.Sound :=
  sound_pushStep (s := { s.startPush with du := runLoop s.startPush.du.rounds s.startPush.du })
    (sound_runLoop _ (sound_startPush h))

/-- A reset leaves the unit as new, whatever it held but the window's memory, the lengths and the tables. -/
theorem sound_resetKeep {d : Du} (hm : d.MemWf) (hl : Mem.All (fun l => l.toNat ≤ 15) d.lens) (hc : Mem.All EntryOk d.codes)
    (hi : d.ctl = .idle → d.cur = Cursor.empty ∧ d.checked = 0 ∧ d.pushFlush = 0) : d.resetKeep.Sound :=
  ⟨{ hm with }, ⟨.inl rfl, le_refl _, fun h => absurd h (lt_irrefl _), fun _ => rfl⟩, hi,
    ⟨⟨by simp [resetKeep], Nat.zero_le _, Nat.zero_le _, ⟨Nat.zero_le _, Nat.zero_le _⟩, hl, hc⟩, fun _ => rfl⟩⟩

theorem sound_iflInit {s : State} (h : s.du.Sound) : s.iflInit.du.Sound := by
  unfold State.iflInit
  split
  · exact sound_raise h _
  · split
    · exact sound_raise h _
    · split
      · exact sound_raise h _
      · refine sound_resetKeep ?_ (fun _ hn => by cases hn) (fun _ hn => by cases hn) h.cursor
        constructor <;> exact Mem.wf_nil _

theorem sound_iflSetdict {s : State} (h : s.du.Sound) : s.iflSetdict.du.Sound := by
  unfold State.iflSetdict
  split
  · exact sound_raise h _
  · split
    · exact sound_raise h _
    · split
      · exact sound_raise h _
      · have hk := leaves_updateWindow s.port.dictionary s.du
        have hi : ∀ e : Du, e = s.du.updateWindow s.port.dictionary →
            (e.ctl = .idle → e.cur = Cursor.empty ∧ e.checked = 0 ∧ e.pushFlush = 0) := by
          rintro _ rfl
          obtain ⟨w, n, v, z, he⟩ := updateWindow_frame s.port.dictionary s.du
          rw [he]
          exact h.cursor
        have hi := hi _ rfl
        have hm := hk.mem h.mem
        have hh := hk.history h.history
        have hb := hk.bounded h.bounded
        exact ⟨{ hm with }, ⟨hh.size, hh.valid, hh.next, hh.linear⟩, hi, ⟨hb.1.regs rfl rfl hb.1.extra hb.1.counts rfl rfl, hb.2⟩⟩

theorem sound_iflEnd {s : State} (h : s.du.Sound) : s.iflEnd.du.Sound := by
  unfold State.iflEnd
  split
  · exact sound_raise h _
  · exact ⟨{ h.mem with }, ⟨h.history.size, h.history.valid, h.history.next, h.history.linear⟩, h.cursor,
      (h.bounded.1.regs (e := { s.du with mode := .noStream }) rfl rfl h.bounded.1.extra h.bounded.1.counts rfl rfl).bounded
        (by simp)⟩

/-- Every command keeps what holds of `DU` between steps. -/
theorem sound_exec {i : Instr} {s t : State} (hi : i ∈ Claims.cuInstrs ++ Claims.duCommands) (h : s.du.Sound)
    (he : exec i s = .next t) : t.du.Sound := by
  rcases List.mem_append.1 hi with hi | hi
  · rw [((Isolation.exec_cuIsolated hi).frame he).1]
    exact h
  · have onIdle : ∀ f : State → State, (f s).du.Sound → onIdleDu f s = .next t → t.du.Sound := fun f hf hs => by
      unfold onIdleDu at hs
      split at hs
      · cases hs
        exact hf
      · cases hs
    simp only [Claims.duCommands, List.mem_cons, List.not_mem_nil, or_false] at hi
    rcases hi with rfl | rfl | rfl | rfl | rfl | rfl | rfl
    · exact onIdle _ (sound_iflInit h) he
    · exact onIdle _ (sound_iflSetdict h) he
    · exact onIdle _ (sound_iflPush h) he
    · refine onIdle State.iflReset ?_ he
      unfold State.iflReset
      split
      · exact sound_raise h _
      · exact sound_resetKeep h.mem h.bounded.1.lens h.bounded.1.codes h.cursor
    · exact onIdle _ (sound_iflEnd h) he
    · refine onIdle State.iflGethdr ?_ he
      unfold State.iflGethdr
      split
      · exact sound_raise h _
      · split
        · exact sound_raise h _
        · exact h
    · refine onIdle State.iflStat ?_ he
      unfold State.iflStat
      split
      · exact sound_raise h _
      · exact h

end Du

/-! ## The step -/

theorem safe_iff (s : State) : s.Safe ↔ s.cu.Sound ∧ s.du.Sound := by
  constructor
  · intro h
    exact ⟨⟨h.mem.1, fun hs => (h.cuRanges hs).fits h.mem.1, h.cursors.cuCursor, h.cursors.cuBflush⟩,
      ⟨h.mem.2, h.history, h.cursors.duCursor, h.duRanges.bounded h.mem.2⟩⟩
  · rintro ⟨hc, hd⟩
    exact ⟨⟨hc.mem, hd.mem⟩, hd.history, ⟨hc.cursor, hc.bflush, hd.cursor⟩, fun hs => (hc.fits hs).ranges, hd.bounded.ranges⟩

/-- An opcode that decodes is a command's (30_encoding.md R100). -/
theorem command_of_decode {w : Nat} {i : Instr} (h : decode .command w = .ok i) : i ∈ Claims.cuInstrs ++ Claims.duCommands := by
  unfold decode decodeCommand at h
  dsimp only at h
  split at h <;> cases h <;> decide

/-- What a step can do: nothing, a refused opcode, a command, or a round of the push in progress. -/
theorem step_cases {s t : State} (h : step s = .next t) :
    (t = s) ∨
    (∃ c rest, s.cmds = c :: rest ∧ s.du.ctl = .idle ∧ (t = State.reservedOpcode { s with cmds := rest, port := c.ops } ∨
      ∃ i ∈ Claims.cuInstrs ++ Claims.duCommands, exec i { s with cmds := rest, port := c.ops } = .next t)) ∨
    (t = s.pushStep) := by
  unfold step at h
  split at h
  · rename_i hi
    unfold State.fetchCommand at h
    cases hc : s.cmds with
    | nil =>
      rw [hc] at h
      exact .inl (Host.Outcome.next.inj h).symm
    | cons c rest =>
      rw [hc] at h
      refine .inr (.inl ⟨c, rest, rfl, hi, ?_⟩)
      dsimp only at h
      split at h
      · exact .inr ⟨_, command_of_decode ‹_›, h⟩
      · exact .inl (Host.Outcome.next.inj h).symm
  · exact .inr (.inr (Host.Outcome.next.inj h).symm)

/-- Settles O11: each unit's part of the invariant is kept by every command, by a reserved opcode, and by every round of a push in
progress. -/
theorem stepKeepsSafe : Obligations.StepKeepsSafe := by
  intro s t h he
  rw [safe_iff] at h ⊢
  obtain ⟨hc, hd⟩ := h
  rcases step_cases he with rfl | ⟨c, rest, -, -, rfl | ⟨i, hi, hx⟩⟩ | rfl
  · exact ⟨hc, hd⟩
  · exact ⟨hc, hd⟩
  · exact ⟨Cu.sound_exec (s := { s with cmds := rest, port := c.ops }) hc hx,
      Du.sound_exec (s := { s with cmds := rest, port := c.ops }) hi hd hx⟩
  · refine ⟨?_, Du.sound_pushStep hd⟩
    unfold State.pushStep
    split <;> exact hc

/-- Settles O12: at power-on every memory is empty, every count 0 and each unit in its state `END`. -/
theorem powerOnIsSafe : Obligations.PowerOnIsSafe := by
  refine ⟨Tests.safe_reset, ⟨fun h => ?_, fun h => ?_, fun h => ?_⟩, rfl, rfl⟩
  · exact absurd h (by decide)
  · exact absurd h (by decide)
  · exact absurd h (by decide)

end Sys2Proof.Machine
end

section
/-! PROOF. What the commands do to `STATUS` of `CU` (10_state.md R26) and to the configuration registers of both units (R23, R30). -/

namespace Sys2Proof.Machine

namespace Cu

/-! ## What the commands of `CU` but `DFL_INIT` do to it -/

/-- What a command of `CU` other than `DFL_INIT` leaves of it: the forms are a status raised or an answer given, a dictionary load,
a push that has returned, a reset and the end of the stream. -/
inductive Answers (c : Cu) (i : Instr) : Cu → Prop
  | msg (m : Msg) : Answers c i { c with msg := m }
  | dictionary (a : Word32) (d : List Byte) (hs : c.status ≠ .noStream) (hl : c.lookahead = 0) :
      Answers c i (loadDictionary { c with adler := a } d)
  | push (o : Operands) (flush : Int) (m : Msg) (hs : c.Starts o flush) :
      Answers c i ((Cu.push flush (c.started o)).1.returned m)
  | reset (hs : c.status ≠ .noStream) (hi : i = .dflReset) : Answers c i c.resetKeep
  | ended (hi : i = .dflEnd) : Answers c i { c with status := .noStream }

theorem answers_refl (c : Cu) (i : Instr) : c.Answers i c := .msg c.msg

theorem answers_raise (s : State) (i : Instr) (st : Status) : s.cu.Answers i (s.raise .cu st).cu := by
  obtain ⟨m, hm⟩ := raise_cu_eq st s
  exact hm ▸ .msg m

theorem answers_dflSetdict {s t : State} (he : execDflSetdict s = .next t) : s.cu.Answers .dflSetdict t.cu := by
  unfold execDflSetdict at he
  by_cases h1 : s.cu.status = .noStream
  · rw [if_pos h1] at he
    cases he
    exact answers_raise ..
  · rw [if_neg h1] at he
    split at he
    · cases he
      exact answers_raise ..
    · split at he
      · cases he
        exact answers_raise ..
      · split at he
        · cases he
          exact answers_raise ..
        · rename_i hl
          cases he
          dsimp only [State.post_cu]
          split
          · exact .dictionary _ _ h1 (not_not.1 hl)
          · exact .dictionary s.cu.adler _ h1 (not_not.1 hl)

theorem answers_dflPushWith (s : State) (i : Instr) (flush : Int) : s.cu.Answers i (s.dflPushWith flush).cu := by
  rcases dflPushWith_cases flush s with ⟨st, he⟩ | ⟨hs, m, he⟩
  · rw [he]
    exact answers_raise ..
  · rw [he]
    exact .push _ _ _ hs

/-- Every instruction but `DFL_INIT` leaves `CU` in one of these forms. -/
theorem answers_exec {i : Instr} (hi : i ≠ .dflInit) {s t : State} (he : exec i s = .next t) : s.cu.Answers i t.cu := by
  by_cases hc : i ∈ Claims.cuInstrs
  · simp only [Claims.cuInstrs, List.mem_cons, List.not_mem_nil, or_false] at hc
    have push : ∀ {i : Instr} {flush : Int}, s.dflPushWith flush = t → s.cu.Answers i t.cu :=
      fun ht => ht ▸ answers_dflPushWith ..
    rcases hc with rfl | rfl | rfl | rfl | rfl | rfl | rfl | rfl | rfl | rfl | rfl | rfl
    · exact absurd rfl hi
    · exact answers_dflSetdict he
    · exact push (Host.Outcome.next.inj he)
    · change execDflReset s = _ at he
      unfold execDflReset at he
      split at he <;> cases he
      · exact answers_raise ..
      · exact .reset ‹_› rfl
    · change execDflEnd s = _ at he
      unfold execDflEnd at he
      split at he <;> cases he
      · exact answers_raise ..
      · exact .ended rfl
    · change execDflStat s = _ at he
      unfold execDflStat at he
      split at he <;> cases he
      · exact answers_raise ..
      · exact answers_refl ..
    all_goals exact push (Host.Outcome.next.inj he)
  · rw [(Isolation.exec_duIsolated hc).frame he |>.1]
    exact answers_refl ..

/-! ## `STATUS` -/

theorem status_resetKeep (c : Cu) : c.resetKeep.status ≠ .noStream := by
  obtain ⟨l, d, bl, he⟩ := initBlock_frame c.resetRegs
  rw [resetKeep_eq, he]
  show (if (if c.wrap < 0 then -c.wrap else c.wrap) ≠ 0 then CuStatus.init else .busy) ≠ .noStream
  split_ifs <;> decide

theorem noStream_of_number {st : CuStatus} (h : st.number = 0) : st = .noStream := by cases st <;> simp_all [CuStatus.number]

/-- What pushes leave of `STATUS`. -/
theorem status_push (flush : Int) (c : Cu) (o : Operands) : c.status.number ≤ (Cu.push flush (c.started o)).1.status.number :=
  (pushed_push flush (c.started o)).status

theorem status_loadDictionary (c : Cu) (a : Word32) (d : List Byte) : (loadDictionary { c with adler := a } d).status = c.status := by
  have ht := (quiet_loadDictionary { c with adler := a } d).traffic
  simp only [Cu.traffic, Prod.mk.injEq] at ht
  exact ht.2.2.2

/-- `STATUS` moves forward, but for a reset and the end of the stream. -/
theorem Answers.status {c d : Cu} {i : Instr} (h : c.Answers i d) :
    c.status.number ≤ d.status.number ∨ (c.status ≠ .noStream ∧ d.status ≠ .noStream ∧ i = .dflReset) ∨
      (d.status = .noStream ∧ i = .dflEnd) := by
  cases h with
  | msg m => exact .inl (le_refl _)
  | dictionary a d hs hl => exact .inl (congrArg _ (status_loadDictionary c a d)).ge
  | push o flush m hs => exact .inl (status_push flush c o)
  | reset hs hi => exact .inr (.inl ⟨hs, status_resetKeep c, hi⟩)
  | ended hi => exact .inr (.inr ⟨rfl, hi⟩)

/-- A stream is ended by `DFL_END` only, and begun by none of these. -/
theorem Answers.stream {c d : Cu} {i : Instr} (h : c.Answers i d) :
    (c.status ≠ .noStream → d.status = .noStream → i = .dflEnd) ∧ (c.status = .noStream → d.status = .noStream) := by
  constructor
  · intro hc hd
    rcases h.status with hn | ⟨-, hs, -⟩ | ⟨-, hi⟩
    · rw [hd] at hn
      exact absurd (noStream_of_number (Nat.le_zero.1 hn)) hc
    · exact absurd hd hs
    · exact hi
  · intro hc
    cases h with
    | msg m => exact hc
    | dictionary a d hs hl => exact absurd hc hs
    | push o flush m hs => exact absurd hc hs.stream
    | reset hs hi => exact absurd hc hs
    | ended hi => rfl

/-- `DFL_INIT` opens a stream in `END` and is refused elsewhere. -/
theorem status_dflInit {s t : State} (he : exec .dflInit s = .next t) (hs : s.cu.status ≠ .noStream) : t.cu.status = s.cu.status := by
  change execDflInit s = _ at he
  rw [execDflInit, if_pos hs] at he
  obtain ⟨m, hm⟩ := raise_cu_eq .streamError s
  rw [← Host.Outcome.next.inj he, hm]

end Cu

/-- Settles O13: of the forms that an instruction can leave `CU` in, only the end of the stream enters `END` and only `DFL_INIT`
leaves it; a push and what it raises move `STATUS` forward. -/
theorem cuStatusTransitions : Obligations.CuStatusTransitions := by
  intro i s t he
  by_cases hi : i = .dflInit
  · subst hi
    refine ⟨fun hs ht => ?_, fun _ _ => rfl, fun hp => absurd hp (by decide)⟩
    exact absurd ((Cu.status_dflInit he hs).symm.trans ht) hs
  · have ha := Cu.answers_exec hi he
    refine ⟨ha.stream.1, fun hs ht => absurd (ha.stream.2 hs) ht, fun hp => ?_⟩
    rcases ha.status with hn | ⟨-, -, rfl⟩ | ⟨-, rfl⟩
    · exact hn
    · exact absurd hp (by decide)
    · exact absurd hp (by decide)

namespace Cu

/-! ## The configuration of `CU` -/

/-- The configuration but for `FUNC`, and the framing kind. -/
theorem config_resetKeep (c : Cu) : c.SameConfig c.resetKeep ∧ c.resetKeep.func = selectFunc c.level c.strategy := by
  obtain ⟨l, d, bl, he⟩ := initBlock_frame c.resetRegs
  rw [resetKeep_eq, he]
  refine ⟨⟨rfl, rfl, rfl, rfl, rfl, rfl, rfl, rfl, rfl, rfl, ?_⟩, rfl⟩
  show (if c.wrap < 0 then -c.wrap else c.wrap) = c.wrap ∨ (if c.wrap < 0 then -c.wrap else c.wrap) = -c.wrap
  split
  · exact .inr rfl
  · exact .inl rfl

/-- The configuration is left as it is, but for the sign of `WRAP`; `FUNC` too, where it is what `LEVEL` and `STRATEGY` select. -/
theorem Answers.config {c d : Cu} {i : Instr} (h : c.Answers i d) :
    c.SameConfig d ∧ (c.func = selectFunc c.level c.strategy → d.func = c.func) := by
  cases h with
  | msg m => exact ⟨⟨rfl, rfl, rfl, rfl, rfl, rfl, rfl, rfl, rfl, rfl, .inl rfl⟩, fun _ => rfl⟩
  | dictionary a d hs hl =>
    have hp := (quiet_loadDictionary { c with adler := a } d).moves.pushed
    have hc := hp.config
    exact ⟨⟨hc.level, hc.strategy, hc.wBits, hc.hashBits, hc.litBufsize, hc.good, hc.maxLazy, hc.nice, hc.chain, hc.gzhead, hc.framing⟩,
      fun _ => hp.rest.1⟩
  | push o flush m hs =>
    have hp := pushed_push flush (c.started o)
    have hc := hp.config
    exact ⟨⟨hc.level, hc.strategy, hc.wBits, hc.hashBits, hc.litBufsize, hc.good, hc.maxLazy, hc.nice, hc.chain, hc.gzhead, hc.framing⟩,
      fun _ => hp.rest.1⟩
  | reset hs hi => exact ⟨(config_resetKeep c).1, fun hf => (config_resetKeep c).2.trans hf.symm⟩
  | ended hi => exact ⟨⟨rfl, rfl, rfl, rfl, rfl, rfl, rfl, rfl, rfl, rfl, .inl rfl⟩, fun _ => rfl⟩

end Cu

namespace Du

/-! ## The configuration of `DU` -/

/-- The configuration registers of `DU` (10_state.md R30). -/
def config (d : Du) := (d.wrap, d.wbits, d.capture)

theorem Leaves.config_eq {d e : Du} (h : d.Leaves e) : e.config = d.config := by
  simp only [Du.config, h.config.1, h.config.2.1, h.config.2.2]

theorem Keeps.config_eq {d e : Du} (h : d.Keeps e) : e.config = d.config := by
  have hf := h.fixed
  simp only [Du.fixed, Prod.mk.injEq] at hf
  simp only [Du.config, hf.1, hf.2.1, hf.2.2.1]

/-! ### The instructions of the bitstream -/

theorem keeps_llSymbol (n : Nat) (d : Du) : d.Keeps (d.llSymbol n) := by
  unfold llSymbol
  exact keeps_ite (keeps_symLit ..) (keeps_ite (keeps_symEob d) (keeps_ite (keeps_symLen ..) (keeps_symLlInvalid d)))

theorem keeps_distSymbol (n : Nat) (d : Du) : d.Keeps (d.distSymbol n) := by
  unfold distSymbol
  exact keeps_ite (keeps_symDist ..) (keeps_symDistInvalid d)

theorem keeps_applyEntry (e : Word32) (d : Du) : d.Keeps (d.applyEntry e) := by
  unfold applyEntry
  split
  · exact keeps_applyCl e d
  · exact keeps_applyDist e d
  · exact keeps_applyLl e d

theorem keeps_execEntry (e : Word32) (d : Du) : d.Keeps (d.execEntry e) := keeps_needThen _ (keeps_applyEntry e) d

/-- A symbol of the fixed code: the code is dropped, then the symbol acts. -/
theorem keeps_fixedCode (n : Nat) {k : Du → Du} (hk : ∀ d, Keeps d (k d)) (d : Du) : d.Keeps (d.needThen n fun d => k (d.drop n)) :=
  keeps_needThen n (fun x => (keeps_drop n x).trans (hk _)) d

theorem keeps_headBytes (w : Nat) (d : Du) : d.Keeps (d.headBytes w) := by
  unfold headBytes
  exact keeps_ite (keeps_regs ..) (keeps_needThen _ (fun x => keeps_headWord w x) d)

theorem keeps_setFlag (k : Nat) (d : Du) : d.Keeps (d.setFlag k) := keeps_regs ..

/-- What an instruction that answers with a next state leaves of the configuration. -/
def KeepsConfig (g : State → Answer) : Prop := ∀ s t, g s = .next t → t.du.config = s.du.config

theorem keepsConfig_onStream {f : Du → Du} (hf : ∀ d, Keeps d (f d)) : KeepsConfig (onStream f) := by
  intro s t h
  unfold onStream at h
  split at h
  · cases h
    exact (hf _).config_eq
  · cases h

theorem keepsConfig_onIdleDu {f : State → State} (hf : ∀ s, (f s).du.config = s.du.config) : KeepsConfig (onIdleDu f) := by
  intro s t h
  unfold onIdleDu at h
  split at h
  · cases h
    exact hf s
  · cases h

theorem config_raise (st : Status) (s : State) : (s.raise .du st).du.config = s.du.config := by
  rw [State.raise_du_du]
  split <;> rfl

theorem config_iflSetdict (s : State) : s.iflSetdict.du.config = s.du.config := by
  unfold State.iflSetdict
  split
  · exact config_raise ..
  · split
    · exact config_raise ..
    · split
      · exact config_raise ..
      · exact (leaves_updateWindow s.port.dictionary s.du).config_eq

theorem config_iflPush (s : State) : s.iflPush.du.config = s.du.config := by
  have h1 : s.startPush.du.config = s.du.config := by
    unfold State.startPush
    split
    · exact config_raise ..
    · split
      · exact config_raise ..
      · rfl
  have h2 := (keeps_runLoop s.startPush.du.rounds s.startPush.du).config_eq.trans h1
  unfold State.iflPush
  dsimp only
  generalize runLoop s.startPush.du.rounds s.startPush.du = d at h2 ⊢
  unfold State.pushStep
  split
  · exact h2
  · exact (keeps_rule d).config_eq.trans h2
  · rename_i ret _
    exact (leaves_leave ret d).config_eq.trans h2

theorem keepsConfig_duCommands {i : Instr} (hd : i ∈ Claims.duCommands) (hi : i ≠ .iflInit) : KeepsConfig (exec i) := by
  simp only [Claims.duCommands, List.mem_cons, List.not_mem_nil, or_false] at hd
  rcases hd with rfl | rfl | rfl | rfl | rfl | rfl | rfl
  · exact absurd rfl hi
  · exact keepsConfig_onIdleDu config_iflSetdict
  · exact keepsConfig_onIdleDu config_iflPush
  · refine keepsConfig_onIdleDu (f := State.iflReset) fun s => ?_
    unfold State.iflReset
    split
    · exact config_raise ..
    · rfl
  · refine keepsConfig_onIdleDu (f := State.iflEnd) fun s => ?_
    unfold State.iflEnd
    split
    · exact config_raise ..
    · rfl
  · refine keepsConfig_onIdleDu (f := State.iflGethdr) fun s => ?_
    unfold State.iflGethdr
    split
    · exact config_raise ..
    · split
      · exact config_raise ..
      · rfl
  · refine keepsConfig_onIdleDu (f := State.iflStat) fun s => ?_
    unfold State.iflStat
    split
    · exact config_raise ..
    · rfl

/-- The instructions of the bitstream act by rules of the state loop. -/
theorem keepsConfig_stream {i : Instr} (hc : i ∉ Claims.cuInstrs) (hd : i ∉ Claims.duCommands) : KeepsConfig (exec i) := by
  cases i with
  | dflInit | dflSetdict | dflPush | dflReset | dflEnd | dflStat | flushNoFlush | flushPartialFlush | flushSyncFlush
  | flushFullFlush | flushFinish | flushBlock => exact absurd (by decide) hc
  | iflInit | iflSetdict | iflPush | iflReset | iflEnd | iflGethdr | iflStat => exact absurd (by decide) hd
  | blockStored b => exact keepsConfig_onStream (keeps_needThen 3 (keeps_blockStored b))
  | blockFixed b => exact keepsConfig_onStream (keeps_needThen 3 (keeps_blockFixed b))
  | blockDynamic b => exact keepsConfig_onStream (keeps_needThen 3 (keeps_blockDynamic b))
  | blockReserved b => exact keepsConfig_onStream (keeps_needThen 3 (keeps_blockReserved b))
  | storedLenNlen l n =>
    exact keepsConfig_onStream fun d => (keeps_bytebits d).trans (keeps_needThen 32 (keeps_storedLengths l n) _)
  | dynamicCounts a b c => exact keepsConfig_onStream (keeps_needThen 14 (keeps_dynamicCounts _ _ _))
  | dynamicCllen v => exact keepsConfig_onStream (keeps_needThen 3 (keeps_storeClLen _))
  | clLength n => exact keepsConfig_onStream (keeps_clLength 0 _)
  | clCopyPrev => exact keepsConfig_onStream (keeps_clCopyPrev 0)
  | clZerosShort => exact keepsConfig_onStream (keeps_clZeros 0 3 3)
  | clZerosLong => exact keepsConfig_onStream (keeps_clZeros 0 11 7)
  | lit b => exact keepsConfig_onStream (keeps_symLit _)
  | eob => exact keepsConfig_onStream keeps_symEob
  | llReserved b => exact keepsConfig_onStream keeps_symLlInvalid
  | distReserved b => exact keepsConfig_onStream keeps_symDistInvalid
  | fixedLit0To143 a => exact keepsConfig_onStream (keeps_fixedCode 8 (keeps_llSymbol _))
  | fixedLit144To255 a => exact keepsConfig_onStream (keeps_fixedCode 9 (keeps_llSymbol _))
  | fixedLl256To279 a => exact keepsConfig_onStream (keeps_fixedCode 7 (keeps_llSymbol _))
  | fixedLl280To287 a => exact keepsConfig_onStream (keeps_fixedCode 8 (keeps_llSymbol _))
  | fixedDist a => exact keepsConfig_onStream (keeps_fixedCode 5 (keeps_distSymbol _))
  | entryLiteral a b => exact keepsConfig_onStream (keeps_execEntry _)
  | entryLink a b c =>
    refine keepsConfig_onStream (keeps_needThen _ fun d => ?_)
    dsimp only
    split
    · exact keeps_applyCl ..
    · exact keeps_viaLink _ _ (fun e x => keeps_applyDist e x) d
    · exact keeps_viaLink _ _ (fun e x => keeps_applyLl e x) d
  | entryBase a b c => exact keepsConfig_onStream (keeps_execEntry _)
  | entryEndOfBlock a => exact keepsConfig_onStream (keeps_execEntry _)
  | entryInvalid a => exact keepsConfig_onStream (keeps_execEntry _)
  | zlibHeader a b c d => exact keepsConfig_onStream (keeps_headBytes _)
  | gzipHeader a b c d =>
    exact keepsConfig_onStream fun d => (((keeps_headBytes _ d).trans (keeps_fallInto _ (keeps_needThen 16 (keeps_flagsWord _)) _)).trans
      (keeps_fallInto _ (keeps_needThen 32 (keeps_timeWord _)) _)).trans (keeps_fallInto _ (keeps_needThen 16 (keeps_osBytes _ _)) _)
  | gzipFtext => exact keepsConfig_onStream (keeps_needThen 16 fun x => keeps_flagsWord _ x)
  | gzipFhcrc => exact keepsConfig_onStream fun d => (keeps_setFlag 9 d).trans (keeps_ruleHcrc _)
  | gzipFextra => exact keepsConfig_onStream fun d => (keeps_setFlag 10 d).trans (keeps_ruleExlen _)
  | gzipFname => exact keepsConfig_onStream fun d => (keeps_setFlag 11 d).trans (keeps_fieldState ..)
  | gzipFcomment => exact keepsConfig_onStream fun d => (keeps_setFlag 12 d).trans (keeps_fieldState ..)
  | gzipFlgReserved a => exact keepsConfig_onStream (keeps_needThen 16 (keeps_flagsWord _))
  | len257 | len258 | len259 | len260 | len261 | len262 | len263 | len264 | len265 | len266 | len267 | len268 | len269 | len270
  | len271 | len272 | len273 | len274 | len275 | len276 | len277 | len278 | len279 | len280 | len281 | len282 | len283 | len284
  | len285 => exact keepsConfig_onStream (keeps_symLen _ _)
  | _ => exact keepsConfig_onStream (keeps_symDist _ _)

end Du

/-- Settles O14: no form that `CU` is left in touches its configuration but the sign of `WRAP`, and no rule or command of `DU` but
`IFL_INIT` touches the configuration of `DU`. -/
theorem configurationIsWrittenByInitOnly : Obligations.ConfigurationIsWrittenByInitOnly := by
  intro i s t he
  refine ⟨fun hi => (Cu.answers_exec hi he).config.1, fun hi => (Cu.answers_exec hi he).config.2, fun hi => ?_⟩
  have hk : t.du.config = s.du.config := by
    by_cases hc : i ∈ Claims.cuInstrs
    · rw [((Isolation.exec_cuIsolated hc).frame he).1]
    · by_cases hd : i ∈ Claims.duCommands
      · exact Du.keepsConfig_duCommands hd hi s t he
      · exact Du.keepsConfig_stream hc hd s t he
  simpa only [Du.config, Prod.mk.injEq] using hk

end Sys2Proof.Machine
end

section
/-! PROOF. What the bit packer and the queue of `CU` take and hand out (42_tree_builder.md R250 to R252, 41_deflate_engine.md R184): how
many bits wait after each operation, and that no bit of `BI_BUF` stands above `BI_VALID`. -/

namespace Sys2Proof.Machine

/-- A counted loop, where what holds depends on the rounds made. -/
theorem forRange_range_from {σ : Type} {P : Nat → σ → Prop} {lo n : Nat} {f : Nat → σ → σ}
    (hf : ∀ i < n, ∀ s, P i s → P (i + 1) (f (lo + i) s)) {s : σ} (h : P 0 s) : P n (forRange lo n f s) := by
  have hs : ∀ k, forRange lo (k + 1) f s = f (lo + k) (forRange lo k f s) := fun k => by
    simp [forRange, List.range'_concat]
  induction n with
  | zero => exact h
  | succ n ih => rw [hs]; exact hf n (Nat.lt_succ_self n) _ (ih fun i hi => hf i (by omega))

theorem forRange_range {σ : Type} {P : Nat → σ → Prop} {n : Nat} {f : Nat → σ → σ} (hf : ∀ i < n, ∀ s, P i s → P (i + 1) (f i s))
    {s : σ} (h : P 0 s) : P n (forRange 0 n f s) := forRange_range_from (by simpa only [Nat.zero_add] using hf) h

namespace Cu

/-! ## The bits that wait -/

/-- The bits queued and not yet handed out. -/
def waiting (c : Cu) : Nat := 8 * c.pending + c.biValid

/-- `d` follows `c` by `n` bits sent. -/
structure Sends (n : Nat) (c d : Cu) : Prop where
  frame : ∃ buf p b v, d = { c with pendingBuf := buf, pending := p, biBuf := b, biValid := v }
  bits  : c.BitsWf → d.BitsWf
  count : c.BitsWf → d.waiting = c.waiting + n

theorem Sends.refl (c : Cu) : Sends 0 c c := ⟨⟨c.pendingBuf, c.pending, c.biBuf, c.biValid, rfl⟩, id, fun _ => rfl⟩

theorem Sends.trans {n m : Nat} {a b c : Cu} (h : Sends n a b) (k : Sends m b c) : Sends (n + m) a c := by
  refine ⟨?_, k.bits ∘ h.bits, fun ha => by rw [k.count (h.bits ha), h.count ha, Nat.add_assoc]⟩
  obtain ⟨_, _, _, _, rfl⟩ := h.frame
  obtain ⟨x, y, z, w, rfl⟩ := k.frame
  exact ⟨x, y, z, w, rfl⟩

theorem Sends.of_eq {n m : Nat} {a b : Cu} (h : Sends n a b) (e : n = m) : Sends m a b := e ▸ h

/-- A number of `n` bits above the `k` low ones. -/
theorem shift_lt {v n : Nat} (k : Nat) (hv : v < 2 ^ n) : v <<< k < 2 ^ (k + n) := by
  rw [Nat.shiftLeft_eq, Nat.pow_add, Nat.mul_comm]
  exact Nat.mul_lt_mul_of_pos_left hv (Nat.two_pow_pos k)

/-- `send_bits` (42_tree_builder.md R250). -/
theorem sends_sendBits (c : Cu) {v n : Nat} (hv : v < 2 ^ n) (hn : n ≤ 16) : Sends n c (c.sendBits v n) := by
  unfold sendBits
  split
  · rename_i hc
    refine ⟨⟨_, _, _, _, rfl⟩, fun h => ⟨?_, ?_⟩, fun h => ?_⟩
    · have hb := h.valid
      show (word16Of (v >>> (16 - c.biValid))).toNat < 2 ^ (c.biValid + n - 16)
      refine (Nat.mod_le _ _).trans_lt ?_
      rw [Nat.shiftRight_eq_div_pow, Nat.div_lt_iff_lt_mul (Nat.two_pow_pos _), ← Nat.pow_add]
      rwa [show c.biValid + n - 16 + (16 - c.biValid) = n by omega]
    · have := h.valid
      show c.biValid + n - 16 ≤ 16
      omega
    · show 8 * (c.pending + 1 + 1) + (c.biValid + n - 16) = 8 * c.pending + c.biValid + n
      omega
  · rename_i hc
    refine ⟨⟨c.pendingBuf, c.pending, _, _, rfl⟩, fun h => ⟨?_, ?_⟩, fun _ => (Nat.add_assoc ..).symm⟩
    · show (c.biBuf ||| word16Of v <<< c.biValid).toNat < 2 ^ (c.biValid + n)
      have hv16 : v < 2 ^ 16 := hv.trans_le (Nat.pow_le_pow_right (by decide) hn)
      rw [BitVec.toNat_or, BitVec.toNat_shiftLeft, word16Of, BitVec.toNat_ofNat, Nat.mod_eq_of_lt hv16]
      exact Nat.or_lt_two_pow (h.bits.trans_le (Nat.pow_le_pow_right (by decide) (Nat.le_add_right ..)))
        ((Nat.mod_le _ _).trans_lt (shift_lt _ hv))
    · show c.biValid + n ≤ 16
      omega

/-- A counted loop of sends: what a round sends does not depend on what was sent before. -/
theorem sends_forRange {n : Nat} {f : Nat → Cu → Cu} {w : Nat → Nat} {c : Cu}
    (hf : ∀ i < n, ∀ d, (∃ m, Sends m c d) → Sends (w i) d (f i d)) :
    Sends (∑ i ∈ Finset.range n, w i) c (forRange 0 n f c) :=
  forRange_range (P := fun k d => Sends (∑ i ∈ Finset.range k, w i) c d)
    (fun i hi d h => (h.trans (hf i hi d ⟨_, h⟩)).of_eq (Finset.sum_range_succ ..).symm) (.refl c)

theorem sends_foldl {α : Type} {f : Cu → α → Cu} {w : α → Nat} {c : Cu} : ∀ (l : List α) {m : Nat} {d : Cu}, Sends m c d →
    (∀ x ∈ l, ∀ d, (∃ m, Sends m c d) → Sends (w x) d (f d x)) → Sends (m + (l.map w).sum) c (l.foldl f d)
  | [], _, _, h, _ => h
  | x :: r, m, d, h, hf =>
    (sends_foldl r (h.trans (hf x (by simp) d ⟨m, h⟩)) fun y hy => hf y (by simp [hy])).of_eq (by simp [Nat.add_assoc])

/-- `bi_flush` (42_tree_builder.md R251) keeps the bits that wait, less than eight of them in `BI_BUF`. -/
theorem sends_biFlush (c : Cu) : Sends 0 c c.biFlush ∧ (c.BitsWf → c.biFlush.biValid ≤ 7) := by
  unfold biFlush
  split
  · rename_i h16
    refine ⟨⟨⟨_, _, _, _, rfl⟩, fun _ => ⟨Nat.one_pos, Nat.zero_le _⟩, fun _ => ?_⟩, fun _ => Nat.zero_le _⟩
    show 8 * (c.pending + 1 + 1) + 0 = 8 * c.pending + c.biValid + 0
    omega
  · split
    · refine ⟨⟨⟨_, _, _, _, rfl⟩, fun h => ⟨?_, ?_⟩, fun _ => ?_⟩, fun h => ?_⟩
      · show (c.biBuf >>> 8).toNat < 2 ^ (c.biValid - 8)
        rw [BitVec.toNat_ushiftRight, Nat.shiftRight_eq_div_pow, Nat.div_lt_iff_lt_mul (Nat.two_pow_pos _), ← Nat.pow_add]
        rw [show c.biValid - 8 + 8 = c.biValid by omega]
        exact h.bits
      · have := h.valid
        show c.biValid - 8 ≤ 16
        omega
      · show 8 * (c.pending + 1) + (c.biValid - 8) = 8 * c.pending + c.biValid + 0
        omega
      · have := h.valid
        show c.biValid - 8 ≤ 7
        omega
    · exact ⟨.refl c, fun _ => by omega⟩

/-- `bi_windup` (42_tree_builder.md R252) fills the last byte up and empties `BI_BUF`. -/
theorem biWindup_frame (c : Cu) (hv : c.biValid ≤ 16) : ∃ buf p,
    c.biWindup = { c with pendingBuf := buf, pending := p, biBuf := 0, biValid := 0 } ∧ 8 * p ≤ c.waiting + 7 := by
  unfold biWindup waiting
  dsimp only
  split
  · exact ⟨_, _, rfl, by show 8 * (c.pending + 1 + 1) ≤ _; omega⟩
  · split
    · exact ⟨_, _, rfl, by show 8 * (c.pending + 1) ≤ _; omega⟩
    · exact ⟨c.pendingBuf, c.pending, rfl, by omega⟩

/-! ## Whole bytes -/

/-- `d` follows `c` by `n` bytes put in the queue. -/
def Puts (n : Nat) (c d : Cu) : Prop := ∃ buf, d = { c with pendingBuf := buf, pending := c.pending + n }

theorem Puts.trans {n m : Nat} {a b c : Cu} : Puts n a b → Puts m b c → Puts (n + m) a c := by
  rintro ⟨_, rfl⟩ ⟨x, rfl⟩
  exact ⟨x, by simp only [Nat.add_assoc]⟩

theorem puts_putByte (c : Cu) (b : Byte) : Puts 1 c (c.putByte b) := ⟨_, rfl⟩
theorem puts_putShort (c : Cu) (w : Nat) : Puts 2 c (c.putShort w) := (puts_putByte ..).trans (puts_putByte ..)
theorem puts_putShortMsb (c : Cu) (w : Nat) : Puts 2 c (c.putShortMsb w) := (puts_putByte ..).trans (puts_putByte ..)

theorem puts_putBytes : ∀ (bs : List Byte) (c : Cu), Puts bs.length c (c.putBytes bs)
  | [], c => ⟨c.pendingBuf, rfl⟩
  | b :: r, c => by
    have h := (puts_putByte c b).trans (puts_putBytes r (c.putByte b))
    rwa [Nat.add_comm] at h

/-- `flush_pending` (41_deflate_engine.md R184) hands out as many bytes as wait and fit. -/
theorem flushPending_frame (c : Cu) : ∃ out totalOut pendingOut, c.flushPending = { c with
    cur := { c.cur with out := out, availOut := c.cur.availOut - min c.pending c.cur.availOut }
    totalOut := totalOut, pending := c.pending - min c.pending c.cur.availOut, pendingOut := pendingOut } := by
  have hloop : ∃ out pendingOut, forRange 0 (min c.pending c.cur.availOut) (fun _ c => c.flushByte) c = { c with
      cur := { c.cur with out := out, availOut := c.cur.availOut - min c.pending c.cur.availOut }, pendingOut := pendingOut } :=
    forRange_range (P := fun k (d : Cu) => ∃ out pendingOut, d = { c with
      cur := { c.cur with out := out, availOut := c.cur.availOut - k }, pendingOut := pendingOut })
      (fun i _ d => by rintro ⟨out, q, rfl⟩; exact ⟨_, _, rfl⟩) ⟨c.cur.out, c.pendingOut, rfl⟩
  obtain ⟨out, q, he⟩ := hloop
  unfold flushPending
  dsimp only
  split
  · rename_i h0
    exact ⟨c.cur.out, c.totalOut, c.pendingOut, by rw [h0]; rfl⟩
  · rw [he]
    split
    · exact ⟨_, _, _, rfl⟩
    · exact ⟨_, _, _, rfl⟩

/-- What `flush_pending` leaves in the queue: nothing, if the output still has space. -/
theorem pending_flushPending (c : Cu) : c.flushPending.pending ≤ c.pending ∧
    (c.flushPending.cur.availOut ≠ 0 → c.flushPending.pending = 0) ∧
    (c.cur.availOut ≠ 0 → c.flushPending.pending ≤ c.pending - 1) := by
  obtain ⟨out, t, q, he⟩ := flushPending_frame c
  rw [he]
  dsimp only
  omega

end Cu
end Sys2Proof.Machine
end

section
/-! PROOF. The heap of `build_tree` (42_tree_builder.md R234 to R236): it holds every symbol with a frequency once, and a merge moves two
nodes to its upper part and adds one; so the upper part ends with every symbol once and every inner node. -/

namespace Sys2Proof.Machine

namespace Cu

/-! ## Reads after writes -/

theorem node_setNode {c : Cu} (h : c.MemWf) (t : Tree) (n m : Nat) (v : Node) :
    (c.setNode t n v).node t m = if m = n ∧ n < t.size then v else c.node t m := by
  cases t
  · exact Mem.rd_wr h.dynLtree
  · exact Mem.rd_wr h.dynDtree
  · exact Mem.rd_wr h.blTree

theorem node_setNode_other (c : Cu) {t u : Tree} (hu : u ≠ t) (n m : Nat) (v : Node) : (c.setNode t n v).node u m = c.node u m := by
  cases t <;> cases u <;> simp_all [node, setNode]

theorem heapAt_lt (c : Cu) (i : Nat) : c.heapAt i < 2 ^ 16 := (Mem.rd Config.heapSize c.heap i).isLt

theorem heapAt_setHeap {c : Cu} (h : c.MemWf) {k v : Nat} (hk : k < 573) (hv : v < 2 ^ 16) (i : Nat) :
    (c.setHeap k v).heapAt i = if i = k then v else c.heapAt i := by
  unfold heapAt setHeap
  dsimp only
  rw [Mem.rd_wr h.heap]
  by_cases hi : i = k
  · rw [if_pos ⟨hi, hk⟩, if_pos hi, word16Of, BitVec.toNat_ofNat, Nat.mod_eq_of_lt hv]
  · rw [if_neg fun hc => hi hc.1, if_neg hi]

/-- The length that a node is given. -/
theorem len_setLen {c : Cu} (h : c.MemWf) (t : Tree) (n x : Nat) {v : Nat} (hv : v ≤ 15) :
    ((c.setLen t n v).node t x).len.toNat = if x = n ∧ n < t.size then v else (c.node t x).len.toNat := by
  rw [setLen, node_setNode h]
  split
  · show (word16Of v).toNat = v
    rw [word16Of, BitVec.toNat_ofNat, Nat.mod_eq_of_lt (by omega)]
  · rfl

/-- A write of another field of a node leaves its frequency alone. -/
theorem freq_setNode {c : Cu} (h : c.MemWf) (t : Tree) (n x : Nat) {v : Node} (hv : v.freq = (c.node t n).freq) :
    ((c.setNode t n v).node t x).freq = (c.node t x).freq := by
  rw [node_setNode h]
  split
  · rename_i hx
    rw [hv, hx.1]
  · rfl

/-! ## The heap as a bag -/

/-- What a part of the heap adds up to. -/
def heapSum (c : Cu) (s : Finset Nat) (g : Nat → Nat) : Nat := ∑ i ∈ s, g (c.heapAt i)

theorem heapSum_congr {c d : Cu} {s : Finset Nat} (h : ∀ i ∈ s, d.heapAt i = c.heapAt i) (g : Nat → Nat) :
    d.heapSum s g = c.heapSum s g := Finset.sum_congr rfl fun i hi => by rw [h i hi]

theorem heapSum_setHeap_of_notMem {c : Cu} (h : c.MemWf) {k v : Nat} (hk : k < 573) (hv : v < 2 ^ 16) {s : Finset Nat} (hs : k ∉ s)
    (g : Nat → Nat) : (c.setHeap k v).heapSum s g = c.heapSum s g :=
  heapSum_congr (fun i hi => by rw [heapAt_setHeap h hk hv, if_neg (ne_of_mem_of_not_mem hi hs)]) g

theorem heapSum_setHeap {c : Cu} (h : c.MemWf) {k v : Nat} (hk : k < 573) (hv : v < 2 ^ 16) {s : Finset Nat} (hs : k ∈ s)
    (g : Nat → Nat) : (c.setHeap k v).heapSum s g + g (c.heapAt k) = c.heapSum s g + g v := by
  have he := heapSum_setHeap_of_notMem h hk hv (Finset.notMem_erase k s) g
  have h1 := Finset.add_sum_erase s (fun i => g (c.heapAt i)) hs
  have h2 := Finset.add_sum_erase s (fun i => g ((c.setHeap k v).heapAt i)) hs
  have hk : (c.setHeap k v).heapAt k = v := by rw [heapAt_setHeap h hk hv, if_pos rfl]
  unfold heapSum at *
  rw [hk] at h2
  omega

/-- The heap proper. -/
def low (c : Cu) (g : Nat → Nat) : Nat := c.heapSum (Finset.Icc 1 c.heapLen) g

/-- `pqdownheap` puts `v` in the place of entry `k` of the heap, in some order (42_tree_builder.md R235). -/
theorem siftLoop_frame (t : Tree) {v : Nat} (hv : v < 2 ^ 16) : ∀ fuel k j (c : Cu), c.MemWf → c.heapLen < 573 → 1 ≤ k →
    k ≤ c.heapLen → k < j → ∃ heap, siftLoop t v fuel k j c = { c with heap := heap } ∧
      (∀ g, (siftLoop t v fuel k j c).low g + g (c.heapAt k) = c.low g + g v) ∧
      ∀ i, c.heapLen < i → (siftLoop t v fuel k j c).heapAt i = c.heapAt i := by
  have stop : ∀ k (c : Cu), c.MemWf → c.heapLen < 573 → 1 ≤ k → k ≤ c.heapLen → ∃ heap, c.setHeap k v = { c with heap := heap } ∧
      (∀ g, (c.setHeap k v).low g + g (c.heapAt k) = c.low g + g v) ∧ ∀ i, c.heapLen < i → (c.setHeap k v).heapAt i = c.heapAt i :=
    fun k c h hl h1 hk => ⟨_, rfl, heapSum_setHeap h (by omega) hv (Finset.mem_Icc.2 ⟨h1, hk⟩), fun i hi => by
      rw [heapAt_setHeap h (by omega) hv, if_neg (by omega)]⟩
  intro fuel
  induction fuel with
  | zero => exact fun k j c h hl h1 hk _ => stop k c h hl h1 hk
  | succ fuel ih =>
    intro k j c h hl h1 hk hj
    rw [siftLoop]
    split
    · exact stop k c h hl h1 hk
    · rename_i hjl
      dsimp only
      obtain ⟨j', he, hj1, hj2⟩ : ∃ j', (if j < c.heapLen && c.smaller t (c.heapAt (j + 1)) (c.heapAt j) then j + 1 else j) = j' ∧
          j ≤ j' ∧ j' ≤ c.heapLen := ⟨_, rfl, by split <;> omega, by split <;> simp_all⟩
      rw [he]
      split
      · exact stop k c h hl h1 hk
      · have hw := heapAt_lt c j'
        obtain ⟨heap, hf, hs, ho⟩ := ih j' (2 * j') (c.setHeap k (c.heapAt j')) ((quiet_setHeap ..).mem h) hl (by omega) hj2 (by omega)
        refine ⟨heap, hf, fun g => ?_, fun i hi => ?_⟩
        · have hp := heapSum_setHeap h (by omega : k < 573) hw (Finset.mem_Icc.2 ⟨h1, hk⟩) g
          have hg := hs g
          rw [heapAt_setHeap h (by omega) hw, if_neg (by omega)] at hg
          have hlow : (c.setHeap k (c.heapAt j')).low g = (c.setHeap k (c.heapAt j')).heapSum (Finset.Icc 1 c.heapLen) g := rfl
          unfold low at hg hlow ⊢
          omega
        · rw [ho i hi, heapAt_setHeap h (by omega) hw, if_neg (by omega)]

/-- `d` follows `c` by a reordering of the heap. -/
structure Sifts (c d : Cu) : Prop where
  frame : ∃ heap, d = { c with heap := heap }
  mem   : c.MemWf → d.MemWf
  low   : ∀ g, d.low g = c.low g
  above : ∀ i, c.heapLen < i → d.heapAt i = c.heapAt i

theorem Sifts.refl (c : Cu) : c.Sifts c := ⟨⟨c.heap, rfl⟩, id, fun _ => rfl, fun _ _ => rfl⟩

theorem Sifts.trans {a b c : Cu} (h : a.Sifts b) (k : b.Sifts c) : a.Sifts c := by
  obtain ⟨x, rfl⟩ := h.frame
  obtain ⟨y, rfl⟩ := k.frame
  exact ⟨⟨y, rfl⟩, k.mem ∘ h.mem, fun g => (k.low g).trans (h.low g), fun i hi => (k.above i hi).trans (h.above i hi)⟩

theorem Sifts.heapLen_eq {c d : Cu} (h : c.Sifts d) : d.heapLen = c.heapLen := by
  obtain ⟨x, rfl⟩ := h.frame
  rfl

theorem Sifts.heapMax_eq {c d : Cu} (h : c.Sifts d) : d.heapMax = c.heapMax := by
  obtain ⟨x, rfl⟩ := h.frame
  rfl

/-- Sifting an entry down reorders the heap. -/
theorem sifts_pqdownheap (t : Tree) {k : Nat} {c : Cu} (h : c.MemWf) (hl : c.heapLen < 573) (h1 : 1 ≤ k) (hk : k ≤ c.heapLen) :
    c.Sifts (c.pqdownheap t k) := by
  obtain ⟨heap, hf, hs, ho⟩ := siftLoop_frame t (heapAt_lt c k) c.heapLen k (2 * k) c h hl h1 hk (by omega)
  exact ⟨⟨heap, hf⟩, (quiet_pqdownheap ..).mem, fun g => Nat.add_right_cancel (hs g), ho⟩

theorem sifts_foldl (t : Tree) : ∀ (l : List Nat) {c : Cu}, c.MemWf → c.heapLen < 573 → (∀ n ∈ l, 1 ≤ n ∧ n ≤ c.heapLen) →
    c.Sifts (l.foldl (fun c n => c.pqdownheap t n) c)
  | [], c, _, _, _ => .refl c
  | n :: r, c, h, hl, hn => by
    have h1 := sifts_pqdownheap t h hl (hn n (by simp)).1 (hn n (by simp)).2
    have he := h1.heapLen_eq
    exact h1.trans (sifts_foldl t r (h1.mem h) (by omega) fun m hm => by have := hn m (by simp [hm]); omega)

theorem Tree.size_eq (t : Tree) : t.size = 2 * t.elems + 1 := by cases t <;> rfl
theorem Tree.elems_le (t : Tree) : 19 ≤ t.elems ∧ t.elems ≤ 286 := by cases t <;> decide

/-! ## The first loops (42_tree_builder.md R234) -/

/-- What the symbols with a frequency add up to. -/
def leafSum (c : Cu) (t : Tree) (g : Nat → Nat) : Nat := ∑ x ∈ Finset.range t.elems, if (c.node t x).freq ≠ 0 then g x else 0

/-- The heap holds every symbol with a frequency once; `m` is the last of them, -1 if there is none. -/
structure Leaves (t : Tree) (c : Cu) (m : Int) : Prop where
  mem  : c.MemWf
  top  : c.heapMax = 573
  bag  : ∀ g, c.low g = c.leafSum t g
  code : -1 ≤ m ∧ m < t.elems
  last : ∀ x < t.elems, (c.node t x).freq ≠ 0 → (x : Int) ≤ m
  used : 0 ≤ m → (c.node t m.toNat).freq ≠ 0

/-- `d` has the frequencies of `c` and has counted the same bits. -/
structure SameCounts (t : Tree) (c d : Cu) : Prop where
  freq   : ∀ x < t.elems, (d.node t x).freq = (c.node t x).freq
  opt    : d.optLen = c.optLen
  static : d.staticLen = c.staticLen

theorem SameCounts.refl (t : Tree) (c : Cu) : SameCounts t c c := ⟨fun _ _ => rfl, rfl, rfl⟩
theorem SameCounts.trans {t : Tree} {a b c : Cu} (h : SameCounts t a b) (k : SameCounts t b c) : SameCounts t a c :=
  ⟨fun x hx => (k.freq x hx).trans (h.freq x hx), k.opt.trans h.opt, k.static.trans h.static⟩

theorem sameCounts_setNode {c : Cu} (h : c.MemWf) (t : Tree) (n : Nat) {v : Node} (hv : v.freq = (c.node t n).freq) :
    SameCounts t c (c.setNode t n v) := ⟨fun x _ => freq_setNode h t n x hv, by cases t <;> rfl, by cases t <;> rfl⟩

theorem SameCounts.leafSum_eq {t : Tree} {c d : Cu} (h : SameCounts t c d) (g : Nat → Nat) : d.leafSum t g = c.leafSum t g :=
  Finset.sum_congr rfl fun x hx => by rw [h.freq x (Finset.mem_range.1 hx)]

theorem Leaves.heapLen_eq {t : Tree} {c : Cu} {m : Int} (h : Leaves t c m) : c.heapLen = c.leafSum t fun _ => 1 := by
  rw [← h.bag, low, heapSum]
  simp

theorem Leaves.heapLen_le {t : Tree} {c : Cu} {m : Int} (h : Leaves t c m) : c.heapLen ≤ t.elems := by
  rw [h.heapLen_eq, leafSum]
  refine (Finset.sum_le_card_nsmul _ _ 1 fun x _ => by split <;> omega).trans (by simp)

/-- A node pushed on the heap. -/
theorem low_push {c : Cu} (h : c.MemWf) {v : Nat} (hl : c.heapLen + 1 < 573) (hv : v < 2 ^ 16) (g : Nat → Nat) :
    (setHeap { c with heapLen := c.heapLen + 1 } (c.heapLen + 1) v).low g = c.low g + g v := by
  have hm : MemWf { c with heapLen := c.heapLen + 1 } := { h with }
  show ∑ i ∈ Finset.Icc 1 (c.heapLen + 1), g ((setHeap { c with heapLen := c.heapLen + 1 } (c.heapLen + 1) v).heapAt i) = _
  rw [Finset.sum_Icc_succ_top (by omega), heapAt_setHeap hm hl hv, if_pos rfl]
  exact congrArg (· + g v) (heapSum_setHeap_of_notMem hm hl hv (by simp) g)

/-- The first loop after `k` symbols. -/
structure Scanned (t : Tree) (c : Cu) (k : Nat) (p : Cu × Int) : Prop where
  counts : SameCounts t c p.1
  mem    : p.1.MemWf
  top    : p.1.heapMax = 573
  len    : p.1.heapLen ≤ k
  bag    : ∀ g, p.1.low g = ∑ x ∈ Finset.range k, if (c.node t x).freq ≠ 0 then g x else 0
  code   : -1 ≤ p.2 ∧ p.2 < k
  last   : ∀ x < k, (c.node t x).freq ≠ 0 → (x : Int) ≤ p.2
  used   : 0 ≤ p.2 → (c.node t p.2.toNat).freq ≠ 0

theorem scanned_heapSymbols (t : Tree) {c : Cu} (h : c.MemWf) : Scanned t c t.elems (c.heapSymbols t) := by
  have hE := t.elems_le
  refine forRange_range (P := Scanned t c) ?_
    ⟨⟨fun _ _ => rfl, rfl, rfl⟩, { h with }, rfl, le_refl _, fun _ => rfl, ⟨le_refl _, by dsimp only; omega⟩, by omega,
      by dsimp only; omega⟩
  rintro n hn ⟨d, m⟩ hp
  obtain ⟨hc, hd, ht, hl, hs, hm, hx, hu⟩ := hp
  dsimp only at hc hd ht hl hs hm hx hu ⊢
  rw [hc.freq n hn]
  split
  · rename_i hf
    have hd1 : MemWf (setHeap { d with heapLen := d.heapLen + 1 } (d.heapLen + 1) n) := (quiet_setHeap ..).mem { hd with }
    refine ⟨hc.trans ⟨fun _ _ => rfl, rfl, rfl⟩, (quiet_setDepth ..).mem hd1, ht, Nat.succ_le_succ hl, fun g => ?_,
      by dsimp only; omega, fun x hx _ => by dsimp only; omega, fun _ => hf⟩
    rw [Finset.sum_range_succ, if_pos hf, ← hs g]
    exact low_push hd (by omega) (by omega) g
  · rename_i hf
    refine ⟨hc.trans (sameCounts_setNode hd t n rfl), (quiet_setLen ..).mem hd, by cases t <;> exact ht,
      by cases t <;> exact Nat.le_succ_of_le hl, fun g => ?_, ⟨hm.1, by dsimp only; omega⟩, fun x hxn hxf => ?_, hu⟩
    · rw [Finset.sum_range_succ, if_neg hf, Nat.add_zero, ← hs g]
      cases t <;> rfl
    · rcases Nat.lt_succ_iff_lt_or_eq.1 hxn with hlt | rfl
      · exact hx x hlt hxf
      · exact absurd hxf hf

theorem Scanned.leaves {t : Tree} {c : Cu} {p : Cu × Int} (h : Scanned t c t.elems p) : Leaves t p.1 p.2 :=
  ⟨h.mem, h.top, fun g => (h.bag g).trans (h.counts.leafSum_eq g).symm, h.code, fun x hx hf => h.last x hx (h.counts.freq x hx ▸ hf),
    fun h0 => h.counts.freq p.2.toNat (by have := h.code; omega) ▸ h.used h0⟩

/-! ## What a tree with its codes is to its frequencies -/

/-- The bits of a symbol in the static tree, with its extra bits; none in the bit-length tree. -/
def Tree.staticBits (t : Tree) (x : Nat) : Nat :=
  match t.staticLenOf x with
  | some len => len + t.xbits x
  | none => 0

/-- What the symbols of a tree add up to, each as often as its frequency says. -/
def weight (c : Cu) (t : Tree) (g : Nat → Nat) : Nat := ∑ x ∈ Finset.range t.elems, (c.node t x).freq.toNat * g x

/-- The bits of a symbol with its extra bits. -/
def bitsOf (c : Cu) (t : Tree) (x : Nat) : Nat := (c.node t x).len.toNat + t.xbits x

/-- `d` has the codes of the frequencies of `c`: `m` is the last symbol that has one, and at most `K` bits are counted that no symbol
takes. -/
structure Coded (t : Tree) (K : Nat) (c d : Cu) (m : Nat) : Prop where
  bound  : m < t.elems
  code   : ∀ x < t.elems, (c.node t x).freq ≠ 0 →
    x ≤ m ∧ 1 ≤ (d.node t x).len.toNat ∧ (d.node t x).code.toNat < 2 ^ (d.node t x).len.toNat
  opt    : ∃ k ≤ K, d.optLen = c.optLen + word32Of (c.weight t (d.bitsOf t) + k)
  static : d.staticLen = c.staticLen + word32Of (c.weight t t.staticBits)

theorem SameCounts.weight_eq {t : Tree} {c d : Cu} (h : SameCounts t c d) (g : Nat → Nat) : d.weight t g = c.weight t g :=
  Finset.sum_congr rfl fun x hx => by rw [h.freq x (Finset.mem_range.1 hx)]

theorem Coded.of_sameCounts {t : Tree} {K : Nat} {b c d : Cu} {m : Nat} (h : SameCounts t b c) (k : Coded t K c d m) : Coded t K b d m where
  bound := k.bound
  code x hx hf := k.code x hx (by rwa [h.freq x hx])
  opt := by rw [← h.opt, ← h.weight_eq]; exact k.opt
  static := by rw [← h.static, ← h.weight_eq]; exact k.static

/-! ## At least two codes (42_tree_builder.md R234) -/

/-- `d` follows `c` by a frequency of 1 for symbol `x`, which had none, with its bits taken off the counts beforehand. -/
structure Forced (t : Tree) (x : Nat) (c d : Cu) : Prop where
  small  : x ≤ 2
  unused : (c.node t x).freq = 0
  freq   : ∀ y, (d.node t y).freq = if y = x then 1 else (c.node t y).freq
  opt    : d.optLen = c.optLen - 1
  static : d.staticLen = c.staticLen - word32Of (t.staticBits x)

theorem Tree.xbits_small (t : Tree) {x : Nat} (h : x ≤ 2) : t.xbits x = 0 := by
  have : x = 0 ∨ x = 1 ∨ x = 2 := by omega
  rcases this with rfl | rfl | rfl <;> cases t <;> rfl

theorem Forced.weight_eq {t : Tree} {x : Nat} {c d : Cu} (h : Forced t x c d) (g : Nat → Nat) : d.weight t g = c.weight t g + g x := by
  have hE := t.elems_le
  have hx := h.small
  unfold weight
  rw [← Finset.add_sum_erase _ _ (Finset.mem_range.2 (by omega : x < t.elems)),
    ← Finset.add_sum_erase (Finset.range t.elems) (fun y => (c.node t y).freq.toNat * g y) (Finset.mem_range.2 (by omega : x < t.elems)),
    h.freq x, if_pos rfl, h.unused, Finset.sum_congr rfl fun y hy => by rw [h.freq y, if_neg (Finset.ne_of_mem_erase hy)]]
  simp [Nat.add_comm]

/-- A forced symbol has a code of at least one bit, and the bit taken off for it is one of those. -/
theorem Coded.of_forced {t : Tree} {K : Nat} {x : Nat} {b c d : Cu} {m : Nat} (h : Forced t x b c) (k : Coded t K c d m)
    (hd : d.Emit) : Coded t (K + 14) b d m := by
  have hE := t.elems_le
  have hx := h.small
  obtain ⟨-, h1, -⟩ := k.code x (by omega) (by rw [h.freq x, if_pos rfl]; decide)
  have h15 := hd.len_le t x
  refine ⟨k.bound, fun y hy hf => k.code y hy ?_, ?_, ?_⟩
  · rw [h.freq y]
    split
    · decide
    · exact hf
  · obtain ⟨j, hj, he⟩ := k.opt
    refine ⟨j + ((d.node t x).len.toNat - 1), by omega, ?_⟩
    have hb : d.bitsOf t x = 1 + ((d.node t x).len.toNat - 1) := by rw [bitsOf, t.xbits_small hx]; omega
    rw [he, h.opt, h.weight_eq, hb, show b.weight t (d.bitsOf t) + (1 + ((d.node t x).len.toNat - 1)) + j =
      1 + (b.weight t (d.bitsOf t) + (j + ((d.node t x).len.toNat - 1))) by omega, word32Of_add 1, ← BitVec.add_assoc]
    rw [show word32Of 1 = 1 from rfl, BitVec.sub_add_cancel]
  · rw [k.static, h.static, h.weight_eq, Nat.add_comm (b.weight t _), word32Of_add (t.staticBits x), ← BitVec.add_assoc,
      BitVec.sub_add_cancel]

/-- A bag with two different symbols counts at least two. -/
theorem two_le_leafSum {t : Tree} {c : Cu} {x y : Nat} (hx : x < t.elems) (hy : y < t.elems) (hxy : x ≠ y)
    (hfx : (c.node t x).freq ≠ 0) (hfy : (c.node t y).freq ≠ 0) : 2 ≤ c.leafSum t fun _ => 1 := by
  unfold leafSum
  rw [← Finset.add_sum_erase _ _ (Finset.mem_range.2 hx),
    ← Finset.add_sum_erase _ _ (Finset.mem_erase.2 ⟨hxy.symm, Finset.mem_range.2 hy⟩), if_pos hfx, if_pos hfy]
  dsimp only
  omega

/-- The synthetic symbol: its node and the new `max_code`. -/
def forcedNode (m : Int) : Nat × Int := if m < 2 then ((m + 1).toNat, m + 1) else (0, m)

theorem Leaves.forcedNode_unused {t : Tree} {c : Cu} {m : Int} (h : Leaves t c m) (hl : c.heapLen ≤ 1) :
    (c.node t (forcedNode m).1).freq = 0 := by
  have hE := t.elems_le
  obtain ⟨hm0, hm1⟩ := h.code
  by_contra hf
  unfold forcedNode at hf
  split at hf
  · have := h.last _ (by dsimp only; omega) hf
    dsimp only at this
    omega
  · have := two_le_leafSum (x := 0) (y := m.toNat) (by omega) (by omega) (by omega) hf (h.used (by omega))
    rw [← h.heapLen_eq] at this
    omega

theorem forcedNode_bounds {m : Int} (h : -1 ≤ m) : (forcedNode m).1 ≤ 2 ∧ ((forcedNode m).1 : Int) ≤ (forcedNode m).2 ∧
    m ≤ (forcedNode m).2 ∧ ((forcedNode m).2 ≤ 2 ∧ (forcedNode m).2 = (forcedNode m).1 ∨ (forcedNode m).2 = m) := by
  unfold forcedNode
  split <;> dsimp only <;> omega

/-- The synthetic symbol `x` on the heap. -/
def forceNode (t : Tree) (x : Nat) (c : Cu) : Cu :=
  let c1 := ((setHeap { c with heapLen := c.heapLen + 1 } (c.heapLen + 1) x).setFreq t x 1).setDepth x 0
  { c1 with
    optLen := c1.optLen - 1
    staticLen := match t.staticLenOf x with
      | some l => c1.staticLen - word32Of l
      | none => c1.staticLen }

theorem forceSymbol_eq (t : Tree) (c : Cu) (m : Int) : c.forceSymbol t m = (c.forceNode t (forcedNode m).1, (forcedNode m).2) := rfl

theorem low_congr {c d : Cu} (hl : d.heapLen = c.heapLen) (hh : d.heap = c.heap) : d.low = c.low := by
  unfold low heapSum heapAt
  rw [hl, hh]

theorem freq_setFreq {c : Cu} (h : c.MemWf) (t : Tree) {x : Nat} (hx : x < t.size) (v : Word16) (y : Nat) :
    ((c.setFreq t x v).node t y).freq = if y = x then v else (c.node t y).freq := by
  rw [setFreq, node_setNode h]
  by_cases hy : y = x
  · rw [if_pos ⟨hy, hx⟩, if_pos hy]
  · rw [if_neg fun hc => hy hc.1, if_neg hy]

theorem regs_setNode (c : Cu) (t : Tree) (n : Nat) (v : Node) : (c.setNode t n v).heapLen = c.heapLen ∧
    (c.setNode t n v).heapMax = c.heapMax ∧ (c.setNode t n v).optLen = c.optLen ∧
      (c.setNode t n v).staticLen = c.staticLen ∧ (c.setNode t n v).heap = c.heap := by
  cases t <;> exact ⟨rfl, rfl, rfl, rfl, rfl⟩

theorem forceNode_facts {t : Tree} {x : Nat} {c : Cu} (h : c.MemWf) (hx : x ≤ 2) (hl : c.heapLen + 1 < 573) :
    (c.forceNode t x).MemWf ∧ (c.forceNode t x).heapMax = c.heapMax ∧ (c.forceNode t x).heapLen = c.heapLen + 1 ∧
      ∀ g, (c.forceNode t x).low g = c.low g + g x := by
  have hm : MemWf (setHeap { c with heapLen := c.heapLen + 1 } (c.heapLen + 1) x) := (quiet_setHeap ..).mem { h with }
  have hf : MemWf (((setHeap { c with heapLen := c.heapLen + 1 } (c.heapLen + 1) x).setFreq t x 1).setDepth x 0) :=
    (quiet_setDepth ..).mem ((quiet_setFreq ..).mem hm)
  obtain ⟨hl', hm', -, -, hh⟩ := regs_setNode (setHeap { c with heapLen := c.heapLen + 1 } (c.heapLen + 1) x) t x
    { (setHeap { c with heapLen := c.heapLen + 1 } (c.heapLen + 1) x).node t x with freq := 1 }
  unfold forceNode
  refine ⟨{ hf with }, hm', hl', fun g => ?_⟩
  rw [← low_push h hl (by omega) g]
  refine congrFun (low_congr ?_ ?_) g
  · exact hl'
  · exact hh

theorem static_sub (t : Tree) {x : Nat} (hx : x ≤ 2) (s : Word32) :
    (match t.staticLenOf x with
      | some l => s - word32Of l
      | none => s) = s - word32Of (t.staticBits x) := by
  unfold Tree.staticBits
  rw [t.xbits_small hx]
  split
  · rfl
  · exact (BitVec.sub_zero _).symm

theorem forced_forceNode {t : Tree} {x : Nat} {c : Cu} (h : c.MemWf) (hx : x ≤ 2) (hu : (c.node t x).freq = 0) :
    Forced t x c (c.forceNode t x) := by
  have hE := t.elems_le
  have hS := t.size_eq
  have hm : MemWf (setHeap { c with heapLen := c.heapLen + 1 } (c.heapLen + 1) x) := (quiet_setHeap ..).mem { h with }
  obtain ⟨-, -, ho, hs, -⟩ := regs_setNode (setHeap { c with heapLen := c.heapLen + 1 } (c.heapLen + 1) x) t x
    { (setHeap { c with heapLen := c.heapLen + 1 } (c.heapLen + 1) x).node t x with freq := 1 }
  refine ⟨hx, hu, freq_setFreq hm t (by omega) 1, congrArg (· - 1) ho, ?_⟩
  exact (static_sub t hx _).trans (congrArg (· - _) hs)

theorem Forced.leafSum_eq {t : Tree} {x : Nat} {c d : Cu} (h : Forced t x c d) (g : Nat → Nat) : d.leafSum t g = c.leafSum t g + g x := by
  have hE := t.elems_le
  have hx := h.small
  unfold leafSum
  rw [← Finset.add_sum_erase _ _ (Finset.mem_range.2 (by omega : x < t.elems)),
    ← Finset.add_sum_erase (Finset.range t.elems) (fun y => if (c.node t y).freq ≠ 0 then g y else 0)
      (Finset.mem_range.2 (by omega : x < t.elems)),
    h.freq x, if_pos rfl, h.unused, Finset.sum_congr rfl fun y hy => by rw [h.freq y, if_neg (Finset.ne_of_mem_erase hy)]]
  simp [Nat.add_comm]

/-- A round of the second loop keeps the heap in step with the frequencies. -/
theorem leaves_forceSymbol {t : Tree} {c : Cu} {m : Int} (h : Leaves t c m) (hl : c.heapLen ≤ 1) :
    (∃ x, Forced t x c (c.forceSymbol t m).1) ∧ Leaves t (c.forceSymbol t m).1 (c.forceSymbol t m).2 ∧
      (c.forceSymbol t m).1.heapLen = c.heapLen + 1 := by
  have hE := t.elems_le
  obtain ⟨hm0, hm1⟩ := h.code
  obtain ⟨hx, hxm, hmm, hm'⟩ := forcedNode_bounds hm0
  have hf := forced_forceNode h.mem hx (h.forcedNode_unused hl)
  obtain ⟨hmem, htop, hlen, hlow⟩ := forceNode_facts (t := t) h.mem hx (by omega)
  rw [forceSymbol_eq]
  refine ⟨⟨_, hf⟩,
    ⟨hmem, htop.trans h.top, fun g => ?_, ⟨by dsimp only; omega, by dsimp only; omega⟩, fun y hy hfy => ?_, fun h0 => ?_⟩, hlen⟩
  · rw [hlow, hf.leafSum_eq, h.bag]
  · rw [hf.freq y] at hfy
    split at hfy
    · dsimp only; omega
    · exact (h.last y hy hfy).trans hmm
  · dsimp only at h0 ⊢
    rw [hf.freq]
    split
    · decide
    · rcases hm' with ⟨-, he⟩ | he
      · omega
      · rw [he] at h0 ⊢
        exact h.used h0

/-- What the second loop makes sure of: a heap of at least two, and codes for what it has forced are codes for what there was. -/
theorem leaves_forceTwo {t : Tree} {c : Cu} {m : Int} (h : Leaves t c m) :
    Leaves t (forceTwo t (c, m)).1 (forceTwo t (c, m)).2 ∧ 2 ≤ (forceTwo t (c, m)).1.heapLen ∧
      ∀ d n, d.Emit → Coded t 0 (forceTwo t (c, m)).1 d n → Coded t 28 c d n := by
  have mono : ∀ {K L : Nat} {d : Cu} {n : Nat}, K ≤ L → Coded t K c d n → Coded t L c d n := fun hKL hc =>
    ⟨hc.bound, hc.code, hc.opt.imp fun _ hk => ⟨hk.1.trans hKL, hk.2⟩, hc.static⟩
  unfold forceTwo
  dsimp only
  split
  · rename_i h0
    obtain ⟨⟨x, hx⟩, h1, hl1⟩ := leaves_forceSymbol h (by omega)
    obtain ⟨⟨y, hy⟩, h2, hl2⟩ := leaves_forceSymbol h1 (by omega)
    exact ⟨h2, by omega, fun d n hd hc => (hc.of_forced hy hd).of_forced hx hd⟩
  · split
    · obtain ⟨⟨x, hx⟩, h1, hl1⟩ := leaves_forceSymbol h (by omega)
      exact ⟨h1, by omega, fun d n hd hc => mono (by decide) (hc.of_forced hx hd)⟩
    · exact ⟨h, by dsimp only; omega, fun d n hd hc => mono (by decide) hc⟩

/-! ## The heap (42_tree_builder.md R234, R236) -/

theorem SameCounts.of_sifts {t : Tree} {c d : Cu} (h : c.Sifts d) : SameCounts t c d := by
  obtain ⟨x, rfl⟩ := h.frame
  exact ⟨fun _ _ => rfl, rfl, rfl⟩

/-- The upper part of the heap. -/
def high (c : Cu) (g : Nat → Nat) : Nat := c.heapSum (Finset.Ico c.heapMax 573) g

/-- `d` follows `c` by writes of nodes and depths that keep the frequencies of the symbols. -/
structure Marks (t : Tree) (c d : Cu) : Prop where
  mem    : c.MemWf → d.MemWf
  heap   : d.heap = c.heap ∧ d.heapLen = c.heapLen ∧ d.heapMax = c.heapMax
  counts : c.MemWf → SameCounts t c d

theorem Marks.trans {t : Tree} {a b c : Cu} (h : Marks t a b) (k : Marks t b c) : Marks t a c :=
  ⟨k.mem ∘ h.mem, ⟨k.heap.1.trans h.heap.1, k.heap.2.1.trans h.heap.2.1, k.heap.2.2.trans h.heap.2.2⟩,
    fun ha => (h.counts ha).trans (k.counts (h.mem ha))⟩

theorem marks_setNode (c : Cu) (t : Tree) (n : Nat) {v : Node} (hv : n < t.elems → v.freq = (c.node t n).freq) :
    Marks t c (c.setNode t n v) := by
  obtain ⟨hl, hm, ho, hs, hh⟩ := regs_setNode c t n v
  refine ⟨(quiet_setNode ..).mem, ⟨hh, hl, hm⟩, fun h => ⟨fun x hx => ?_, ho, hs⟩⟩
  rw [node_setNode h]
  split
  · rename_i hc
    rw [hv (hc.1 ▸ hx), hc.1]
  · rfl

theorem marks_setDepth (c : Cu) (t : Tree) (n v : Nat) : Marks t c (c.setDepth n v) :=
  ⟨(quiet_setDepth ..).mem, ⟨rfl, rfl, rfl⟩, fun _ => ⟨fun _ _ => rfl, rfl, rfl⟩⟩

/-- The least node taken off the heap. -/
def popLeast (t : Tree) (c : Cu) : Cu :=
  Cu.pqdownheap t 1 { c.setHeap 1 (c.heapAt c.heapLen) with heapLen := c.heapLen - 1 }

/-- Two nodes put on top of the upper part. -/
def stackTwo (n m : Nat) (c : Cu) : Cu :=
  (setHeap { c with heapMax := c.heapMax - 2 } (c.heapMax - 2 + 1) n).setHeap (c.heapMax - 2) m

/-- Two nodes made children of `node`. -/
def joinNodes (t : Tree) (node n m : Nat) (c : Cu) : Cu :=
  let c5 := c.setFreq t node ((c.node t n).freq + (c.node t m).freq)
  let c6 := c5.setDepth node (max (c5.depthAt n) (c5.depthAt m) + 1)
  (c6.setDad t n node).setDad t m node

theorem mergeRound_eq (t : Tree) (node : Nat) (c : Cu) : c.mergeRound t node =
    (((((c.popLeast t).stackTwo (c.heapAt 1) ((c.popLeast t).heapAt 1)).joinNodes t node (c.heapAt 1)
      ((c.popLeast t).heapAt 1)).setHeap 1 node).pqdownheap t 1) := rfl

theorem marks_joinNodes {t : Tree} {node : Nat} (hn : t.elems ≤ node) (n m : Nat) (c : Cu) : Marks t c (c.joinNodes t node n m) := by
  unfold joinNodes
  refine Marks.trans ?_ (marks_setNode _ t m fun _ => rfl)
  refine Marks.trans ?_ (marks_setNode _ t n fun _ => rfl)
  exact (marks_setNode c t node fun h => absurd h (by omega)).trans (marks_setDepth ..)

/-- The heap without its least node. -/
structure Popped (t : Tree) (c d : Cu) : Prop where
  mem    : d.MemWf
  len    : d.heapLen = c.heapLen - 1
  top    : d.heapMax = c.heapMax
  low    : ∀ g, d.low g + g (c.heapAt 1) = c.low g
  above  : ∀ i, c.heapLen < i → d.heapAt i = c.heapAt i
  counts : SameCounts t c d

theorem popped_popLeast (t : Tree) {c : Cu} (h : c.MemWf) (h2 : 2 ≤ c.heapLen) (hl : c.heapLen < 573) : Popped t c (c.popLeast t) := by
  have hw := heapAt_lt c c.heapLen
  have hm : MemWf { c.setHeap 1 (c.heapAt c.heapLen) with heapLen := c.heapLen - 1 } := { (quiet_setHeap c 1 (c.heapAt c.heapLen)).mem h with }
  have hs := sifts_pqdownheap t hm (k := 1) (by dsimp only; omega) (le_refl _) (by dsimp only; omega)
  have hcounts : SameCounts t c { c.setHeap 1 (c.heapAt c.heapLen) with heapLen := c.heapLen - 1 } := ⟨fun _ _ => rfl, rfl, rfl⟩
  have hlow : ∀ g, low { c.setHeap 1 (c.heapAt c.heapLen) with heapLen := c.heapLen - 1 } g + g (c.heapAt 1) = c.low g := fun g => by
    have h1 := heapSum_setHeap h (by omega : 1 < 573) hw (Finset.mem_Icc.2 ⟨le_refl 1, (by omega : 1 ≤ c.heapLen)⟩) g
    obtain ⟨L, hL⟩ : ∃ L, c.heapLen = L + 1 := ⟨c.heapLen - 1, by omega⟩
    have h3 : (c.setHeap 1 (c.heapAt c.heapLen)).heapSum (Finset.Icc 1 c.heapLen) g =
        (c.setHeap 1 (c.heapAt c.heapLen)).heapSum (Finset.Icc 1 (c.heapLen - 1)) g + g (c.heapAt c.heapLen) := by
      unfold heapSum
      rw [hL, Finset.sum_Icc_succ_top (by omega), heapAt_setHeap h (by omega) (hL ▸ hw), if_neg (by omega), Nat.add_sub_cancel]
    show (c.setHeap 1 (c.heapAt c.heapLen)).heapSum (Finset.Icc 1 (c.heapLen - 1)) g + _ = c.heapSum _ g
    omega
  refine ⟨hs.mem hm, hs.heapLen_eq, hs.heapMax_eq, fun g => by rw [← hlow g]; exact congrArg (· + _) (hs.low g), fun i hi => ?_,
    hcounts.trans (.of_sifts hs)⟩
  refine (hs.above i (by dsimp only; omega)).trans ?_
  exact (heapAt_setHeap (k := 1) h (by omega) hw i).trans (if_neg (by omega))

theorem high_congr {c d : Cu} (hm : d.heapMax = c.heapMax) (hh : ∀ i, c.heapMax ≤ i → d.heapAt i = c.heapAt i) : d.high = c.high := by
  funext g
  unfold high
  rw [hm]
  exact heapSum_congr (fun i hi => hh i (Finset.mem_Ico.1 hi).1) g

theorem stackTwo_facts {n m : Nat} {c : Cu} (h : c.MemWf) (hn : n < 2 ^ 16) (hm : m < 2 ^ 16) (hl : c.heapLen + 2 < c.heapMax)
    (ht : c.heapMax ≤ 573) : (c.stackTwo n m).MemWf ∧ (∀ g, (c.stackTwo n m).low g = c.low g) ∧
      (∀ g, (c.stackTwo n m).high g = c.high g + g n + g m) ∧ ∀ i, i ≤ c.heapLen → (c.stackTwo n m).heapAt i = c.heapAt i := by
  have h0 : MemWf { c with heapMax := c.heapMax - 2 } := { h with }
  have h1 := (quiet_setHeap { c with heapMax := c.heapMax - 2 } (c.heapMax - 2 + 1) n).mem h0
  have hat : ∀ i, (c.stackTwo n m).heapAt i =
      if i = c.heapMax - 2 then m else if i = c.heapMax - 2 + 1 then n else c.heapAt i := fun i => by
    unfold stackTwo
    rw [heapAt_setHeap h1 (by omega) hm, heapAt_setHeap h0 (by omega) hn]
    rfl
  have hold : ∀ i, i ≤ c.heapLen ∨ c.heapMax ≤ i → (c.stackTwo n m).heapAt i = c.heapAt i := fun i hi => by
    rw [hat, if_neg (by omega), if_neg (by omega)]
  refine ⟨(quiet_setHeap ..).mem h1, heapSum_congr fun i hi => hold i (.inl (Finset.mem_Icc.1 hi).2), fun g => ?_,
    fun i hi => hold i (.inl hi)⟩
  have htop : c.heapMax - 2 + 1 + 1 = c.heapMax := by omega
  show heapSum _ (Finset.Ico (c.heapMax - 2) 573) g = _
  unfold heapSum
  rw [Finset.sum_eq_sum_Ico_succ_bot (by omega), Finset.sum_eq_sum_Ico_succ_bot (by omega), htop, hat, hat, if_pos rfl,
    if_neg (by omega), if_pos rfl]
  have := heapSum_congr (s := Finset.Ico c.heapMax 573) (fun i hi => hold i (.inr (Finset.mem_Ico.1 hi).1)) g
  unfold heapSum at this
  rw [this]
  unfold high heapSum
  omega

/-- The merge loop after `r` rounds on the heap of `b`: all nodes are there, those made so far too. -/
structure Merging (t : Tree) (b : Cu) (r : Nat) (c : Cu) : Prop where
  mem    : c.MemWf
  len    : c.heapLen + r = b.heapLen
  top    : c.heapMax + 2 * r = 573
  bag    : ∀ g, c.low g + c.high g = b.low g + ∑ y ∈ Finset.Ico t.elems (t.elems + r), g y
  counts : SameCounts t b c

/-- A round of the merge loop (42_tree_builder.md R236). -/
theorem merging_mergeRound {t : Tree} {b c : Cu} {r : Nat} (h : Merging t b r c) (h2 : 2 ≤ c.heapLen) (hb : b.heapLen ≤ t.elems) :
    Merging t b (r + 1) (c.mergeRound t (t.elems + r)) ∧
      ∃ n m, ∀ g, (c.mergeRound t (t.elems + r)).low g + g n + g m = c.low g + g (t.elems + r) ∧ g n + g m ≤ c.low g := by
  have hE := t.elems_le
  have hlen := h.len
  have htop := h.top
  have hp := popped_popLeast t h.mem h2 (by omega)
  have hn := heapAt_lt c 1
  have hm := heapAt_lt (c.popLeast t) 1
  rw [mergeRound_eq]
  obtain ⟨hdm, hdl, hdt, hdlow, hdabove, hdc⟩ := hp
  generalize c.heapAt 1 = n at hdlow hn ⊢
  have hd1 : ∀ g, g ((c.popLeast t).heapAt 1) ≤ (c.popLeast t).low g := fun g =>
    Finset.single_le_sum (f := fun i => g ((c.popLeast t).heapAt i)) (fun _ _ => Nat.zero_le _) (Finset.mem_Icc.2 ⟨le_refl 1, by omega⟩)
  have hdhigh : (c.popLeast t).high = c.high := high_congr hdt fun i hi => hdabove i (by omega)
  generalize c.popLeast t = d at *
  generalize hm1 : d.heapAt 1 = m at *
  obtain ⟨hem, helow, hehigh, heat⟩ := stackTwo_facts (n := n) (m := m) hdm hn hm (by omega) (by omega)
  have hel : (d.stackTwo n m).heapLen = d.heapLen ∧ (d.stackTwo n m).heapMax = d.heapMax - 2 := ⟨rfl, rfl⟩
  have hec : SameCounts t d (d.stackTwo n m) := ⟨fun _ _ => rfl, rfl, rfl⟩
  generalize d.stackTwo n m = e at *
  have hf := marks_joinNodes (Nat.le_add_right t.elems r) n m e
  generalize e.joinNodes t (t.elems + r) n m = f at *
  have hfm := hf.mem hem
  have hfc := ((hdc.trans hec).trans (hf.counts hem))
  obtain ⟨hfh, hfl, hft⟩ := hf.heap
  have hfat : ∀ i, f.heapAt i = e.heapAt i := fun i => by rw [heapAt, hfh, heapAt]
  have hflow : f.low = e.low := low_congr hfl hfh
  have hfhigh : f.high = e.high := high_congr hft fun i _ => hfat i
  have hgm := (quiet_setHeap f 1 (t.elems + r)).mem hfm
  have hglow : ∀ g, (f.setHeap 1 (t.elems + r)).low g + g m = f.low g + g (t.elems + r) := fun g => by
    have hk := heapSum_setHeap hfm (by omega : 1 < 573) (by omega : t.elems + r < 2 ^ 16)
      (Finset.mem_Icc.2 ⟨le_refl 1, by omega⟩ : 1 ∈ Finset.Icc 1 f.heapLen) g
    rw [hfat, heat 1 (by omega), hm1] at hk
    exact hk
  have hghigh : (f.setHeap 1 (t.elems + r)).high = f.high :=
    high_congr rfl fun i hi => by rw [heapAt_setHeap hfm (by omega) (by omega), if_neg (by omega)]
  have hgl : (f.setHeap 1 (t.elems + r)).heapLen = f.heapLen ∧ (f.setHeap 1 (t.elems + r)).heapMax = f.heapMax := ⟨rfl, rfl⟩
  have hgc : SameCounts t f (f.setHeap 1 (t.elems + r)) := ⟨fun _ _ => rfl, rfl, rfl⟩
  generalize f.setHeap 1 (t.elems + r) = k at *
  have hs := sifts_pqdownheap t hgm (by omega) (le_refl 1) (by omega)
  have hsl := hs.heapLen_eq
  have hst := hs.heapMax_eq
  have hlow : ∀ g, (k.pqdownheap t 1).low g + g n + g m = c.low g + g (t.elems + r) ∧ g n + g m ≤ c.low g := fun g => by
    have h1 := hs.low g
    have h2 := hglow g
    have h3 := hdlow g
    have h4 := hd1 g
    rw [hflow, helow] at h2
    omega
  have hhigh : (k.pqdownheap t 1).high = k.high := high_congr hst fun i hi => hs.above i (by omega)
  refine ⟨⟨hs.mem hgm, by omega, by omega, fun g => ?_, (h.counts.trans hfc).trans (hgc.trans (.of_sifts hs))⟩, n, m, hlow⟩
  have h1 := (hlow g).1
  have h2 := h.bag g
  have h3 := hehigh g
  rw [hhigh, hghigh, hfhigh, h3, hdhigh, ← Nat.add_assoc t.elems, Finset.sum_Ico_succ_top (by omega)]
  omega

/-- One node alone on the heap after a merge is the node made by it. -/
theorem heapAt_one_of_merged {t : Tree} {b c d : Cu} {m : Int} {r : Nat} (hb : Leaves t b m) (h : Merging t b r c) (hd : d.heapLen = 1)
    (hm : ∃ n m, ∀ g, d.low g + g n + g m = c.low g + g (t.elems + r) ∧ g n + g m ≤ c.low g) : d.heapAt 1 = t.elems + r := by
  obtain ⟨n, m, hg⟩ := hm
  have hb0 : b.low (fun y => if y = t.elems + r then 1 else 0) = 0 := by
    rw [hb.bag]
    refine Finset.sum_eq_zero fun x hx => ?_
    have := Finset.mem_range.1 hx
    dsimp only
    rw [if_neg (show ¬ x = t.elems + r by omega)]
    exact ite_self 0
  have hi : ∑ y ∈ Finset.Ico t.elems (t.elems + r), (if y = t.elems + r then 1 else 0) = 0 :=
    Finset.sum_eq_zero fun y hy => if_neg (by have := Finset.mem_Ico.1 hy; omega)
  have hc := h.bag fun y => if y = t.elems + r then 1 else 0
  have hd1 : d.low (fun y => if y = t.elems + r then 1 else 0) = if d.heapAt 1 = t.elems + r then 1 else 0 := by
    rw [low, heapSum, hd, Finset.Icc_self, Finset.sum_singleton]
  have hg1 := hg fun y => if y = t.elems + r then 1 else 0
  by_contra hne
  rw [hd1, if_neg hne] at hg1
  rw [if_pos rfl] at hg1
  omega

/-- The merge loop ends with the root alone on the heap. -/
theorem merging_mergeLoop {t : Tree} {b : Cu} {m : Int} (hb : Leaves t b m) : ∀ fuel {r : Nat} {c : Cu}, Merging t b r c →
    2 ≤ c.heapLen → c.heapLen ≤ fuel + 1 → Merging t b (b.heapLen - 1) (mergeLoop t fuel (t.elems + r) c) ∧
      (mergeLoop t fuel (t.elems + r) c).heapAt 1 = t.elems + (b.heapLen - 2)
  | 0, _, _, _, h2, hf => by omega
  | fuel + 1, r, c, h, h2, hf => by
    obtain ⟨h1, hm⟩ := merging_mergeRound h h2 hb.heapLen_le
    have hl := h.len
    have hl1 := h1.len
    rw [mergeLoop]
    split
    · have he := heapAt_one_of_merged hb h (by omega) hm
      rw [he, show b.heapLen - 1 = r + 1 by omega, show b.heapLen - 2 = r by omega]
      exact ⟨h1, rfl⟩
    · exact merging_mergeLoop hb fuel h1 (by omega) (by omega)

/-- The upper part of the heap under its root: every symbol with a frequency and every other inner node. -/
structure Grown (t : Tree) (b c : Cu) : Prop where
  mem    : c.MemWf
  counts : SameCounts t b c
  root   : t.elems ≤ c.heapAt c.heapMax
  bag    : ∀ g, c.heapSum (Finset.Ico (c.heapMax + 1) 573) g =
    b.leafSum t g + ∑ y ∈ Finset.Ico t.elems (c.heapAt c.heapMax), g y

theorem grown_mergeTree {t : Tree} {b : Cu} {m : Int} (hb : Leaves t b m) (h2 : 2 ≤ b.heapLen) : Grown t b (b.mergeTree t) := by
  have hE := t.elems_le
  have hH := hb.heapLen_le
  have h0 : Merging t b 0 b := ⟨hb.mem, rfl, hb.top, fun g => by
    rw [Nat.add_zero, Finset.Ico_self, Finset.sum_empty, high, heapSum, hb.top, Finset.Ico_self, Finset.sum_empty], .refl t b⟩
  obtain ⟨h1, hroot⟩ := merging_mergeLoop hb b.heapLen h0 h2 (by omega)
  unfold mergeTree
  rw [Nat.add_zero] at h1 hroot
  dsimp only
  generalize mergeLoop t b.heapLen t.elems b = c at h1 hroot
  obtain ⟨hm, hl, ht, hbag, hc⟩ := h1
  have hm1 : MemWf { c with heapMax := c.heapMax - 1 } := { hm with }
  have hat := heapAt_setHeap hm1 (k := c.heapMax - 1) (by omega) (heapAt_lt c 1)
  have hr : (setHeap { c with heapMax := c.heapMax - 1 } (c.heapMax - 1) (c.heapAt 1)).heapAt (c.heapMax - 1) =
      t.elems + (b.heapLen - 2) := by rw [hat, if_pos rfl, hroot]
  refine ⟨(quiet_setHeap ..).mem hm1, hc.trans ⟨fun _ _ => rfl, rfl, rfl⟩, ?_, fun g => ?_⟩
  · exact (hr.symm ▸ Nat.le_add_right ..)
  · show heapSum _ (Finset.Ico (c.heapMax - 1 + 1) 573) g = _ + ∑ y ∈ Finset.Ico t.elems
      ((setHeap { c with heapMax := c.heapMax - 1 } (c.heapMax - 1) (c.heapAt 1)).heapAt (c.heapMax - 1)), g y
    rw [hr, show c.heapMax - 1 + 1 = c.heapMax by omega]
    have h3 := hbag g
    rw [hb.bag, show t.elems + (b.heapLen - 1) = t.elems + (b.heapLen - 2) + 1 by omega, Finset.sum_Ico_succ_top (by omega),
      ← hroot] at h3
    have h4 : c.low g = g (c.heapAt 1) := by rw [low, heapSum, show c.heapLen = 1 by omega]; simp
    have h5 := heapSum_setHeap_of_notMem hm1 (k := c.heapMax - 1) (by omega) (heapAt_lt c 1) (s := Finset.Ico c.heapMax 573)
      (by simp; omega) g
    have h6 : heapSum { c with heapMax := c.heapMax - 1 } (Finset.Ico c.heapMax 573) g = c.high g := rfl
    rw [← hroot]
    refine (h5.trans h6).trans ?_
    omega

/-- Every symbol stands once in the part of the heap it stands in. -/
theorem Grown.inj {t : Tree} {b c : Cu} (h : Grown t b c) {i j : Nat} (hi : i ∈ Finset.Ico (c.heapMax + 1) 573)
    (hj : j ∈ Finset.Ico (c.heapMax + 1) 573) (hij : c.heapAt i = c.heapAt j) : i = j := by
  by_contra hne
  have hs := h.bag fun y => if y = c.heapAt i then 1 else 0
  have h2 : 2 ≤ c.heapSum (Finset.Ico (c.heapMax + 1) 573) fun y => if y = c.heapAt i then 1 else 0 := by
    unfold heapSum
    rw [← Finset.add_sum_erase _ _ hi, ← Finset.add_sum_erase _ _ (Finset.mem_erase.2 ⟨Ne.symm hne, hj⟩)]
    dsimp only
    rw [if_pos rfl, if_pos hij.symm]
    omega
  have hx : b.leafSum t (fun y => if y = c.heapAt i then 1 else 0) ≤ if c.heapAt i < t.elems then 1 else 0 := by
    unfold leafSum
    have hle : ∀ x ∈ Finset.range t.elems, (if (b.node t x).freq ≠ 0 then if x = c.heapAt i then 1 else 0 else 0) ≤
        if c.heapAt i = x then 1 else 0 := fun x _ => by
      by_cases hx : x = c.heapAt i
      · rw [if_pos hx, if_pos hx.symm]; split <;> omega
      · rw [if_neg hx]; simp
    refine (Finset.sum_le_sum hle).trans ?_
    rw [Finset.sum_ite_eq]
    simp
  have hy : ∑ y ∈ Finset.Ico t.elems (c.heapAt c.heapMax), (if y = c.heapAt i then 1 else 0) ≤ if t.elems ≤ c.heapAt i then 1 else 0 := by
    rw [Finset.sum_ite_eq' (Finset.Ico t.elems (c.heapAt c.heapMax)) (c.heapAt i) fun _ => 1]
    simp only [Finset.mem_Ico]
    split_ifs <;> omega
  split_ifs at hx hy <;> omega

/-- Every symbol with a frequency stands there. -/
theorem Grown.mem_of_freq {t : Tree} {b c : Cu} (h : Grown t b c) {x : Nat} (hx : x < t.elems) (hf : (b.node t x).freq ≠ 0) :
    ∃ i ∈ Finset.Ico (c.heapMax + 1) 573, c.heapAt i = x := by
  by_contra hne
  have hs := h.bag fun y => if y = x then 1 else 0
  have h0 : (c.heapSum (Finset.Ico (c.heapMax + 1) 573) fun y => if y = x then 1 else 0) = 0 :=
    Finset.sum_eq_zero fun i hi => if_neg fun he => hne ⟨i, hi, he⟩
  have h1 : 1 ≤ b.leafSum t fun y => if y = x then 1 else 0 := by
    unfold leafSum
    rw [← Finset.add_sum_erase _ _ (Finset.mem_range.2 hx), if_pos hf]
    dsimp only
    rw [if_pos rfl]
    omega
  omega

end Cu
end Sys2Proof.Machine
end

section
/-! PROOF. What `build_tree` makes of the frequencies (42_tree_builder.md R234 to R239): every symbol with a frequency gets a code of its
length, and `OPT_LEN` and `STATIC_LEN` count the bits that these codes take. -/

namespace Sys2Proof.Machine

namespace Cu

/-! ## The lengths (42_tree_builder.md R237) -/

theorem word32Of_mul (a b : Nat) : word32Of (a * b) = word32Of a * word32Of b := by simp [word32Of, BitVec.ofNat_mul]

/-- `STATIC_LEN` after a symbol of frequency `f` is counted. -/
theorem static_add (t : Tree) (x f : Nat) (s : Word32) :
    (match t.staticLenOf x with
      | some l => s + word32Of (f * (l + t.xbits x))
      | none => s) = s + word32Of (f * t.staticBits x) := by
  unfold Tree.staticBits
  cases t.staticLenOf x with
  | some l => rfl
  | none => exact (BitVec.add_zero _).symm

/-- What a node of the heap takes with the codes of `c`: nothing past the symbols. -/
def nodeBits (b : Cu) (t : Tree) (m : Nat) (g : Nat → Nat) (y : Nat) : Nat := if y ≤ m then (b.node t y).freq.toNat * g y else 0

/-- The first pass over the heap of `c` after `k` nodes. -/
structure Lengths (t : Tree) (c : Cu) (m k : Nat) (d : Cu) : Prop where
  mem    : d.MemWf
  heap   : d.heap = c.heap
  freq   : ∀ x < t.elems, (d.node t x).freq = (c.node t x).freq
  opt    : d.optLen = c.optLen +
    word32Of (c.heapSum (Finset.Ico (c.heapMax + 1) (c.heapMax + 1 + k)) (c.nodeBits t m (d.bitsOf t)))
  static : d.staticLen = c.staticLen +
    word32Of (c.heapSum (Finset.Ico (c.heapMax + 1) (c.heapMax + 1 + k)) (c.nodeBits t m t.staticBits))
  coded  : ∀ i ∈ Finset.Ico (c.heapMax + 1) (c.heapMax + 1 + k), c.heapAt i ≤ m → 1 ≤ (d.node t (c.heapAt i)).len.toNat

/-- The bits of a symbol of length `bits` counted. -/
def countBits (t : Tree) (n bits : Nat) (c : Cu) : Cu :=
  let f := (c.node t n).freq.toNat
  { c with
    optLen := c.optLen + word32Of (f * (bits + t.xbits n))
    staticLen := match t.staticLenOf n with
      | some l => c.staticLen + word32Of (f * (l + t.xbits n))
      | none => c.staticLen }

/-- The length that the first pass gives a node. -/
def bitsFor (t : Tree) (n : Nat) (c : Cu) : Nat := min ((c.node t (c.node t n).dad.toNat).len.toNat + 1) t.maxLength

theorem bitsFor_bounds (t : Tree) (n : Nat) (c : Cu) : 1 ≤ c.bitsFor t n ∧ c.bitsFor t n ≤ 15 := by
  have h1 : 1 ≤ t.maxLength := by cases t <;> decide
  have h2 := maxLength_le t
  unfold bitsFor
  omega

/-- The node of the heap entry, with its length. -/
def lengthened (t : Tree) (n : Nat) (c : Cu) : Cu := c.setLen t n (c.bitsFor t n)

theorem bitlenNode_fst (t : Tree) (m h o : Nat) (c : Cu) : (bitlenNode t m h (c, o)).1 =
    if m < c.heapAt h then c.lengthened t (c.heapAt h)
    else ((c.lengthened t (c.heapAt h)).setBlCount (c.bitsFor t (c.heapAt h))
      ((c.lengthened t (c.heapAt h)).blCountAt (c.bitsFor t (c.heapAt h)) + 1)).countBits t (c.heapAt h)
        (c.bitsFor t (c.heapAt h)) := by
  unfold bitlenNode
  dsimp only
  split
  · rfl
  · rfl

theorem node_countBits (c : Cu) (t : Tree) (n bits x : Nat) : (c.countBits t n bits).node t x = c.node t x := by cases t <;> rfl

/-- What a node of the first pass leaves. -/
structure Lengthened (t : Tree) (m n : Nat) (c d : Cu) : Prop where
  mem    : d.MemWf
  heap   : d.heap = c.heap
  freq   : ∀ x, (d.node t x).freq = (c.node t x).freq
  other  : ∀ x, x ≠ n → (d.node t x).len = (c.node t x).len
  coded  : n ≤ m → 1 ≤ (d.node t n).len.toNat
  opt    : d.optLen = c.optLen + word32Of (c.nodeBits t m (d.bitsOf t) n)
  static : d.staticLen = c.staticLen + word32Of (c.nodeBits t m t.staticBits n)

theorem lengthened_bitlenNode {t : Tree} {m h : Nat} {c : Cu} (hc : c.MemWf) (hm : m < t.elems) (o : Nat) :
    Lengthened t m (c.heapAt h) c (bitlenNode t m h (c, o)).1 := by
  have hS := t.size_eq
  rw [bitlenNode_fst]
  generalize c.heapAt h = n
  obtain ⟨hb1, hb2⟩ := bitsFor_bounds t n c
  have hlen : ∀ x, ((c.lengthened t n).node t x).len.toNat = if x = n ∧ n < t.size then c.bitsFor t n else (c.node t x).len.toNat :=
    fun x => len_setLen hc t n x hb2
  have hfreq : ∀ x, ((c.lengthened t n).node t x).freq = (c.node t x).freq := fun x => freq_setNode hc t n x rfl
  have hmem : (c.lengthened t n).MemWf := (quiet_setLen ..).mem hc
  obtain ⟨-, -, ho, hs, hh⟩ : _ ∧ _ ∧ (c.lengthened t n).optLen = c.optLen ∧ (c.lengthened t n).staticLen = c.staticLen ∧
    (c.lengthened t n).heap = c.heap := regs_setNode c t n _
  have hother : ∀ x, x ≠ n → ((c.lengthened t n).node t x).len = (c.node t x).len := fun x hx =>
    BitVec.eq_of_toNat_eq ((hlen x).trans (if_neg fun h => hx h.1))
  generalize c.lengthened t n = d at *
  generalize c.bitsFor t n = bits at *
  have hmem2 := (quiet_setBlCount d bits (d.blCountAt bits + 1)).mem hmem
  have hnode2 : ∀ x, (d.setBlCount bits (d.blCountAt bits + 1)).node t x = d.node t x := fun _ => rfl
  have hregs2 : (d.setBlCount bits (d.blCountAt bits + 1)).heap = d.heap ∧ (d.setBlCount bits (d.blCountAt bits + 1)).optLen = d.optLen ∧
    (d.setBlCount bits (d.blCountAt bits + 1)).staticLen = d.staticLen := ⟨rfl, rfl, rfl⟩
  generalize d.setBlCount bits (d.blCountAt bits + 1) = e at *
  obtain ⟨hh2, ho2, hs2⟩ := hregs2
  split
  · rename_i hmn
    refine ⟨hmem, hh, hfreq, hother, fun hn => by omega, ?_, ?_⟩ <;> rw [nodeBits, if_neg (by omega)]
    · exact ho.trans (BitVec.add_zero _).symm
    · exact hs.trans (BitVec.add_zero _).symm
  · rename_i hmn
    have hn : (e.countBits t n bits).node t = d.node t := funext fun x => (node_countBits ..).trans (hnode2 x)
    have hbits : ((d.node t n).len).toNat = bits := (hlen n).trans (if_pos ⟨rfl, by omega⟩)
    have hf : (e.node t n).freq = (c.node t n).freq := by rw [hnode2, hfreq]
    refine ⟨{ hmem2 with }, hh2.trans hh, fun x => by rw [hn, hfreq], fun x hx => by rw [hn, hother x hx],
      fun _ => by rw [hn, hbits]; exact hb1, ?_, ?_⟩ <;> rw [nodeBits, if_pos (by omega), ← hf]
    · rw [bitsOf, hn, hbits, ← ho, ← ho2]
      rfl
    · rw [← static_add, ← hs, ← hs2]
      rfl

theorem nodeBits_congr {t : Tree} {b c : Cu} {m : Nat} {f g : Nat → Nat} {y : Nat} (hf : (c.node t y).freq = (b.node t y).freq)
    (hg : g y = f y) : c.nodeBits t m g y = b.nodeBits t m f y := by
  unfold nodeBits
  rw [hf, hg]

/-- A round of the first pass: the nodes before it keep their lengths, as none of them stands twice in the heap. -/
theorem Lengths.step {t : Tree} {c d : Cu} {m k o : Nat} (hm : m < t.elems) (h : Lengths t c m k d)
    (hinj : ∀ i ∈ Finset.Ico (c.heapMax + 1) (c.heapMax + 1 + k), c.heapAt i ≠ c.heapAt (c.heapMax + 1 + k)) :
    Lengths t c m (k + 1) (bitlenNode t m (c.heapMax + 1 + k) (d, o)).1 := by
  have hs := lengthened_bitlenNode (h := c.heapMax + 1 + k) h.mem hm o
  have hat : ∀ i, d.heapAt i = c.heapAt i := fun i => by rw [heapAt, h.heap, heapAt]
  rw [hat] at hs
  generalize (bitlenNode t m (c.heapMax + 1 + k) (d, o)).1 = e at hs ⊢
  have hold : ∀ i ∈ Finset.Ico (c.heapMax + 1) (c.heapMax + 1 + k), e.bitsOf t (c.heapAt i) = d.bitsOf t (c.heapAt i) := fun i hi => by
    rw [bitsOf, hs.other _ (hinj i hi), bitsOf]
  have hnew : ∀ g, d.nodeBits t m g (c.heapAt (c.heapMax + 1 + k)) = c.nodeBits t m g (c.heapAt (c.heapMax + 1 + k)) := fun g => by
    unfold nodeBits
    split
    · rw [h.freq _ (by omega)]
    · rfl
  have hsum : ∀ g : Nat → Nat, c.heapSum (Finset.Ico (c.heapMax + 1) (c.heapMax + 1 + (k + 1))) g =
      c.heapSum (Finset.Ico (c.heapMax + 1) (c.heapMax + 1 + k)) g + g (c.heapAt (c.heapMax + 1 + k)) :=
    fun g => Finset.sum_Ico_succ_top (Nat.le_add_right ..) _
  refine ⟨hs.mem, hs.heap.trans h.heap, fun x hx => (hs.freq x).trans (h.freq x hx), ?_, ?_, fun i hi hle => ?_⟩
  · rw [hs.opt, h.opt, hsum, hnew, word32Of_add, BitVec.add_assoc]
    congr 3
    exact Finset.sum_congr rfl fun i hi => (nodeBits_congr rfl (hold i hi)).symm
  · rw [hs.static, h.static, hsum, hnew, word32Of_add, BitVec.add_assoc]
  · by_cases hn : c.heapAt i = c.heapAt (c.heapMax + 1 + k)
    · rw [hn] at hle ⊢
      exact hs.coded hle
    · rw [hs.other _ hn]
      refine h.coded i (Finset.mem_Ico.2 ?_) hle
      have hi := Finset.mem_Ico.1 hi
      rcases Nat.lt_succ_iff_lt_or_eq.1 hi.2 with hlt | heq
      · exact ⟨hi.1, hlt⟩
      · exact absurd (congrArg c.heapAt heq) hn

/-- The symbols have lengths, and these are counted. -/
structure Sized (t : Tree) (b d : Cu) : Prop where
  mem    : d.MemWf
  freq   : ∀ x < t.elems, (d.node t x).freq = (b.node t x).freq
  coded  : ∀ x < t.elems, (b.node t x).freq ≠ 0 → 1 ≤ (d.node t x).len.toNat
  opt    : d.optLen = b.optLen + word32Of (b.weight t (d.bitsOf t))
  static : d.staticLen = b.staticLen + word32Of (b.weight t t.staticBits)

/-- What the upper part of the heap takes is what the symbols take. -/
theorem Grown.heapSum_nodeBits {t : Tree} {b c : Cu} {m : Nat} (hc : Grown t b c) (hm : m < t.elems)
    (hlast : ∀ x < t.elems, (b.node t x).freq ≠ 0 → x ≤ m) (g : Nat → Nat) :
    c.heapSum (Finset.Ico (c.heapMax + 1) 573) (c.nodeBits t m g) = b.weight t g := by
  have hinner : ∑ y ∈ Finset.Ico t.elems (c.heapAt c.heapMax), c.nodeBits t m g y = 0 :=
    Finset.sum_eq_zero fun y hy => if_neg (by have := Finset.mem_Ico.1 hy; omega)
  rw [hc.bag, hinner, Nat.add_zero]
  refine Finset.sum_congr rfl fun x hx => ?_
  have hx := Finset.mem_range.1 hx
  split
  · rename_i hf
    rw [nodeBits, if_pos (hlast x hx hf), hc.counts.freq x hx]
  · rename_i hf
    rw [not_not.1 hf]
    simp

theorem sized_genBitlen {t : Tree} {b c : Cu} {m : Nat} (hc : Grown t b c) (hm : m < t.elems)
    (hlast : ∀ x < t.elems, (b.node t x).freq ≠ 0 → x ≤ m) : Sized t b (c.genBitlen t m).1 := by
  have h1 : ∃ blCount, forRange 0 (Config.maxBits + 1) (fun b c => c.setBlCount b 0) c = { c with blCount := blCount } :=
    forRange_induction (fun d : Cu => ∃ blCount, d = { c with blCount := blCount }) _ _ _ (fun i d => by rintro ⟨x, rfl⟩; exact ⟨_, rfl⟩)
      c ⟨c.blCount, rfl⟩
  have h1m := (quiet_forRange 0 (Config.maxBits + 1) (fun b c => c.setBlCount b 0) (fun _ _ => quiet_setBlCount ..) c).mem hc.mem
  obtain ⟨bl, h1⟩ := h1
  rw [h1] at h1m
  have h2 := marks_setNode { c with blCount := bl } t (c.heapAt c.heapMax)
    (v := { Cu.node { c with blCount := bl } t (c.heapAt c.heapMax) with len := word16Of 0 }) fun _ => rfl
  have h2c := h2.counts h1m
  have h2l : Lengths t c m 0 (Cu.setLen { c with blCount := bl } t (c.heapAt c.heapMax) 0) := by
    refine ⟨h2.mem h1m, h2.heap.1, fun x hx => h2c.freq x hx, ?_, ?_, fun i hi => ?_⟩
    · rw [Nat.add_zero, Finset.Ico_self]
      exact h2c.opt.trans (BitVec.add_zero _).symm
    · rw [Nat.add_zero, Finset.Ico_self]
      exact h2c.static.trans (BitVec.add_zero _).symm
    · simp at hi
  have h3 : Lengths t c m (573 - (c.heapMax + 1)) (c.genBitlen t m).1 := by
    unfold genBitlen
    dsimp only
    rw [h1]
    show Lengths t c m (573 - (c.heapMax + 1)) (forRange ((Cu.setLen { c with blCount := bl } t (c.heapAt c.heapMax) 0).heapMax + 1)
      (573 - ((Cu.setLen { c with blCount := bl } t (c.heapAt c.heapMax) 0).heapMax + 1)) (bitlenNode t m)
      (Cu.setLen { c with blCount := bl } t (c.heapAt c.heapMax) 0, 0)).1
    rw [show (Cu.setLen { c with blCount := bl } t (c.heapAt c.heapMax) 0).heapMax = c.heapMax from h2.heap.2.2]
    refine forRange_range_from (P := fun k (p : Cu × Nat) => Lengths t c m k p.1) (fun k hk p hp => ?_) h2l
    refine hp.step hm fun i hi he => ?_
    have hi := Finset.mem_Ico.1 hi
    have := hc.inj (Finset.mem_Ico.2 ⟨hi.1, by omega⟩) (Finset.mem_Ico.2 ⟨by omega, by omega⟩) he
    omega
  have hrange : Finset.Ico (c.heapMax + 1) (c.heapMax + 1 + (573 - (c.heapMax + 1))) = Finset.Ico (c.heapMax + 1) 573 := by
    ext i
    simp only [Finset.mem_Ico]
    omega
  obtain ⟨hmem, -, hfreq, hopt, hstat, hcod⟩ := h3
  rw [hrange] at hopt hstat hcod
  refine ⟨hmem, fun x hx => (hfreq x hx).trans (hc.counts.freq x hx), fun x hx hf => ?_, ?_, ?_⟩
  · obtain ⟨i, hi, rfl⟩ := hc.mem_of_freq hx hf
    exact hcod i hi (hlast _ hx hf)
  · rw [hopt, hc.heapSum_nodeBits hm hlast, hc.counts.opt]
  · rw [hstat, hc.heapSum_nodeBits hm hlast, hc.counts.static]

/-! ## The repair of lengths that are too long (42_tree_builder.md R238) -/

/-- A length changed, with the count changed by as much. -/
theorem Sized.relen {t : Tree} {b d : Cu} (h : Sized t b d) {n bits : Nat} (hn : n < t.elems) (hb : 1 ≤ bits) (hb15 : bits ≤ 15) :
    Sized t b { d.setLen t n bits with
      optLen := d.optLen + (word32Of bits - word32Of (d.node t n).len.toNat) * word32Of (d.node t n).freq.toNat } := by
  have hS := t.size_eq
  have hlen := fun x => len_setLen h.mem t n x hb15
  have hfreq : ∀ x, ((d.setLen t n bits).node t x).freq = (d.node t x).freq := fun x => freq_setNode h.mem t n x rfl
  have hmem := (quiet_setLen d t n bits).mem h.mem
  obtain ⟨-, -, -, hs, -⟩ : _ ∧ _ ∧ _ ∧ (d.setLen t n bits).staticLen = d.staticLen ∧ _ := regs_setNode d t n _
  generalize d.setLen t n bits = e at *
  have hw : b.weight t (e.bitsOf t) + (d.node t n).freq.toNat * (d.node t n).len.toNat =
      b.weight t (d.bitsOf t) + (d.node t n).freq.toNat * bits := by
    unfold weight
    rw [← Finset.add_sum_erase _ _ (Finset.mem_range.2 hn),
      ← Finset.add_sum_erase (Finset.range t.elems) (fun x => (b.node t x).freq.toNat * d.bitsOf t x) (Finset.mem_range.2 hn),
      Finset.sum_congr rfl fun x hx => by rw [bitsOf, hlen x, if_neg fun hc => Finset.ne_of_mem_erase hx hc.1]]
    dsimp only [bitsOf]
    rw [hlen n, if_pos ⟨rfl, by omega⟩, h.freq n hn]
    ring
  refine ⟨{ hmem with }, fun x hx => (hfreq x).trans (h.freq x hx), fun x hx hf => ?_, ?_, hs.trans h.static⟩
  · show 1 ≤ (e.node t x).len.toNat
    rw [hlen x]
    split
    · exact hb
    · exact h.coded x hx hf
  · show d.optLen + (word32Of bits - word32Of (d.node t n).len.toNat) * word32Of (d.node t n).freq.toNat =
      b.optLen + word32Of (b.weight t (e.bitsOf t))
    have hw := congrArg word32Of hw
    rw [word32Of_add, word32Of_add, word32Of_mul, word32Of_mul] at hw
    rw [h.opt]
    linear_combination -hw

theorem sized_relenLoop {t : Tree} {b : Cu} {m bits : Nat} (hm : m < t.elems) (hb : 1 ≤ bits) (hb15 : bits ≤ 15) :
    ∀ h n (d : Cu), Sized t b d → Sized t b (relenLoop t m bits h n d).1
  | 0, _, d, k => k
  | h + 1, n, d, k => by
    rw [relenLoop]
    split
    · exact k
    · dsimp only
      split
      · exact sized_relenLoop hm hb hb15 h n d k
      · refine sized_relenLoop hm hb hb15 h _ _ ?_
        split
        · exact k.relen (by omega) hb hb15
        · exact k

/-- `blCount` is not among what is counted. -/
theorem Sized.setBlCount {t : Tree} {b d : Cu} (h : Sized t b d) (i v : Nat) : Sized t b (d.setBlCount i v) :=
  ⟨(quiet_setBlCount ..).mem h.mem, h.freq, h.coded, h.opt, h.static⟩

theorem sized_repairLoop {t : Tree} {b : Cu} : ∀ fuel o (d : Cu), Sized t b d → Sized t b (repairLoop t fuel o d)
  | 0, _, _, h => h
  | fuel + 1, o, d, h => by
    rw [repairLoop]
    split
    · exact ((h.setBlCount _ _).setBlCount _ _).setBlCount _ _
    · exact sized_repairLoop fuel _ _ (((h.setBlCount _ _).setBlCount _ _).setBlCount _ _)

theorem sized_repairBitlen {t : Tree} {b d : Cu} {m : Nat} (h : Sized t b d) (hm : m < t.elems) (o : Nat) :
    Sized t b (d.repairBitlen t m o) := by
  have hl : ∀ x ∈ (List.range' 1 t.maxLength).reverse, 1 ≤ x ∧ x ≤ 15 := fun x hx => by
    have := maxLength_le t
    simp only [List.mem_reverse, List.mem_range'_1] at hx
    omega
  have hfold : ∀ (l : List Nat) (p : Cu × Nat), (∀ x ∈ l, 1 ≤ x ∧ x ≤ 15) → Sized t b p.1 →
      Sized t b (l.foldl (fun p bits => relenLoop t m bits p.2 (p.1.blCountAt bits) p.1) p).1 := fun l => by
    induction l with
    | nil => exact fun p _ hp => hp
    | cons x r ih =>
      intro p hx hp
      exact ih _ (fun y hy => hx y (by simp [hy])) (sized_relenLoop hm (hx x (by simp)).1 (hx x (by simp)).2 _ _ _ hp)
  unfold repairBitlen
  split
  · exact h
  · exact hfold _ _ hl (sized_repairLoop _ _ _ h)

/-! ## The codes (42_tree_builder.md R239) -/

/-- The codes of the symbols below `k` are as long as their lengths say. -/
structure CodesBelow (t : Tree) (d : Cu) (k : Nat) (e : Cu) : Prop where
  mem   : e.MemWf
  same  : SameCounts t d e
  lens  : ∀ x, (e.node t x).len = (d.node t x).len
  codes : ∀ x < k, 1 ≤ (d.node t x).len.toNat → (e.node t x).code.toNat < 2 ^ (d.node t x).len.toNat

theorem CodesBelow.step {t : Tree} {d e : Cu} {k : Nat} (h : CodesBelow t d k e) (hd : d.Emit) (hk : k < t.elems) (code : Nat) :
    CodesBelow t d (k + 1) (e.setCode t k (word16Of (biReverse code (e.node t k).len.toNat))) := by
  have hS := t.size_eq
  have hnode := fun x => node_setNode h.mem t k x { e.node t k with code := word16Of (biReverse code (e.node t k).len.toNat) }
  refine ⟨(quiet_setCode ..).mem h.mem, h.same.trans (sameCounts_setNode h.mem t k rfl), fun x => ?_, fun x hx h1 => ?_⟩
  · refine Eq.trans ?_ (h.lens x)
    rw [setCode, hnode x]
    split
    · rename_i hc
      rw [hc.1]
    · rfl
  · rw [setCode, hnode x]
    split
    · rename_i hc
      have hle := hd.len_le t k
      have h16 : biReverse code (d.node t k).len.toNat < 2 ^ 16 :=
        (Laws.biReverse_lt ..).trans_le (Nat.pow_le_pow_right (by decide) (by omega))
      show (word16Of (biReverse code (e.node t k).len.toNat)).toNat < _
      rw [h.lens, hc.1, word16Of, BitVec.toNat_ofNat, Nat.mod_eq_of_lt h16]
      exact Laws.biReverse_lt ..
    · rename_i hc
      exact h.codes x (by omega) h1

theorem codesBelow_genCodes {t : Tree} {d : Cu} {m : Nat} (h : d.MemWf) (hd : d.Emit) (hm : m < t.elems) :
    CodesBelow t d (m + 1) (d.genCodes t m) := by
  refine forRange_range (P := fun k (p : Cu × List Word16) => CodesBelow t d k p.1) (fun k hk p hp => ?_)
    ⟨h, .refl t d, fun _ => rfl, by omega⟩
  obtain ⟨e, next⟩ := p
  dsimp only at hp ⊢
  split
  · rename_i h0
    refine ⟨hp.mem, hp.same, hp.lens, fun x hx h1 => ?_⟩
    rw [hp.lens] at h0
    rcases Nat.lt_succ_iff_lt_or_eq.1 hx with hlt | rfl
    · exact hp.codes x hlt h1
    · omega
  · exact hp.step hd (by omega) _

theorem Leaves.sifts {t : Tree} {c d : Cu} {m : Int} (h : Leaves t c m) (k : c.Sifts d) : Leaves t d m where
  mem := k.mem h.mem
  top := k.heapMax_eq.trans h.top
  bag g := by rw [k.low, h.bag, (SameCounts.of_sifts k).leafSum_eq]
  code := h.code
  last x hx hf := h.last x hx (by rwa [← (SameCounts.of_sifts k).freq x hx])
  used h0 := by
    have := h.code
    rw [(SameCounts.of_sifts k).freq _ (by omega)]
    exact h.used h0

/-! ## One tree (42_tree_builder.md R234 to R239) -/

theorem Sized.toCoded {t : Tree} {b d e : Cu} {m : Nat} (h : Sized t b d) (k : CodesBelow t d (m + 1) e) (hm : m < t.elems)
    (hlast : ∀ x < t.elems, (b.node t x).freq ≠ 0 → x ≤ m) : Coded t 0 b e m where
  bound := hm
  code x hx hf := by
    have h1 := h.coded x hx hf
    rw [k.lens]
    exact ⟨hlast x hx hf, h1, k.codes x (by have := hlast x hx hf; omega) h1⟩
  opt := by
    refine ⟨0, le_refl _, ?_⟩
    have hb : e.bitsOf t = d.bitsOf t := funext fun x => by rw [bitsOf, k.lens, bitsOf]
    rw [k.same.opt, h.opt, hb, Nat.add_zero]
  static := k.same.static.trans h.static

/-- `build_tree` (42_tree_builder.md R234 to R239). -/
theorem coded_buildTree (t : Tree) {c : Cu} (h : c.MemWf) (he : c.Emit) : Coded t 28 c (c.buildTree t).1 (c.buildTree t).2 := by
  have h1 := scanned_heapSymbols t h
  have e1 := (emits_heapSymbols t c).emit he
  obtain ⟨h2, hl2, hforce⟩ := leaves_forceTwo h1.leaves
  have e2 := (emits_forceTwo t (c.heapSymbols t)).emit e1
  unfold buildTree buildHeap
  dsimp only
  generalize c.heapSymbols t = p at *
  obtain ⟨c1, m1⟩ := p
  refine Coded.of_sameCounts h1.counts ?_
  dsimp only at *
  generalize forceTwo t (c1, m1) = p at *
  obtain ⟨c2, m2⟩ := p
  dsimp only at *
  have hH := h2.heapLen_le
  have hE := t.elems_le
  have h3 := sifts_foldl t (List.range' 1 (c2.heapLen / 2)).reverse h2.mem (by omega) fun n hn => by
    simp only [List.mem_reverse, List.mem_range'_1] at hn
    omega
  have e3 := (emits_foldl (fun c n => c.pqdownheap t n) (fun _ _ => emits_pqdownheap ..) (List.range' 1 (c2.heapLen / 2)).reverse c2).emit e2
  generalize (List.range' 1 (c2.heapLen / 2)).reverse.foldl (fun c n => c.pqdownheap t n) c2 = c3 at *
  have h4 := h2.sifts h3
  have hm : m2.toNat < t.elems := by have := h4.code; omega
  have hlast : ∀ x < t.elems, (c3.node t x).freq ≠ 0 → x ≤ m2.toNat := fun x hx hf => by have := h4.last x hx hf; omega
  have h5 := sized_genBitlen (grown_mergeTree h4 (by have := h3.heapLen_eq; omega)) hm hlast
  have e5 := (emits_genBitlen t m2.toNat (c3.mergeTree t)).emit ((emits_mergeTree t c3).emit e3)
  generalize (c3.mergeTree t).genBitlen t m2.toNat = q at *
  obtain ⟨c5, o⟩ := q
  have h6 := sized_repairBitlen h5 hm o
  have e6 := (emits_repairBitlen t m2.toNat o c5).emit e5
  have h7 := codesBelow_genCodes h6.mem e6 hm
  have e7 := (emits_genCodes t m2.toNat _).emit e6
  exact hforce _ _ e7 (.of_sameCounts (.of_sifts h3) (h6.toCoded h7 hm hlast))

end Cu
end Sys2Proof.Machine
end

section
/-! PROOF. What `build_tree` and the counting of the code lengths leave alone: all of `CU` but the heap, the counts of bits and the tree
itself (42_tree_builder.md R234 to R243). -/

namespace Sys2Proof.Machine

namespace Cu

/-- `CU` with everything that building tree `t` may write cleared. -/
def unbuilt (t : Tree) (c : Cu) : Cu :=
  let c1 : Cu := { c with heap := [], depth := [], blCount := [], optLen := 0, staticLen := 0, heapLen := 0, heapMax := 0 }
  match t with
  | .l => { c1 with dynLtree := [] }
  | .d => { c1 with dynDtree := [] }
  | .bl => { c1 with blTree := [] }

/-- `d` follows `c` by the building of tree `t`: a register that this does not write is the same, as `congrArg` shows. -/
def Builds (t : Tree) (c d : Cu) : Prop := d.unbuilt t = c.unbuilt t

theorem Builds.refl (t : Tree) (c : Cu) : Builds t c c := rfl
theorem Builds.trans {t : Tree} {a b c : Cu} (h : Builds t a b) (k : Builds t b c) : Builds t a c := Eq.trans k h

theorem builds_forRange {t : Tree} (lo n : Nat) {f : Nat → Cu → Cu} (hf : ∀ i c, Builds t c (f i c)) (c : Cu) :
    Builds t c (forRange lo n f c) := forRange_induction (Builds t c ·) lo n f (fun i _ h => h.trans (hf i _)) c (.refl t c)

theorem builds_foldl {α : Type} {t : Tree} {f : Cu → α → Cu} (hf : ∀ c x, Builds t c (f c x)) :
    ∀ (l : List α) (c : Cu), Builds t c (l.foldl f c)
  | [], c => .refl t c
  | x :: r, c => (hf c x).trans (builds_foldl hf r _)

theorem builds_ite {t : Tree} {p : Prop} [Decidable p] {c a b : Cu} (ha : Builds t c a) (hb : Builds t c b) :
    Builds t c (if p then a else b) := by
  split <;> assumption

theorem builds_regs (t : Tree) (c : Cu) (optLen staticLen : Word32) (heapLen heapMax : Nat) :
    Builds t c { c with optLen := optLen, staticLen := staticLen, heapLen := heapLen, heapMax := heapMax } := by cases t <;> rfl
theorem builds_setNode (t : Tree) (c : Cu) (n : Nat) (v : Node) : Builds t c (c.setNode t n v) := by cases t <;> rfl
theorem builds_setHeap (t : Tree) (c : Cu) (i v : Nat) : Builds t c (c.setHeap i v) := by cases t <;> rfl
theorem builds_setDepth (t : Tree) (c : Cu) (i v : Nat) : Builds t c (c.setDepth i v) := by cases t <;> rfl
theorem builds_setBlCount (t : Tree) (c : Cu) (i v : Nat) : Builds t c (c.setBlCount i v) := by cases t <;> rfl

theorem builds_siftLoop (t : Tree) (v : Nat) : ∀ fuel k j (c : Cu), Builds t c (siftLoop t v fuel k j c)
  | 0, k, _, c => builds_setHeap t c k v
  | fuel + 1, k, j, c => by
    rw [siftLoop]
    refine builds_ite (builds_setHeap ..) ?_
    dsimp only
    generalize (if j < c.heapLen && c.smaller t (c.heapAt (j + 1)) (c.heapAt j) then j + 1 else j) = j'
    exact builds_ite (builds_setHeap ..) ((builds_setHeap ..).trans (builds_siftLoop t v fuel _ _ _))

theorem builds_pqdownheap (t : Tree) (k : Nat) (c : Cu) : Builds t c (c.pqdownheap t k) := builds_siftLoop ..

theorem builds_heapSymbols (t : Tree) (c : Cu) : Builds t c (c.heapSymbols t).1 := by
  refine forRange_induction (fun p : Cu × Int => Builds t c p.1) _ _ _ ?_ _ (builds_regs t c c.optLen c.staticLen 0 Config.heapSize)
  rintro n ⟨d, m⟩ h
  dsimp only
  split
  · exact h.trans (((builds_regs t d d.optLen d.staticLen (d.heapLen + 1) d.heapMax).trans (builds_setHeap ..)).trans (builds_setDepth ..))
  · exact h.trans (builds_setNode ..)

theorem builds_forceNode (t : Tree) (x : Nat) (c : Cu) : Builds t c (c.forceNode t x) :=
  ((((builds_regs t c c.optLen c.staticLen (c.heapLen + 1) c.heapMax).trans (builds_setHeap ..)).trans (builds_setNode ..)).trans
    (builds_setDepth ..)).trans (builds_regs t _ _ _ _ _)

theorem builds_forceTwo (t : Tree) (p : Cu × Int) : Builds t p.1 (forceTwo t p).1 := by
  have hs : ∀ (c : Cu) (m : Int), Builds t c (c.forceSymbol t m).1 := fun c m => builds_forceNode ..
  obtain ⟨c, m⟩ := p
  unfold forceTwo
  dsimp only
  split
  · exact (hs c m).trans (hs _ _)
  · split
    · exact hs c m
    · exact .refl t c

theorem builds_buildHeap (t : Tree) (c : Cu) : Builds t c (c.buildHeap t).1 :=
  ((builds_heapSymbols t c).trans (builds_forceTwo ..)).trans (builds_foldl (fun _ _ => builds_pqdownheap ..) _ _)

theorem builds_mergeRound (t : Tree) (node : Nat) (c : Cu) : Builds t c (c.mergeRound t node) := by
  have hpop : Builds t c (c.popLeast t) := ((builds_setHeap ..).trans (builds_regs t _ _ _ _ _)).trans (builds_pqdownheap ..)
  have hstack : ∀ n m (d : Cu), Builds t d (d.stackTwo n m) := fun n m d =>
    ((builds_regs t d d.optLen d.staticLen d.heapLen _).trans (builds_setHeap ..)).trans (builds_setHeap ..)
  have hjoin : ∀ n m (d : Cu), Builds t d (d.joinNodes t node n m) := fun n m d =>
    (((builds_setNode ..).trans (builds_setDepth ..)).trans (builds_setNode ..)).trans (builds_setNode ..)
  rw [mergeRound_eq]
  exact (((hpop.trans (hstack ..)).trans (hjoin ..)).trans (builds_setHeap ..)).trans (builds_pqdownheap ..)

theorem builds_mergeLoop (t : Tree) : ∀ fuel node (c : Cu), Builds t c (mergeLoop t fuel node c)
  | 0, _, c => .refl t c
  | fuel + 1, node, c => by
    rw [mergeLoop]
    exact builds_ite (builds_mergeRound ..) ((builds_mergeRound ..).trans (builds_mergeLoop t fuel _ _))

theorem builds_mergeTree (t : Tree) (c : Cu) : Builds t c (c.mergeTree t) :=
  ((builds_mergeLoop ..).trans (builds_regs t _ _ _ _ _)).trans (builds_setHeap ..)

theorem builds_bitlenNode (t : Tree) (m h o : Nat) (c : Cu) : Builds t c (bitlenNode t m h (c, o)).1 := by
  rw [bitlenNode_fst]
  exact builds_ite (builds_setNode ..) (((builds_setNode ..).trans (builds_setBlCount ..)).trans (builds_regs t _ _ _ _ _))

theorem builds_genBitlen (t : Tree) (m : Nat) (c : Cu) : Builds t c (c.genBitlen t m).1 :=
  forRange_induction (fun p : Cu × Nat => Builds t c p.1) _ _ _ (fun i p h => h.trans (builds_bitlenNode t m i p.2 p.1)) _
    ((builds_forRange _ _ (fun _ _ => builds_setBlCount ..) c).trans (builds_setNode ..))

theorem builds_repairLoop (t : Tree) : ∀ fuel o (c : Cu), Builds t c (repairLoop t fuel o c)
  | 0, _, c => .refl t c
  | fuel + 1, o, c => by
    have h : ∀ i v j w k x, Builds t c (((c.setBlCount i v).setBlCount j w).setBlCount k x) := fun _ _ _ _ _ _ =>
      ((builds_setBlCount ..).trans (builds_setBlCount ..)).trans (builds_setBlCount ..)
    rw [repairLoop]
    exact builds_ite (h ..) ((h ..).trans (builds_repairLoop t fuel _ _))

theorem builds_relenLoop (t : Tree) (m b : Nat) : ∀ h n (c : Cu), Builds t c (relenLoop t m b h n c).1
  | 0, _, c => .refl t c
  | h + 1, n, c => by
    rw [relenLoop]
    split
    · exact .refl t c
    · dsimp only
      split
      · exact builds_relenLoop t m b h n c
      · refine Builds.trans ?_ (builds_relenLoop t m b h _ _)
        exact builds_ite ((builds_setNode ..).trans (builds_regs t _ _ _ _ _)) (.refl t c)

theorem builds_repairBitlen (t : Tree) (m o : Nat) (c : Cu) : Builds t c (c.repairBitlen t m o) := by
  have hfold : ∀ (l : List Nat) (p : Cu × Nat), Builds t p.1
      (l.foldl (fun p bits => relenLoop t m bits p.2 (p.1.blCountAt bits) p.1) p).1 := fun l => by
    induction l with
    | nil => exact fun p => .refl t p.1
    | cons x r ih => exact fun p => (builds_relenLoop ..).trans (ih _)
  unfold repairBitlen
  exact builds_ite (.refl t c) ((builds_repairLoop ..).trans (hfold _ (_, _)))

theorem builds_genCodes (t : Tree) (m : Nat) (c : Cu) : Builds t c (c.genCodes t m) := by
  refine forRange_induction (fun p : Cu × List Word16 => Builds t c p.1) _ _ _ ?_ _ (.refl t c)
  rintro n ⟨d, next⟩ h
  dsimp only
  split
  · exact h
  · exact h.trans (builds_setNode ..)

theorem builds_buildTree (t : Tree) (c : Cu) : Builds t c (c.buildTree t).1 :=
  ((((builds_buildHeap t c).trans (builds_mergeTree ..)).trans (builds_genBitlen ..)).trans (builds_repairBitlen ..)).trans
    (builds_genCodes ..)

theorem builds_scanTree (t : Tree) (m : Nat) (c : Cu) : Builds .bl c (c.scanTree t m) :=
  builds_foldl (fun _ _ => builds_setNode ..) _ _

/-- The other trees stand as they were. -/
theorem Builds.node_eq {t u : Tree} {c d : Cu} (h : Builds t c d) (hu : u ≠ t) (x : Nat) : d.node u x = c.node u x := by
  have hl := congrArg Cu.dynLtree h
  have hd := congrArg Cu.dynDtree h
  have hb := congrArg Cu.blTree h
  cases t <;> cases u <;> first
    | exact absurd rfl hu
    | exact congrArg (Mem.rd _ · x) hl
    | exact congrArg (Mem.rd _ · x) hd
    | exact congrArg (Mem.rd _ · x) hb

end Cu
end Sys2Proof.Machine
end

section
/-! PROOF. What a block takes in bits (42_tree_builder.md R241 to R246): the symbols tallied are counted in the frequencies, so what
`compress_block` sends is what the trees were made for, and so is what `send_tree` sends of the code lengths. -/

namespace Sys2Proof.Machine

namespace Cu

/-! ## Frequencies -/

theorem freq_le_weight (c : Cu) (t : Tree) {x : Nat} (hx : x < t.elems) : (c.node t x).freq.toNat ≤ c.weight t fun _ => 1 := by
  have h := Finset.single_le_sum (f := fun x => (c.node t x).freq.toNat * 1) (fun _ _ => Nat.zero_le _) (Finset.mem_range.2 hx)
  simpa [weight] using h

theorem weight_le {c : Cu} {t : Tree} {g : Nat → Nat} {k : Nat} (h : ∀ x < t.elems, g x ≤ k) :
    c.weight t g ≤ k * c.weight t fun _ => 1 := by
  unfold weight
  rw [Finset.mul_sum]
  refine Finset.sum_le_sum fun x hx => ?_
  rw [Nat.mul_one, Nat.mul_comm k]
  exact Nat.mul_le_mul_left _ (h x (Finset.mem_range.1 hx))

/-- The weight of one symbol is its frequency. -/
theorem weight_single (c : Cu) (t : Tree) (x : Nat) :
    (c.weight t fun y => if y = x then 1 else 0) = if x < t.elems then (c.node t x).freq.toNat else 0 := by
  unfold weight
  simp

/-- A symbol counted once more. -/
theorem weight_incFreq {c : Cu} (h : c.MemWf) (t : Tree) {x : Nat} (hx : x < t.elems) (hf : (c.weight t fun _ => 1) + 1 < 65536)
    (g : Nat → Nat) : (c.incFreq t x).weight t g = c.weight t g + g x := by
  have hS := t.size_eq
  have hle := c.freq_le_weight t hx
  have hfr := freq_setFreq h t (by omega : x < t.size) ((c.node t x).freq + 1)
  unfold incFreq weight
  rw [← Finset.add_sum_erase _ _ (Finset.mem_range.2 hx),
    ← Finset.add_sum_erase (Finset.range t.elems) (fun x => (c.node t x).freq.toNat * g x) (Finset.mem_range.2 hx),
    Finset.sum_congr rfl fun y hy => by rw [hfr y, if_neg (Finset.ne_of_mem_erase hy)]]
  have h1 : ((c.node t x).freq + 1).toNat = (c.node t x).freq.toNat + 1 := by
    rw [BitVec.toNat_add]
    exact Nat.mod_eq_of_lt (by show (c.node t x).freq.toNat + 1 < 65536; omega)
  rw [hfr x, if_pos rfl, h1, Nat.add_mul, Nat.one_mul]
  omega

theorem node_incFreq_other (c : Cu) {t u : Tree} (hu : u ≠ t) (n m : Nat) : (c.incFreq t n).node u m = c.node u m :=
  node_setNode_other c hu ..

/-! ## The code-length symbols (42_tree_builder.md R241) -/

/-- A symbol of the code-length alphabet as the bitstream has it (30_encoding.md R112). -/
structure ClItem.Wf (i : ClItem) : Prop where
  sym   : i.sym < 19
  width : i.width = extraBlbits i.sym
  extra : i.extra < 2 ^ i.width

/-- Where a run of the length `cur` may stand: what lengths before it and its counts are. -/
structure RunOk (prev : Option Nat) (cur count maxCount minCount : Nat) : Prop where
  len   : cur ≤ 15
  zero  : cur = 0 → maxCount = 138 ∧ minCount = 3
  same  : cur ≠ 0 → prev = some cur → maxCount = 6 ∧ minCount = 3
  other : cur ≠ 0 → prev ≠ some cur → maxCount = 7 ∧ minCount = 4
  count : count ≤ maxCount

theorem wf_runItems {prev : Option Nat} {cur count maxCount minCount : Nat} (h : RunOk prev cur count maxCount minCount) :
    (∀ i ∈ runItems prev cur count minCount, i.Wf) ∧ (runItems prev cur count minCount).length ≤ count := by
  obtain ⟨hl, hz, hs, ho, hc⟩ := h
  have hcur : ClItem.Wf ⟨cur, 0, 0⟩ := ⟨by dsimp only; omega, by unfold extraBlbits; dsimp only; split_ifs <;> omega, Nat.one_pos⟩
  have h16 : ∀ e, e ≤ 3 → ClItem.Wf ⟨16, e, 2⟩ := fun e he => ⟨by dsimp only; omega, rfl, by dsimp only; omega⟩
  unfold runItems
  split
  · exact ⟨fun i hi => List.eq_of_mem_replicate hi ▸ hcur, by simp⟩
  · split
    · split
      · obtain ⟨h1, h2⟩ := ho ‹_› ‹_›
        refine ⟨fun i hi => ?_, by simp; omega⟩
        rcases List.mem_pair.1 hi with rfl | rfl
        · exact hcur
        · exact h16 _ (by omega)
      · obtain ⟨h1, h2⟩ := hs ‹_› (not_not.1 ‹_›)
        exact ⟨fun i hi => List.mem_singleton.1 hi ▸ h16 _ (by omega), by simp; omega⟩
    · obtain ⟨h1, h2⟩ := hz (not_not.1 ‹_›)
      split
      · exact ⟨fun i hi => List.mem_singleton.1 hi ▸ ⟨by dsimp only; omega, rfl, by dsimp only; omega⟩, by simp; omega⟩
      · exact ⟨fun i hi => List.mem_singleton.1 hi ▸ ⟨by dsimp only; omega, rfl, by dsimp only; omega⟩, by simp; omega⟩

/-- What a new run has to be is what `scan_or_send` sets for it. -/
theorem runOk_next {cur y : Nat} (hy : y ≤ 15) : ∀ maxCount minCount,
    (if y = 0 then (138, 3) else if y = cur then (6, 3) else (7, 4)) = (maxCount, minCount) →
      RunOk (some cur) y 1 maxCount minCount := by
  intro a b he
  split_ifs at he <;> cases he
  · exact ⟨hy, fun _ => ⟨rfl, rfl⟩, by omega, by omega, by omega⟩
  · exact ⟨hy, by omega, fun _ _ => ⟨rfl, rfl⟩, fun _ h => absurd (by simp_all) h, by omega⟩
  · exact ⟨hy, by omega, fun _ h => absurd (by simpa using h.symm) ‹_›, fun _ _ => ⟨rfl, rfl⟩, by omega⟩

theorem wf_scanLoop : ∀ (lens : List Nat) prev count maxCount minCount, (∀ x ∈ lens, x ≤ 15) →
    (∀ x, lens.head? = some x → RunOk prev x (count + 1) maxCount minCount) →
    (∀ i ∈ scanLoop lens prev count maxCount minCount, i.Wf) ∧
      (scanLoop lens prev count maxCount minCount).length ≤ lens.length + count
  | [], _, _, _, _, _, _ => by simp [scanLoop]
  | cur :: rest, prev, count, maxCount, minCount, hx, hr => by
    have h0 := hr cur rfl
    rw [scanLoop]
    dsimp only
    split
    · rename_i hc
      obtain ⟨h1, h2⟩ := wf_scanLoop rest prev (count + 1) maxCount minCount (fun x hm => hx x (by simp [hm])) fun x hh => by
        have : x = cur := by simpa [hh] using hc.2
        subst this
        exact { h0 with count := hc.1 }
      exact ⟨h1, by rw [List.length_cons]; omega⟩
    · obtain ⟨hi, hl⟩ := wf_runItems h0
      generalize hp : (if rest.head? = some 0 then (138, 3) else if rest.head? = some cur then (6, 3) else (7, 4)) = p
      obtain ⟨a, b⟩ := p
      obtain ⟨h1, h2⟩ := wf_scanLoop rest (some cur) 0 a b (fun x hm => hx x (by simp [hm])) fun x hh => by
        refine runOk_next (hx x (List.mem_cons_of_mem _ (List.mem_of_head? hh))) a b ?_
        rw [← hp, hh]
        simp
      refine ⟨fun i hm => ?_, ?_⟩
      · rcases List.mem_append.1 hm with hm | hm
        · exact hi i hm
        · exact h1 i hm
      · dsimp only
        rw [List.length_append, List.length_cons]
        omega

theorem wf_scanOrSend {lens : List Nat} (h : ∀ x ∈ lens, x ≤ 15) :
    (∀ i ∈ scanOrSend lens, i.Wf) ∧ (scanOrSend lens).length ≤ lens.length := by
  unfold scanOrSend
  split
  · rename_i h0
    exact wf_scanLoop lens none 0 138 3 h fun x hx => by
      have : x = 0 := by simpa [hx] using h0
      subst this
      exact ⟨by omega, fun _ => ⟨rfl, rfl⟩, by omega, by omega, by omega⟩
  · rename_i h0
    exact wf_scanLoop lens none 0 7 4 h fun x hx => by
      have hx0 : x ≠ 0 := fun he => h0 (he ▸ hx)
      exact ⟨h x (List.mem_of_head? hx), fun he => absurd he hx0, fun _ hn => by simp at hn, fun _ _ => ⟨rfl, rfl⟩, by omega⟩

/-- The lengths counted as code-length symbols. -/
theorem weight_foldl_incFreq (l : List ClItem) {c : Cu} (h : c.MemWf) (hw : ∀ i ∈ l, i.Wf)
    (hf : (c.weight .bl fun _ => 1) + l.length < 65536) (g : Nat → Nat) :
    (l.foldl (fun c i => c.incFreq .bl i.sym) c).weight .bl g = c.weight .bl g + (l.map fun i => g i.sym).sum := by
  induction l generalizing c with
  | nil => exact (Nat.add_zero _).symm
  | cons i r ih =>
    rw [List.length_cons] at hf
    have h1 := weight_incFreq h .bl (hw i (by simp)).sym (by omega)
    have hm := (quiet_incFreq c .bl i.sym).mem h
    have hone := h1 fun _ => 1
    rw [List.foldl_cons, List.map_cons, List.sum_cons, ← Nat.add_assoc, ← h1]
    generalize c.incFreq .bl i.sym = d at *
    exact ih hm (fun j hj => hw j (by simp [hj])) (by omega)

/-! ## Codes sent -/

/-- A code that `send_bits` may be given. -/
def Code (p : Nat × Nat) : Prop := p.1 < 2 ^ p.2 ∧ p.2 ≤ 16

theorem sends_sendCode {c : Cu} {s : Bool} {t : Tree} {n : Nat} (h : Code (c.codeOf s t n)) :
    Sends (c.codeOf s t n).2 c (c.sendCode s t n) := sends_sendBits c h.1 h.2

theorem sends_sendExtra (c : Cu) {v w : Nat} (hv : v < 2 ^ w) (hw : w ≤ 13) : Sends w c (c.sendExtra v w) := by
  unfold sendExtra
  split
  · rename_i h0
    exact h0 ▸ .refl c
  · exact sends_sendBits c hv (by omega)

theorem sends_sendClItem {c : Cu} {i : ClItem} (hi : i.Wf) (h : Code (c.codeOf false .bl i.sym)) :
    Sends (c.bitsOf .bl i.sym) c (c.sendClItem i) := by
  have h1 := sends_sendBits c h.1 h.2
  have hw := hi.width
  unfold sendClItem bitsOf
  dsimp only [Tree.xbits]
  rw [← hw]
  split
  · rename_i h0
    exact h1.of_eq (by rw [h0]; rfl)
  · have h7 : i.width ≤ 7 := by rw [hw]; unfold extraBlbits; split_ifs <;> omega
    exact h1.trans (sends_sendBits _ hi.extra (by omega))

/-- `send_tree` (42_tree_builder.md R242). -/
theorem sends_sendTree {t : Tree} {m : Nat} {c : Cu} (hi : ∀ i ∈ scanOrSend (c.treeLens t m), i.Wf)
    (h : ∀ i ∈ scanOrSend (c.treeLens t m), Code (c.codeOf false .bl i.sym)) :
    Sends ((scanOrSend (c.treeLens t m)).map fun i => c.bitsOf .bl i.sym).sum c (c.sendTree t m) :=
  (sends_foldl (f := sendClItem) (w := fun i => c.bitsOf .bl i.sym) (scanOrSend (c.treeLens t m)) (.refl c)
    fun i hm d ⟨n, hd⟩ => by
      obtain ⟨_, _, _, _, rfl⟩ := hd.frame
      refine (sends_sendClItem (hi i hm) ?_).of_eq rfl
      exact h i hm).of_eq (Nat.zero_add _)

/-! ## The symbols tallied -/

/-- The distance of a tally entry, 0 for a literal. -/
def distAt (c : Cu) (i : Nat) : Nat := (Mem.rd c.litBufsize c.dBuf i).toNat
/-- The literal, or the length less 3, of a tally entry. -/
def litAt (c : Cu) (i : Nat) : Nat := (Mem.rd c.litBufsize c.lBuf i).toNat
/-- The literal/length symbol of a tally entry. -/
def lSymbol (c : Cu) (i : Nat) : Nat := if c.distAt i = 0 then c.litAt i else 257 + lengthCode (c.litAt i + 3)
/-- What the distance symbol of a tally entry adds up to, nothing for a literal. -/
def dPart (c : Cu) (g : Nat → Nat) (i : Nat) : Nat := if c.distAt i = 0 then 0 else g (distCode (c.distAt i))

/-- What the bits of a symbol are, its extra bits among them, in the static or the dynamic trees. -/
def symbolBits (c : Cu) (s : Bool) (t : Tree) (x : Nat) : Nat := (c.codeOf s t x).2 + t.xbits x

theorem litAt_lt (c : Cu) (i : Nat) : c.litAt i < 256 := (Mem.rd c.litBufsize c.lBuf i).isLt

theorem largestBase_spec (base : Nat → Nat) (v : Nat) : ∀ n, 0 < n → base 0 ≤ v →
    largestBase base v n < n ∧ base (largestBase base v n) ≤ v ∧ (largestBase base v n + 1 < n → v < base (largestBase base v n + 1))
  | 0, h, _ => absurd h (lt_irrefl 0)
  | n + 1, _, hv => by
    rw [largestBase]
    split
    · exact ⟨by omega, ‹_›, by omega⟩
    · rename_i hn
      have h0 : 0 < n := Nat.pos_of_ne_zero fun h => hn (h ▸ hv)
      obtain ⟨h1, h2, h3⟩ := largestBase_spec base v n h0 hv
      refine ⟨by omega, h2, fun h => ?_⟩
      rcases Nat.lt_succ_iff_lt_or_eq.1 h with hlt | heq
      · exact h3 hlt
      · rw [heq]
        omega

theorem baseLength_succ : ∀ k < 28, baseLength (k + 1) ≤ baseLength k + 2 ^ extraLbits k := by decide

/-- The extra bits of a length hold what is left of it above its base (30_encoding.md R118). -/
theorem length_extra {len : Nat} (h1 : 3 ≤ len) (h2 : len ≤ 258) :
    lengthCode len ≤ 28 ∧ len - baseLength (lengthCode len) < 2 ^ extraLbits (lengthCode len) := by
  unfold lengthCode
  split
  · rename_i h
    subst h
    decide
  · obtain ⟨hn, hb, hs⟩ := largestBase_spec baseLength len 28 (by decide) h1
    generalize largestBase baseLength len 28 = k at hn hb hs ⊢
    have := baseLength_succ k hn
    refine ⟨by omega, ?_⟩
    by_cases hk : k = 27
    · subst hk
      have : baseLength (27 + 1) = 258 := rfl
      omega
    · have := hs (by omega)
      omega

theorem baseDist_succ : ∀ k < 29, baseDist (k + 1) = baseDist k + 2 ^ extraDbits k := by decide

/-- The extra bits of a distance hold what is left of it above its base (30_encoding.md R119). -/
theorem dist_extra {d : Nat} (h1 : 1 ≤ d) (h2 : d ≤ 32768) : distCode d < 30 ∧ d - baseDist (distCode d) < 2 ^ extraDbits (distCode d) := by
  obtain ⟨hn, hb, hs⟩ := largestBase_spec baseDist d 30 (by decide) h1
  refine ⟨hn, ?_⟩
  unfold distCode
  generalize largestBase baseDist d 30 = k at hn hb hs ⊢
  by_cases hk : k = 29
  · subst hk
    have : d - 24577 < 8192 := by omega
    exact this
  · have := baseDist_succ k (by omega)
    have := hs (by omega)
    omega

/-- A tally entry as the codes send it (42_tree_builder.md R246). -/
theorem sends_compressEntry {c : Cu} {s : Bool} {i : Nat} (hd : c.distAt i ≤ 32768) (hl : Code (c.codeOf s .l (c.lSymbol i)))
    (hc : c.distAt i ≠ 0 → Code (c.codeOf s .d (distCode (c.distAt i)))) :
    Sends (c.symbolBits s .l (c.lSymbol i) + c.dPart (c.symbolBits s .d) i) c (c.compressEntry s i) := by
  have hlt := c.litAt_lt i
  unfold compressEntry lSymbol dPart at *
  rw [show (Mem.rd c.litBufsize c.dBuf i).toNat = c.distAt i from rfl, show (Mem.rd c.litBufsize c.lBuf i).toNat = c.litAt i from rfl]
  dsimp only
  by_cases h0 : c.distAt i = 0
  · rw [if_pos h0] at hl
    rw [if_pos h0, if_pos h0, if_pos h0]
    refine (sends_sendCode hl).of_eq ?_
    simp only [symbolBits, Tree.xbits]
    rw [if_neg (by omega)]
    rfl
  · rw [if_neg h0] at hl
    rw [if_neg h0, if_neg h0, if_neg h0]
    obtain ⟨hk, hx⟩ := length_extra (len := c.litAt i + 3) (by omega) (by omega)
    obtain ⟨-, hy⟩ := dist_extra (by omega) hd
    have h1 := (sends_sendCode hl).trans (sends_sendExtra _ hx ((Du.extraLbits_le _).trans (by decide)))
    have h2 := hc h0
    obtain ⟨buf, p, b, v, he⟩ := h1.frame
    have hcode : ∀ n, codeOf (sendExtra (c.sendCode s .l (257 + lengthCode (c.litAt i + 3)))
      (c.litAt i + 3 - baseLength (lengthCode (c.litAt i + 3))) (extraLbits (lengthCode (c.litAt i + 3)))) s .d n = c.codeOf s .d n := by
      rw [he]
      exact fun n => rfl
    have h3 := (h1.trans (sends_sendCode (by rw [hcode]; exact h2))).trans (sends_sendExtra _ hy (Du.extraDbits_le _))
    refine h3.of_eq ?_
    rw [hcode]
    simp only [symbolBits, Tree.xbits]
    rw [if_pos (by omega), Nat.add_sub_cancel_left]
    omega

end Cu
end Sys2Proof.Machine
end

section
/-! PROOF. A whole block in bits (42_tree_builder.md R243 to R246): what the dynamic form takes is what `OPT_LEN` says at most, what the
static form takes is what `STATIC_LEN` says. -/

namespace Sys2Proof.Machine

namespace Cu

/-! ## The tally of a block -/

/-- What the literal/length symbols of the tally add up to. -/
def lSum (c : Cu) (g : Nat → Nat) : Nat := ∑ i ∈ Finset.range c.lastLit, g (c.lSymbol i)
/-- What its distance symbols add up to. -/
def dSum (c : Cu) (g : Nat → Nat) : Nat := ∑ i ∈ Finset.range c.lastLit, c.dPart g i

/-- The frequencies count the symbols tallied, and the end of the block (42_tree_builder.md R231, R233). -/
structure Counted (c : Cu) : Prop where
  dist  : ∀ i < c.lastLit, c.distAt i ≤ 32768
  lits  : ∀ g, c.lSum g + g 256 = c.weight .l g
  dists : ∀ g, c.dSum g = c.weight .d g

/-- The registers that hold the tally. -/
def tallyView (c : Cu) := (c.litBufsize, c.dBuf, c.lBuf, c.lastLit)

theorem tallyView_eq {c d : Cu} (h : d.tallyView = c.tallyView) :
    d.lastLit = c.lastLit ∧ d.distAt = c.distAt ∧ d.litAt = c.litAt ∧ d.lSymbol = c.lSymbol ∧ d.dPart = c.dPart := by
  simp only [tallyView, Prod.mk.injEq] at h
  obtain ⟨h1, h2, h3, h4⟩ := h
  have hd : d.distAt = c.distAt := funext fun i => by rw [distAt, h1, h2, distAt]
  have hl : d.litAt = c.litAt := funext fun i => by rw [litAt, h1, h3, litAt]
  exact ⟨h4, hd, hl, funext fun i => by rw [lSymbol, hd, hl, lSymbol], funext fun g => funext fun i => by rw [dPart, hd, dPart]⟩

theorem weight_congr {c d : Cu} {t : Tree} (h : ∀ x < t.elems, (d.node t x).freq = (c.node t x).freq) (g : Nat → Nat) :
    d.weight t g = c.weight t g := Finset.sum_congr rfl fun x hx => by rw [h x (Finset.mem_range.1 hx)]

theorem Counted.congr {c d : Cu} (h : c.Counted) (hv : d.tallyView = c.tallyView)
    (hl : ∀ x < 286, (d.node .l x).freq = (c.node .l x).freq) (hd : ∀ x < 30, (d.node .d x).freq = (c.node .d x).freq) : d.Counted := by
  obtain ⟨h1, h2, -, h4, h5⟩ := tallyView_eq hv
  refine ⟨fun i hi => ?_, fun g => ?_, fun g => ?_⟩
  · rw [h2]
    exact h.dist i (h1 ▸ hi)
  · rw [weight_congr (t := .l) hl, ← h.lits, lSum, h1, h4, lSum]
  · rw [weight_congr (t := .d) hd, ← h.dists, dSum, h1, h5, dSum]

/-- A symbol with a weight has a frequency. -/
theorem freq_of_weight {c : Cu} {t : Tree} {x : Nat} (h : 1 ≤ c.weight t fun y => if y = x then 1 else 0) :
    x < t.elems ∧ (c.node t x).freq ≠ 0 := by
  rw [weight_single] at h
  split at h
  · refine ⟨‹_›, fun h0 => ?_⟩
    rw [h0] at h
    exact absurd h (by decide)
  · omega

theorem Counted.lSymbol_freq {c : Cu} (h : c.Counted) {i : Nat} (hi : i < c.lastLit) :
    c.lSymbol i < 286 ∧ (c.node .l (c.lSymbol i)).freq ≠ 0 := by
  refine freq_of_weight (t := .l) ?_
  rw [← h.lits, lSum, ← Finset.add_sum_erase _ _ (Finset.mem_range.2 hi), if_pos rfl]
  omega

theorem Counted.end_freq {c : Cu} (h : c.Counted) : (c.node .l 256).freq ≠ 0 := by
  refine (freq_of_weight (t := .l) ?_).2
  rw [← h.lits, if_pos rfl]
  omega

theorem Counted.dCode_freq {c : Cu} (h : c.Counted) {i : Nat} (hi : i < c.lastLit) (h0 : c.distAt i ≠ 0) :
    distCode (c.distAt i) < 30 ∧ (c.node .d (distCode (c.distAt i))).freq ≠ 0 := by
  refine freq_of_weight (t := .d) ?_
  rw [← h.dists, dSum, ← Finset.add_sum_erase _ _ (Finset.mem_range.2 hi), dPart, if_neg h0, if_pos rfl]
  omega

/-- As many symbols as there are tallied, and one that ends the block. -/
theorem Counted.weight_one {c : Cu} (h : c.Counted) : (c.weight .l fun _ => 1) = c.lastLit + 1 ∧ (c.weight .d fun _ => 1) ≤ c.lastLit := by
  constructor
  · rw [← h.lits, lSum]
    simp
  · rw [← h.dists, dSum]
    refine (Finset.sum_le_card_nsmul _ _ 1 fun i _ => ?_).trans (by simp)
    unfold dPart
    split
    · exact Nat.zero_le _
    · exact le_refl _

/-- `compress_block` (42_tree_builder.md R246) sends what the symbols weigh: the tally is that of `c`, the codes are those of `d`. -/
theorem sends_compressBlock {c d : Cu} (h : c.Counted) (hv : d.tallyView = c.tallyView) (s : Bool)
    (hl : ∀ x < 286, (c.node .l x).freq ≠ 0 → Code (d.codeOf s .l x)) (hd : ∀ x < 30, (c.node .d x).freq ≠ 0 → Code (d.codeOf s .d x)) :
    Sends (c.weight .l (d.symbolBits s .l) + c.weight .d (d.symbolBits s .d)) d (d.compressBlock s) := by
  obtain ⟨hlit, hdist, -, hsym, hpart⟩ := tallyView_eq hv
  have h1 : Sends (∑ i ∈ Finset.range c.lastLit, (d.symbolBits s .l (c.lSymbol i) + c.dPart (d.symbolBits s .d) i)) d
      (forRange 0 d.lastLit (compressEntry s) d) := by
    rw [hlit]
    refine sends_forRange fun i hi e ⟨n, hs⟩ => ?_
    obtain ⟨buf, p, b, v, rfl⟩ := hs.frame
    obtain ⟨hx, hf⟩ := h.lSymbol_freq hi
    have hentry := sends_compressEntry (c := { d with pendingBuf := buf, pending := p, biBuf := b, biValid := v }) (s := s) (i := i)
      ((congrFun hdist i).trans_le (h.dist i hi)) ((congrFun hsym i).symm ▸ hl _ hx hf) fun h0 => by
        have hi0 : c.distAt i ≠ 0 := (congrFun hdist i) ▸ h0
        obtain ⟨hy, hg⟩ := h.dCode_freq hi hi0
        exact (congrFun hdist i).symm ▸ hd _ hy hg
    refine hentry.of_eq ?_
    rw [← congrFun hsym i, ← hpart]
    rfl
  rw [Finset.sum_add_distrib] at h1
  have h256 := hl 256 (by decide) h.end_freq
  obtain ⟨_, _, _, _, he⟩ := h1.frame
  have h2 : Sends (d.codeOf s .l 256).2 (forRange 0 d.lastLit (compressEntry s) d)
      ((forRange 0 d.lastLit (compressEntry s) d).sendCode s .l Config.endBlock) := by
    have hc : (forRange 0 d.lastLit (compressEntry s) d).codeOf s .l 256 = d.codeOf s .l 256 := by
      rw [he]
      rfl
    rw [← hc] at h256 ⊢
    exact sends_sendCode h256
  unfold compressBlock
  refine (h1.trans h2).of_eq ?_
  have hb : d.symbolBits s .l 256 = (d.codeOf s .l 256).2 := by simp [symbolBits, Tree.xbits]
  rw [← h.lits, ← h.dists, lSum, dSum, hb]
  omega

theorem code_static (t : Tree) (n : Nat) : Code (staticCode t n) := by
  have := staticCode_le t n
  refine ⟨?_, by omega⟩
  cases t <;> exact Laws.biReverse_lt ..

/-- No symbol takes more than 18 bits in the static trees, and a literal with no extra bits at most 9. -/
theorem staticBits_le : (∀ x < 256, Tree.l.staticBits x ≤ 9) ∧ (∀ k ≤ 28, Tree.l.staticBits (257 + k) ≤ 13) ∧
    ∀ x, Tree.d.staticBits x ≤ 18 := by
  refine ⟨fun x hx => ?_, by decide, fun x => ?_⟩
  · have h := staticCode_le .l x
    show (staticCode .l x).2 + Tree.xbits .l x ≤ 9
    rw [Tree.xbits, if_neg (by omega)]
    exact h
  · show 5 + extraDbits x ≤ 18
    have := Du.extraDbits_le x
    omega

/-- The static form takes at most 31 bits a symbol. -/
theorem Counted.static_le {c : Cu} (h : c.Counted) : c.weight .l Tree.l.staticBits + c.weight .d Tree.d.staticBits ≤ 31 * c.lastLit + 7 := by
  obtain ⟨h1, h2, h3⟩ := staticBits_le
  have hsum : ∑ i ∈ Finset.range c.lastLit, (Tree.l.staticBits (c.lSymbol i) + c.dPart Tree.d.staticBits i) ≤ 31 * c.lastLit := by
    refine (Finset.sum_le_card_nsmul _ _ 31 fun i _ => ?_).trans (by simp [Nat.mul_comm])
    have hlt := c.litAt_lt i
    unfold lSymbol dPart
    split
    · have := h1 _ hlt
      omega
    · have := h2 _ (length_extra (len := c.litAt i + 3) (by omega) (by omega)).1
      have := h3 (distCode (c.distAt i))
      omega
  rw [Finset.sum_add_distrib] at hsum
  have h256 : Tree.l.staticBits 256 = 7 := by decide
  rw [← h.lits, ← h.dists, lSum, dSum, h256]
  omega

/-! ## The three trees (42_tree_builder.md R243, R244) -/

/-- `CU` with everything that the building of the trees may write cleared. -/
def blank (c : Cu) : Cu :=
  { c with
    heap := [], depth := [], blCount := [], optLen := 0, staticLen := 0, heapLen := 0, heapMax := 0
    dynLtree := [], dynDtree := [], blTree := [], lMaxCode := 0, dMaxCode := 0, blMaxCode := 0 }

theorem Builds.blank_eq {t : Tree} {c d : Cu} (h : Builds t c d) : d.blank = c.blank := by
  have hb := congrArg blank h
  cases t <;> exact hb

theorem Builds.maxCodes {t : Tree} {c d : Cu} (h : Builds t c d) : d.lMaxCode = c.lMaxCode ∧ d.dMaxCode = c.dMaxCode := by
  have hl := congrArg Cu.lMaxCode h
  have hd := congrArg Cu.dMaxCode h
  cases t <;> exact ⟨hl, hd⟩

/-- The code-length symbols of the two code trees (42_tree_builder.md R241). -/
def items (c : Cu) : List ClItem := scanOrSend (c.treeLens .l c.lMaxCode) ++ scanOrSend (c.treeLens .d c.dMaxCode)

theorem treeLens_congr {c d : Cu} {t : Tree} (h : ∀ x, d.node t x = c.node t x) (m : Nat) : d.treeLens t m = c.treeLens t m :=
  List.map_congr_left fun x _ => by rw [h x]

theorem items_congr {c d : Cu} (hl : ∀ x, d.node .l x = c.node .l x) (hd : ∀ x, d.node .d x = c.node .d x)
    (hm : d.lMaxCode = c.lMaxCode ∧ d.dMaxCode = c.dMaxCode) : d.items = c.items := by
  rw [items, treeLens_congr hl, treeLens_congr hd, hm.1, hm.2, items]

theorem wf_items {c : Cu} (h : c.Emit) : (∀ i ∈ c.items, i.Wf) ∧ c.items.length ≤ c.lMaxCode + 1 + (c.dMaxCode + 1) := by
  have hlen : ∀ t m, ∀ x ∈ c.treeLens t m, x ≤ 15 := fun t m x hx => by
    obtain ⟨n, -, rfl⟩ := List.mem_map.1 hx
    exact h.len_le t n
  obtain ⟨h1, h2⟩ := wf_scanOrSend (hlen .l c.lMaxCode)
  obtain ⟨h3, h4⟩ := wf_scanOrSend (hlen .d c.dMaxCode)
  refine ⟨fun i hi => ?_, ?_⟩
  · rcases List.mem_append.1 hi with hi | hi
    · exact h1 i hi
    · exact h3 i hi
  · have hlength : ∀ t m, (c.treeLens t m).length = m + 1 := fun t m => by simp [treeLens]
    rw [hlength] at h2 h4
    rw [items, List.length_append]
    omega

theorem maxBlindex_le (c : Cu) : ∀ n, c.maxBlindex n ≤ n
  | 0 => le_refl 0
  | n + 1 => by
    have := maxBlindex_le c n
    rw [maxBlindex]
    split <;> omega

/-- Both scans of the lengths are one over all their symbols. -/
theorem scanTrees_eq (c : Cu) : (c.scanTree .l c.lMaxCode).scanTree .d c.dMaxCode = c.items.foldl (fun c i => c.incFreq .bl i.sym) c := by
  rw [items, List.foldl_append, scanTree, treeLens_congr ((builds_scanTree .l c.lMaxCode c).node_eq (by decide))]
  rfl

theorem regs_foldl_incFreq : ∀ (l : List ClItem) (c : Cu), (l.foldl (fun c i => c.incFreq .bl i.sym) c).optLen = c.optLen ∧
    (l.foldl (fun c i => c.incFreq .bl i.sym) c).staticLen = c.staticLen
  | [], _ => ⟨rfl, rfl⟩
  | _ :: r, c => regs_foldl_incFreq r (c.incFreq .bl _)

/-- What the bit-length tree is built from and made into. -/
structure BlBuilt (c e : Cu) (m : Nat) : Prop where
  mem    : e.MemWf
  emit   : e.Emit
  blank  : e.blank = c.blank
  nodes  : ∀ t, t ≠ .bl → ∀ x, e.node t x = c.node t x
  codes  : e.lMaxCode = c.lMaxCode ∧ e.dMaxCode = c.dMaxCode
  index  : m ≤ 18
  items  : ∀ i ∈ e.items, i.Wf ∧ Code (e.codeOf false .bl i.sym)
  count  : e.items.length ≤ c.lMaxCode + 1 + (c.dMaxCode + 1)
  opt    : ∃ k ≤ 28, e.optLen = c.optLen + word32Of ((e.items.map fun i => e.bitsOf .bl i.sym).sum + k + (3 * (m + 1) + 14))
  static : e.staticLen = c.staticLen

theorem blBuilt_buildBlTree {c : Cu} (h : c.MemWf) (he : c.Emit) (hz : ∀ x < 19, (c.node .bl x).freq = 0) (hl : c.lMaxCode < 286)
    (hd : c.dMaxCode < 30) : BlBuilt c c.buildBlTree.1 c.buildBlTree.2 := by
  obtain ⟨hw, hn⟩ := wf_items he
  have hw0 : ∀ g, c.weight .bl g = 0 := fun g =>
    Finset.sum_eq_zero fun x hx => by rw [hz x (Finset.mem_range.1 hx)]; exact Nat.zero_mul _
  have hm1 := ((quiet_scanTree .l c.lMaxCode c).trans (quiet_scanTree .d c.dMaxCode _)).mem h
  have he1 := ((emits_scanTree .l c.lMaxCode c).trans (emits_scanTree .d c.dMaxCode _)).emit he
  have hb1 := (builds_scanTree .l c.lMaxCode c).trans (builds_scanTree .d c.dMaxCode _)
  have hweight : ∀ g, ((c.scanTree .l c.lMaxCode).scanTree .d c.dMaxCode).weight .bl g = (c.items.map fun i => g i.sym).sum := fun g => by
    rw [scanTrees_eq, weight_foldl_incFreq c.items h hw (by rw [hw0]; omega), hw0, Nat.zero_add]
  have hregs : ((c.scanTree .l c.lMaxCode).scanTree .d c.dMaxCode).optLen = c.optLen ∧
      ((c.scanTree .l c.lMaxCode).scanTree .d c.dMaxCode).staticLen = c.staticLen := by
    rw [scanTrees_eq]
    exact regs_foldl_incFreq ..
  unfold buildBlTree
  dsimp only
  generalize (c.scanTree .l c.lMaxCode).scanTree .d c.dMaxCode = d at *
  obtain ⟨ho, hs⟩ := hregs
  have hc := coded_buildTree .bl hm1 he1
  have hm2 := (quiet_buildTree .bl d).mem hm1
  have he2 := (emits_buildTree .bl d).emit he1
  have hb2 := hb1.trans (builds_buildTree .bl d)
  generalize d.buildTree .bl = p at *
  obtain ⟨e, mx⟩ := p
  dsimp only at *
  have hnode : ∀ t, t ≠ .bl → ∀ x, e.node t x = c.node t x := fun t ht => hb2.node_eq ht
  have hcodes : e.lMaxCode = c.lMaxCode ∧ e.dMaxCode = c.dMaxCode := hb2.maxCodes
  have hitems : e.items = c.items := items_congr (hnode .l (by decide)) (hnode .d (by decide)) hcodes
  have hblank : e.blank = c.blank := hb2.blank_eq
  have hk := maxBlindex_le { e with blMaxCode := mx } 18
  generalize maxBlindex { e with blMaxCode := mx } 18 = m at hk ⊢
  refine ⟨{ hm2 with }, ⟨he2.bitCount, he2.lengths, he2.queue⟩, hblank, hnode, hcodes, hk, fun i hi => ?_, ?_, ?_, ?_⟩
  · have hi : i ∈ c.items := by rw [← hitems]; exact hi
    have hf := freq_of_weight (c := d) (t := .bl) (x := i.sym) (by
      rw [hweight]
      exact List.single_le_sum (fun _ _ => Nat.zero_le _) _ (List.mem_map.2 ⟨i, hi, if_pos rfl⟩))
    have := he2.len_le .bl i.sym
    exact ⟨hw i hi, (hc.code _ hf.1 hf.2).2.2, by show (e.node .bl i.sym).len.toNat ≤ 16; omega⟩
  · show e.items.length ≤ _
    rw [hitems]
    exact hn
  · obtain ⟨k, hk, hopt⟩ := hc.opt
    refine ⟨k, hk, ?_⟩
    show e.optLen + word32Of (3 * (m + 1) + 5 + 5 + 4) = c.optLen + word32Of ((e.items.map fun i => e.bitsOf .bl i.sym).sum + k + _)
    rw [hopt, ho, hweight, hitems, BitVec.add_assoc, ← word32Of_add]
  · have h0 : d.weight .bl Tree.bl.staticBits = 0 := Finset.sum_eq_zero fun x _ => Nat.mul_zero _
    show e.staticLen = c.staticLen
    rw [hc.static, hs, h0]
    exact BitVec.add_zero _

/-- The bits of the code-length symbols. -/
def itemBits (c : Cu) : Nat := (c.items.map fun i => c.bitsOf .bl i.sym).sum

/-- What the dynamic form of the block of `c` takes behind its three header bits, with the trees of `e` and `m` ranks of code-length
codes sent. -/
def dynamicBits (c e : Cu) (m : Nat) : Nat :=
  c.weight .l (e.bitsOf .l) + c.weight .d (e.bitsOf .d) + e.itemBits + (3 * (m + 1) + 14)

/-- What the static form takes. -/
def staticBlock (c : Cu) : Nat := c.weight .l Tree.l.staticBits + c.weight .d Tree.d.staticBits

/-- The two code trees, one after the other. -/
def codeTrees (c : Cu) : Cu :=
  let p := c.buildTree .l
  let q := Cu.buildTree .d { p.1 with lMaxCode := p.2 }
  { q.1 with dMaxCode := q.2 }

theorem blockSizes_eq {c : Cu} (h : 0 < c.level) (n : Nat) : c.blockSizes n =
    let p := c.codeTrees.buildBlTree
    let static := (p.1.staticLen.toNat + 3 + 7) / 8
    let opt := (p.1.optLen.toNat + 3 + 7) / 8
    (p.1, if static ≤ opt ∨ p.1.strategy = 4 then static else opt, static, p.2) := by
  unfold blockSizes codeTrees
  refine (if_pos h).trans ?_
  generalize c.buildTree .l = p
  obtain ⟨c1, l⟩ := p
  dsimp only

/-- The code trees of the block of `c`. -/
structure TwoBuilt (c e : Cu) : Prop where
  mem    : e.MemWf
  emit   : e.Emit
  blank  : e.blank = c.blank
  bl     : ∀ x, e.node .bl x = c.node .bl x
  codes  : ∀ t, t ≠ .bl → ∀ x < t.elems, (c.node t x).freq ≠ 0 → Code (e.codeOf false t x)
  maxes  : e.lMaxCode < 286 ∧ e.dMaxCode < 30
  opt    : ∃ k ≤ 56, e.optLen = c.optLen + word32Of (c.weight .l (e.bitsOf .l) + c.weight .d (e.bitsOf .d) + k)
  static : e.staticLen = c.staticLen + word32Of c.staticBlock

theorem Coded.toCode {t : Tree} {K m : Nat} {c d : Cu} (h : Coded t K c d m) (hd : d.Emit) {x : Nat} (hx : x < t.elems)
    (hf : (c.node t x).freq ≠ 0) : Code (d.codeOf false t x) := by
  have := hd.len_le t x
  exact ⟨(h.code x hx hf).2.2, by show (d.node t x).len.toNat ≤ 16; omega⟩

theorem twoBuilt_codeTrees {c : Cu} (h : c.MemWf) (he : c.Emit) : TwoBuilt c c.codeTrees := by
  have h1 := coded_buildTree .l h he
  have m1 := (quiet_buildTree .l c).mem h
  have e1 := (emits_buildTree .l c).emit he
  have b1 := builds_buildTree .l c
  unfold codeTrees
  generalize c.buildTree .l = p at *
  obtain ⟨c1, l⟩ := p
  dsimp only at *
  obtain ⟨c1', he1'⟩ : ∃ c1' : Cu, c1' = { c1 with lMaxCode := l } := ⟨_, rfl⟩
  have m1' : c1'.MemWf := he1' ▸ { m1 with }
  have e1' : c1'.Emit := he1' ▸ ⟨e1.bitCount, e1.lengths, e1.queue⟩
  have n1' : c1'.node = c1.node := he1' ▸ rfl
  have r1' : c1'.lMaxCode = l ∧ c1'.optLen = c1.optLen ∧ c1'.staticLen = c1.staticLen ∧ c1'.blank = c1.blank :=
    he1' ▸ ⟨rfl, rfl, rfl, rfl⟩
  rw [← he1']
  clear he1'
  obtain ⟨rl, ro, rs, rb⟩ := r1'
  have h2 := coded_buildTree .d m1' e1'
  have m2 := (quiet_buildTree .d c1').mem m1'
  have e2 := (emits_buildTree .d c1').emit e1'
  have b2 := builds_buildTree .d c1'
  generalize c1'.buildTree .d = q at *
  obtain ⟨c2, d⟩ := q
  dsimp only at *
  have hd : ∀ x, c1'.node .d x = c.node .d x := fun x => by rw [n1', b1.node_eq (by decide)]
  have hwd : ∀ g, c1'.weight .d g = c.weight .d g := weight_congr fun x _ => by rw [hd x]
  have hnl : ∀ x, c2.node .l x = c1.node .l x := fun x => by rw [b2.node_eq (by decide), n1']
  have hnb : ∀ x, c2.node .bl x = c.node .bl x := fun x => by rw [b2.node_eq (by decide), n1', b1.node_eq (by decide)]
  have hbl : c2.bitsOf .l = c1.bitsOf .l := funext fun x => by rw [bitsOf, hnl, bitsOf]
  have hcl : ∀ x < 286, (c.node .l x).freq ≠ 0 → Code (c2.codeOf false .l x) := fun x hx hf => by
    have hc := h1.toCode e1 hx hf
    unfold codeOf at hc ⊢
    rwa [hnl x]
  have hcd : ∀ x < 30, (c.node .d x).freq ≠ 0 → Code (c2.codeOf false .d x) := fun x hx hf => h2.toCode e2 hx (by rw [hd x]; exact hf)
  have hopt : ∃ k ≤ 56, c2.optLen = c.optLen + word32Of (c.weight .l (c2.bitsOf .l) + c.weight .d (c2.bitsOf .d) + k) := by
    obtain ⟨k1, hk1, ho1⟩ := h1.opt
    obtain ⟨k2, hk2, ho2⟩ := h2.opt
    refine ⟨k1 + k2, by omega, ?_⟩
    rw [ho2, hwd, ro, ho1, hbl, BitVec.add_assoc, ← word32Of_add]
    exact congrArg (fun n => c.optLen + word32Of n) (by omega)
  have hstatic : c2.staticLen = c.staticLen + word32Of c.staticBlock := by
    rw [h2.static, hwd, rs, h1.static, BitVec.add_assoc, ← word32Of_add, staticBlock]
  refine ⟨{ m2 with }, ⟨e2.bitCount, e2.lengths, e2.queue⟩, b2.blank_eq.trans (rb.trans b1.blank_eq), hnb, fun t ht => ?_,
    ⟨(b2.maxCodes.1.trans rl).trans_lt h1.bound, h2.bound⟩, hopt, hstatic⟩
  cases t with
  | l => exact hcl
  | d => exact hcd
  | bl => exact absurd rfl ht

/-- The three trees of the block of `c` (42_tree_builder.md R244). -/
structure Built (c e : Cu) (m : Nat) : Prop where
  mem    : e.MemWf
  emit   : e.Emit
  blank  : e.blank = c.blank
  codes  : ∀ t, t ≠ .bl → ∀ x < t.elems, (c.node t x).freq ≠ 0 → Code (e.codeOf false t x)
  maxes  : e.lMaxCode < 286 ∧ e.dMaxCode < 30 ∧ m ≤ 18
  items  : ∀ i ∈ e.items, i.Wf ∧ Code (e.codeOf false .bl i.sym)
  count  : e.items.length ≤ 316
  opt    : ∃ k ≤ 84, e.optLen = word32Of (c.dynamicBits e m + k)
  static : e.staticLen = word32Of c.staticBlock

/-- A block begins with no frequency of a code length and nothing counted (42_tree_builder.md R233). -/
structure Uncounted (c : Cu) : Prop where
  bl     : ∀ x < 19, (c.node .bl x).freq = 0
  opt    : c.optLen = 0
  static : c.staticLen = 0

theorem built_buildBlTree {c : Cu} (h : c.MemWf) (he : c.Emit) (hu : c.Uncounted) :
    Built c c.codeTrees.buildBlTree.1 c.codeTrees.buildBlTree.2 := by
  have h1 := twoBuilt_codeTrees h he
  generalize c.codeTrees = d at *
  have h2 := blBuilt_buildBlTree h1.mem h1.emit (fun x hx => by rw [h1.bl x, hu.bl x hx]) h1.maxes.1 h1.maxes.2
  have hd1 := h1.maxes.1
  have hd2 := h1.maxes.2
  generalize d.buildBlTree = p at *
  obtain ⟨e, m⟩ := p
  dsimp only at *
  have hbits : ∀ t, t ≠ .bl → e.bitsOf t = d.bitsOf t := fun t ht => funext fun x => by rw [bitsOf, h2.nodes t ht, bitsOf]
  obtain ⟨k1, hk1, ho1⟩ := h1.opt
  obtain ⟨k2, hk2, ho2⟩ := h2.opt
  have hcount := h2.count
  refine ⟨h2.mem, h2.emit, h2.blank.trans h1.blank, fun t ht x hx hf => ?_, ⟨by rw [h2.codes.1]; exact hd1, by rw [h2.codes.2]; exact hd2,
    h2.index⟩, h2.items, by omega, ⟨k1 + k2, by omega, ?_⟩, ?_⟩
  · have hc := h1.codes t ht x hx hf
    rw [codeOf, if_neg (by decide), ← h2.nodes t ht] at hc
    exact hc
  · rw [ho2, ho1, hu.opt, dynamicBits, hbits .l (by decide), hbits .d (by decide), zero_add, ← word32Of_add, itemBits]
    exact congrArg word32Of (by omega)
  · rw [h2.static, h1.static, hu.static, zero_add]

end Cu
end Sys2Proof.Machine
end

section
/-! PROOF. A block fits the queue (42_tree_builder.md R244 to R248, 41_deflate_engine.md R187): the form chosen takes no more than the static
form would, and that takes at most 31 bits a symbol; at level 0 the block is stored, and `max_block` keeps it short enough. -/

namespace Sys2Proof.Machine

namespace Cu

/-! ## A new block (42_tree_builder.md R233) -/

theorem freq_clear (t : Tree) {n : Nat} (hn : n ≤ t.size) {c : Cu} (h : c.MemWf) :
    (forRange 0 n (fun n c => c.setFreq t n 0) c).MemWf ∧
      (∀ x < n, ((forRange 0 n (fun n c => c.setFreq t n 0) c).node t x).freq = 0) ∧
      ∀ u, u ≠ t → ∀ x, (forRange 0 n (fun n c => c.setFreq t n 0) c).node u x = c.node u x :=
  forRange_range (P := fun k (d : Cu) => d.MemWf ∧ (∀ x < k, (d.node t x).freq = 0) ∧ ∀ u, u ≠ t → ∀ x, d.node u x = c.node u x)
    (fun i hi d ⟨hm, hz, ho⟩ => by
      refine ⟨(quiet_setFreq ..).mem hm, fun x hx => ?_, fun u hu x => (node_setNode_other d hu ..).trans (ho u hu x)⟩
      rw [freq_setFreq hm t (by omega)]
      split
      · rfl
      · exact hz x (by omega)) ⟨h, by omega, fun _ _ _ => rfl⟩

/-- The trees of a new block. -/
def initTrees (c : Cu) : Cu :=
  (forRange 0 Config.blCodes (fun n c => c.setFreq .bl n 0) (forRange 0 Config.dCodes (fun n c => c.setFreq .d n 0)
    (forRange 0 Config.lCodes (fun n c => c.setFreq .l n 0) c))).setFreq .l 256 1

theorem initBlock_eq (c : Cu) : c.initBlock = { c.initTrees with optLen := 0, staticLen := 0, lastLit := 0, matchCount := 0 } := rfl

theorem initTrees_freq {c : Cu} (h : c.MemWf) : (∀ x < 286, (c.initTrees.node .l x).freq = if x = 256 then 1 else 0) ∧
    (∀ x < 30, (c.initTrees.node .d x).freq = 0) ∧ ∀ x < 19, (c.initTrees.node .bl x).freq = 0 := by
  obtain ⟨m1, z1, -⟩ := freq_clear .l (n := Config.lCodes) (by decide) h
  unfold initTrees
  generalize forRange 0 Config.lCodes (fun n c => c.setFreq .l n 0) c = c1 at *
  obtain ⟨m2, z2, o2⟩ := freq_clear .d (n := Config.dCodes) (by decide) m1
  generalize forRange 0 Config.dCodes (fun n c => c.setFreq .d n 0) c1 = c2 at *
  obtain ⟨m3, z3, o3⟩ := freq_clear .bl (n := Config.blCodes) (by decide) m2
  generalize forRange 0 Config.blCodes (fun n c => c.setFreq .bl n 0) c2 = c3 at *
  have ho : ∀ u, u ≠ .l → ∀ x, (c3.setFreq .l 256 1).node u x = c3.node u x := fun u hu x => node_setNode_other c3 hu ..
  refine ⟨fun x hx => ?_, fun x hx => ?_, fun x hx => ?_⟩
  · rw [freq_setFreq m3 .l (x := 256) (by decide) 1]
    split
    · rfl
    · rw [o3 .l (by decide), o2 .l (by decide)]
      exact z1 x hx
  · rw [ho .d (by decide), o3 .d (by decide)]
    exact z2 x hx
  · rw [ho .bl (by decide)]
    exact z3 x hx

/-- A new block has counted its end, and nothing else. -/
theorem counted_of_freq {c : Cu} (hl : ∀ x < 286, (c.node .l x).freq = if x = 256 then 1 else 0)
    (hd : ∀ x < 30, (c.node .d x).freq = 0) (h0 : c.lastLit = 0) : c.Counted := by
  refine ⟨by omega, fun g => ?_, fun g => ?_⟩
  · have hs : c.weight .l g = ∑ x ∈ Finset.range 286, if x = 256 then g 256 else 0 := Finset.sum_congr rfl fun x hx => by
      rw [hl x (Finset.mem_range.1 hx)]
      split
      · rename_i he
        rw [he]
        exact Nat.one_mul _
      · exact Nat.zero_mul _
    rw [hs, Finset.sum_ite_eq', if_pos (by simp), lSum, h0, Finset.range_zero, Finset.sum_empty, Nat.zero_add]
  · rw [dSum, h0, Finset.range_zero, Finset.sum_empty]
    exact (Finset.sum_eq_zero fun x hx => by rw [hd x (Finset.mem_range.1 hx)]; exact Nat.zero_mul _).symm

theorem tally_initBlock {c : Cu} (h : c.MemWf) : c.initBlock.Counted ∧ c.initBlock.Uncounted := by
  obtain ⟨hl, hd, hb⟩ := initTrees_freq h
  obtain ⟨d, hc⟩ : ∃ d, c.initTrees = d := ⟨_, rfl⟩
  rw [initBlock_eq, hc]
  rw [hc] at hl hd hb
  exact ⟨counted_of_freq hl hd rfl, ⟨hb, rfl, rfl⟩⟩

/-! ## What closing a block leaves alone -/

/-- `CU` with everything that closing a block may write cleared. -/
def shut (c : Cu) : Cu :=
  { c.blank with
    cur := { c.cur with out := [], availOut := 0 }
    totalOut := 0, pendingBuf := [], pending := 0, pendingOut := 0, biBuf := 0, biValid := 0
    lastLit := 0, matchCount := 0, blockStart := 0 }

/-- `d` follows `c` by bits and bytes sent and handed out. -/
def Hands (c d : Cu) : Prop := ∃ out availOut totalOut buf p q b v, d = { c with
  cur := { c.cur with out := out, availOut := availOut }
  totalOut := totalOut, pendingBuf := buf, pending := p, pendingOut := q, biBuf := b, biValid := v }

theorem Hands.trans {a b c : Cu} : a.Hands b → b.Hands c → a.Hands c := by
  rintro ⟨_, _, _, _, _, _, _, _, rfl⟩ ⟨x1, x2, x3, x4, x5, x6, x7, x8, rfl⟩
  exact ⟨x1, x2, x3, x4, x5, x6, x7, x8, rfl⟩

theorem Hands.refl (c : Cu) : c.Hands c :=
  ⟨c.cur.out, c.cur.availOut, c.totalOut, c.pendingBuf, c.pending, c.pendingOut, c.biBuf, c.biValid, rfl⟩

theorem Sends.hands {n : Nat} {c d : Cu} (h : Sends n c d) : c.Hands d := by
  obtain ⟨_, _, _, _, rfl⟩ := h.frame
  exact ⟨_, _, _, _, _, _, _, _, rfl⟩

theorem Puts.hands {n : Nat} {c d : Cu} : Puts n c d → c.Hands d := by
  rintro ⟨_, rfl⟩
  exact ⟨_, _, _, _, _, _, _, _, rfl⟩

theorem hands_flushPending (c : Cu) : c.Hands c.flushPending := by
  obtain ⟨out, t, q, he⟩ := flushPending_frame c
  rw [he]
  exact ⟨_, _, _, _, _, _, _, _, rfl⟩

theorem hands_biWindup {c : Cu} (h : c.biValid ≤ 16) : c.Hands c.biWindup := by
  obtain ⟨buf, p, he, -⟩ := biWindup_frame c h
  rw [he]
  exact ⟨_, _, _, _, _, _, _, _, rfl⟩

theorem Hands.shut_eq {c d : Cu} : c.Hands d → d.shut = c.shut := by
  rintro ⟨_, _, _, _, _, _, _, _, rfl⟩
  rfl

/-! ## A stored block (42_tree_builder.md R248) -/

/-- The queue is in range, and empty unless the output is full. -/
structure Flow (c : Cu) : Prop where
  queue : c.pending ≤ c.pendingSize
  empty : c.cur.availOut ≠ 0 → c.pending = 0

/-- A stored block that is short enough fits behind its header, if the output has space to take a byte of it. -/
theorem trStoredBlock_fits {buf : List Byte} {last : Bool} {c : Cu} (hb : c.BitsWf) (h0 : c.pending = 0) (ha : c.cur.availOut ≠ 0)
    (hlen : (c.biValid + 10) / 8 + buf.length + 3 ≤ c.pendingSize) :
    c.Hands (c.trStoredBlock buf last) ∧ (c.trStoredBlock buf last).biBuf = 0 ∧ (c.trStoredBlock buf last).biValid = 0 ∧
      (c.trStoredBlock buf last).pending ≤ c.pendingSize := by
  have h1 := sends_sendBits c (v := last.toNat) (n := 3) (by cases last <;> decide) (by decide)
  have hc1 := h1.count hb
  have hb1 := h1.bits hb
  unfold trStoredBlock
  obtain ⟨_, _, _, _, he1⟩ := h1.frame
  have ha1 : (c.sendBits last.toNat 3).cur = c.cur ∧ (c.sendBits last.toNat 3).pendingSize = c.pendingSize := by
    rw [he1]
    exact ⟨rfl, rfl⟩
  have hh1 := h1.hands
  generalize c.sendBits last.toNat 3 = d at *
  obtain ⟨x, p, hw, hp⟩ := biWindup_frame d hb1.valid
  have hh2 := hh1.trans (hands_biWindup hb1.valid)
  have hd2 : d.biWindup.biBuf = 0 ∧ d.biWindup.biValid = 0 ∧ d.biWindup.pending = p ∧ d.biWindup.cur = c.cur ∧
      d.biWindup.pendingSize = c.pendingSize := by
    rw [hw]
    exact ⟨rfl, rfl, rfl, ha1.1, ha1.2⟩
  generalize d.biWindup = e at *
  obtain ⟨z1, z2, z3, z4, z5⟩ := hd2
  have hroom : e.Hands (e.makeRoom (buf.length + 4)) ∧ (e.makeRoom (buf.length + 4)).biBuf = 0 ∧
      (e.makeRoom (buf.length + 4)).biValid = 0 ∧ (e.makeRoom (buf.length + 4)).pending + (buf.length + 4) ≤ c.pendingSize := by
    have hp8 : p ≤ (c.biValid + 10) / 8 := by
      unfold waiting at hc1 hp
      omega
    unfold makeRoom
    split
    · obtain ⟨-, -, hl⟩ := pending_flushPending e
      have := hl (by rw [z4]; exact ha)
      obtain ⟨_, _, _, he⟩ := flushPending_frame e
      refine ⟨hands_flushPending e, ?_, ?_, by omega⟩
      · rw [he]; exact z1
      · rw [he]; exact z2
    · exact ⟨.refl e, z1, z2, by omega⟩
  generalize e.makeRoom (buf.length + 4) = f at *
  obtain ⟨hf, y1, y2, y3⟩ := hroom
  have hputs := ((puts_putShort f buf.length).trans (puts_putShort _ (0xFFFF - buf.length % 65536))).trans (puts_putBytes buf _)
  refine ⟨(hh2.trans hf).trans hputs.hands, ?_⟩
  obtain ⟨z, hz⟩ := hputs
  rw [hz]
  exact ⟨y1, y2, by show f.pending + (2 + 2 + buf.length) ≤ _; omega⟩

/-! ## The form chosen (42_tree_builder.md R244) -/

theorem Built.tallyView_eq {c e : Cu} {m : Nat} (h : Built c e m) : e.tallyView = c.tallyView := by
  have hb := congrArg tallyView h.blank
  exact hb

/-- The static form. -/
theorem sends_static {c d : Cu} (h : c.Counted) (hv : d.tallyView = c.tallyView) (last : Bool) :
    Sends (3 + c.staticBlock) d ((d.sendBits (2 + last.toNat) 3).compressBlock true) := by
  have h1 := sends_sendBits d (v := 2 + last.toNat) (n := 3) (by cases last <;> decide) (by decide)
  obtain ⟨_, _, _, _, he⟩ := h1.frame
  have hv1 : (d.sendBits (2 + last.toNat) 3).tallyView = c.tallyView := by
    rw [he]
    exact hv
  exact h1.trans (sends_compressBlock h hv1 true (fun x _ _ => code_static .l x) fun x _ _ => code_static .d x)

/-- The codes of the three trees and what they code. -/
theorem sends_sendAllTrees {e : Cu} {m : Nat} (hl : e.lMaxCode < 286) (hd : e.dMaxCode < 30) (hm : m ≤ 18) (he : e.Emit)
    (hi : ∀ i ∈ e.items, i.Wf ∧ Code (e.codeOf false .bl i.sym)) :
    Sends (e.itemBits + (3 * (m + 1) + 14)) e (e.sendAllTrees (e.lMaxCode + 1) (e.dMaxCode + 1) (m + 1)) := by
  have h1 := sends_sendBits e (v := e.lMaxCode + 1 - 257) (n := 5) (by omega) (by decide)
  have h2 := h1.trans (sends_sendBits _ (v := e.dMaxCode + 1 - 1) (n := 5) (by omega) (by decide))
  have h3 := h2.trans (sends_sendBits _ (v := m + 1 - 4) (n := 4) (by omega) (by decide))
  unfold sendAllTrees
  dsimp only
  generalize ((e.sendBits (e.lMaxCode + 1 - 257) 5).sendBits (e.dMaxCode + 1 - 1) 5).sendBits (m + 1 - 4) 4 = f at h3 ⊢
  have h4 : Sends (∑ _ ∈ Finset.range (m + 1), 3) f
      (forRange 0 (m + 1) (fun rank c => c.sendBits (c.node .bl (clOrder rank)).len.toNat 3) f) :=
    sends_forRange fun i _ d ⟨n, hs⟩ => by
      obtain ⟨_, _, _, _, rfl⟩ := (h3.trans hs).frame
      have := he.len .bl (clOrder i)
      refine sends_sendBits _ ?_ (by decide)
      show (e.node .bl (clOrder i)).len.toNat < 8
      exact Nat.lt_succ_of_le this
  generalize forRange 0 (m + 1) (fun rank c => c.sendBits (c.node .bl (clOrder rank)).len.toNat 3) f = g at h4 ⊢
  have h5 := h3.trans h4
  obtain ⟨b, p, v, w, rfl⟩ := h5.frame
  have h6 := sends_sendTree (t := .l) (m := e.lMaxCode) (c := { e with pendingBuf := b, pending := p, biBuf := v, biValid := w })
    (fun i h => (hi i (List.mem_append_left _ h)).1) (fun i h => (hi i (List.mem_append_left _ h)).2)
  obtain ⟨b', p', v', w', he'⟩ := h6.frame
  rw [he'] at h6 ⊢
  have h7 := sends_sendTree (t := .d) (m := e.dMaxCode) (c := { e with pendingBuf := b', pending := p', biBuf := v', biValid := w' })
    (fun i h => (hi i (List.mem_append_right _ h)).1) (fun i h => (hi i (List.mem_append_right _ h)).2)
  refine ((h5.trans h6).trans h7).of_eq ?_
  rw [itemBits, items, List.map_append, List.sum_append, Finset.sum_const, Finset.card_range, smul_eq_mul]
  have e1 : ∀ l : List ClItem, l.map (fun i => bitsOf { e with pendingBuf := b, pending := p, biBuf := v, biValid := w } .bl i.sym) =
    l.map (fun i => e.bitsOf .bl i.sym) := fun _ => rfl
  have e2 : ∀ l : List ClItem, l.map (fun i => bitsOf { e with pendingBuf := b', pending := p', biBuf := v', biValid := w' } .bl i.sym) =
    l.map (fun i => e.bitsOf .bl i.sym) := fun _ => rfl
  rw [e1, e2]
  show _ + (List.map (fun i => e.bitsOf .bl i.sym) (scanOrSend (e.treeLens .l e.lMaxCode))).sum +
    (List.map (fun i => e.bitsOf .bl i.sym) (scanOrSend (e.treeLens .d e.dMaxCode))).sum = _
  omega

/-- The dynamic form. -/
theorem sends_dynamic {c e : Cu} {m : Nat} (h : c.Counted) (hb : Built c e m) (last : Bool) :
    Sends (3 + c.dynamicBits e m) e (((e.sendBits (4 + last.toNat) 3).sendAllTrees ((e.sendBits (4 + last.toNat) 3).lMaxCode + 1)
      ((e.sendBits (4 + last.toNat) 3).dMaxCode + 1) (m + 1)).compressBlock false) := by
  obtain ⟨hl, hd, hm⟩ := hb.maxes
  have h1 := sends_sendBits e (v := 4 + last.toNat) (n := 3) (by cases last <;> decide) (by decide)
  have he1 := (emits_sendBits e (4 + last.toNat) 3 fun _ => by decide).emit hb.emit
  obtain ⟨b, p, v, w, hf⟩ := h1.frame
  rw [hf] at h1 he1 ⊢
  have h2 := sends_sendAllTrees (e := { e with pendingBuf := b, pending := p, biBuf := v, biValid := w }) hl hd hm he1 hb.items
  obtain ⟨b', p', v', w', hf'⟩ := h2.frame
  rw [hf'] at h2 ⊢
  have hv : tallyView { e with pendingBuf := b', pending := p', biBuf := v', biValid := w' } = c.tallyView := hb.tallyView_eq
  refine ((h1.trans h2).trans (sends_compressBlock h hv false (fun x hx hfx => hb.codes .l (by decide) x hx hfx)
    fun x hx hfx => hb.codes .d (by decide) x hx hfx)).of_eq ?_
  show 3 + (e.itemBits + (3 * (m + 1) + 14)) + (c.weight .l (e.bitsOf .l) + c.weight .d (e.bitsOf .d)) = 3 + c.dynamicBits e m
  unfold dynamicBits
  omega

theorem Tree.xbits_le (t : Tree) (x : Nat) : t.xbits x ≤ 13 := by
  have := Du.extraLbits_le (x - 257)
  have := Du.extraDbits_le x
  cases t
  · show (if 257 ≤ x then extraLbits (x - 257) else 0) ≤ 13
    split <;> omega
  · assumption
  · show extraBlbits x ≤ 13
    unfold extraBlbits
    split_ifs <;> omega

/-- The count of the dynamic form does not wrap. -/
theorem dynamicBits_lt {c e : Cu} {m : Nat} (h : c.Counted) (hb : Built c e m) (hl : c.lastLit < 32768) : c.dynamicBits e m + 84 < 2 ^ 32 := by
  have hbits : ∀ t x, e.bitsOf t x ≤ 28 := fun t x => by
    have := hb.emit.len_le t x
    have := t.xbits_le x
    unfold bitsOf
    omega
  have h1 := weight_le (c := c) (t := .l) (g := e.bitsOf .l) (k := 28) fun x _ => hbits .l x
  have h2 := weight_le (c := c) (t := .d) (g := e.bitsOf .d) (k := 28) fun x _ => hbits .d x
  obtain ⟨h3, h4⟩ := h.weight_one
  have h5 : e.itemBits ≤ 28 * e.items.length := by
    have := List.sum_le_card_nsmul (e.items.map fun i => e.bitsOf .bl i.sym) 28 fun n hn => by
      obtain ⟨i, -, rfl⟩ := List.mem_map.1 hn
      exact hbits .bl i.sym
    rwa [List.length_map, smul_eq_mul, Nat.mul_comm] at this
  have h6 := hb.count
  have h7 := hb.maxes.2.2
  rw [h3] at h1
  unfold dynamicBits
  omega

/-- What building the trees leaves alone of the queue and the bit buffer. -/
theorem blank_queue {c e : Cu} (h : e.blank = c.blank) : e.shut = c.shut ∧ e.biBuf = c.biBuf ∧ e.biValid = c.biValid ∧
    e.pending = c.pending ∧ e.cur = c.cur ∧ e.pendingSize = c.pendingSize := by
  have h1 := congrArg shut h
  have h2 := congrArg Cu.biBuf h
  have h3 := congrArg Cu.biValid h
  have h4 := congrArg Cu.pending h
  have h5 := congrArg Cu.cur h
  have h6 := congrArg pendingSize h
  exact ⟨h1, h2, h3, h4, h5, h6⟩

/-- What a block starts from and what it may assume of the queue. -/
structure Block (c : Cu) : Prop where
  mem       : c.MemWf
  emit      : c.Emit
  counted   : c.Counted
  uncounted : c.Uncounted
  bits      : c.BitsWf
  buffer    : 128 ≤ c.litBufsize ∧ c.litBufsize ≤ 32768
  room      : c.lastLit < c.litBufsize
  empty     : c.pending = 0
  space     : c.cur.availOut ≠ 0

/-- `d` is `c` with a block sent that the queue holds. -/
structure Sent (c d : Cu) : Prop where
  shut    : d.shut = c.shut
  bits    : d.BitsWf
  waiting : d.waiting ≤ 8 * c.pendingSize

theorem Block.sent_of_sends {c e d : Cu} {n : Nat} (h : c.Block) (he : e.blank = c.blank) (hs : Sends n e d) (hn : n ≤ 31 * c.lastLit + 10) :
    Sent c d := by
  obtain ⟨hsh, h1, h2, h3, -, -⟩ := blank_queue he
  have hb : e.BitsWf := ⟨by rw [h1, h2]; exact h.bits.bits, by rw [h2]; exact h.bits.valid⟩
  obtain ⟨hL, -⟩ := h.buffer
  have hroom := h.room
  have hv := h.bits.valid
  have h0 := h.empty
  refine ⟨hs.hands.shut_eq.trans hsh, hs.bits hb, ?_⟩
  rw [hs.count hb]
  unfold waiting pendingSize
  omega

theorem Block.sent_of_stored {c e : Cu} {buf : List Byte} {last : Bool} (h : c.Block) (he : e.blank = c.blank)
    (hlen : (c.biValid + 10) / 8 + buf.length + 3 ≤ c.pendingSize) :
    Sent c (e.trStoredBlock buf last) ∧ (e.trStoredBlock buf last).biValid = 0 := by
  obtain ⟨hsh, h1, h2, h3, h4, h5⟩ := blank_queue he
  obtain ⟨k1, k2, k3, k4⟩ := trStoredBlock_fits (c := e) (buf := buf) (last := last)
    ⟨by rw [h1, h2]; exact h.bits.bits, by rw [h2]; exact h.bits.valid⟩ (by rw [h3]; exact h.empty) (by rw [h4]; exact h.space)
    (by rw [h2, h5]; exact hlen)
  refine ⟨⟨k1.shut_eq.trans hsh, ⟨by rw [k2, k3]; exact Nat.one_pos, by rw [k3]; exact Nat.zero_le _⟩, ?_⟩, k3⟩
  unfold waiting
  omega

/-- Above level 0 the form chosen is not longer than the static form. -/
theorem Block.sent_of_level {c : Cu} (h : c.Block) (hl : 0 < c.level) {buf : Option (List Byte)} {len : Nat}
    (hbuf : ∀ b, buf = some b → b.length = len) (last : Bool) : Sent c (emitBlock buf len last (c.blockSizes len)) := by
  have hb := built_buildBlTree h.mem h.emit h.uncounted
  rw [blockSizes_eq hl]
  generalize c.codeTrees.buildBlTree = p at hb
  obtain ⟨e, m⟩ := p
  dsimp only at hb ⊢
  have hroom := h.room
  obtain ⟨hL1, hL2⟩ := h.buffer
  have hstat : c.staticBlock ≤ 31 * c.lastLit + 7 := h.counted.static_le
  have hsl : e.staticLen.toNat = c.staticBlock := by
    rw [hb.static, word32Of, BitVec.toNat_ofNat, Nat.mod_eq_of_lt (by omega)]
  obtain ⟨k, hk, hopt⟩ := hb.opt
  have hlt := dynamicBits_lt h.counted hb (by omega)
  have hol : e.optLen.toNat = c.dynamicBits e m + k := by
    rw [hopt, word32Of, BitVec.toNat_ofNat, Nat.mod_eq_of_lt (by omega)]
  obtain ⟨opt, hoe, ho1, ho2⟩ : ∃ opt, (if (e.staticLen.toNat + 3 + 7) / 8 ≤ (e.optLen.toNat + 3 + 7) / 8 ∨ e.strategy = 4 then
      (e.staticLen.toNat + 3 + 7) / 8 else (e.optLen.toNat + 3 + 7) / 8) = opt ∧ opt ≤ (e.staticLen.toNat + 3 + 7) / 8 ∧
      ((e.staticLen.toNat + 3 + 7) / 8 ≠ opt → e.optLen.toNat < e.staticLen.toNat) := by
    refine ⟨_, rfl, ?_⟩
    split
    · exact ⟨le_refl _, fun hne => absurd rfl hne⟩
    · rename_i hn
      have := (not_or.1 hn).1
      exact ⟨by omega, fun _ => by omega⟩
  rw [hoe]
  unfold emitBlock
  dsimp only
  split
  · rename_i hc
    obtain ⟨hc1, hc2, -⟩ := hc
    obtain ⟨b, rfl⟩ := Option.isSome_iff_exists.1 hc2
    have := hbuf b rfl
    have := h.bits.valid
    refine (h.sent_of_stored hb.blank ?_).1
    rw [Option.getD_some]
    unfold pendingSize
    omega
  · split
    · exact h.sent_of_sends hb.blank (sends_static h.counted hb.tallyView_eq last) (by omega)
    · rename_i hne
      have := ho2 hne
      exact h.sent_of_sends hb.blank (sends_dynamic h.counted hb last) (by omega)

/-- At level 0 the block is stored (41_deflate_engine.md R189). -/
theorem Block.sent_of_level_zero {c : Cu} (h : c.Block) (hl : c.level = 0) {b : List Byte} (h13 : c.biValid ≤ 13)
    (hlen : b.length + 5 ≤ c.pendingSize) (h16 : b.length ≤ 65535) (last : Bool) :
    Sent c (emitBlock (some b) b.length last (c.blockSizes b.length)) ∧
      (emitBlock (some b) b.length last (c.blockSizes b.length)).biValid = 0 := by
  have hs : c.blockSizes b.length = (c, b.length + 5, b.length + 5, 0) := by
    unfold blockSizes
    rw [if_neg (by omega)]
  rw [hs]
  unfold emitBlock
  dsimp only
  rw [if_pos ⟨Nat.le_succ _, rfl, h16⟩]
  exact h.sent_of_stored rfl (by rw [Option.getD_some]; omega)

/-! ## Closing a block (41_deflate_engine.md R187) -/

theorem Hands.tally {c d : Cu} : c.Hands d → c.Counted → c.Uncounted → d.Counted ∧ d.Uncounted := by
  rintro ⟨_, _, _, _, _, _, _, _, rfl⟩ h k
  exact ⟨h.congr rfl (fun _ _ => rfl) fun _ _ => rfl, ⟨k.bl, k.opt, k.static⟩⟩

theorem shut_initBlock (c : Cu) : c.initBlock.shut = c.shut ∧ c.initBlock.biBuf = c.biBuf ∧ c.initBlock.biValid = c.biValid ∧
    c.initBlock.waiting = c.waiting := by
  obtain ⟨l, d, bl, he⟩ := initBlock_frame c
  rw [he]
  exact ⟨rfl, rfl, rfl, rfl⟩

/-- A block at level 0 that is stored and fits (41_deflate_engine.md R189). -/
structure Short (c : Cu) : Prop where
  bits  : c.biValid ≤ 13
  start : 0 ≤ c.blockStart
  len   : (c.strstart : Int) - c.blockStart ≤ c.maxBlock

/-- What closing a block leaves: a new block, and a queue in range. -/
structure Closed (c d : Cu) : Prop where
  shut      : d.shut = c.shut
  counted   : d.Counted
  uncounted : d.Uncounted
  bits      : d.BitsWf
  flow      : d.Flow
  start     : d.blockStart = c.strstart
  aligned   : c.level = 0 → d.biValid = 0

theorem Block.sent {c : Cu} (h : c.Block) (hz : c.level = 0 → c.Short) (last : Bool) {buf : Option (List Byte)}
    (hbuf : buf = if 0 ≤ c.blockStart then some (Mem.readN c.windowSize c.window c.blockStart.toNat
      ((c.strstart : Int) - c.blockStart).toNat) else none) :
    Sent c (emitBlock buf ((c.strstart : Int) - c.blockStart).toNat last (c.blockSizes ((c.strstart : Int) - c.blockStart).toNat)) ∧
      (c.level = 0 →
        (emitBlock buf ((c.strstart : Int) - c.blockStart).toNat last
          (c.blockSizes ((c.strstart : Int) - c.blockStart).toNat)).biValid = 0) := by
  have hlen : ∀ n, (Mem.readN c.windowSize c.window c.blockStart.toNat n).length = n := fun n => by simp [Mem.readN]
  rcases Nat.eq_zero_or_pos c.level with hl | hl
  · obtain ⟨h13, hs, hm⟩ := hz hl
    obtain ⟨hL, -⟩ := h.buffer
    rw [if_pos hs] at hbuf
    have hmax : ((c.strstart : Int) - c.blockStart).toNat + 5 ≤ c.pendingSize ∧ ((c.strstart : Int) - c.blockStart).toNat ≤ 65535 := by
      have : 5 ≤ c.pendingSize := by unfold pendingSize; omega
      unfold maxBlock at hm
      omega
    have hk := h.sent_of_level_zero hl (b := Mem.readN c.windowSize c.window c.blockStart.toNat
      ((c.strstart : Int) - c.blockStart).toNat) h13 (by rw [hlen]; exact hmax.1) (by rw [hlen]; exact hmax.2) last
    rw [hlen] at hk
    rw [hbuf]
    exact ⟨hk.1, fun _ => hk.2⟩
  · refine ⟨h.sent_of_level hl (fun b hb => ?_) last, fun h0 => by omega⟩
    rw [hbuf] at hb
    split at hb
    · rw [← Option.some.inj hb]
      exact hlen _
    · cases hb

/-- A block sent whole, a new one begun. -/
theorem Block.trFlushBlock {c : Cu} (h : c.Block) {buf : Option (List Byte)} {len : Nat} {last : Bool}
    (hs : Sent c (emitBlock buf len last (c.blockSizes len)))
    (hz : c.level = 0 → (emitBlock buf len last (c.blockSizes len)).biValid = 0) :
    (c.trFlushBlock buf len last).shut = c.shut ∧ (c.trFlushBlock buf len last).Counted ∧ (c.trFlushBlock buf len last).Uncounted ∧
      (c.trFlushBlock buf len last).BitsWf ∧ (c.trFlushBlock buf len last).pending ≤ c.pendingSize ∧
      (c.level = 0 → (c.trFlushBlock buf len last).biValid = 0) := by
  have hm : (emitBlock buf len last (c.blockSizes len)).MemWf :=
    (moves_emitBlock buf len last (c.blockSizes len)).mem ((quiet_blockSizes len c).mem h.mem)
  unfold Cu.trFlushBlock
  dsimp only
  generalize emitBlock buf len last (c.blockSizes len) = d at *
  obtain ⟨hk, hu⟩ := tally_initBlock hm
  obtain ⟨h1, h2, h3, h4⟩ := shut_initBlock d
  generalize d.initBlock = e at *
  have hw := hs.waiting
  have hv := hs.bits.valid
  have hb : e.BitsWf := ⟨by rw [h2, h3]; exact hs.bits.bits, by rw [h3]; exact hv⟩
  split
  · have hh := hands_biWindup hb.valid
    obtain ⟨x, p, he, hp⟩ := biWindup_frame e hb.valid
    obtain ⟨hc, hu'⟩ := hh.tally hk hu
    refine ⟨hh.shut_eq.trans (h1.trans hs.shut), hc, hu', ?_⟩
    rw [he]
    exact ⟨⟨Nat.one_pos, Nat.zero_le _⟩, by show p ≤ c.pendingSize; omega, fun _ => rfl⟩
  · refine ⟨h1.trans hs.shut, hk, hu, hb, ?_, fun hl => h3.trans (hz hl)⟩
    unfold waiting at h4 hw
    omega

/-- `flush_block_only` (41_deflate_engine.md R187). -/
theorem Block.closed {c : Cu} (h : c.Block) (hz : c.level = 0 → c.Short) (last : Bool) : Closed c (c.flushBlockOnly last) := by
  unfold flushBlockOnly
  dsimp only
  generalize hbuf : (if 0 ≤ c.blockStart then some (Mem.readN c.windowSize c.window c.blockStart.toNat
    ((c.strstart : Int) - c.blockStart).toNat) else none) = buf
  obtain ⟨hs, ha⟩ := h.sent hz last hbuf.symm
  obtain ⟨h1, h2, h3, h4, h5, h6⟩ := h.trFlushBlock hs ha
  generalize c.trFlushBlock buf ((c.strstart : Int) - c.blockStart).toNat last = d at *
  have hst : d.strstart = c.strstart := by
    have := congrArg Cu.strstart h1
    exact this
  have hps : d.pendingSize = c.pendingSize := by
    have := congrArg pendingSize h1
    exact this
  have hh : Cu.Hands { d with blockStart := d.strstart } _ := hands_flushPending _
  obtain ⟨hc, hu⟩ := hh.tally (h2.congr rfl (fun _ _ => rfl) fun _ _ => rfl) ⟨h3.bl, h3.opt, h3.static⟩
  obtain ⟨hp, he, -⟩ := pending_flushPending { d with blockStart := (d.strstart : Int) }
  obtain ⟨x, y, z, hf⟩ := flushPending_frame { d with blockStart := (d.strstart : Int) }
  have hsh := hh.shut_eq
  rw [hf] at hp he hc hu hsh ⊢
  refine ⟨hsh.trans h1, hc, hu, ⟨h4.bits, h4.valid⟩, ⟨hp.trans (h5.trans hps.ge), he⟩, ?_, h6⟩
  show (d.strstart : Int) = c.strstart
  rw [hst]

end Cu
end Sys2Proof.Machine
end

section
/-! PROOF. A tally keeps the frequencies in step with the symbols tallied (42_tree_builder.md R231). -/

namespace Sys2Proof.Machine

namespace Cu

/-! ## An entry of the tally -/

theorem distAt_tallyEntry {c : Cu} (h : c.MemWf) (dist : Nat) (lc : Byte) (hr : c.lastLit < c.litBufsize) (i : Nat) :
    (c.tallyEntry dist lc).distAt i = if i = c.lastLit then dist % 65536 else c.distAt i := by
  refine (congrArg BitVec.toNat (Mem.rd_wr h.dBuf)).trans ?_
  by_cases hi : i = c.lastLit
  · rw [if_pos ⟨hi, hr⟩, if_pos hi]
    rfl
  · rw [if_neg fun hc => hi hc.1, if_neg hi]
    rfl

theorem litAt_tallyEntry {c : Cu} (h : c.MemWf) (dist : Nat) (lc : Byte) (hr : c.lastLit < c.litBufsize) (i : Nat) :
    (c.tallyEntry dist lc).litAt i = if i = c.lastLit then lc.toNat else c.litAt i := by
  refine (congrArg BitVec.toNat (Mem.rd_wr h.lBuf)).trans ?_
  by_cases hi : i = c.lastLit
  · rw [if_pos ⟨hi, hr⟩, if_pos hi]
  · rw [if_neg fun hc => hi hc.1, if_neg hi]
    rfl

/-- The symbols of `d` are those of `c` and one more. -/
structure Adds (c d : Cu) (dist lc : Nat) : Prop where
  lit  : d.lastLit = c.lastLit + 1
  dist : ∀ i, d.distAt i = if i = c.lastLit then dist else c.distAt i
  byte : ∀ i, d.litAt i = if i = c.lastLit then lc else c.litAt i

/-- What one more symbol adds to the sums of the tally. -/
theorem Adds.sums {c d : Cu} {dist lc : Nat} (h : Adds c d dist lc) (g : Nat → Nat) :
    d.lSum g = c.lSum g + g (if dist = 0 then lc else 257 + lengthCode (lc + 3)) ∧
      d.dSum g = c.dSum g + if dist = 0 then 0 else g (distCode dist) := by
  have hold : ∀ i ∈ Finset.range c.lastLit, d.distAt i = c.distAt i ∧ d.litAt i = c.litAt i := fun i hi => by
    have := Finset.mem_range.1 hi
    rw [h.dist, if_neg (by omega), h.byte, if_neg (by omega)]
    exact ⟨rfl, rfl⟩
  have hd := h.dist c.lastLit
  have hb := h.byte c.lastLit
  rw [if_pos rfl] at hd hb
  constructor
  · rw [lSum, h.lit, Finset.sum_range_succ, lSum, Finset.sum_congr rfl fun i hi => by rw [lSymbol, (hold i hi).1, (hold i hi).2, ← lSymbol],
      lSymbol, hd, hb]
  · rw [dSum, h.lit, Finset.sum_range_succ, dSum, Finset.sum_congr rfl fun i hi => by rw [dPart, (hold i hi).1, ← dPart], dPart, hd]

theorem Adds.counted {c d : Cu} {dist lc : Nat} (h : Adds c d dist lc) (hc : c.Counted) (hd : dist ≤ 32768)
    (hl : ∀ g, d.weight .l g = c.weight .l g + g (if dist = 0 then lc else 257 + lengthCode (lc + 3)))
    (hw : ∀ g, d.weight .d g = c.weight .d g + if dist = 0 then 0 else g (distCode dist)) : d.Counted := by
  refine ⟨fun i hi => ?_, fun g => ?_, fun g => ?_⟩
  · rw [h.dist]
    split
    · exact hd
    · exact hc.dist i (by have := h.lit; omega)
  · have := hc.lits g
    rw [(h.sums g).1, hl]
    omega
  · have := hc.dists g
    rw [(h.sums g).2, hw]
    omega

/-! ## The two tallies -/

theorem Adds.of_view {c d e : Cu} {dist lc : Nat} (h : Adds c d dist lc) (hv : e.tallyView = d.tallyView) : Adds c e dist lc := by
  obtain ⟨h1, h2, h3, -, -⟩ := tallyView_eq hv
  exact ⟨h1.trans h.lit, fun i => (congrFun h2 i).trans (h.dist i), fun i => (congrFun h3 i).trans (h.byte i)⟩

theorem adds_tallyEntry {c : Cu} (h : c.MemWf) {dist : Nat} (hd : dist ≤ 32768) (lc : Byte) (hr : c.lastLit < c.litBufsize) :
    Adds c (c.tallyEntry dist lc) dist lc.toNat :=
  ⟨rfl, fun i => by rw [distAt_tallyEntry h dist lc hr, Nat.mod_eq_of_lt (by omega)], litAt_tallyEntry h dist lc hr⟩

theorem weight_incFreq_other (c : Cu) {t u : Tree} (hu : u ≠ t) (n : Nat) (g : Nat → Nat) : (c.incFreq t n).weight u g = c.weight u g :=
  weight_congr (fun x _ => by rw [node_incFreq_other c hu]) g

theorem tallyView_incFreq (c : Cu) (t : Tree) (n : Nat) : (c.incFreq t n).tallyView = c.tallyView := by cases t <;> rfl

theorem uncounted_incFreq {c : Cu} (h : c.Uncounted) {t : Tree} (ht : t ≠ .bl) (n : Nat) : (c.incFreq t n).Uncounted := by
  obtain ⟨-, -, ho, hs, -⟩ := regs_setNode c t n { c.node t n with freq := (c.node t n).freq + 1 }
  exact ⟨fun x hx => by rw [node_incFreq_other c ht.symm]; exact h.bl x hx, ho.trans h.opt, hs.trans h.static⟩

/-- A literal tallied (42_tree_builder.md R231). -/
theorem counted_tallyLit {c : Cu} (h : c.MemWf) (hc : c.Counted) (hu : c.Uncounted) (hr : c.lastLit < c.litBufsize)
    (hL : c.litBufsize ≤ 32768) (b : Byte) : (c.tallyLit b).Counted ∧ (c.tallyLit b).Uncounted := by
  have hm := (quiet_tallyEntry c 0 b).mem h
  have ha := adds_tallyEntry h (Nat.zero_le _) b hr
  have hw : ∀ t g, (c.tallyEntry 0 b).weight t g = c.weight t g := fun t g => weight_congr (fun _ _ => rfl) g
  have h1 := hc.weight_one.1
  have hlt : b.toNat < Tree.l.elems := b.isLt.trans (by decide)
  have hi := weight_incFreq hm .l hlt (by rw [hw, h1]; omega)
  have hu1 : (c.tallyEntry 0 b).Uncounted := ⟨hu.bl, hu.opt, hu.static⟩
  have ha2 := ha.of_view (tallyView_incFreq (c.tallyEntry 0 b) .l b.toNat)
  have hd2 := weight_incFreq_other (c.tallyEntry 0 b) (t := .l) (u := .d) (by decide) b.toNat
  have hu2 := uncounted_incFreq hu1 (t := .l) (by decide) b.toNat
  unfold tallyLit
  generalize (c.tallyEntry 0 b).incFreq .l b.toNat = d at *
  have hd : d.Counted := ha2.counted hc (Nat.zero_le _) (fun g => by rw [hi, hw, if_pos rfl]) fun g => by rw [hd2, hw, if_pos rfl, Nat.add_zero]
  exact ⟨hd.congr rfl (fun _ _ => rfl) fun _ _ => rfl, ⟨hu2.bl, hu2.opt, hu2.static⟩⟩

/-- A match tallied (42_tree_builder.md R231). -/
theorem counted_tallyMatch {c : Cu} (h : c.MemWf) (hc : c.Counted) (hu : c.Uncounted) (hr : c.lastLit < c.litBufsize)
    (hL : c.litBufsize ≤ 32768) {dist len : Nat} (hd : 1 ≤ dist ∧ dist ≤ 32768) (hl : 3 ≤ len ∧ len ≤ 258) :
    (c.tallyMatch dist len).Counted ∧ (c.tallyMatch dist len).Uncounted := by
  have hlc : (byteOf (len - Config.minMatch)).toNat = len - 3 := Nat.mod_eq_of_lt (by simp only [Config.minMatch]; omega)
  have hlen : len - 3 + 3 = len := by omega
  have hm := (quiet_tallyEntry c dist (byteOf (len - Config.minMatch))).mem h
  have ha := adds_tallyEntry h hd.2 (byteOf (len - Config.minMatch)) hr
  rw [hlc] at ha
  obtain ⟨h1, h1d⟩ := hc.weight_one
  obtain ⟨hk, -⟩ := length_extra hl.1 hl.2
  obtain ⟨hx, -⟩ := dist_extra hd.1 hd.2
  unfold tallyMatch
  dsimp only
  generalize hc1 : ({ c.tallyEntry dist (byteOf (len - Config.minMatch)) with
    matchCount := (c.tallyEntry dist (byteOf (len - Config.minMatch))).matchCount + 1 } : Cu) = c1
  have hm1 : c1.MemWf := hc1 ▸ { hm with }
  have ha1 : Adds c c1 dist (len - 3) := hc1 ▸ ⟨ha.lit, ha.dist, ha.byte⟩
  have hw1 : ∀ t g, c1.weight t g = c.weight t g := fun t => hc1 ▸ weight_congr fun _ _ => rfl
  have hu1 : c1.Uncounted := hc1 ▸ ⟨hu.bl, hu.opt, hu.static⟩
  clear hc1
  have hi2 := weight_incFreq hm1 .l (x := 257 + lengthCode len) (by show _ < 286; omega) (by rw [hw1, h1]; omega)
  have ho2 := weight_incFreq_other c1 (t := .l) (u := .d) (by decide) (257 + lengthCode len)
  have ha2 := ha1.of_view (tallyView_incFreq c1 .l (257 + lengthCode len))
  have hu2 := uncounted_incFreq hu1 (t := .l) (by decide) (257 + lengthCode len)
  have hm2 := (quiet_incFreq c1 .l (257 + lengthCode len)).mem hm1
  generalize c1.incFreq .l (257 + lengthCode len) = c2 at *
  have hi3 := weight_incFreq hm2 .d (x := distCode dist) hx (by rw [ho2, hw1]; omega)
  have ho3 := weight_incFreq_other c2 (t := .d) (u := .l) (by decide) (distCode dist)
  have ha3 := ha2.of_view (tallyView_incFreq c2 .d (distCode dist))
  have hu3 := uncounted_incFreq hu2 (t := .d) (by decide) (distCode dist)
  generalize c2.incFreq .d (distCode dist) = c3 at *
  have hd3 : c3.Counted := ha3.counted hc hd.2 (fun g => by rw [ho3, hi2, hw1, if_neg (by omega), hlen]) fun g => by
    rw [hi3, ho2, hw1, if_neg (by omega)]
  exact ⟨hd3.congr rfl (fun _ _ => rfl) fun _ _ => rfl, ⟨hu3.bl, hu3.opt, hu3.static⟩⟩

end Cu
end Sys2Proof.Machine
end

section
/-! PROOF. The hash chains hold positions of the window (40_matcher.md R153, R159, R160, R162), so a match found lies at most `MAX_DIST`
back. -/

namespace Sys2Proof.Machine

namespace Cu

/-! ## The chains -/

/-- A link of the chains over the entries `K` of `PREV`: none, or a position before `b` whose own link is one of `K`. -/
def Live (w : Nat) (K : Set Nat) (b v : Nat) : Prop := v = 0 ∨ v < b ∧ v % w ∈ K

theorem Live.mono {w b b' v : Nat} {K L : Set Nat} (h : Live w K b v) (hk : K ⊆ L) (hb : b ≤ b') : Live w L b' v :=
  h.imp_right fun ⟨h1, h2⟩ => ⟨h1.trans_le hb, hk h2⟩

/-- The links in the entries `K` of `PREV` lead to positions before `b`. -/
def Behind (K : Set Nat) (b : Nat) (c : Cu) : Prop := ∀ k ∈ K, Live c.wSize K b (c.prevAt k).toNat

/-- The chains that begin in `HEAD` go through the entries `K` of `PREV` and hold positions before `b`. -/
structure Chained (K : Set Nat) (b : Nat) (c : Cu) : Prop where
  head : ∀ i, Live c.wSize K b (c.headAt i).toNat
  prev : c.Behind K b

/-- The hash chains hold positions before `b`. -/
def Chains (b : Nat) (c : Cu) : Prop := ∃ K, c.Chained K b

/-- The registers that the chains are read with. -/
def chainView (c : Cu) := (c.head, c.prev, c.wBits, c.hashBits)

theorem chainView_eq {c d : Cu} (h : d.chainView = c.chainView) :
    d.headAt = c.headAt ∧ d.prevAt = c.prevAt ∧ d.wSize = c.wSize := by
  simp only [chainView, Prod.mk.injEq] at h
  obtain ⟨h1, h2, h3, h4⟩ := h
  exact ⟨funext fun i => by rw [headAt, hashSize, h1, h4, headAt, hashSize],
    funext fun i => by rw [prevAt, wSize, h2, h3, prevAt, wSize], by rw [wSize, h3, wSize]⟩

theorem Behind.congr {c d : Cu} {K : Set Nat} {b : Nat} (h : c.Behind K b) (hv : d.chainView = c.chainView) : d.Behind K b := by
  obtain ⟨-, h2, h3⟩ := chainView_eq hv
  intro k hk
  rw [h2, h3]
  exact h k hk

theorem Chained.congr {c d : Cu} {K : Set Nat} {b : Nat} (h : c.Chained K b) (hv : d.chainView = c.chainView) : d.Chained K b := by
  obtain ⟨h1, -, h3⟩ := chainView_eq hv
  exact ⟨fun i => by rw [h1, h3]; exact h.head i, h.prev.congr hv⟩

theorem Chains.congr {c d : Cu} {b : Nat} (h : c.Chains b) (hv : d.chainView = c.chainView) : d.Chains b :=
  h.imp fun _ hk => hk.congr hv

theorem Chained.mono {c : Cu} {K : Set Nat} {b b' : Nat} (h : c.Chained K b) (hb : b ≤ b') : c.Chained K b' :=
  ⟨fun i => (h.head i).mono subset_rfl hb, fun k hk => (h.prev k hk).mono subset_rfl hb⟩

theorem Chains.mono {c : Cu} {b b' : Nat} (h : c.Chains b) (hb : b ≤ b') : c.Chains b' := h.imp fun _ hk => hk.mono hb

/-- No chain begins in an empty `HEAD`. -/
theorem chains_of_empty {c : Cu} (h : c.head = []) (b : Nat) : c.Chains b := by
  refine ⟨∅, fun i => .inl ?_, fun k hk => absurd hk (Set.notMem_empty k)⟩
  rw [headAt, h, Mem.rd]
  split <;> rfl

/-- A position put at the head of a chain: its link is the old head, a position before the bound. -/
theorem Chained.behind_linkString {c : Cu} {K : Set Nat} {b : Nat} (h : c.Chained K b) (hm : c.MemWf) (s : Nat) :
    (c.linkString s).1.Behind (insert (s % c.wSize) K) b := by
  intro k hk
  have hrd : (c.linkString s).1.prevAt k = if k = s % c.wSize ∧ s % c.wSize < c.wSize then c.headAt c.insH.toNat else c.prevAt k :=
    Mem.rd_wr hm.prev
  rw [hrd]
  split
  · exact (h.head _).mono (Set.subset_insert ..) (le_refl b)
  · rename_i hn
    have hw : s % c.wSize < c.wSize := Nat.mod_lt _ (Nat.two_pow_pos _)
    exact (h.prev k (hk.resolve_left fun he => hn ⟨he, hw⟩)).mono (Set.subset_insert ..) (le_refl b)

theorem Chained.linkString {c : Cu} {K : Set Nat} {b b' s : Nat} (h : c.Chained K b) (hm : c.MemWf) (hb : b ≤ b') (hs : s < b')
    (h16 : s < 65536) : (c.linkString s).1.Chained (insert (s % c.wSize) K) b' := by
  refine ⟨fun i => ?_, fun k hk => (h.behind_linkString hm s k hk).mono subset_rfl hb⟩
  have hrd : (c.linkString s).1.headAt i = if i = c.insH.toNat ∧ c.insH.toNat < c.hashSize then word16Of s else c.headAt i :=
    Mem.rd_wr hm.head
  rw [hrd]
  split
  · rw [word16Of, BitVec.toNat_ofNat, Nat.mod_eq_of_lt h16]
    exact .inr ⟨hs, Set.mem_insert ..⟩
  · exact (h.head i).mono (Set.subset_insert ..) hb

/-- `insert_string` (40_matcher.md R153). -/
theorem Chains.insertString {c : Cu} {b b' s : Nat} (h : c.Chains b) (hm : c.MemWf) (hb : b ≤ b') (hs : s < b') (h16 : s < 65536) :
    (c.insertString s).1.Chains b' := by
  obtain ⟨K, hk⟩ := h
  exact ⟨_, (hk.congr (d := c.updateHash (c.win (s + 2))) rfl).linkString ((quiet_updateHash ..).mem hm) hb hs h16⟩

/-- The slide moves every position down and drops those that slide out (40_matcher.md R160). -/
theorem Chains.slide {c : Cu} {b : Nat} (h : c.Chains b) (hm : c.MemWf) : c.slide.Chains (b - c.wSize) := by
  obtain ⟨K, hk⟩ := h
  have hlive : ∀ v : Word16, Live c.wSize K b v.toNat → Live c.wSize K (b - c.wSize) (slidePos c.wSize v).toNat := by
    intro v hv
    unfold slidePos
    split
    · rename_i hw
      rw [word16Of, BitVec.toNat_ofNat, Nat.mod_eq_of_lt (by have := v.isLt; omega)]
      rcases hv with h0 | ⟨h1, h2⟩
      · exact .inl (by omega)
      · rcases Nat.eq_zero_or_pos (v.toNat - c.wSize) with h0 | h0
        · exact .inl h0
        · exact .inr ⟨by omega, by rwa [← Nat.mod_eq_sub_mod hw]⟩
    · exact .inl rfl
  have hrd : ∀ {n : Nat} {m : Mem Word16} (i : Nat), Mem.wf n m = true →
      Mem.rd n (Mem.mapVals (slidePos c.wSize) m) i = slidePos c.wSize (Mem.rd n m i) := by
    intro n m i hwf
    have h0 : slidePos c.wSize default = default := by
      unfold slidePos
      split
      · exact congrArg word16Of (Nat.zero_sub _)
      · rfl
    unfold Mem.rd
    split
    · exact Mem.get_mapVals h0 (Mem.wf_iff.1 hwf).1 i
    · exact h0.symm
  exact ⟨K, fun i => (congrArg BitVec.toNat (hrd i hm.head)).symm ▸ hlive _ (hk.head i),
    fun k hkk => (congrArg BitVec.toNat (hrd k hm.prev)).symm ▸ hlive _ (hk.prev k hkk)⟩

/-! ## The search (40_matcher.md R162) -/

theorem matchLen_le (c : Cu) : ∀ cap p q, c.matchLen p q cap ≤ cap
  | 0, _, _ => le_refl _
  | cap + 1, p, q => by
    have := matchLen_le c cap (p + 1) (q + 1)
    rw [matchLen]
    split <;> omega

/-- Position `p` lies behind `STRSTART`, no farther than the matcher looks. -/
def Near (c : Cu) (p : Nat) : Prop := p < c.strstart ∧ c.strstart - p ≤ c.maxDist

/-- What a chain walk has found: nothing, and `best` is what it was, or a near position and a length of at most `cap`. -/
structure Walked (c : Cu) (cap best : Nat) (r : Option Nat × Nat) : Prop where
  none : r.1 = none → r.2 = best
  some : ∀ p, r.1 = some p → c.Near p ∧ r.2 ≤ cap

theorem walked_chainWalk {c : Cu} {K : Set Nat} (h : c.Behind K c.strstart) {limit : Nat} (hl : c.strstart - c.maxDist ≤ limit)
    (nice cap best : Nat) : ∀ chain cur start best', Near c cur → cur % c.wSize ∈ K → Walked c cap best (start, best') →
    Walked c cap best (c.chainWalk limit nice cap chain cur start best')
  | 0, cur, start, best', _, _, hw => hw
  | chain + 1, cur, start, best', hn, hk, hw => by
    have hw' : Walked c cap best (if best' < c.matchLen cur c.strstart cap then some cur else start,
        if best' < c.matchLen cur c.strstart cap then c.matchLen cur c.strstart cap else best') := by
      split
      · exact ⟨nofun, fun p hp => Option.some.inj hp ▸ ⟨hn, matchLen_le ..⟩⟩
      · exact hw
    rw [chainWalk]
    dsimp only
    split
    · exact hw'
    · split
      · rename_i hlt
        rcases h _ hk with h0 | ⟨h1, h2⟩
        · omega
        · exact walked_chainWalk h hl nice cap best chain _ _ _ ⟨h1, by omega⟩ h2 hw'
      · exact hw'

/-- `longest_match` finds nothing, and answers `PREV_LENGTH` at most, or a near position and a length of at most 258. -/
theorem longestMatch_cases {c : Cu} {K : Set Nat} (h : c.Behind K c.strstart) {cur : Nat} (hn : c.Near cur) (hk : cur % c.wSize ∈ K) :
    (∃ l, c.longestMatch cur = (c, l) ∧ l ≤ c.prevLength) ∨
      ∃ p l, c.longestMatch cur = ({ c with matchStart := word32Of p }, l) ∧ c.Near p ∧ l ≤ 258 := by
  have hw := walked_chainWalk h (limit := if c.maxDist < c.strstart then c.strstart - c.maxDist else 0) (by split <;> omega)
    (min c.niceMatch c.lookahead) (min Config.maxMatch c.lookahead) c.prevLength
    (max (if c.goodMatch ≤ c.prevLength then c.maxChainLength / 4 else c.maxChainLength) 1) cur none c.prevLength hn hk ⟨fun _ => rfl, nofun⟩
  unfold longestMatch
  dsimp only
  split <;> rename_i he <;> rw [he] at hw
  · rename_i p best
    obtain ⟨hp, hb⟩ := hw.some p rfl
    have hb : best ≤ 258 := hb.trans (Nat.min_le_left ..)
    exact .inr ⟨p, _, rfl, hp, (Nat.min_le_left ..).trans hb⟩
  · exact .inl ⟨_, rfl, (Nat.min_le_left ..).trans (hw.none rfl).le⟩

end Cu
end Sys2Proof.Machine
end

section
/-! PROOF. Filling the window keeps the hash chains, a match held over, and what a stored block still has to take
(40_matcher.md R159, R160). -/

namespace Sys2Proof.Machine

namespace Cu

/-! ## What holds of the matcher between two operations -/

/-- Memories and ranges, the chains up to `STRSTART`, and insertions still to make behind it. -/
structure Hooked (c : Cu) : Prop where
  mem    : c.MemWf
  fits   : c.Fits
  chains : c.Chains c.strstart
  insert : c.insertCount ≤ 2 ∧ c.insertCount ≤ c.strstart

/-- A match held over can be tallied at the next position (41_deflate_engine.md R191). -/
structure Held (c : Cu) : Prop where
  len  : c.matchLength ≤ 258
  dist : 1 ≤ (word32Of (c.strstart - 1) - c.matchStart).toNat ∧ (word32Of (c.strstart - 1) - c.matchStart).toNat ≤ 32768

/-- The data passed and not yet sent are in the window, and less than a full block (41_deflate_engine.md R189). -/
structure Unsent (c : Cu) : Prop where
  start : 0 ≤ c.blockStart
  len   : (c.strstart : Int) - c.blockStart < c.maxBlock

/-- The sizes that follow from the window bits. -/
theorem Fit.sizes {c : Cu} (h : c.Fit) : 512 ≤ c.wSize ∧ c.wSize ≤ 32768 ∧ c.maxDist = c.wSize - 262 ∧ c.strstart ≤ 65536 ∧
    c.strstart + c.lookahead ≤ 2 * c.wSize := by
  obtain ⟨h1, h2⟩ := h.wBits
  have h3 : c.wSize ≤ 2 ^ 15 := Nat.pow_le_pow_right (by decide) h2
  have h4 : 2 ^ 9 ≤ c.wSize := Nat.pow_le_pow_right (by decide) h1
  have h5 : c.strstart + c.lookahead ≤ 2 * c.wSize := h.window
  exact ⟨h4, h3, rfl, by omega, h5⟩

theorem Fit.maxBlock_pos {c : Cu} (h : c.Fit) : 0 < c.maxBlock := by
  obtain ⟨hw, -, hd, -, -⟩ := h.sizes
  have hL := h.litBufsize
  show 0 < min 65535 (min (4 * c.litBufsize - 5) c.maxDist)
  omega

/-- `d` follows `c` by filling the window. -/
structure Refills (c d : Cu) : Prop where
  hooked : d.Hooked
  held   : c.Held → d.Held
  unsent : c.Unsent → d.Unsent

theorem Refills.trans {a b c : Cu} (h : a.Refills b) (k : b.Refills c) : a.Refills c :=
  ⟨k.hooked, k.held ∘ h.held, k.unsent ∘ h.unsent⟩

theorem Hooked.refl {c : Cu} (h : c.Hooked) : c.Refills c := ⟨h, id, id⟩

/-! ## The slide -/

theorem Held.slide {c : Cu} (h : c.Held) (hs : c.wSize < c.strstart) : c.slide.Held := by
  have he : word32Of (c.strstart - c.wSize - 1) - (c.matchStart - word32Of c.wSize) = word32Of (c.strstart - 1) - c.matchStart := by
    have hsum : word32Of (c.strstart - 1) = word32Of (c.strstart - c.wSize - 1) + word32Of c.wSize := by
      rw [← word32Of_add]
      congr 1
      omega
    rw [hsum]
    generalize word32Of (c.strstart - c.wSize - 1) = x
    generalize word32Of c.wSize = y
    bv_omega
  refine ⟨h.len, ?_⟩
  show 1 ≤ (word32Of (c.strstart - c.wSize - 1) - (c.matchStart - word32Of c.wSize)).toNat ∧
    (word32Of (c.strstart - c.wSize - 1) - (c.matchStart - word32Of c.wSize)).toNat ≤ 32768
  rw [he]
  exact h.dist

/-- What is not yet sent lies in the half of the window that is kept. -/
theorem Unsent.slide {c : Cu} (h : c.Unsent) (hs : c.wSize + c.maxDist ≤ c.strstart) : c.slide.Unsent := by
  have hm : c.maxBlock ≤ c.maxDist := (Nat.min_le_right ..).trans (Nat.min_le_right ..)
  have hl := h.len
  have h0 := h.start
  refine ⟨?_, ?_⟩
  · show 0 ≤ c.blockStart - c.wSize
    omega
  · show ((c.strstart - c.wSize : Nat) : Int) - (c.blockStart - c.wSize) < c.maxBlock
    omega

theorem Hooked.slid {c : Cu} (h : c.Hooked) : c.Refills c.slid := by
  obtain ⟨hw, -, hd, -, -⟩ := h.fits.fit.sizes
  unfold Cu.slid
  split
  · rename_i hs
    have hi := h.insert
    refine ⟨⟨(quiet_slide c).mem h.mem, (fills_slide c).fits h.fits, h.chains.slide h.mem, hi.1, ?_⟩,
      fun k => k.slide (by omega), fun k => k.slide hs⟩
    show c.insertCount ≤ c.strstart - c.wSize
    omega
  · exact h.refl

/-! ## The deferred insertions -/

/-- `d` follows `c` by deferred insertions. -/
def Catches (c d : Cu) : Prop := ∃ insH prev head k, d = { c with insH := insH, prev := prev, head := head, insertCount := k }

theorem Catches.trans {a b c : Cu} : a.Catches b → b.Catches c → a.Catches c := by
  rintro ⟨_, _, _, _, rfl⟩ ⟨x, y, z, k, rfl⟩
  exact ⟨x, y, z, k, rfl⟩

theorem catchUpLoop_succ (k s : Nat) (c : Cu) : catchUpLoop (k + 1) s c =
    if c.lookahead + k < Config.minMatch then { (c.insertString s).1 with insertCount := k }
    else catchUpLoop k (s + 1) { (c.insertString s).1 with insertCount := k } := rfl

theorem catches_catchUpLoop : ∀ k s (c : Cu), c.MemWf → c.Chains c.strstart → s + k ≤ c.strstart → c.strstart ≤ 65536 →
    c.insertCount = k → c.Catches (catchUpLoop k s c) ∧ (catchUpLoop k s c).Chains c.strstart ∧ (catchUpLoop k s c).insertCount ≤ k
  | 0, s, c, _, hc, _, _, hk => by
    rw [catchUpLoop]
    exact ⟨⟨c.insH, c.prev, c.head, c.insertCount, rfl⟩, hc, hk.le⟩
  | k + 1, s, c, hm, hc, hs, h16, _ => by
    have hins : (c.insertString s).1.Chains c.strstart := hc.insertString hm (le_refl _) (by omega) (by omega)
    have hmem := (quiet_insertString c s).mem hm
    obtain ⟨x, y, z, he⟩ := links_insertString c s
    rw [catchUpLoop_succ]
    rw [he] at hins hmem ⊢
    have h1 : c.Catches { c with insH := x, prev := y, head := z, insertCount := k } := ⟨_, _, _, _, rfl⟩
    have hc1 : Chains c.strstart { c with insH := x, prev := y, head := z, insertCount := k } := hins.congr rfl
    dsimp only
    split
    · exact ⟨h1, hc1, Nat.le_succ k⟩
    · obtain ⟨h2, h3, h4⟩ := catches_catchUpLoop k (s + 1) { c with insH := x, prev := y, head := z, insertCount := k } { hmem with } hc1
        (by show s + 1 + k ≤ c.strstart; omega) h16 rfl
      exact ⟨h1.trans h2, h3, h4.trans (Nat.le_succ k)⟩

theorem catches_catchUp {c : Cu} (hm : c.MemWf) (hc : c.Chains c.strstart) (hi : c.insertCount ≤ c.strstart) (h16 : c.strstart ≤ 65536) :
    c.Catches c.catchUp ∧ c.catchUp.Chains c.strstart ∧ c.catchUp.insertCount ≤ c.insertCount := by
  unfold catchUp
  split
  · obtain ⟨h1, h2, h3⟩ := catches_catchUpLoop c.insertCount (c.strstart - c.insertCount)
      (updateHash { c with insH := (c.win (c.strstart - c.insertCount)).setWidth 16 } (c.win (c.strstart - c.insertCount + 1)))
      { hm with } (hc.congr rfl) (by show c.strstart - c.insertCount + c.insertCount ≤ c.strstart; omega) h16 rfl
    exact ⟨Catches.trans ⟨_, c.prev, c.head, c.insertCount, rfl⟩ h1, h2, h3⟩
  · exact ⟨⟨c.insH, c.prev, c.head, c.insertCount, rfl⟩, hc, le_refl _⟩

theorem Hooked.readRound {c : Cu} (h : c.Hooked) (src : Source) {more : Nat} (hmore : c.strstart + c.lookahead + more ≤ c.windowSize) :
    c.Refills (c.readRound src more).1 := by
  obtain ⟨-, -, -, h16, -⟩ := h.fits.fit.sizes
  have hfits := (fills_readRound c src more hmore).fits h.fits
  have hmem := (moves_readBuf c src (c.strstart + c.lookahead) more).mem h.mem
  obtain ⟨-, nextIn, window, adler, totalIn, he⟩ := readBuf_frame c src (c.strstart + c.lookahead) more
  unfold Cu.readRound at hfits ⊢
  dsimp only at hfits ⊢
  rw [he] at hmem hfits ⊢
  generalize (c.readBuf src (c.strstart + c.lookahead) more).2.2 = n at hfits ⊢
  have hm : MemWf { c with
      cur := { c.cur with nextIn := nextIn }, window := window, adler := adler, totalIn := totalIn
      lookahead := c.lookahead + n } :=
    { hmem with }
  obtain ⟨h1, h2, h3⟩ := catches_catchUp hm (h.chains.congr rfl) h.insert.2 h16
  have hmem2 := (quiet_catchUp _).mem hm
  obtain ⟨x, y, z, k, hk⟩ := h1
  rw [hk] at hfits h2 h3 hmem2 ⊢
  exact ⟨⟨hmem2, hfits, h2, h3.trans h.insert.1, h3.trans h.insert.2⟩, fun q => ⟨q.len, q.dist⟩, fun q => ⟨q.start, q.len⟩⟩

/-! ## `fill_window` -/

theorem Hooked.fillLoop : ∀ fuel {c : Cu} (_ : c.Hooked) (src : Source), c.Refills (fillLoop fuel c src).1
  | 0, c, h, src => by rw [Cu.fillLoop]; exact h.refl
  | fuel + 1, c, h, src => by
    have h1 := h.slid
    have h2 := h1.trans (h1.hooked.readRound src (space_le h.fits.fit.window))
    rw [fillLoop_succ]
    dsimp only
    generalize c.slid.readRound src c.space = p at h2 ⊢
    split
    · dsimp only
      exact h1
    · split
      · exact h2.trans (h2.hooked.fillLoop fuel p.2)
      · exact h2

theorem Hooked.refill {c : Cu} (h : c.Hooked) (want : Nat) (flush : Int) : c.Refills (c.refill want flush).1 := by
  have hf : c.Refills c.fillWindow := h.fillLoop _ none
  unfold Cu.refill
  generalize c.fillWindow = d at hf ⊢
  dsimp only
  split
  · split
    · exact hf
    · split
      · exact hf
      · exact hf
  · exact h.refl

end Cu
end Sys2Proof.Machine
end

section
/-! PROOF. What emission keeps between two rounds of a strategy loop (41_deflate_engine.md R187): the tally is counted, no bit of
`BI_BUF` stands above `BI_VALID`, and the queue is empty unless the output is full. Closing a block keeps it. -/

namespace Sys2Proof.Machine

namespace Cu

/-! ## The tally and the queue -/

/-- What holds of the tally, the bit buffer and the queue. -/
structure Desk (c : Cu) : Prop where
  counted   : c.Counted
  uncounted : c.Uncounted
  bits      : c.BitsWf
  flow      : c.Flow
  buffer    : c.litBufsize ≤ 32768
  aligned   : c.level = 0 → c.biValid ≤ 7
  stored    : c.level = 0 → c.func = .stored

/-- The registers of the tally, and those that choose how a block is sent. -/
def books (c : Cu) := (c.tallyView, c.dynLtree, c.dynDtree, c.blTree, c.optLen, c.staticLen, c.level, c.func)

/-- The same tally, with another bit buffer and queue. -/
theorem Desk.of_books {c d : Cu} (h : c.Desk) (hv : d.books = c.books) (hb : d.BitsWf) (ha : c.level = 0 → d.biValid ≤ 7) (hf : d.Flow) :
    d.Desk := by
  simp only [books, Prod.mk.injEq] at hv
  obtain ⟨h1, h2, h3, h4, h5, h6, h7, h8⟩ := hv
  have hn : ∀ t x, d.node t x = c.node t x := fun t x => by
    cases t
    · rw [node, h2, node]
    · rw [node, h3, node]
    · rw [node, h4, node]
  have hL : d.litBufsize = c.litBufsize := congrArg Prod.fst h1
  refine ⟨h.counted.congr h1 (fun x _ => by rw [hn]) fun x _ => by rw [hn], ⟨fun x hx => by rw [hn]; exact h.uncounted.bl x hx, ?_, ?_⟩,
    hb, hf, ?_, ?_, ?_⟩
  · rw [h5]; exact h.uncounted.opt
  · rw [h6]; exact h.uncounted.static
  · rw [hL]; exact h.buffer
  · rw [h7]; exact ha
  · rw [h7, h8]; exact h.stored

/-- Every register that the desk speaks of. -/
def desk (c : Cu) := (c.books, c.biBuf, c.biValid, c.pending, c.cur.availOut)

theorem Desk.congr {c d : Cu} (h : c.Desk) (hv : d.desk = c.desk) : d.Desk := by
  simp only [desk, Prod.mk.injEq] at hv
  obtain ⟨h1, h2, h3, h4, h5⟩ := hv
  have hL : d.litBufsize = c.litBufsize := congrArg (fun v => v.1.1) h1
  refine h.of_books h1 ⟨?_, ?_⟩ ?_ ⟨?_, ?_⟩
  · rw [h2, h3]; exact h.bits.bits
  · rw [h3]; exact h.bits.valid
  · rw [h3]; exact h.aligned
  · rw [h4, pendingSize, hL]; exact h.flow.queue
  · rw [h4, h5]; exact h.flow.empty

/-- `d` follows `c` by a tally. -/
def Lays (c d : Cu) : Prop := ∃ lit dBuf lBuf l d' bl mc bf, d = { c with
  lastLit := lit, dBuf := dBuf, lBuf := lBuf, dynLtree := l, dynDtree := d', blTree := bl, matchCount := mc, bflush := bf }

theorem Nodes.lays {c d : Cu} : c.Nodes d → c.Lays d := by
  rintro ⟨_, _, _, rfl⟩
  exact ⟨c.lastLit, c.dBuf, c.lBuf, _, _, _, c.matchCount, c.bflush, rfl⟩

theorem Lays.trans {a b c : Cu} : a.Lays b → b.Lays c → a.Lays c := by
  rintro ⟨_, _, _, _, _, _, _, _, rfl⟩ ⟨x1, x2, x3, x4, x5, x6, x7, x8, rfl⟩
  exact ⟨x1, x2, x3, x4, x5, x6, x7, x8, rfl⟩

theorem Lays.litBufsize {c d : Cu} : c.Lays d → d.litBufsize = c.litBufsize := by
  rintro ⟨_, _, _, _, _, _, _, _, rfl⟩
  rfl

theorem lays_tallyEntry (c : Cu) (d : Nat) (b : Byte) (n : Nat) : c.Lays { c.tallyEntry d b with matchCount := n } :=
  ⟨_, _, _, c.dynLtree, c.dynDtree, c.blTree, _, c.bflush, rfl⟩

theorem lays_incFreq (c : Cu) (t : Tree) (n : Nat) : c.Lays (c.incFreq t n) := (nodes_setNode ..).lays

theorem lays_setBflush (c : Cu) : c.Lays c.setBflush :=
  ⟨c.lastLit, c.dBuf, c.lBuf, c.dynLtree, c.dynDtree, c.blTree, c.matchCount, _, rfl⟩

theorem lays_tallyLit (c : Cu) (b : Byte) : c.Lays (c.tallyLit b) :=
  ((lays_tallyEntry c 0 b c.matchCount).trans (lays_incFreq _ .l b.toNat)).trans (lays_setBflush _)

theorem lays_tallyMatch (c : Cu) (d l : Nat) : c.Lays (c.tallyMatch d l) :=
  (((lays_tallyEntry c d _ _).trans (lays_incFreq _ .l _)).trans (lays_incFreq _ .d _)).trans (lays_setBflush _)

theorem Desk.lays {c d : Cu} (h : c.Desk) (k : c.Lays d) (hc : d.Counted) (hu : d.Uncounted) : d.Desk := by
  obtain ⟨_, _, _, _, _, _, _, _, rfl⟩ := k
  exact ⟨hc, hu, ⟨h.bits.bits, h.bits.valid⟩, ⟨h.flow.queue, h.flow.empty⟩, h.buffer, h.aligned, h.stored⟩

theorem Desk.tallyLit {c : Cu} (h : c.Desk) (hm : c.MemWf) (hr : c.Room) (b : Byte) : (c.tallyLit b).Desk := by
  obtain ⟨hc, hu⟩ := counted_tallyLit hm h.counted h.uncounted ((Nat.lt_succ_self _).trans hr) h.buffer b
  exact h.lays (lays_tallyLit c b) hc hu

theorem Desk.tallyMatch {c : Cu} (h : c.Desk) (hm : c.MemWf) (hr : c.Room) {dist len : Nat} (hd : 1 ≤ dist ∧ dist ≤ 32768)
    (hl : 3 ≤ len ∧ len ≤ 258) : (c.tallyMatch dist len).Desk := by
  obtain ⟨hc, hu⟩ := counted_tallyMatch hm h.counted h.uncounted ((Nat.lt_succ_self _).trans hr) h.buffer hd hl
  exact h.lays (lays_tallyMatch c dist len) hc hu

/-! ## Between two rounds, and before a block is closed -/

/-- What holds where a block may be closed: it is not too long, but for one that is to be stored. -/
structure Poised (c : Cu) : Prop where
  mem    : c.MemWf
  fit    : c.Fit
  found  : c.Found
  chains : c.Chains c.strstart
  insert : c.insertCount ≤ 2 ∧ c.insertCount ≤ c.strstart
  desk   : c.Desk
  fast   : c.func = .fast → c.prevLength ≤ 2
  slow   : c.func = .slow → c.matchLength ≤ 2 ∨ c.Held
  room   : c.lastLit < c.litBufsize

/-- What holds between two rounds of a strategy loop. -/
structure Steady (c : Cu) : Prop where
  hooked : c.Hooked
  desk   : c.Desk
  fast   : c.func = .fast → c.prevLength ≤ 2
  slow   : c.func = .slow → c.matchLength ≤ 2 ∨ c.Held
  unsent : c.level = 0 → c.Unsent

theorem Steady.poised {c : Cu} (h : c.Steady) : c.Poised :=
  ⟨h.hooked.mem, h.hooked.fits.fit, h.hooked.fits.found, h.hooked.chains, h.hooked.insert, h.desk, h.fast, h.slow,
    (Nat.lt_succ_self _).trans h.hooked.fits.room⟩

theorem Poised.steady {c : Cu} (h : c.Poised) (hr : c.Room) (hu : c.level = 0 → c.Unsent) : c.Steady :=
  ⟨⟨h.mem, ⟨h.fit, h.found, hr⟩, h.chains, h.insert⟩, h.desk, h.fast, h.slow, hu⟩

/-- What is not yet sent can be stored. -/
theorem Steady.short {c : Cu} (h : c.Steady) (hl : c.level = 0) : c.Short :=
  ⟨(h.desk.aligned hl).trans (by decide), (h.unsent hl).start, (h.unsent hl).len.le⟩

theorem Poised.block {c : Cu} (h : c.Poised) (ha : c.cur.availOut ≠ 0) : c.Block :=
  ⟨h.mem, h.fit.emit, h.desk.counted, h.desk.uncounted, h.desk.bits, ⟨h.fit.litBufsize, h.desk.buffer⟩, h.room, h.desk.flow.empty ha, ha⟩

/-- The registers of the matcher that closing a block leaves alone. -/
def matcherView (c : Cu) := (c.chainView, c.strstart, c.insertCount, c.func, c.level, c.prevLength, c.matchLength, c.matchStart, c.litBufsize)

/-- Closing a block keeps the desk, and leaves the matcher where it stood. -/
theorem Desk.flushBlockOnly {c : Cu} (h : c.Desk) (hb : c.Block) (hz : c.level = 0 → c.Short) (last : Bool) :
    (c.flushBlockOnly last).Desk ∧ (c.flushBlockOnly last).matcherView = c.matcherView ∧ (c.flushBlockOnly last).blockStart = c.strstart := by
  have hclosed := hb.closed hz last
  have hv := congrArg matcherView hclosed.shut
  generalize c.flushBlockOnly last = d at *
  have hv : d.matcherView = c.matcherView := hv
  have hv' := hv
  simp only [matcherView, Prod.mk.injEq] at hv'
  obtain ⟨-, -, -, h4, h5, -, -, -, h9⟩ := hv'
  refine ⟨⟨hclosed.counted, hclosed.uncounted, hclosed.bits, hclosed.flow, by rw [h9]; exact h.buffer, fun hl => ?_,
    by rw [h4, h5]; exact h.stored⟩, hv, hclosed.start⟩
  rw [hclosed.aligned (h5 ▸ hl)]
  exact Nat.zero_le _

theorem Poised.flushBlockOnly {c : Cu} (h : c.Poised) (ha : c.cur.availOut ≠ 0) (hz : c.level = 0 → c.Short) (last : Bool) :
    (c.flushBlockOnly last).Steady := by
  obtain ⟨hdesk, hv, hstart⟩ := h.desk.flushBlockOnly (h.block ha) hz last
  have hfits : (c.flushBlockOnly last).Fits := .flushBlockOnly h.fit h.found last
  have hmem := (moves_flushBlockOnly last c).mem h.mem
  have hpos := hfits.fit.maxBlock_pos
  generalize c.flushBlockOnly last = d at *
  simp only [matcherView, Prod.mk.injEq] at hv
  obtain ⟨h1, h2, h3, h4, h5, h6, h7, h8, h9⟩ := hv
  refine ⟨⟨hmem, hfits, h2 ▸ h.chains.congr h1, by rw [h2, h3]; exact h.insert⟩, hdesk, by rw [h4, h6]; exact h.fast,
    fun hs => (h.slow (h4 ▸ hs)).imp (fun hm => h7 ▸ hm) fun hm => ⟨h7 ▸ hm.len, by rw [h2, h8]; exact hm.dist⟩, fun _ => ⟨?_, ?_⟩⟩
  · rw [hstart]
    exact Int.natCast_nonneg _
  · rw [hstart, h2, Int.sub_self, ← Int.natCast_zero, Int.ofNat_lt]
    exact hpos

/-- Emission that begins no block keeps what holds between two rounds. -/
theorem Steady.emits {c d : Cu} (h : c.Steady) (hm : d.MemWf) (he : c.Emits d) (hv : d.matcherView = c.matcherView)
    (hb : d.blockStart = c.blockStart) (hd : d.Desk) : d.Steady := by
  simp only [matcherView, Prod.mk.injEq] at hv
  obtain ⟨h1, h2, h3, h4, h5, h6, h7, h8, h9⟩ := hv
  have hw : d.maxBlock = c.maxBlock := by
    rw [maxBlock, pendingSize, h9, (chainView_eq h1).2.2, maxBlock, pendingSize]
  refine ⟨⟨hm, h.hooked.fits.emits he, h2 ▸ h.hooked.chains.congr h1, by rw [h2, h3]; exact h.hooked.insert⟩, hd, by rw [h4, h6]; exact h.fast,
    fun hs => (h.slow (h4 ▸ hs)).imp (fun hm => h7 ▸ hm) fun hm => ⟨h7 ▸ hm.len, by rw [h2, h8]; exact hm.dist⟩, fun h0 => ⟨?_, ?_⟩⟩
  · rw [hb]; exact (h.unsent (h5 ▸ h0)).start
  · rw [h2, hb, hw]; exact (h.unsent (h5 ▸ h0)).len

/-- What a round leaves: where the function does not return `NEED_MORE`, the output has space. -/
structure Rounded (p : Cu × Round) : Prop where
  steady : p.1.Steady
  space  : p.2 ≠ .ret .needMore → p.1.cur.availOut ≠ 0

theorem closeRound_full {c : Cu} (h : c.bflush = true) : closeRound c =
    (c.flushBlockOnly false, if (c.flushBlockOnly false).cur.availOut = 0 then .ret .needMore else .again) := by
  unfold closeRound closeIfFull
  rw [if_pos h]
  generalize c.flushBlockOnly false = d
  simp only [decide_eq_true_eq]

theorem closeRound_open {c : Cu} (h : c.bflush = false) : closeRound c = (c, .again) := by
  unfold closeRound closeIfFull
  rw [if_neg (by simp [h])]
  rfl

/-- The block closed where the tally has filled it. -/
theorem Poised.closeRound {c : Cu} (h : c.Poised) (ha : c.cur.availOut ≠ 0) (hl : c.level ≠ 0) (hfull : c.bflush = false → c.Room) :
    Rounded (closeRound c) := by
  have hz : c.level = 0 → c.Short := fun h0 => absurd h0 hl
  have hk := h.flushBlockOnly ha hz false
  cases hb : c.bflush with
  | true =>
    rw [closeRound_full hb]
    generalize c.flushBlockOnly false = d at hk ⊢
    refine ⟨hk, fun hr h0 => ?_⟩
    dsimp only at hr h0
    rw [if_pos h0] at hr
    exact hr rfl
  | false =>
    rw [closeRound_open hb]
    exact ⟨h.steady (hfull hb) fun h0 => absurd h0 hl, fun _ => ha⟩

/-! ## What follows a loop -/

/-- What follows a loop leaves: the function has done its blocks only where the output has space. -/
structure Ended (p : Cu × BState) : Prop where
  steady : p.1.Steady
  space  : p.2 = .blockDone ∨ p.2 = .finishDone → p.1.cur.availOut ≠ 0

theorem Poised.finishBlocks {c : Cu} (h : c.Poised) (ha : c.cur.availOut ≠ 0) (hz : c.level = 0 → c.Short) : Ended c.finishBlocks := by
  have hk := h.flushBlockOnly ha hz true
  unfold Cu.finishBlocks
  generalize c.flushBlockOnly true = d at hk ⊢
  refine ⟨hk, fun hr h0 => ?_⟩
  dsimp only at hr h0
  rw [if_pos h0] at hr
  rcases hr with hr | hr <;> cases hr

theorem Poised.blockBlocks {c : Cu} (h : c.Poised) (ha : c.cur.availOut ≠ 0) (hz : c.level = 0 → c.Short) {rest : Bool}
    (hr : rest = false → c.Steady) : Ended (c.blockBlocks rest) := by
  have hk := h.flushBlockOnly ha hz false
  unfold Cu.blockBlocks
  split
  · generalize c.flushBlockOnly false = d at hk ⊢
    refine ⟨hk, fun hr h0 => ?_⟩
    dsimp only at hr h0
    rw [if_pos h0] at hr
    rcases hr with hr | hr <;> cases hr
  · rename_i hb
    exact ⟨hr (by simpa using hb), fun _ => ha⟩

theorem Poised.finishTail {c : Cu} (h : c.Poised) (ha : c.cur.availOut ≠ 0) (hz : c.level = 0 → c.Short) (hu : c.level = 0 → c.Unsent)
    (flush : Int) : Ended (c.finishTail flush) := by
  unfold Cu.finishTail
  split
  · exact h.finishBlocks ha hz
  · refine h.blockBlocks ha hz fun h0 => h.steady ?_ hu
    have h0 : c.lastLit = 0 := by simpa using h0
    have := h.fit.litBufsize
    unfold Room
    omega

end Cu
end Sys2Proof.Machine
end

section
/-! PROOF. Each round of a strategy loop keeps what holds between two rounds (41_deflate_engine.md R189 to R193): a match tallied lies
at most `MAX_DIST` back and is at most 258 long. -/

namespace Sys2Proof.Machine

namespace Cu

/-! ## The look-ahead test -/

theorem slides_refill (want : Nat) (flush : Int) (c : Cu) : c.Slides (c.refill want flush).1 := by
  have hf : c.Slides c.fillWindow := slides_fillLoop ..
  unfold refill
  generalize c.fillWindow = d at hf ⊢
  dsimp only
  split
  · split
    · exact hf
    · split
      · exact hf
      · exact hf
  · exact .refl c

theorem Steady.refill {c : Cu} (h : c.Steady) (want : Nat) (flush : Int) :
    (c.refill want flush).1.Steady ∧ (c.refill want flush).1.cur.availOut = c.cur.availOut := by
  have hr := h.hooked.refill want flush
  have hs := slides_refill want flush c
  generalize (c.refill want flush).1 = d at hr hs ⊢
  obtain ⟨_, _, _, _, _, _, _, _, _, _, _, _, rfl⟩ := hs
  exact ⟨⟨hr.hooked, h.desk.congr rfl, h.fast, fun k => (h.slow k).imp_right hr.held, fun k => hr.unsent (h.unsent k)⟩, rfl⟩

/-- A round whose part behind the look-ahead test keeps what holds between rounds. -/
theorem rounded_afterRefill {f : Func} {want : Nat} (flush : Int) {body : Cu → Cu × Round} (hp : 0 < want)
    (hb : ∀ c : Cu, c.Steady → c.func = f → c.cur.availOut ≠ 0 → 0 < c.lookahead → Rounded (body c)) {c : Cu} (h : c.Steady)
    (hf : c.func = f) (ha : c.cur.availOut ≠ 0) : Rounded (afterRefill want flush body c) := by
  obtain ⟨h1, h2⟩ := h.refill want flush
  obtain ⟨h3, hl⟩ := fills_refill want flush h.hooked.fits.fit.window hp
  unfold afterRefill
  generalize c.refill want flush = p at h1 h2 h3 hl ⊢
  obtain ⟨c1, r⟩ := p
  have ha1 : c1.cur.availOut ≠ 0 := fun h0 => ha (h2.symm.trans h0)
  cases r with
  | again => exact hb c1 h1 (h3.same.2.trans hf) ha1 (hl rfl)
  | exitLoop => exact ⟨h1, fun _ => ha1⟩
  | ret b => exact ⟨h1, fun _ => ha1⟩

/-! ## `deflate_stored` -/

/-- A byte passed where no match is held over. -/
theorem Poised.pass {c : Cu} (h : c.Poised) (hm : c.matchLength ≤ 2 ∨ c.func ≠ .fast ∧ c.func ≠ .slow) {n : Nat} (hn : n ≤ c.lookahead) :
    (c.pass n).Poised := by
  refine ⟨{ h.mem with }, h.fit.move rfl (InWindow.pass h.fit.window hn), ?_, (h.chains.mono (Nat.le_add_right _ n)).congr rfl,
    ⟨h.insert.1, h.insert.2.trans (Nat.le_add_right _ n)⟩, h.desk.congr rfl, h.fast, fun hs => ?_, h.room⟩
  · rcases hm with hm | ⟨h1, h2⟩
    · exact found_of_le hm
    · exact found_of_func h1 h2
  · rcases hm with hm | ⟨-, h2⟩
    · exact .inl hm
    · exact absurd hs h2

theorem Steady.storedBody {c : Cu} (h : c.Steady) (hf : c.func = .stored) (ha : c.cur.availOut ≠ 0) (hl : 0 < c.lookahead) :
    Rounded c.storedBody := by
  have hp : (c.pass 1).Poised := h.poised.pass (.inr (by rw [hf]; decide)) hl
  have hlen : c.level = 0 → ((c.pass 1).strstart : Int) - (c.pass 1).blockStart ≤ (c.pass 1).maxBlock := fun h0 => by
    have : (c.strstart : Int) - c.blockStart < c.maxBlock := (h.unsent h0).len
    show ((c.strstart + 1 : Nat) : Int) - c.blockStart ≤ c.maxBlock
    omega
  unfold Cu.storedBody
  dsimp only
  split
  · have hk := hp.flushBlockOnly ha (fun h0 => ⟨(h.desk.aligned h0).trans (by decide), (h.unsent h0).start, hlen h0⟩) false
    generalize (c.pass 1).flushBlockOnly false = d at hk ⊢
    refine ⟨hk, fun hr h0 => ?_⟩
    dsimp only at hr h0
    rw [if_pos h0] at hr
    exact hr rfl
  · rename_i hne
    exact ⟨hp.steady h.hooked.fits.room fun h0 => ⟨(h.unsent h0).start, lt_of_le_of_ne (hlen h0) hne⟩, fun _ => ha⟩

/-! ## Insertions -/

/-- `d` is `c` with the string at `STRSTART` inserted, and `head` the head it found. -/
structure Inserted (c d : Cu) (head : Nat) : Prop where
  links : c.Links d
  mem   : d.MemWf
  found : ∃ K, d.Chained K (c.strstart + 1) ∧ d.Behind K c.strstart ∧ Live c.wSize K c.strstart head

theorem Hooked.insertHere {c : Cu} (h : c.Hooked) : Inserted c c.insertHere.1 c.insertHere.2 := by
  refine ⟨links_insertHere c, (quiet_insertHere c).mem h.mem, ?_⟩
  obtain ⟨K, hk⟩ := h.chains
  unfold Cu.insertHere
  split
  · rename_i hl
    simp only [Config.minMatch] at hl
    obtain ⟨-, hw, -, -, hwin⟩ := h.fits.fit.sizes
    have hk1 : (c.updateHash (c.win (c.strstart + 2))).Chained K c.strstart := hk.congr rfl
    have hm1 := (quiet_updateHash c (c.win (c.strstart + 2))).mem h.mem
    exact ⟨_, hk1.linkString hm1 (Nat.le_succ _) (Nat.lt_succ_self _) (by omega), hk1.behind_linkString hm1 _,
      (hk1.head _).mono (Set.subset_insert ..) (le_refl _)⟩
  · exact ⟨K, hk.mono (Nat.le_succ _), hk.prev, .inl rfl⟩

/-- Insertions in a counted loop. -/
theorem chains_forRange {lo n b : Nat} {f : Nat → Cu → Cu} {c : Cu} (hm : c.MemWf) (hc : c.Chains b)
    (hf : ∀ i < n, ∀ d : Cu, d.MemWf → d.Chains b → (f (lo + i) d).MemWf ∧ (f (lo + i) d).Chains b) : (forRange lo n f c).Chains b :=
  (forRange_range_from (P := fun _ (d : Cu) => d.MemWf ∧ d.Chains b) (fun i hi d ⟨h1, h2⟩ => hf i hi d h1 h2) ⟨hm, hc⟩).2

/-! ## `deflate_fast` -/

/-- The search of `deflate_fast` finds no match, or one that can be tallied. -/
theorem fastSearch_cases {c : Cu} {K : Set Nat} {head : Nat} (h : c.Behind K c.strstart) (hl : Live c.wSize K c.strstart head)
    (hm : c.matchLength ≤ 2) (hp : c.prevLength ≤ 2) :
    (∃ l, c.fastSearch head = { c with matchLength := l } ∧ l ≤ 2) ∨
      ∃ q l, c.fastSearch head = { c with matchStart := word32Of q, matchLength := l } ∧ c.Near q ∧ l ≤ 258 ∧ l ≤ c.lookahead := by
  unfold fastSearch
  split
  · rename_i hc
    have hn := hl.resolve_left hc.1
    have hla := (longestMatch_frame c head).2
    rcases longestMatch_cases h ⟨hn.1, hc.2⟩ hn.2 with ⟨l, he, hle⟩ | ⟨q, l, he, hq, hle⟩ <;> rw [he] at hla ⊢
    · exact .inl ⟨l, rfl, hle.trans hp⟩
    · exact .inr ⟨q, l, rfl, hq, hle, hla⟩
  · exact .inl ⟨c.matchLength, rfl, hm⟩

/-- The insertions inside a match of `deflate_fast`. -/
theorem chains_fastSymbol {c : Cu} (hm : c.MemWf) (hc : c.Chains (c.strstart + 1)) (h3 : 3 ≤ c.matchLength)
    (hw : c.strstart + c.matchLength ≤ 65536) : c.fastSymbol.Chains (c.strstart + c.matchLength) := by
  have hk := lays_tallyMatch c (c.strstart - c.matchStart.toNat) c.matchLength
  have hmd := (quiet_tallyMatch c (c.strstart - c.matchStart.toNat) c.matchLength).mem hm
  have hc := hc.mono (b' := c.strstart + c.matchLength) (by omega)
  unfold fastSymbol
  dsimp only
  rw [if_pos h3]
  generalize c.tallyMatch (c.strstart - c.matchStart.toNat) c.matchLength = d at hk hmd ⊢
  obtain ⟨_, _, _, _, _, _, _, _, rfl⟩ := hk
  have key : ∀ e : Cu, e.MemWf → e.Chains (c.strstart + c.matchLength) →
      (forRange (c.strstart + 1) (c.matchLength - 1) (fun s c => (c.insertString s).1) e).Chains (c.strstart + c.matchLength) :=
    fun e h1 h2 => chains_forRange h1 h2 fun i hi x hx hcx =>
      ⟨(quiet_insertString ..).mem hx, hcx.insertString hx (le_refl _) (by omega) (by omega)⟩
  split
  · refine Chains.congr (key _ ?_ ?_) rfl
    · exact { hmd with }
    · exact hc.congr rfl
  · exact hc.congr rfl

/-- `deflate_fast` tallies its symbol, passes it, and may then close the block. -/
theorem poised_fastSymbol {c : Cu} (hm : c.MemWf) (hfit : c.Fit) (hr : c.Room) (hc : c.Chains (c.strstart + 1))
    (hi : c.insertCount ≤ 2 ∧ c.insertCount ≤ c.strstart) (hd : c.Desk) (hp : c.prevLength ≤ 2) (hl : 0 < c.lookahead)
    (hlen : c.matchLength ≤ 2 ∨ c.Near c.matchStart.toNat ∧ c.matchLength ≤ 258 ∧ c.matchLength ≤ c.lookahead) :
    c.fastSymbol.Poised ∧ c.fastSymbol.cur = c.cur ∧ c.fastSymbol.level = c.level ∧ (c.fastSymbol.bflush = false → c.fastSymbol.Room) := by
  obtain ⟨-, hw, hmax, -, hwin⟩ := hfit.sizes
  obtain ⟨ht, hm2⟩ := tallied_fastSymbol hfit hr hl (hlen.imp_right fun k => k.2.2)
  have hmem := (quiet_fastSymbol c).mem hm
  have hlit := hr
  unfold Room at hlit
  by_cases h3 : Config.minMatch ≤ c.matchLength
  · have h3' : 3 ≤ c.matchLength := h3
    obtain ⟨⟨hq1, hq2⟩, h258, hla⟩ := hlen.resolve_left (by omega)
    have hch := chains_fastSymbol hm hc h3' (by omega)
    have hdesk := hd.tallyMatch hm hr (dist := c.strstart - c.matchStart.toNat) (by omega) ⟨h3', h258⟩
    have k := tallies_tallyMatch c (c.strstart - c.matchStart.toNat) c.matchLength
    have hfr := lays_tallyMatch c (c.strstart - c.matchStart.toNat) c.matchLength
    obtain ⟨x, y, z, he⟩ := fastSymbol_match h3
    rw [he] at ht hmem hch hm2 ⊢
    have hroom : (c.tallyMatch (c.strstart - c.matchStart.toNat) c.matchLength).lastLit <
        (c.tallyMatch (c.strstart - c.matchStart.toNat) c.matchLength).litBufsize := by
      rw [k.lit, hfr.litBufsize]
      exact hlit
    generalize c.tallyMatch (c.strstart - c.matchStart.toNat) c.matchLength = d at *
    obtain ⟨_, _, _, _, _, _, _, _, rfl⟩ := hfr
    refine ⟨⟨hmem, ht.fit, found_of_le hm2, hch, ⟨hi.1, ?_⟩, hdesk.congr rfl, fun _ => hp, fun _ => .inl hm2, hroom⟩,
      rfl, rfl, ht.full⟩
    show c.insertCount ≤ c.strstart + c.matchLength
    omega
  · have hdesk := hd.tallyLit hm hr (c.win c.strstart)
    have k := tallies_tallyLit c (c.win c.strstart)
    have hfr := lays_tallyLit c (c.win c.strstart)
    rw [fastSymbol_literal h3] at ht hmem hm2 ⊢
    have hroom : (c.tallyLit (c.win c.strstart)).lastLit < (c.tallyLit (c.win c.strstart)).litBufsize := by
      rw [k.lit, hfr.litBufsize]
      exact hlit
    generalize c.tallyLit (c.win c.strstart) = d at *
    obtain ⟨_, _, _, _, _, _, _, _, rfl⟩ := hfr
    refine ⟨⟨hmem, ht.fit, found_of_le hm2, hc.congr rfl, ⟨hi.1, ?_⟩, hdesk.congr rfl, fun _ => hp, fun _ => .inl hm2, hroom⟩,
      rfl, rfl, ht.full⟩
    show c.insertCount ≤ c.strstart + 1
    omega

theorem Steady.fastBody {c : Cu} (h : c.Steady) (hf : c.func = .fast) (ha : c.cur.availOut ≠ 0) (hl : 0 < c.lookahead) :
    Rounded c.fastBody := by
  have hins := h.hooked.insertHere
  have hlev : c.level ≠ 0 := fun h0 => absurd ((h.desk.stored h0).symm.trans hf) (by decide)
  unfold Cu.fastBody
  dsimp only
  generalize c.insertHere.1 = d at hins ⊢
  generalize c.insertHere.2 = head at hins ⊢
  obtain ⟨⟨x, y, z, rfl⟩, hm, K, hk, hb, hlive⟩ := hins
  have hpr := h.fast hf
  have hml := h.hooked.fits.found.fast hf
  have hfit := h.hooked.fits.fit
  obtain ⟨-, hw, hmax, -, hwin⟩ := hfit.sizes
  have finish : ∀ (p : Word32) (l : Nat), (l ≤ 2 ∨ c.Near p.toNat ∧ l ≤ 258 ∧ l ≤ c.lookahead) →
      Rounded (Cu.closeRound (fastSymbol { c with insH := x, prev := y, head := z, matchStart := p, matchLength := l })) := by
    intro p l hpl
    obtain ⟨h1, h2, h3, h4⟩ := poised_fastSymbol
      (c := { c with insH := x, prev := y, head := z, matchStart := p, matchLength := l }) { hm with } (hfit.move rfl hfit.window)
      h.hooked.fits.room ⟨K, hk.congr rfl⟩ h.hooked.insert (h.desk.congr rfl) hpr hl hpl
    exact h1.closeRound (by rw [h2]; exact ha) (by rw [h3]; exact hlev) h4
  rcases fastSearch_cases (c := { c with insH := x, prev := y, head := z }) hb hlive hml hpr with ⟨l, he, hle⟩ | ⟨q, l, he, hq, h258, hla⟩
  · rw [he]
    exact finish c.matchStart l (.inl hle)
  · rw [he]
    refine finish (word32Of q) l (.inr ⟨?_, h258, hla⟩)
    have hq1 : q < c.strstart := hq.1
    rw [word32Of, BitVec.toNat_ofNat, Nat.mod_eq_of_lt (by omega)]
    exact hq

end Cu
end Sys2Proof.Machine
end

section
/-! PROOF. The rounds of `deflate_slow`, `deflate_rle` and `deflate_huff`, and what follows the loops (41_deflate_engine.md R188, R191 to
R193). -/

namespace Sys2Proof.Machine

namespace Cu

/-! ## `deflate_slow` -/

/-- A near position is a distance that can be tallied. -/
theorem Near.dist {c : Cu} {q : Nat} (h : c.Near q) (hfit : c.Fit) : 1 ≤ (word32Of c.strstart - word32Of q).toNat ∧
    (word32Of c.strstart - word32Of q).toNat ≤ 32768 := by
  obtain ⟨-, hw, hmax, h16, -⟩ := hfit.sizes
  obtain ⟨h1, h2⟩ := h
  have he : (word32Of c.strstart - word32Of q).toNat = c.strstart - q := by
    rw [word32Of, word32Of, BitVec.toNat_sub, BitVec.toNat_ofNat, BitVec.toNat_ofNat]
    omega
  omega

/-- The search of `deflate_slow` finds no match, or leaves the one before as it is, or finds one that can be tallied. -/
theorem slowSearch_cases {c : Cu} {K : Set Nat} {head : Nat} (h : c.Behind K c.strstart) (hl : Live c.wSize K c.strstart head) :
    (∃ l, c.slowSearch head = { c with prevLength := c.matchLength, prevMatch := c.matchStart, matchLength := l } ∧
      (l ≤ 2 ∨ l ≤ c.matchLength)) ∨
    ∃ q l, c.slowSearch head = { c with
      prevLength := c.matchLength, prevMatch := c.matchStart, matchStart := word32Of q, matchLength := l } ∧
      (l ≤ 2 ∨ c.Near q ∧ l ≤ 258) := by
  unfold slowSearch
  dsimp only
  split
  · rename_i hc
    have hn := hl.resolve_left hc.1
    rcases longestMatch_cases (c := { c with
        prevLength := c.matchLength, prevMatch := c.matchStart, matchLength := Config.minMatch - 1 }) (h.congr rfl)
        ⟨hn.1, hc.2.2⟩ hn.2 with ⟨l, he, hle⟩ | ⟨q, l, he, hq, hle⟩ <;> rw [he]
    · refine .inl ⟨_, rfl, ?_⟩
      split
      · exact .inl (le_refl _)
      · exact .inr hle
    · refine .inr ⟨q, _, rfl, ?_⟩
      split
      · exact .inl (le_refl _)
      · exact .inr ⟨hq, hle⟩
  · exact .inl ⟨_, rfl, .inl (le_refl _)⟩

/-- The insertions inside a match of `deflate_slow`. -/
theorem chains_slowEmitMatch {c : Cu} (hm : c.MemWf) (hc : c.Chains (c.strstart + 1)) (h3 : 3 ≤ c.prevLength)
    (hw : c.strstart + (c.prevLength - 1) ≤ 65536) : c.slowEmitMatch.Chains (c.strstart + (c.prevLength - 1)) := by
  have hk := lays_tallyMatch c c.prevDist c.prevLength
  have hmd := (quiet_tallyMatch c c.prevDist c.prevLength).mem hm
  have hc := hc.mono (b' := c.strstart + (c.prevLength - 1)) (by omega)
  unfold slowEmitMatch
  dsimp only
  generalize c.tallyMatch c.prevDist c.prevLength = d at hk hmd ⊢
  obtain ⟨_, _, _, _, _, _, _, _, rfl⟩ := hk
  refine Chains.congr (chains_forRange (lo := c.strstart + 1) (n := c.prevLength - 2)
    (f := fun s e => if s ≤ c.strstart + c.lookahead - Config.minMatch then (e.insertString s).1 else e) ?_ ?_ fun i hi x hx hcx => ?_) rfl
  · exact { hmd with }
  · exact hc.congr rfl
  · split
    · exact ⟨(quiet_insertString ..).mem hx, hcx.insertString hx (le_refl _) (by omega) (by omega)⟩
    · exact ⟨hx, hcx⟩

/-- `deflate_slow` before it passes: the string at `STRSTART` is inserted, and the search made. -/
structure Searched (c : Cu) : Prop where
  mem    : c.MemWf
  fit    : c.Fit
  room   : c.Room
  chains : c.Chains (c.strstart + 1)
  insert : c.insertCount ≤ 2 ∧ c.insertCount ≤ c.strstart
  desk   : c.Desk
  func   : c.func = .slow
  level  : c.level ≠ 0
  space  : c.cur.availOut ≠ 0
  data   : 0 < c.lookahead
  inside : c.matchLength ≤ 2 ∨ c.matchLength ≤ c.lookahead
  before : c.prevLength ≤ 2 ∨ c.prevLength ≤ c.lookahead + 1 ∧ c.prevLength ≤ 258 ∧ 1 ≤ c.prevDist ∧ c.prevDist ≤ 32768
  here   : c.matchLength ≤ 2 ∨ 3 ≤ c.prevLength ∧ c.matchLength ≤ c.prevLength ∨
    c.matchLength ≤ 258 ∧ 1 ≤ (word32Of c.strstart - c.matchStart).toNat ∧ (word32Of c.strstart - c.matchStart).toNat ≤ 32768

/-- The match of the position before, emitted. -/
theorem Searched.emitMatch {c : Cu} (h : c.Searched) (h3 : Config.minMatch ≤ c.prevLength) : Rounded (Cu.closeRound c.slowEmitMatch) := by
  have h3' : 3 ≤ c.prevLength := h3
  obtain ⟨hla, h258, hd1, hd2⟩ := h.before.resolve_left (by omega)
  obtain ⟨-, hw, -, -, hwin⟩ := h.fit.sizes
  have hch := chains_slowEmitMatch h.mem h.chains h3' (by omega)
  have hmem := (quiet_slowEmitMatch c).mem h.mem
  have hdesk := h.desk.tallyMatch h.mem h.room ⟨hd1, hd2⟩ ⟨h3', h258⟩
  have k := tallies_tallyMatch c c.prevDist c.prevLength
  have ht := Fits.tallies_pass h.fit h.room k (n := c.prevLength - 1) (by omega)
  have hfr := lays_tallyMatch c c.prevDist c.prevLength
  obtain ⟨x, y, z, he⟩ := slowEmitMatch_eq h3
  rw [he] at hch hmem ⊢
  have hroom : (c.tallyMatch c.prevDist c.prevLength).lastLit < (c.tallyMatch c.prevDist c.prevLength).litBufsize := by
    rw [k.lit, hfr.litBufsize]
    exact h.room
  have hlev := h.level
  have hi := h.insert
  have hsp := h.space
  generalize c.tallyMatch c.prevDist c.prevLength = d at *
  obtain ⟨_, _, _, _, _, _, _, _, rfl⟩ := hfr
  refine Poised.closeRound ⟨hmem, ht.fit.move rfl ht.fit.window, found_of_le (le_refl _), hch, ⟨hi.1, ?_⟩, hdesk.congr rfl,
    fun _ => Nat.zero_le _, fun _ => .inl (le_refl _), hroom⟩ hsp hlev ht.full
  show c.insertCount ≤ c.strstart + (c.prevLength - 1)
  omega

/-- The match found here can be tallied at the next position. -/
theorem Searched.held {c : Cu} (h : c.Searched) (hn : ¬(Config.minMatch ≤ c.prevLength ∧ c.matchLength ≤ c.prevLength)) :
    c.matchLength ≤ 2 ∨ c.matchLength ≤ 258 ∧ 1 ≤ (word32Of c.strstart - c.matchStart).toNat ∧
      (word32Of c.strstart - c.matchStart).toNat ≤ 32768 := by
  rcases h.here with k | k | k
  · exact .inl k
  · exact absurd k hn
  · exact .inr k

/-- The literal of the position before, tallied, and its block closed where that fills it. -/
theorem Searched.literal {c : Cu} (h : c.Searched) (hn : ¬(Config.minMatch ≤ c.prevLength ∧ c.matchLength ≤ c.prevLength)) :
    Rounded c.slowLiteral := by
  have hheld := h.held hn
  have hfits := fits_slowLiteral h.fit h.room h.func h.data h.inside
  have hdesk := h.desk.tallyLit h.mem h.room (c.win (c.strstart - 1))
  have hmem := (quiet_tallyLit c (c.win (c.strstart - 1))).mem h.mem
  have k := tallies_tallyLit c (c.win (c.strstart - 1))
  have ht := h.fit.tallies h.room k
  have hfr := lays_tallyLit c (c.win (c.strstart - 1))
  have hlit : c.lastLit + 1 < c.litBufsize := h.room
  have hlev := h.level
  have hi := h.insert
  have hsp := h.space
  have hfun := h.func
  have hch := h.chains
  unfold slowLiteral at hfits ⊢
  dsimp only at hfits ⊢
  generalize c.tallyLit (c.win (c.strstart - 1)) = d at *
  have hroom : d.lastLit < d.litBufsize := by
    rw [k.lit, hfr.litBufsize]
    exact hlit
  have hd : ∃ e, (if d.bflush then d.flushBlockOnly false else d) = e ∧ e.MemWf ∧ e.Desk ∧
      e.matcherView = c.matcherView := by
    refine ⟨_, rfl, ?_⟩
    obtain ⟨_, _, _, _, _, _, _, _, rfl⟩ := hfr
    split
    · have hblock : Cu.Block _ := ⟨hmem, ht.fit.emit, hdesk.counted, hdesk.uncounted, hdesk.bits, ⟨ht.fit.litBufsize, hdesk.buffer⟩, hroom,
        hdesk.flow.empty hsp, hsp⟩
      obtain ⟨h1, h2, -⟩ := hdesk.flushBlockOnly hblock (fun h0 => absurd h0 hlev) false
      exact ⟨(moves_flushBlockOnly false _).mem hmem, h1, h2⟩
    · exact ⟨hmem, hdesk, rfl⟩
  obtain ⟨e, he, hme, hde, hv⟩ := hd
  rw [he] at hfits ⊢
  simp only [matcherView, Prod.mk.injEq] at hv
  obtain ⟨h1, h2, h3, h4, h5, h6, h7, h8, h9⟩ := hv
  refine ⟨⟨⟨{ hme with }, hfits, ?_, ?_⟩, hde.congr rfl, fun hf => ?_, fun _ => ?_,
    fun h0 => absurd (h5.symm.trans h0) hlev⟩, fun hr h0 => ?_⟩
  · show Chains (e.strstart + 1) (e.pass 1)
    rw [h2]
    exact hch.congr h1
  · show e.insertCount ≤ 2 ∧ e.insertCount ≤ e.strstart + 1
    omega
  · exact absurd (hf.symm.trans (h4.trans hfun)) (by decide)
  · refine hheld.imp (fun hm => (show e.matchLength ≤ 2 from h7.trans_le hm)) fun ⟨hm, hdist⟩ => ⟨h7.trans_le hm, ?_⟩
    show 1 ≤ (word32Of (e.strstart + 1 - 1) - e.matchStart).toNat ∧ (word32Of (e.strstart + 1 - 1) - e.matchStart).toNat ≤ 32768
    rw [h2, h8]
    exact hdist
  · dsimp only at hr h0
    rw [if_pos h0] at hr
    exact hr rfl

/-- Nothing tallied: a match or a literal is held over. -/
theorem Searched.hold {c : Cu} (h : c.Searched) (hn : ¬(Config.minMatch ≤ c.prevLength ∧ c.matchLength ≤ c.prevLength)) :
    Rounded (Cu.pass 1 { c with matchAvailable := true }, .again) := by
  have hheld := h.held hn
  have hi := h.insert
  refine ⟨⟨⟨{ h.mem with }, ⟨h.fit.move rfl (InWindow.pass (c := { c with matchAvailable := true }) h.fit.window h.data),
    ⟨fun hf => ?_, fun _ => ?_⟩, h.room⟩,
    h.chains.congr rfl, hi.1, ?_⟩, h.desk.congr rfl, fun hf => ?_, fun _ => ?_, fun h0 => absurd h0 h.level⟩, fun _ => h.space⟩
  · exact absurd (hf.symm.trans h.func) (by decide)
  · have := h.inside
    show c.matchLength ≤ 2 ∨ c.matchLength ≤ c.lookahead - 1 + 1
    omega
  · show c.insertCount ≤ c.strstart + 1
    omega
  · exact absurd (hf.symm.trans h.func) (by decide)
  · exact hheld.imp id fun ⟨hm, hdist⟩ => ⟨hm, hdist⟩

theorem Steady.slowBody {c : Cu} (h : c.Steady) (hf : c.func = .slow) (ha : c.cur.availOut ≠ 0) (hl : 0 < c.lookahead) :
    Rounded c.slowBody := by
  have hins := h.hooked.insertHere
  have hlev : c.level ≠ 0 := fun h0 => absurd ((h.desk.stored h0).symm.trans hf) (by decide)
  unfold Cu.slowBody
  dsimp only
  generalize c.insertHere.1 = d at hins ⊢
  generalize c.insertHere.2 = head at hins ⊢
  obtain ⟨⟨x, y, z, rfl⟩, hm, K, hk, hb, hlive⟩ := hins
  have hfit := h.hooked.fits.fit
  have hfound := h.hooked.fits.found.slow hf
  have hslow := h.slow hf
  have finish : ∀ (p : Word32) (l : Nat), (l ≤ 2 ∨ l ≤ c.lookahead) → (l ≤ 2 ∨ 3 ≤ c.matchLength ∧ l ≤ c.matchLength ∨
      l ≤ 258 ∧ 1 ≤ (word32Of c.strstart - p).toNat ∧ (word32Of c.strstart - p).toNat ≤ 32768) →
      Searched { c with
        insH := x, prev := y, head := z, prevLength := c.matchLength, prevMatch := c.matchStart, matchStart := p, matchLength := l } :=
    fun p l hin hpl => {
      mem := { hm with }, fit := hfit.move rfl hfit.window, room := h.hooked.fits.room, chains := ⟨K, hk.congr rfl⟩, insert := h.hooked.insert
      desk := h.desk.congr rfl, func := hf, level := hlev, space := ha, data := hl, inside := hin
      before := by
        rcases hslow with h2 | hheld
        · exact .inl h2
        · exact hfound.imp id fun hla => ⟨hla, hheld.len, hheld.dist⟩
      here := hpl }
  have hs : (slowSearch head { c with insH := x, prev := y, head := z }).Searched := by
    obtain ⟨p, l, he, hin⟩ := slowSearch_frame head { c with insH := x, prev := y, head := z }
    rw [he]
    refine finish p l hin ?_
    rcases slowSearch_cases (c := { c with insH := x, prev := y, head := z }) hb hlive with ⟨l', he', hle⟩ | ⟨q, l', he', hq⟩
    · have hl' : l = l' := by
        have := congrArg Cu.matchLength (he.symm.trans he')
        exact this
      rw [hl']
      have hle : l' ≤ 2 ∨ l' ≤ c.matchLength := hle
      omega
    · have hl' : l = l' := by
        have := congrArg Cu.matchLength (he.symm.trans he')
        exact this
      have hp' : p = word32Of q := by
        have := congrArg Cu.matchStart (he.symm.trans he')
        exact this
      rw [hl', hp']
      exact hq.imp id fun ⟨hq1, h258⟩ => .inr ⟨h258, Near.dist (c := c) hq1 hfit⟩
  generalize slowSearch head { c with insH := x, prev := y, head := z } = e at hs ⊢
  split
  · rename_i hc
    exact hs.emitMatch hc.1
  · rename_i hc
    split
    · exact hs.literal hc
    · exact hs.hold hc

end Cu
end Sys2Proof.Machine
end

section
/-! PROOF. The rounds of `deflate_rle` and `deflate_huff`, what follows the loops, and the strategy functions (41_deflate_engine.md R186,
R188 to R193). -/

namespace Sys2Proof.Machine

namespace Cu

/-! ## `deflate_rle` and `deflate_huff` -/

/-- A symbol tallied and passed where no match is held over. -/
theorem Steady.symbol {c d : Cu} (h : c.Steady) (hf : c.func ≠ .fast ∧ c.func ≠ .slow) (k : c.Tallies d) (hfr : c.Lays d)
    (hdesk : d.Desk) (hmem : d.MemWf) {n : Nat} (hn : n ≤ c.lookahead) (m : Nat) :
    Poised { d.pass n with matchLength := m } ∧ (d.bflush = false → d.Room) := by
  have ht := Fits.tallies_pass h.hooked.fits.fit h.hooked.fits.room k hn
  have hlit : c.lastLit + 1 < c.litBufsize := h.hooked.fits.room
  have hroom : d.lastLit < d.litBufsize := by
    rw [k.lit, hfr.litBufsize]
    exact hlit
  have hi := h.hooked.insert
  obtain ⟨_, _, _, _, _, _, _, _, rfl⟩ := hfr
  refine ⟨⟨{ hmem with }, ht.fit.move rfl ht.fit.window, found_of_func hf.1 hf.2, (h.hooked.chains.mono (Nat.le_add_right _ n)).congr rfl,
    ⟨hi.1, hi.2.trans (Nat.le_add_right _ n)⟩, hdesk.congr rfl, fun h0 => absurd h0 hf.1, fun h0 => absurd h0 hf.2, hroom⟩, ht.full⟩

/-- The registers of a match play no part where none is held over. -/
theorem Steady.setMatch {c : Cu} (h : c.Steady) (hf : c.func ≠ .fast ∧ c.func ≠ .slow) (m : Nat) : Steady { c with matchLength := m } :=
  ⟨⟨{ h.hooked.mem with }, ⟨h.hooked.fits.fit.move rfl h.hooked.fits.fit.window, found_of_func hf.1 hf.2, h.hooked.fits.room⟩,
    h.hooked.chains.congr rfl, h.hooked.insert⟩, h.desk.congr rfl, h.fast, fun h0 => absurd h0 hf.2,
    fun h0 => ⟨(h.unsent h0).start, (h.unsent h0).len⟩⟩

theorem Lays.same {c d : Cu} : c.Lays d → d.cur = c.cur ∧ d.level = c.level := by
  rintro ⟨_, _, _, _, _, _, _, _, rfl⟩
  exact ⟨rfl, rfl⟩

/-- A literal or a match tallied, and the block closed where that fills it. -/
theorem Steady.closeSymbol {c d : Cu} (h : c.Steady) (hf : c.func ≠ .fast ∧ c.func ≠ .slow) (hl : c.level ≠ 0) (ha : c.cur.availOut ≠ 0)
    (k : c.Tallies d) (hfr : c.Lays d) (hdesk : d.Desk) (hmem : d.MemWf) {n : Nat} (hn : n ≤ c.lookahead) (m : Nat) :
    Rounded (Cu.closeRound { d.pass n with matchLength := m }) := by
  obtain ⟨h1, h2⟩ := h.symbol hf k hfr hdesk hmem hn m
  obtain ⟨hcur, hlev⟩ := hfr.same
  exact h1.closeRound (fun h0 => ha ((congrArg Cursor.availOut hcur).symm.trans h0)) (fun h0 => hl (hlev.symm.trans h0)) h2

theorem Steady.closeLiteral {c : Cu} (h : c.Steady) (hf : c.func ≠ .fast ∧ c.func ≠ .slow) (hl : c.level ≠ 0) (ha : c.cur.availOut ≠ 0)
    (hla : 0 < c.lookahead) (b : Byte) : Rounded (Cu.closeRound ((c.tallyLit b).pass 1)) := by
  have k := tallies_tallyLit c b
  have hfr := lays_tallyLit c b
  have hmem := (quiet_tallyLit c b).mem h.hooked.mem
  have hdesk := h.desk.tallyLit h.hooked.mem h.hooked.fits.room b
  generalize c.tallyLit b = d at *
  exact h.closeSymbol hf hl ha k hfr hdesk hmem hla d.matchLength

theorem Steady.closeMatch {c : Cu} (h : c.Steady) (hf : c.func ≠ .fast ∧ c.func ≠ .slow) (hl : c.level ≠ 0) (ha : c.cur.availOut ≠ 0)
    {dist len : Nat} (hd : 1 ≤ dist ∧ dist ≤ 32768) (hlen : 3 ≤ len ∧ len ≤ 258) (hla : len ≤ c.lookahead) :
    Rounded (Cu.closeRound { (c.tallyMatch dist len).pass len with matchLength := 0 }) :=
  h.closeSymbol hf hl ha (tallies_tallyMatch c dist len) (lays_tallyMatch c dist len)
    (h.desk.tallyMatch h.hooked.mem h.hooked.fits.room hd hlen) ((quiet_tallyMatch c dist len).mem h.hooked.mem) hla 0

theorem Steady.rleRound {c : Cu} (h : c.Steady) (hf : c.func = .rle) (ha : c.cur.availOut ≠ 0) (hl : 0 < c.lookahead) :
    Rounded (Cu.closeRound c.rleSymbol) := by
  have hfn : c.func ≠ .fast ∧ c.func ≠ .slow := by rw [hf]; decide
  have hlev : c.level ≠ 0 := fun h0 => absurd ((h.desk.stored h0).symm.trans hf) (by decide)
  have h2 := h.setMatch hfn c.rleLength
  obtain ⟨hla, h258⟩ := rleLength_le c
  unfold rleSymbol
  dsimp only
  split
  · exact h2.closeMatch hfn hlev ha (by decide) ⟨‹_›, h258⟩ hla
  · exact h2.closeLiteral hfn hlev ha hl _

theorem Steady.huffRound {c : Cu} (h : c.Steady) (hf : c.func = .huff) (ha : c.cur.availOut ≠ 0) (hl : 0 < c.lookahead) :
    Rounded (Cu.closeRound c.huffSymbol) := by
  have hfn : c.func ≠ .fast ∧ c.func ≠ .slow := by rw [hf]; decide
  have hlev : c.level ≠ 0 := fun h0 => absurd ((h.desk.stored h0).symm.trans hf) (by decide)
  exact (h.setMatch hfn 0).closeLiteral hfn hlev ha hl _

/-! ## What follows the loops -/

/-- What follows a loop first counts the positions it has not inserted. -/
theorem Poised.setInsert {c : Cu} (h : c.Poised) {k : Nat} (hk : k ≤ 2 ∧ k ≤ c.strstart) : Poised { c with insertCount := k } :=
  ⟨{ h.mem with }, h.fit.emits (emits_of rfl), ⟨h.found.fast, h.found.slow⟩, h.chains.congr rfl, hk, h.desk.congr rfl, h.fast,
    fun h0 => (h.slow h0).imp_right fun k => ⟨k.len, k.dist⟩, h.room⟩

theorem Steady.setInsert {c : Cu} (h : c.Steady) {k : Nat} (hk : k ≤ 2 ∧ k ≤ c.strstart) : Steady { c with insertCount := k } :=
  (h.poised.setInsert hk).steady h.hooked.fits.room fun h0 => ⟨(h.unsent h0).start, (h.unsent h0).len⟩

theorem Steady.storedTail {c : Cu} (h : c.Steady) (ha : c.cur.availOut ≠ 0) (flush : Int) : Ended (c.storedTail flush) := by
  have h1 := h.setInsert (k := 0) ⟨Nat.zero_le _, Nat.zero_le _⟩
  unfold Cu.storedTail
  dsimp only
  split
  · exact h1.poised.finishBlocks ha h1.short
  · exact h1.poised.blockBlocks ha h1.short fun _ => h1

theorem Steady.runTail {c : Cu} (h : c.Steady) (ha : c.cur.availOut ≠ 0) (flush : Int) : Ended (c.runTail flush) := by
  have h1 := h.setInsert (k := 0) ⟨Nat.zero_le _, Nat.zero_le _⟩
  exact h1.poised.finishTail ha h1.short h1.unsent flush

theorem min_two_le (n : Nat) : min n (Config.minMatch - 1) ≤ 2 ∧ min n (Config.minMatch - 1) ≤ n :=
  ⟨Nat.min_le_right .., Nat.min_le_left ..⟩

theorem Steady.fastTail {c : Cu} (h : c.Steady) (ha : c.cur.availOut ≠ 0) (flush : Int) : Ended (c.fastTail flush) := by
  have h1 := h.setInsert (min_two_le c.strstart)
  exact h1.poised.finishTail ha h1.short h1.unsent flush

/-- `deflate_slow` still has a literal to tally. -/
theorem Steady.slowTail {c : Cu} (h : c.Steady) (hf : c.func = .slow) (ha : c.cur.availOut ≠ 0) (flush : Int) :
    Ended (c.slowTail flush) := by
  unfold Cu.slowTail
  dsimp only
  split
  · have k := tallies_tallyLit c (c.win (c.strstart - 1))
    have hfr := lays_tallyLit c (c.win (c.strstart - 1))
    have hmem := (quiet_tallyLit c (c.win (c.strstart - 1))).mem h.hooked.mem
    have hdesk := h.desk.tallyLit h.hooked.mem h.hooked.fits.room (c.win (c.strstart - 1))
    have ht := h.hooked.fits.fit.tallies h.hooked.fits.room k
    have hm := h.hooked.fits.found.of_place k.place
    have hlit : c.lastLit + 1 < c.litBufsize := h.hooked.fits.room
    have hlev : c.level ≠ 0 := fun h0 => absurd ((h.desk.stored h0).symm.trans hf) (by decide)
    generalize c.tallyLit (c.win (c.strstart - 1)) = d at *
    have hroom : d.lastLit < d.litBufsize := by
      rw [k.lit, hfr.litBufsize]
      exact hlit
    obtain ⟨x1, x2, x3, x4, x5, x6, x7, x8, rfl⟩ := hfr
    have hp : Poised { c with
        lastLit := x1, dBuf := x2, lBuf := x3, dynLtree := x4, dynDtree := x5, blTree := x6, matchCount := x7, bflush := x8
        matchAvailable := false } :=
      ⟨{ hmem with }, ht.fit.move rfl ht.fit.window, ⟨hm.fast, hm.slow⟩, h.hooked.chains.congr rfl, h.hooked.insert, hdesk.congr rfl, h.fast,
        fun h0 => (h.slow h0).imp_right fun k => ⟨k.len, k.dist⟩, hroom⟩
    exact (hp.setInsert (min_two_le c.strstart)).finishTail ha (fun h0 => absurd h0 hlev) (fun h0 => absurd h0 hlev) flush
  · exact h.fastTail ha flush

/-! ## The strategy functions -/

theorem ended_strategyLoop {f : Func} {round : Cu → Cu × Round} {tail : Cu → Cu × BState}
    (hr : ∀ c : Cu, c.Steady → c.func = f → c.cur.availOut ≠ 0 → Rounded (round c)) (hm : ∀ c, Moves c (round c).1)
    (ht : ∀ c : Cu, c.Steady → c.func = f → c.cur.availOut ≠ 0 → Ended (tail c)) : ∀ fuel (c : Cu), c.Steady → c.func = f →
    c.cur.availOut ≠ 0 → Ended (strategyLoop round tail fuel c)
  | 0, c, h, _, ha => ⟨h, fun _ => ha⟩
  | fuel + 1, c, h, hf, ha => by
    have h1 := hr c h hf ha
    have hf1 := (hm c).func_eq.trans hf
    rw [strategyLoop]
    generalize round c = p at h1 hf1 ⊢
    obtain ⟨c1, r⟩ := p
    cases r with
    | again => exact ended_strategyLoop hr hm ht fuel c1 h1.steady hf1 (h1.space nofun)
    | exitLoop => exact ht c1 h1.steady hf1 (h1.space nofun)
    | ret b =>
      refine ⟨h1.steady, fun hb => h1.space fun he => ?_⟩
      cases he
      rcases hb with hb | hb <;> cases hb

/-- Every strategy function (41_deflate_engine.md R186). -/
theorem Steady.runFunc {c : Cu} (h : c.Steady) (ha : c.cur.availOut ≠ 0) (flush : Int) : Ended (c.runFunc flush) := by
  unfold Cu.runFunc
  split <;> rename_i hf
  · refine ended_strategyLoop (fun c h hf ha => ?_) (moves_storedRound flush) (fun c h _ ha => h.storedTail ha flush) _ c h hf ha
    rw [storedRound_eq]
    exact rounded_afterRefill flush Nat.one_pos (fun c h hf ha hl => h.storedBody hf ha hl) h hf ha
  · refine ended_strategyLoop (fun c h hf ha => ?_) (moves_fastRound flush) (fun c h _ ha => h.fastTail ha flush) _ c h hf ha
    rw [fastRound_eq]
    exact rounded_afterRefill flush (by decide) (fun c h hf ha hl => h.fastBody hf ha hl) h hf ha
  · refine ended_strategyLoop (fun c h hf ha => ?_) (moves_slowRound flush) (fun c h hf ha => h.slowTail hf ha flush) _ c h hf ha
    rw [slowRound_eq]
    exact rounded_afterRefill flush (by decide) (fun c h hf ha hl => h.slowBody hf ha hl) h hf ha
  · refine ended_strategyLoop (fun c h hf ha => ?_) (moves_rleRound flush) (fun c h _ ha => h.runTail ha flush) _ c h hf ha
    rw [rleRound_eq]
    exact rounded_afterRefill flush (by decide) (fun c h hf ha hl => h.rleRound hf ha hl) h hf ha
  · refine ended_strategyLoop (fun c h hf ha => ?_) (moves_huffRound flush) (fun c h _ ha => h.runTail ha flush) _ c h hf ha
    rw [huffRound_eq]
    exact rounded_afterRefill flush Nat.one_pos (fun c h hf ha hl => h.huffRound hf ha hl) h hf ha

end Cu
end Sys2Proof.Machine
end

section
/-! PROOF. A push keeps what holds between two rounds (41_deflate_engine.md R182, R186): the markers, the header and the trailer fit the
queue, and what they leave in it is handed out before a block is begun. -/

namespace Sys2Proof.Machine

namespace Cu

/-! ## Bytes in the queue -/

theorem Steady.setPending {c : Cu} (h : c.Steady) {p : Nat} (hf : Flow { c with pending := p }) : Steady { c with pending := p } :=
  h.emits { h.hooked.mem with } (emits_of rfl) rfl rfl (h.desk.of_books rfl ⟨h.desk.bits.bits, h.desk.bits.valid⟩ h.desk.aligned hf)

/-- What holds between two rounds, but that bytes may still be queued. -/
structure Queued (c : Cu) : Prop where
  rest  : Steady { c with pending := 0 }
  queue : c.pending ≤ c.pendingSize

theorem Steady.queued {c : Cu} (h : c.Steady) : c.Queued := ⟨h.setPending ⟨Nat.zero_le _, fun _ => rfl⟩, h.desk.flow.queue⟩

theorem Queued.steady {c : Cu} (h : c.Queued) (he : c.cur.availOut ≠ 0 → c.pending = 0) : c.Steady :=
  h.rest.setPending (p := c.pending) ⟨h.queue, he⟩

/-- `d` follows `c` by what a push does outside its strategy function: bits and bytes, and the registers of the stream. -/
def Outs (c d : Cu) : Prop := ∃ cur totalOut buf p q b v adler status gzindex lastFlush wrap, d = { c with
  cur := cur, totalOut := totalOut, pendingBuf := buf, pending := p, pendingOut := q, biBuf := b, biValid := v
  adler := adler, status := status, gzindex := gzindex, lastFlush := lastFlush, wrap := wrap }

theorem Hands.outs {c d : Cu} : c.Hands d → c.Outs d := by
  rintro ⟨_, _, _, _, _, _, _, _, rfl⟩
  exact ⟨_, _, _, _, _, _, _, c.adler, c.status, c.gzindex, c.lastFlush, c.wrap, rfl⟩

theorem Queued.outs {c d : Cu} (h : c.Queued) (k : c.Outs d) (he : c.Emits d) (hm : c.MemWf → d.MemWf) (hb : d.BitsWf)
    (ha : c.level = 0 → d.biValid ≤ 7) (hq : d.pending ≤ d.pendingSize) : d.Queued := by
  have h1 : Emits { c with pending := 0 } c := emits_of rfl
  have h2 : d.Emits { d with pending := 0 } := emits_of rfl
  have he0 := (h1.trans he).trans h2
  have hmem : d.MemWf := hm { h.rest.hooked.mem with }
  obtain ⟨_, _, _, _, _, _, _, _, _, _, _, _, rfl⟩ := k
  exact ⟨h.rest.emits { hmem with } he0 rfl rfl (h.rest.desk.of_books rfl ⟨hb.bits, hb.valid⟩ ha ⟨Nat.zero_le _, fun _ => rfl⟩), hq⟩

theorem Queued.bits {c : Cu} (h : c.Queued) : c.BitsWf := ⟨h.rest.desk.bits.bits, h.rest.desk.bits.valid⟩
theorem Queued.aligned {c : Cu} (h : c.Queued) (hl : c.level = 0) : c.biValid ≤ 7 := h.rest.desk.aligned hl

/-- What is queued and fits is handed out. -/
theorem Queued.flushPending {c : Cu} (h : c.Queued) : c.flushPending.Steady := by
  obtain ⟨h1, h2, -⟩ := pending_flushPending c
  have he := emits_flushPending c
  have hm := (moves_flushPending c).mem
  have hk := (hands_flushPending c).outs
  obtain ⟨_, _, _, hf⟩ := flushPending_frame c
  rw [hf] at h1 h2 he hm hk ⊢
  exact (h.outs hk he hm ⟨h.bits.bits, h.bits.valid⟩ h.aligned (h1.trans h.queue)).steady h2

/-- The registers of the stream play no part. -/
theorem Steady.setStream {c : Cu} (h : c.Steady) (status : CuStatus) (lastFlush wrap : Int) :
    Steady { c with status := status, lastFlush := lastFlush, wrap := wrap } :=
  h.emits { h.hooked.mem with } (emits_of rfl) rfl rfl (h.desk.congr rfl)

/-! ## The markers (41_deflate_engine.md R203 to R205) -/

theorem sends_trAlign (c : Cu) : Sends 10 c c.trAlign ∧ (c.BitsWf → c.trAlign.biValid ≤ 7) := by
  have h1 := sends_sendBits c (v := 2) (n := 3) (by decide) (by decide)
  have h2 : Sends 7 (c.sendBits 2 3) ((c.sendBits 2 3).sendCode true .l Config.endBlock) :=
    (sends_sendCode (c := c.sendBits 2 3) (s := true) (t := .l) (n := 256) (code_static .l 256)).of_eq (show (staticCode .l 256).2 = 7 by decide)
  obtain ⟨h3, h4⟩ := sends_biFlush ((c.sendBits 2 3).sendCode true .l Config.endBlock)
  exact ⟨(h1.trans h2).trans h3, fun hb => h4 ((h1.trans h2).bits hb)⟩

theorem Steady.trAlign {c : Cu} (h : c.Steady) (ha : c.cur.availOut ≠ 0) : c.trAlign.Queued := by
  obtain ⟨hs, h7⟩ := sends_trAlign c
  have hb := h.desk.bits
  have hcount := hs.count hb
  have h0 := h.desk.flow.empty ha
  have hL := h.hooked.fits.fit.litBufsize
  have hv := hb.valid
  refine h.queued.outs hs.hands.outs (emits_trAlign c) (quiet_trAlign c).mem (hs.bits hb) (fun _ => h7 hb) ?_
  obtain ⟨_, _, _, _, he⟩ := hs.frame
  rw [he] at hcount ⊢
  unfold waiting at hcount
  unfold pendingSize
  dsimp only at hcount ⊢
  omega

theorem Steady.trStoredEmpty {c : Cu} (h : c.Steady) (ha : c.cur.availOut ≠ 0) : (c.trStoredBlock [] false).Queued := by
  have hL := h.hooked.fits.fit.litBufsize
  have hv := h.desk.bits.valid
  obtain ⟨hh, h1, h2, h3⟩ := trStoredBlock_fits (buf := []) (last := false) h.desk.bits (h.desk.flow.empty ha) ha (by
    unfold pendingSize
    rw [List.length_nil]
    omega)
  refine h.queued.outs hh.outs (emits_trStoredBlock [] false c) (moves_trStoredBlock [] false c).mem ?_ (fun _ => ?_) ?_
  · exact ⟨by rw [h1, h2]; decide, by rw [h2]; decide⟩
  · rw [h2]
    decide
  · obtain ⟨_, _, _, _, _, _, _, _, he⟩ := hh
    rw [he] at h3 ⊢
    exact h3

/-- The clearing of a full flush leaves no chain, and with no look-ahead no data behind `STRSTART`. -/
theorem Steady.fullFlushClear {c : Cu} (h : c.Steady) : c.fullFlushClear.Steady := by
  have hfits := fits_fullFlushClear h.hooked.fits
  have hmem := (quiet_fullFlushClear c).mem h.hooked.mem
  have hpos := h.hooked.fits.fit.maxBlock_pos
  have hfound := h.hooked.fits.found.slow
  have hi := h.hooked.insert
  unfold Cu.fullFlushClear at hfits hmem ⊢
  dsimp only at hfits hmem ⊢
  split at hfits
  · rename_i hl
    rw [if_pos hl] at hmem ⊢
    refine ⟨⟨hmem, hfits, chains_of_empty rfl _, Nat.zero_le _, Nat.zero_le _⟩, h.desk.congr rfl, h.fast, fun h0 => .inl ?_,
      fun _ => ⟨le_refl _, ?_⟩⟩
    · have := hfound h0
      show c.matchLength ≤ 2
      omega
    · show ((0 : Nat) : Int) - 0 < c.maxBlock
      omega
  · rename_i hl
    rw [if_neg hl] at hmem ⊢
    exact ⟨⟨hmem, hfits, chains_of_empty rfl _, hi⟩, h.desk.congr rfl, h.fast,
      fun h0 => (h.slow h0).imp_right fun k => ⟨k.len, k.dist⟩, fun h0 => ⟨(h.unsent h0).start, (h.unsent h0).len⟩⟩

theorem Queued.fullFlushClear {c : Cu} (h : c.Queued) : c.fullFlushClear.Queued := by
  have hr := h.rest.fullFlushClear
  have hq := h.queue
  unfold Cu.fullFlushClear at hr ⊢
  dsimp only at hr ⊢
  split at hr
  · rename_i hl
    rw [if_pos hl]
    exact ⟨hr, hq⟩
  · rename_i hl
    rw [if_neg hl]
    exact ⟨hr, hq⟩

theorem Steady.flushMarker {c : Cu} (h : c.Steady) (ha : c.cur.availOut ≠ 0) (flush : Int) : (c.flushMarker flush).Queued := by
  unfold Cu.flushMarker
  split
  · exact h.trAlign ha
  · split
    · have hs := h.trStoredEmpty ha
      dsimp only
      split
      · exact hs.fullFlushClear
      · exact hs
    · exact h.queued

/-! ## Running the strategy function, and the trailer -/

/-- `run_strategy` (41_deflate_engine.md R186): where the push goes on, the output has space. -/
theorem Steady.runStrategy {c : Cu} (h : c.Steady) (ha : c.cur.availOut ≠ 0) (flush : Int) :
    (c.runStrategy flush).1.Steady ∧ ((c.runStrategy flush).2 = false → (c.runStrategy flush).1.cur.availOut ≠ 0) := by
  have hr := h.runFunc ha flush
  unfold Cu.runStrategy
  generalize c.runFunc flush = p at hr ⊢
  obtain ⟨c1, b⟩ := p
  obtain ⟨h1, hsp⟩ := hr
  dsimp only at h1 hsp ⊢
  have h2 : (if b = .finishStarted ∨ b = .finishDone then { c1 with status := .finish } else c1).Steady ∧
      (if b = .finishStarted ∨ b = .finishDone then ({ c1 with status := .finish } : Cu) else c1).cur = c1.cur := by
    split
    · exact ⟨h1.setStream .finish c1.lastFlush c1.wrap, rfl⟩
    · exact ⟨h1, rfl⟩
  generalize (if b = .finishStarted ∨ b = .finishDone then ({ c1 with status := .finish } : Cu) else c1) = c2 at h2 ⊢
  obtain ⟨h2, hcur⟩ := h2
  have h3 : (if c2.cur.availOut = 0 then { c2 with lastFlush := -1 } else c2).Steady := by
    split
    · exact h2.setStream c2.status (-1) c2.wrap
    · exact h2
  cases b with
  | needMore => exact ⟨h3, nofun⟩
  | finishStarted => exact ⟨h3, nofun⟩
  | finishDone => exact ⟨h2, fun _ => by rw [hcur]; exact hsp (.inr rfl)⟩
  | blockDone =>
    have h4 := (h2.flushMarker (by rw [hcur]; exact hsp (.inl rfl)) flush).flushPending
    dsimp only
    generalize (c2.flushMarker flush).flushPending = d at h4 ⊢
    split
    · exact ⟨h4.setStream d.status (-1) d.wrap, nofun⟩
    · exact ⟨h4, fun _ => ‹_›⟩

theorem trailerBytes_length (c : Cu) : c.trailerBytes.length ≤ 8 := by
  have hw : ∀ (w : Word32), (wordBytes w 4).length = 4 := fun _ => rfl
  unfold trailerBytes
  split
  · rw [List.length_append, hw, hw]
  · rw [List.length_reverse, hw]
    decide

theorem Steady.writeTrailer {c : Cu} (h : c.Steady) (ha : c.cur.availOut ≠ 0) : c.writeTrailer.Steady := by
  have hp := puts_putBytes c.trailerBytes c
  have hlen := trailerBytes_length c
  have h0 := h.desk.flow.empty ha
  have hL := h.hooked.fits.fit.litBufsize
  have hk := hp.hands.outs
  have he := emits_putBytes c c.trailerBytes
  have hm := (quiet_putBytes c c.trailerBytes).mem
  have hq : (c.putBytes c.trailerBytes).Queued := by
    obtain ⟨x, hx⟩ := hp
    rw [hx] at hk he hm ⊢
    refine h.queued.outs hk he hm ⟨h.desk.bits.bits, h.desk.bits.valid⟩ h.desk.aligned ?_
    show c.pending + c.trailerBytes.length ≤ 4 * c.litBufsize
    omega
  have hf := hq.flushPending
  unfold Cu.writeTrailer
  generalize (c.putBytes c.trailerBytes).flushPending = d at hf ⊢
  exact hf.setStream d.status d.lastFlush (-d.wrap)

theorem Steady.pushCode {c : Cu} (h : c.Steady) (ha : c.cur.availOut ≠ 0) (flush : Int) : (c.pushCode flush).1.Steady := by
  have h1 : (if c.cur.availIn ≠ 0 ∨ c.lookahead ≠ 0 ∨ (flush ≠ flushNo ∧ c.status ≠ .finish) then c.runStrategy flush
      else (c, false)).1.Steady ∧ ((if c.cur.availIn ≠ 0 ∨ c.lookahead ≠ 0 ∨ (flush ≠ flushNo ∧ c.status ≠ .finish) then
        c.runStrategy flush else (c, false)).2 = false → (if c.cur.availIn ≠ 0 ∨ c.lookahead ≠ 0 ∨
        (flush ≠ flushNo ∧ c.status ≠ .finish) then c.runStrategy flush else (c, false)).1.cur.availOut ≠ 0) := by
    split
    · exact h.runStrategy ha flush
    · exact ⟨h, fun _ => ha⟩
  unfold Cu.pushCode
  generalize (if c.cur.availIn ≠ 0 ∨ c.lookahead ≠ 0 ∨ (flush ≠ flushNo ∧ c.status ≠ .finish) then c.runStrategy flush
      else (c, false)) = p at h1 ⊢
  obtain ⟨c1, ret⟩ := p
  obtain ⟨h1, h2⟩ := h1
  dsimp only at h1 h2 ⊢
  split
  · exact h1
  · rename_i hret
    split
    · exact h1
    · split
      · exact h1
      · exact h1.writeTrailer (h2 (by simpa using hret))

end Cu
end Sys2Proof.Machine
end

section
/-! PROOF. The header fits the queue, and its fields are put in as far as they fit (41_deflate_engine.md R183, R196 to R201, R206); so a
whole push keeps what holds between two rounds (R182). -/

namespace Sys2Proof.Machine

namespace Cu

/-! ## The header fields (41_deflate_engine.md R197 to R201) -/

/-- `d` follows `c` by bytes of the header. -/
def Heads (c d : Cu) : Prop := ∃ cur totalOut buf p q adler status gzindex, d = { c with
  cur := cur, totalOut := totalOut, pendingBuf := buf, pending := p, pendingOut := q, adler := adler, status := status, gzindex := gzindex }

theorem Heads.refl (c : Cu) : c.Heads c := ⟨c.cur, c.totalOut, c.pendingBuf, c.pending, c.pendingOut, c.adler, c.status, c.gzindex, rfl⟩

theorem Heads.trans {a b c : Cu} : a.Heads b → b.Heads c → a.Heads c := by
  rintro ⟨_, _, _, _, _, _, _, _, rfl⟩ ⟨x1, x2, x3, x4, x5, x6, x7, x8, rfl⟩
  exact ⟨x1, x2, x3, x4, x5, x6, x7, x8, rfl⟩

theorem Puts.heads {n : Nat} {c d : Cu} : Puts n c d → c.Heads d := by
  rintro ⟨_, rfl⟩
  exact ⟨c.cur, c.totalOut, _, _, c.pendingOut, c.adler, c.status, c.gzindex, rfl⟩

theorem heads_flushPending (c : Cu) : c.Heads c.flushPending := by
  obtain ⟨out, t, q, he⟩ := flushPending_frame c
  rw [he]
  exact ⟨_, _, c.pendingBuf, _, _, c.adler, c.status, c.gzindex, rfl⟩

theorem heads_regs (c : Cu) (adler : Word32) (status : CuStatus) (gzindex : Nat) :
    c.Heads { c with adler := adler, status := status, gzindex := gzindex } :=
  ⟨c.cur, c.totalOut, c.pendingBuf, c.pending, c.pendingOut, _, _, _, rfl⟩

/-- What a push may find before its strategy function: the queue in range, and a byte in it if the output is full. -/
structure Filling (c : Cu) : Prop where
  size  : 2 ≤ c.pendingSize
  queue : c.pending ≤ c.pendingSize
  some  : c.pending ≠ 0 ∨ c.cur.availOut ≠ 0

/-- `d` follows `c` by header fields put in the queue as far as they fit. -/
structure Feeds (c d : Cu) : Prop where
  heads   : c.Heads d
  filling : c.Filling → d.Filling

theorem Feeds.refl (c : Cu) : c.Feeds c := ⟨.refl c, id⟩
theorem Feeds.trans {a b c : Cu} (h : a.Feeds b) (k : b.Feeds c) : a.Feeds c := ⟨h.heads.trans k.heads, k.filling ∘ h.filling⟩

theorem feeds_regs (c : Cu) (adler : Word32) (status : CuStatus) (gzindex : Nat) :
    c.Feeds { c with adler := adler, status := status, gzindex := gzindex } :=
  ⟨heads_regs c adler status gzindex, fun h => ⟨h.size, h.queue, h.some⟩⟩

theorem feeds_fieldCrc (hc : Bool) (n : Nat) (c : Cu) : c.Feeds (c.fieldCrc hc n) := by
  unfold fieldCrc
  split
  · exact feeds_regs c _ c.status c.gzindex
  · exact .refl c

/-- A queue that is full is handed out before the next byte. -/
theorem flushFull {c : Cu} (hq : c.pending ≤ c.pendingSize) (hc : Bool) (n : Nat) :
    ∃ d, (if c.pending = c.pendingSize then (c.fieldCrc hc n).flushPending else c) = d ∧ c.Heads d ∧ d.pendingSize = c.pendingSize ∧
      d.pending ≤ d.pendingSize ∧ (¬(c.pending = c.pendingSize ∧ d.pending = d.pendingSize) → d.pending < d.pendingSize) := by
  refine ⟨_, rfl, ?_⟩
  split <;> rename_i h0
  · obtain ⟨hk, -⟩ := feeds_fieldCrc hc n c
    obtain ⟨_, _, _, _, _, _, _, _, he⟩ := hk.trans (heads_flushPending (c.fieldCrc hc n))
    have hp : (c.fieldCrc hc n).flushPending.pending ≤ c.pending := by
      have := (pending_flushPending (c.fieldCrc hc n)).1
      obtain ⟨_, _, _, _, _, _, _, _, hx⟩ := hk
      have hcp : (c.fieldCrc hc n).pending = c.pending := by
        unfold fieldCrc
        split <;> rfl
      omega
    rw [he] at hp ⊢
    refine ⟨⟨_, _, _, _, _, _, _, _, rfl⟩, rfl, hp.trans hq, fun hn => ?_⟩
    exact lt_of_le_of_ne (hp.trans hq) fun h1 => hn ⟨h0, h1⟩
  · exact ⟨.refl c, rfl, hq, fun _ => lt_of_le_of_ne hq h0⟩

theorem feeds_putByte {c : Cu} (hs : 2 ≤ c.pendingSize) (h : c.pending < c.pendingSize) (b : Byte) (gz : Nat) :
    (Cu.putByte { c with gzindex := gz } b).Filling := ⟨hs, h, .inl (Nat.succ_ne_zero _)⟩

theorem feeds_emitLoop (data : List Byte) (z hc : Bool) : ∀ fuel n c, Feeds c (emitLoop data z hc fuel n c).1
  | 0, _, c => by rw [emitLoop]; exact .refl c
  | fuel + 1, n, c => by
    refine ⟨?_, fun hfill => ?_⟩
    · have h1 : c.Heads (if c.pending = c.pendingSize then (c.fieldCrc hc n).flushPending else c) := by
        split
        · exact (feeds_fieldCrc hc n c).heads.trans (heads_flushPending _)
        · exact .refl c
      rw [emitLoop]
      dsimp only
      generalize (if c.pending = c.pendingSize then (c.fieldCrc hc n).flushPending else c) = c1 at h1 ⊢
      have h2 : c.Heads (Cu.putByte { c1 with gzindex := c1.gzindex + 1 } (data.getD c1.gzindex 0#8)) :=
        h1.trans ((heads_regs c1 c1.adler c1.status (c1.gzindex + 1)).trans (puts_putByte ..).heads)
      split
      · dsimp only
        exact .refl c
      · split
        · exact h1
        · split
          · exact h2
          · exact h2.trans (feeds_emitLoop data z hc fuel _ _).heads
    · obtain ⟨c1, he, -, hsize, hle, hlt⟩ := flushFull hfill.queue hc n
      rw [emitLoop]
      dsimp only
      rw [he]
      have hs1 : 2 ≤ c1.pendingSize := hsize ▸ hfill.size
      split
      · dsimp only
        exact hfill
      · split
        · rename_i hfull
          exact ⟨hs1, hle, .inl fun h0 => by have := hfull.2; dsimp only at h0 hs1; omega⟩
        · rename_i hfull
          have h2 := feeds_putByte hs1 (hlt hfull) (data.getD c1.gzindex 0#8) (c1.gzindex + 1)
          split
          · exact h2
          · exact (feeds_emitLoop data z hc fuel _ _).filling h2

theorem feeds_doField (field : Option (List Byte)) (z hc : Bool) (next : CuStatus) (c : Cu) : c.Feeds (c.doField field z hc next) := by
  unfold doField
  split
  · exact feeds_regs c c.adler next c.gzindex
  · rename_i data
    have h1 : c.Feeds (c.emitField data z hc).1 :=
      (feeds_emitLoop data z hc (data.length + 2) c.pending c).trans (feeds_fieldCrc hc _ _)
    generalize c.emitField data z hc = p at h1 ⊢
    dsimp only
    split
    · exact h1.trans (feeds_regs p.1 p.1.adler next 0)
    · exact h1

theorem feeds_doHcrc (r : GzHeader) (c : Cu) : c.Feeds (c.doHcrc r) := by
  unfold doHcrc
  split
  · exact feeds_regs c c.adler .busy c.gzindex
  · have h1 : c.Heads (c.makeRoom 2) := by
      unfold makeRoom
      split
      · exact heads_flushPending c
      · exact .refl c
    have hle : (c.makeRoom 2).pending ≤ c.pending := by
      unfold makeRoom
      split
      · exact (pending_flushPending c).1
      · exact le_refl _
    dsimp only
    generalize c.makeRoom 2 = c1 at h1 hle ⊢
    split
    · rename_i hroom
      have h2 := (puts_putShort c1 (c1.adler.toNat % 65536)).heads
      refine ⟨(h1.trans h2).trans (heads_regs _ 0 .busy _), fun hf => ⟨?_, hroom, .inl (Nat.succ_ne_zero _)⟩⟩
      obtain ⟨_, _, _, _, _, _, _, _, rfl⟩ := h1
      exact hf.size
    · rename_i hroom
      refine ⟨h1, fun hf => ?_⟩
      obtain ⟨_, _, _, _, _, _, _, _, rfl⟩ := h1
      exact ⟨hf.size, hle.trans hf.queue, .inl fun h0 => hroom (by rw [h0]; exact hf.size)⟩

theorem feeds_headerFields (c : Cu) : c.Feeds c.headerFields := by
  unfold headerFields
  split
  · exact .refl c
  · rename_i r _
    have step : ∀ (st : CuStatus) {f : Cu → Cu}, (∀ x : Cu, x.Feeds (f x)) → ∀ x : Cu,
        x.Feeds (if x.status = st then f x else x) := fun st f hf x => by
      split
      · exact hf x
      · exact .refl x
    dsimp only
    refine Feeds.trans ?_ (step .hcrc (feeds_doHcrc r) _)
    refine Feeds.trans ?_ (step .comment (f := doComment r) (feeds_doField r.comment true r.hcrc .hcrc) _)
    refine Feeds.trans ?_ (step .name (f := doName r) (feeds_doField r.name true r.hcrc .comment) _)
    exact step .extra (f := doExtra r) (feeds_doField r.extra false r.hcrc .name) c

/-! ## The header (41_deflate_engine.md R183) -/

theorem gzHeaderBytes_length (c : Cu) (r : GzHeader) : (c.gzHeaderBytes r).length ≤ 12 := by
  unfold gzHeaderBytes
  split
  · exact le_refl 12
  · exact Nat.le_add_left 10 2

/-- `d` follows `c` by the header, at most 12 bytes. -/
def Begun (c d : Cu) : Prop := ∃ buf p adler status gzindex, p ≤ c.pending + 12 ∧
  d = { c with pendingBuf := buf, pending := p, adler := adler, status := status, gzindex := gzindex }

theorem begun_emitHeader (c : Cu) : c.Begun c.emitHeader := by
  unfold emitHeader
  split
  · unfold emitGzipHeader
    split
    · obtain ⟨x, he⟩ := puts_putBytes [0x1F#8, 0x8B#8, 8#8, 0#8, 0#8, 0#8, 0#8, 0#8, c.gzipXfl, Config.osCode] { c with adler := 0 }
      dsimp only
      rw [he]
      exact ⟨_, _, _, _, c.gzindex, Nat.add_le_add_left (Nat.le_add_left 10 2) _, rfl⟩
    · rename_i r _
      obtain ⟨x, he⟩ := puts_putBytes (c.gzHeaderBytes r) { c with adler := 0 }
      have hlen := gzHeaderBytes_length c r
      dsimp only
      rw [he]
      exact ⟨_, _, _, _, _, Nat.add_le_add_left hlen _, rfl⟩
  · unfold emitZlibHeader
    obtain ⟨x, he⟩ := puts_putShortMsb { c with status := .busy } c.zlibHeaderWord
    dsimp only
    rw [he]
    split
    · obtain ⟨y, hy⟩ := (puts_putShortMsb { c with status := .busy, pendingBuf := x, pending := c.pending + 2 } (c.adler.toNat / 65536)).trans
        (puts_putShortMsb _ (c.adler.toNat % 65536))
      rw [hy]
      exact ⟨_, _, _, _, c.gzindex, by show c.pending + 2 + (2 + 2) ≤ _; omega, rfl⟩
    · exact ⟨_, _, _, _, c.gzindex, by show c.pending + 2 ≤ _; omega, rfl⟩

/-! ## The push (41_deflate_engine.md R182) -/

theorem Heads.outs {c d : Cu} : c.Heads d → c.Outs d := by
  rintro ⟨_, _, _, _, _, _, _, _, rfl⟩
  exact ⟨_, _, _, _, _, c.biBuf, c.biValid, _, _, _, c.lastFlush, c.wrap, rfl⟩

theorem Queued.heads {c d : Cu} (h : c.Queued) (k : c.Heads d) (he : c.Emits d) (hm : c.MemWf → d.MemWf) (hq : d.pending ≤ d.pendingSize) :
    d.Queued := by
  have hk := k.outs
  obtain ⟨_, _, _, _, _, _, _, _, rfl⟩ := k
  exact h.outs hk he hm ⟨h.bits.bits, h.bits.valid⟩ h.aligned hq

theorem Queued.filling {c : Cu} (h : c.Queued) (ha : c.cur.availOut ≠ 0) : c.Filling := by
  have hL : 128 ≤ c.litBufsize := h.rest.hooked.fits.fit.litBufsize
  exact ⟨by unfold pendingSize; omega, h.queue, .inr ha⟩

theorem Queued.emitHeader {c : Cu} (h : c.Queued) (ha : c.cur.availOut ≠ 0) (hi : c.status = .init) (h0 : c.pending = 0) :
    c.emitHeader.Queued ∧ c.emitHeader.Filling := by
  have hL : 128 ≤ c.litBufsize := h.rest.hooked.fits.fit.litBufsize
  have he := emits_emitHeader c
  have hm := (moves_emitHeader c hi).mem
  obtain ⟨x, p, a, s, g, hp, hb⟩ := begun_emitHeader c
  rw [hb] at he hm ⊢
  have hq : Queued { c with pendingBuf := x, pending := p, adler := a, status := s, gzindex := g } := by
    refine h.heads ⟨c.cur, c.totalOut, x, p, c.pendingOut, a, s, g, rfl⟩ he hm ?_
    show p ≤ 4 * c.litBufsize
    omega
  exact ⟨hq, hq.filling ha⟩

theorem Queued.headerFields {c : Cu} (h : c.Queued) (hf : c.Filling) : c.headerFields.Queued ∧ c.headerFields.Filling := by
  obtain ⟨hk, hfill⟩ := feeds_headerFields c
  have hf2 := hfill hf
  exact ⟨h.heads hk (emits_headerFields c) (moves_headerFields c).mem hf2.queue, hf2⟩

/-- A push keeps what holds between two rounds: whatever a push before it left queued goes out first. -/
theorem Queued.push {c : Cu} (h : c.Queued) (ha : c.cur.availOut ≠ 0) (hi : c.status = .init → c.pending = 0) (flush : Int) :
    (c.push flush).1.Steady := by
  have h1 : Queued { c with lastFlush := flush } :=
    h.outs ⟨c.cur, c.totalOut, c.pendingBuf, c.pending, c.pendingOut, c.biBuf, c.biValid, c.adler, c.status, c.gzindex, flush, c.wrap, rfl⟩
      (emits_of rfl) (fun hm => { hm with }) ⟨h.bits.bits, h.bits.valid⟩ h.aligned h.queue
  have ha1 : Cu.cur { c with lastFlush := flush } = c.cur := rfl
  unfold Cu.push
  generalize hc1 : ({ c with lastFlush := flush } : Cu) = c1 at h1 ha1 ⊢
  dsimp only
  have hi1 : c1.status = .init → c1.pending = 0 := hc1 ▸ hi
  have ha1 : c1.cur.availOut ≠ 0 := ha1 ▸ ha
  have h2 : (if c1.status = .init then c1.emitHeader else c1).Queued ∧ (if c1.status = .init then c1.emitHeader else c1).Filling := by
    split
    · exact h1.emitHeader ha1 ‹_› (hi1 ‹_›)
    · exact ⟨h1, h1.filling ha1⟩
  generalize (if c1.status = .init then c1.emitHeader else c1) = c2 at h2 ⊢
  obtain ⟨h3, hf3⟩ := h2.1.headerFields h2.2
  generalize c2.headerFields = c3 at h3 hf3 ⊢
  have h4 := h3.flushPending
  split
  · generalize c3.flushPending = c4 at h4 ⊢
    split
    · exact h4.setStream c4.status (-1) c4.wrap
    · exact h4.pushCode ‹_› flush
  · rename_i h0
    have h0 : c3.pending = 0 := not_not.1 h0
    have hs3 := h3.steady fun _ => h0
    split
    · exact hs3
    · exact hs3.pushCode (hf3.some.resolve_left (not_not.2 h0)) flush

theorem two_le_number {st : CuStatus} (h0 : st ≠ .noStream) (h1 : st ≠ .init) : 2 ≤ st.number := by
  cases st <;> simp_all [CuStatus.number]

theorem status_emitHeader (c : Cu) : c.emitHeader.status = .busy ∨ c.emitHeader.status = .extra := by
  unfold emitHeader
  split
  · unfold emitGzipHeader
    split
    · exact .inl rfl
    · exact .inr rfl
  · refine .inl ?_
    unfold emitZlibHeader
    dsimp only
    split <;> rfl

/-- The header is emitted by the first push. -/
theorem status_push_ne_init (flush : Int) {c : Cu} (hs : c.status ≠ .noStream) : (c.push flush).1.status ≠ .init := by
  have key : ∀ {d e : Cu}, 2 ≤ d.status.number → d.Pushed e → e.status ≠ .init := fun h k he => by
    have := k.status
    rw [he] at this
    exact absurd (h.trans this) (by decide)
  unfold Cu.push
  generalize hc1 : ({ c with lastFlush := flush } : Cu) = c1
  dsimp only
  have hs1 : c1.status ≠ .noStream := hc1 ▸ hs
  have h2 : 2 ≤ (if c1.status = .init then c1.emitHeader else c1).status.number := by
    split
    · rcases status_emitHeader c1 with he | he <;> rw [he] <;> decide
    · exact two_le_number hs1 ‹_›
  generalize (if c1.status = .init then c1.emitHeader else c1) = c2 at h2 ⊢
  have h3 := (moves_headerFields c2).pushed
  generalize c2.headerFields = c3 at h3 ⊢
  have h4 := h3.trans (moves_flushPending c3).pushed
  split
  · generalize c3.flushPending = c4 at h4 ⊢
    split
    · exact key h2 (h4.trans (pushed_lastFlush c4 (-1)))
    · exact key h2 (h4.trans (pushed_pushCode flush c4))
  · split
    · exact key h2 h3
    · exact key h2 (h3.trans (pushed_pushCode flush c3))

end Cu
end Sys2Proof.Machine
end

section
/-! PROOF. In every run the queue and the bit buffer of `CU` stay in range (10_state.md R43 (e), (f)): a dictionary load and a reset keep
what a push needs, and so does every command. -/

namespace Sys2Proof.Machine

namespace Cu

/-! ## The dictionary (40_matcher.md R168) -/

theorem lookahead_slid (c : Cu) : c.slid.lookahead = c.lookahead := by
  unfold slid
  split <;> rfl

/-- `read_buf` takes from the dictionary what it moves. -/
theorem readBuf_some (c : Cu) (d : List Byte) (pos size : Nat) : ∃ e, (c.readBuf (some d) pos size).2.1 = some e ∧
    e.length + (c.readBuf (some d) pos size).2.2 ≤ d.length := by
  unfold readBuf
  dsimp only
  split
  · exact ⟨d, rfl, le_refl _⟩
  · refine ⟨_, rfl, ?_⟩
    have hn : min (c.srcAvail (some d)) size ≤ d.length := Nat.min_le_left ..
    rw [List.length_drop]
    exact (Nat.sub_add_cancel hn).le

theorem readRound_some (c : Cu) (d : List Byte) (more : Nat) : ∃ e, (c.readRound (some d) more).2 = some e ∧
    e.length + (c.readRound (some d) more).1.lookahead ≤ d.length + c.lookahead := by
  obtain ⟨e, he, hlen⟩ := readBuf_some c d (c.strstart + c.lookahead) more
  obtain ⟨-, nextIn, window, adler, totalIn, hf⟩ := readBuf_frame c (some d) (c.strstart + c.lookahead) more
  refine ⟨e, he, ?_⟩
  have hla : (c.readRound (some d) more).1.lookahead =
      (c.readBuf (some d) (c.strstart + c.lookahead) more).1.lookahead + (c.readBuf (some d) (c.strstart + c.lookahead) more).2.2 :=
    (emits_catchUp _).place_eq.2.1
  have hsame : (c.readBuf (some d) (c.strstart + c.lookahead) more).1.lookahead = c.lookahead := by rw [hf]
  omega

/-- Filling the window from the dictionary loses none of it. -/
theorem fillLoop_some : ∀ fuel (c : Cu) (d : List Byte), ∃ e, (fillLoop fuel c (some d)).2 = some e ∧
    e.length + (fillLoop fuel c (some d)).1.lookahead ≤ d.length + c.lookahead
  | 0, c, d => by rw [fillLoop]; exact ⟨d, rfl, le_refl _⟩
  | fuel + 1, c, d => by
    obtain ⟨e, he, hlen⟩ := readRound_some c.slid d c.space
    have hs := lookahead_slid c
    rw [fillLoop_succ]
    dsimp only
    generalize c.slid.readRound (some d) c.space = p at he hlen ⊢
    obtain ⟨c1, src⟩ := p
    dsimp only at he hlen ⊢
    subst he
    split
    · dsimp only
      exact ⟨d, rfl, by rw [hs]⟩
    · split
      · obtain ⟨f, hf, hle⟩ := fillLoop_some fuel c1 e
        exact ⟨f, hf, by omega⟩
      · exact ⟨e, rfl, by dsimp only; omega⟩

theorem fillWindowFrom_some (c : Cu) (d : List Byte) : ∃ e, (c.fillWindowFrom (some d)).2 = some e ∧
    e.length + (c.fillWindowFrom (some d)).1.lookahead ≤ d.length + c.lookahead := by
  unfold fillWindowFrom
  exact fillLoop_some ..

/-- The dictionary loop ends with less than a string left over (40_matcher.md R168). -/
theorem hooked_dictLoop : ∀ fuel {c : Cu} (d : List Byte), c.Hooked → c.Free → (dictLoop fuel c (some d)).Hooked ∧
    (d.length + c.lookahead ≤ fuel + 2 → (dictLoop fuel c (some d)).lookahead ≤ 2)
  | 0, c, d, h, _ => by
    rw [dictLoop]
    exact ⟨h, fun hl => by omega⟩
  | fuel + 1, c, d, h, hm => by
    rw [dictLoop]
    split
    · rename_i hl
      simp only [Config.minMatch] at hl
      obtain ⟨-, hws, -, -, hwin⟩ := h.fits.fit.sizes
      have hi := h.insert
      have hch : (forRange c.strstart (c.lookahead - (Config.minMatch - 1)) dictInsert c).Chains
          (c.strstart + (c.lookahead - (Config.minMatch - 1))) :=
        chains_forRange h.mem (h.chains.mono (Nat.le_add_right ..)) fun i hi e he hce => ⟨(quiet_dictInsert ..).mem he,
          hce.insertString he (le_refl _) (by omega) (by simp only [Config.minMatch] at hi; omega)⟩
      have hmem := (quiet_forRange c.strstart (c.lookahead - (Config.minMatch - 1)) dictInsert (fun _ _ => quiet_dictInsert ..) c).mem h.mem
      obtain ⟨x, y, z, he⟩ := links_forRange c.strstart (c.lookahead - (Config.minMatch - 1)) dictInsert (fun _ _ => ⟨_, _, _, rfl⟩) c
      dsimp only
      rw [he] at hch hmem ⊢
      generalize hd : ({ c with
          insH := x, prev := y, head := z, strstart := c.strstart + (c.lookahead - (Config.minMatch - 1))
          lookahead := Config.minMatch - 1 } : Cu) = e
      have hfree : e.Free := by rw [← hd]; exact hm
      have hla : e.lookahead = 2 := by rw [← hd]; rfl
      have hhook : e.Hooked := by
        rw [← hd]
        refine ⟨{ hmem with }, ⟨h.fits.fit.move rfl ?_, Free.found hm, h.fits.room⟩, hch.congr rfl, hi.1, ?_⟩
        · show c.strstart + (c.lookahead - (3 - 1)) + (3 - 1) ≤ 2 * c.wSize
          omega
        · show c.insertCount ≤ c.strstart + (c.lookahead - (3 - 1))
          omega
      clear hd he hch hmem
      have hk := fills_fillWindowFrom (some d) hhook.fits.fit.window
      have hr : e.Refills (e.fillWindowFrom (some d)).1 := hhook.fillLoop _ (some d)
      obtain ⟨f, hf, hle⟩ := fillWindowFrom_some e d
      rw [hf]
      generalize (e.fillWindowFrom (some d)).1 = g at hk hr hle ⊢
      obtain ⟨h1, h2⟩ := hooked_dictLoop fuel f hr.hooked (hfree.fills hk)
      exact ⟨h1, fun hsum => h2 (by omega)⟩
    · rename_i hl
      simp only [Config.minMatch] at hl
      exact ⟨h, fun _ => by omega⟩

/-- With no look-ahead no match is held over. -/
theorem Fits.free {c : Cu} (h : c.Fits) (hl : c.lookahead = 0) : c.Free := fun hf => by
  rcases hf with hf | hf
  · exact h.found.fast hf
  · have := h.found.slow hf
    omega

theorem Hooked.dictStart {c : Cu} (h : c.Hooked) (hl : c.lookahead = 0) (d : List Byte) :
    (c.dictStart d).Hooked ∧ (c.dictStart d).lookahead = 0 := by
  unfold Cu.dictStart
  split
  · refine ⟨⟨{ h.mem with head := Mem.wf_nil _ }, ⟨h.fits.fit.move rfl ?_, ⟨h.fits.found.fast, h.fits.found.slow⟩, h.fits.room⟩,
      chains_of_empty rfl _, Nat.zero_le _, Nat.zero_le _⟩, hl⟩
    show 0 + c.lookahead ≤ c.windowSize
    omega
  · exact ⟨h, hl⟩

theorem Hooked.dictLoaded {c : Cu} (h : c.Hooked) (hl : c.lookahead = 0) (d : List Byte) :
    (c.dictLoaded d).Hooked ∧ (c.dictLoaded d).lookahead ≤ 2 := by
  obtain ⟨h0, hl0⟩ := h.dictStart hl d
  have hk := fills_fillWindowFrom (some (c.dictPart d)) h0.fits.fit.window
  have hr : (c.dictStart d).Refills ((c.dictStart d).fillWindowFrom (some (c.dictPart d))).1 := h0.fillLoop _ _
  obtain ⟨f, hf, hle⟩ := fillWindowFrom_some (c.dictStart d) (c.dictPart d)
  have hfree := (h0.fits.free hl0).fills hk
  unfold Cu.dictLoaded
  dsimp only
  rw [hf]
  generalize ((c.dictStart d).fillWindowFrom (some (c.dictPart d))).1 = g at hr hle hfree ⊢
  obtain ⟨h1, h2⟩ := hooked_dictLoop ((c.dictPart d).length + g.lookahead + 1) f hr.hooked hfree
  exact ⟨h1, h2 (by omega)⟩

/-- A dictionary load keeps what holds between two rounds. -/
theorem Steady.loadDictionary {c : Cu} (h : c.Steady) (hl : c.lookahead = 0) (d : List Byte) : (c.loadDictionary d).Steady := by
  obtain ⟨h1, h2⟩ := h.hooked.dictLoaded hl d
  have hs := slides_dictLoaded d c
  rw [loadDictionary_eq]
  generalize c.dictLoaded d = e at h1 h2 hs ⊢
  have hpos := h1.fits.fit.maxBlock_pos
  have hfits := fits_dictFinish h1.fits
  have hdesk : e.Desk := by
    obtain ⟨_, _, _, _, _, _, _, _, _, _, _, _, rfl⟩ := hs
    exact h.desk.congr rfl
  unfold dictFinish at hfits ⊢
  refine ⟨⟨{ h1.mem with }, hfits, (h1.chains.mono (Nat.le_add_right ..)).congr rfl, h2, Nat.le_add_left ..⟩, hdesk.congr rfl,
    fun _ => le_refl 2, fun _ => .inl (le_refl 2), fun _ => ⟨Int.natCast_nonneg _, ?_⟩⟩
  show ((e.strstart + e.lookahead : Nat) : Int) - ((e.strstart + e.lookahead : Nat) : Int) < e.maxBlock
  omega

/-! ## Reset and the start of a stream -/

/-- What holds of `CU` between two commands, with a stream open: before the header nothing is queued. -/
structure Idle (c : Cu) : Prop where
  steady : c.Steady
  fresh  : c.status = .init → c.pending = 0

theorem idle_resetKeep {c : Cu} (hm : c.MemWf) (hf : c.resetKeep.Fits) (hL : c.litBufsize ≤ 32768) : c.resetKeep.Idle := by
  have hmem := memWf_resetKeep hm
  have hpos := hf.fit.maxBlock_pos
  obtain ⟨hc, hu⟩ := tally_initBlock (memWf_resetRegs hm)
  obtain ⟨l, d, bl, he⟩ := initBlock_frame c.resetRegs
  rw [resetKeep_eq] at hf hmem hpos ⊢
  rw [he] at hf hmem hpos hc hu ⊢
  refine ⟨⟨⟨hmem, hf, chains_of_empty rfl _, Nat.zero_le _, Nat.zero_le _⟩, ⟨hc.congr rfl (fun _ _ => rfl) fun _ _ => rfl,
    ⟨hu.bl, hu.opt, hu.static⟩, ⟨Nat.one_pos, Nat.zero_le _⟩, ⟨Nat.zero_le _, fun _ => rfl⟩, hL, fun _ => Nat.zero_le _, fun h0 => ?_⟩,
    fun _ => le_refl 2, fun _ => .inl (le_refl 2), fun _ => ⟨le_refl _, ?_⟩⟩, fun _ => rfl⟩
  · exact if_pos h0
  · show ((0 : Nat) : Int) - 0 < _
    rw [Int.natCast_zero, Int.sub_zero, ← Int.natCast_zero, Int.ofNat_lt]
    exact hpos

/-- The buffer of the tally has at most 32768 entries (10_state.md R23). -/
theorem dflInitOperands_buffer {o : Operands} {wrap : Int} {wBits : Nat} (h : dflInitOperands o = some (wrap, wBits)) :
    2 ^ (o.memLevel.toNat + 6) ≤ 32768 := by
  unfold dflInitOperands at h
  split at h
  · cases h
  · split at h
    · cases h
    · rename_i hl
      have hm : o.memLevel ≤ 9 := by
        simp only [not_or, not_not, memLevelLegal, Bool.and_eq_true, decide_eq_true_eq] at hl
        exact hl.2.1.2
      calc 2 ^ (o.memLevel.toNat + 6) ≤ 2 ^ 15 := Nat.pow_le_pow_right (by decide) (by omega)
        _ = 32768 := rfl

/-! ## Every command -/

/-- What holds of `CU` between steps. -/
structure Ordered (c : Cu) : Prop where
  sound : c.Sound
  idle  : c.status ≠ .noStream → c.Idle

theorem Steady.returned {c : Cu} (h : c.Steady) (m : Msg) : (c.returned m).Steady :=
  h.emits { h.hooked.mem with } (emits_of rfl) rfl rfl (h.desk.of_books rfl ⟨h.desk.bits.bits, h.desk.bits.valid⟩ h.desk.aligned
    ⟨h.desk.flow.queue, fun h0 => absurd rfl h0⟩)

theorem Steady.started {c : Cu} (h : c.Steady) (o : Operands) : (c.started o).Queued :=
  h.queued.outs ⟨_, c.totalOut, c.pendingBuf, c.pending, c.pendingOut, c.biBuf, c.biValid, c.adler, c.status, c.gzindex, c.lastFlush, c.wrap, rfl⟩
    (emits_of rfl) (fun hm => { hm with }) ⟨h.desk.bits.bits, h.desk.bits.valid⟩ h.desk.aligned h.desk.flow.queue

/-- The registers that a command writes besides play no part. -/
theorem Steady.setMsg {c : Cu} (h : c.Steady) (a : Word32) (m : Msg) : Steady { c with adler := a, msg := m } :=
  h.emits { h.hooked.mem with } (emits_of rfl) rfl rfl (h.desk.congr rfl)

theorem pending_loadDictionary (c : Cu) (d : List Byte) : (c.loadDictionary d).pending = c.pending := by
  obtain ⟨_, _, _, _, _, _, _, _, _, _, _, _, h⟩ := slides_dictLoaded d c
  rw [loadDictionary_eq, h]
  rfl

theorem Answers.idle {c d : Cu} {i : Instr} (h : c.Answers i d) (hc : c.Ordered) (hd : d.status ≠ .noStream) : d.Idle := by
  cases h with
  | msg m => exact ⟨(hc.idle hd).steady.setMsg c.adler m, (hc.idle hd).fresh⟩
  | dictionary a d hs hl =>
    refine ⟨((hc.idle hs).steady.setMsg a c.msg).loadDictionary hl d, fun hi => ?_⟩
    rw [pending_loadDictionary]
    exact (hc.idle hs).fresh ((status_loadDictionary c a d).symm.trans hi)
  | push o flush m hs =>
    have hk := ((hc.idle hs.stream).steady.started o).push hs.space (hc.idle hs.stream).fresh flush
    exact ⟨hk.returned m, fun hi => absurd hi (status_push_ne_init (c := c.started o) flush hs.stream)⟩
  | reset hs hi =>
    have hst := (hc.idle hs).steady
    have hf := hst.hooked.fits.fit
    exact idle_resetKeep hst.hooked.mem (fits_resetKeep hf.emit.lengths hf.wBits hf.litBufsize) hst.desk.buffer
  | ended hi => exact absurd rfl hd

theorem idle_dflInit {s t : State} (h : s.cu.Ordered) (he : execDflInit s = .next t) (ht : t.cu.status ≠ .noStream) : t.cu.Idle := by
  have raised : ∀ {st : Status}, s.raise .cu st = t → t.cu.Idle := fun {st} hr => (hr ▸ answers_raise s .dflInit st).idle h ht
  unfold execDflInit at he
  split at he
  · exact raised (Host.Outcome.next.inj he)
  · split at he
    · exact raised (Host.Outcome.next.inj he)
    · rename_i wrap wBits ho
      cases he
      obtain ⟨hw, hL⟩ := dflInitOperands_ranges ho
      refine idle_resetKeep ?_ (fits_resetKeep (fun t => ?_) hw hL) (dflInitOperands_buffer ho)
      · constructor <;> exact Mem.wf_nil _
      · cases t <;> exact fun _ hn => by cases hn

theorem ordered_exec {i : Instr} {s t : State} (h : s.cu.Ordered) (he : exec i s = .next t) : t.cu.Ordered := by
  refine ⟨sound_exec h.sound he, fun ht => ?_⟩
  by_cases hi : i = .dflInit
  · subst hi
    exact idle_dflInit h he ht
  · exact (answers_exec hi he).idle h ht

end Cu

theorem cu_pushStep (s : State) : s.pushStep.cu = s.cu := by
  unfold State.pushStep
  split <;> rfl

theorem ordered_step {s t : State} (h : s.cu.Ordered) (he : step s = .next t) : t.cu.Ordered := by
  rcases step_cases he with rfl | ⟨c, rest, -, -, rfl | ⟨i, -, hx⟩⟩ | rfl
  · exact h
  · exact h
  · exact Cu.ordered_exec (s := { s with cmds := rest, port := c.ops }) h hx
  · rw [cu_pushStep]
    exact h

theorem ordered_runSteps : ∀ (n : Nat) {s t : State}, s.cu.Ordered → runSteps n s = .next t → t.cu.Ordered
  | 0, s, t, h, he => Host.Outcome.next.inj he ▸ h
  | n + 1, s, t, h, he => by
    rw [runSteps] at he
    split at he
    · exact ordered_runSteps n (ordered_step h ‹_›) he
    · exact absurd he (by simpa using ‹∀ t, step s = .next t → False› t)

theorem ordered_reset : State.reset.cu.Ordered := ⟨((safe_iff _).1 Tests.safe_reset).1, fun h => absurd rfl h⟩

/-- Settles O26, by induction on the steps of the run: what holds between two rounds of a strategy function (the tally counted, the chains
inside the window, the queue empty unless the output is full) is kept by every command. -/
theorem queueAndBitBufferStayInRange : Obligations.QueueAndBitBufferStayInRange := by
  intro cmds n t he hs
  have h := (ordered_runSteps n (s := { State.reset with cmds := cmds }) ordered_reset he).idle hs
  exact ⟨h.steady.desk.flow.queue, h.steady.hooked.fits.fit.emit.queue, h.steady.desk.bits⟩

end Sys2Proof.Machine
end

section
/-! PROOF. Fetching bits as a use of the stream (44_inflate_engine.md R301): `need` takes no bit off it, and with `n` bits there it ends
with `n` held. -/

namespace Sys2Proof.Machine.Du

theorem Took.ctl_eq {n : Nat} {d e : Du} (h : d.Took n e) : e.ctl = d.ctl := by rw [h.frame]
theorem Took.mode_eq {n : Nat} {d e : Du} (h : d.Took n e) : e.mode = d.mode := by rw [h.frame]

/-- Bits already held are not fetched again. -/
theorem need_of_le {n : Nat} {d : Du} (h : n ≤ d.bits) : d.need n = d := by
  cases n with
  | zero => rfl
  | succ n => rw [need, needLoop, if_neg (by omega)]

theorem needThen_of_le {n : Nat} {d : Du} (hr : d.ctl = .run) (h : n ≤ d.bits) (k : Du → Du) : d.needThen n k = k d := by
  rw [needThen, need_of_le h, andThen, if_pos hr]

/-- `e` follows `d` by fetching `n` bits and no byte more than these need. -/
structure Needed (n : Nat) (d e : Du) : Prop where
  took : d.Took 0 e
  held : n ≤ e.bits
  few  : d.bits < n → e.bits < n + 8

theorem needed_needLoop (n : Nat) : ∀ fuel {d : Du}, d.Ready n → d.CanNeed n → n ≤ d.bits + 8 * fuel → Needed n d (needLoop fuel n d)
  | 0, d, h, _, hf => ⟨took_refl h.stream, hf, fun hb => hb.trans (Nat.lt_add_of_pos_right (by decide))⟩
  | fuel + 1, d, h, hc, hf => by
    rw [needLoop]
    split
    · rename_i hb
      have ha : d.cur.availIn ≠ 0 := fun h0 => by have := h.there; unfold aheadBits at this; omega
      have hfetch := took_fetch h.stream (by unfold CanNeed at hc; omega) ha
      have hbits : d.fetch.bits = d.bits + 8 := rfl
      have hthere : n ≤ d.fetch.aheadBits := by have := hfetch.count; have := h.there; omega
      have ih := needed_needLoop n fuel (d := d.fetch) ⟨h.run, hfetch.stream, hthere⟩ (by unfold CanNeed at hc ⊢; omega) (by omega)
      rw [pull, if_neg ha, andThen, if_pos (show d.fetch.ctl = .run from h.run)]
      refine ⟨hfetch.trans ih.took, ih.held, fun _ => ?_⟩
      by_cases hn : d.fetch.bits < n
      · exact ih.few hn
      · cases fuel with
        | zero => rw [needLoop]; omega
        | succ fuel => rw [needLoop, if_neg hn]; omega
    · exact ⟨took_refl h.stream, by omega, fun hn => absurd hn ‹_›⟩

/-- `need(n)` with `n` bits there (44_inflate_engine.md R301). -/
theorem needed_need {n : Nat} {d : Du} (h : d.Ready n) (hc : d.CanNeed n) : Needed n d (d.need n) :=
  needed_needLoop n n h hc (by omega)

/-- With the bits there the rest of a rule follows. -/
theorem needThen_of_ready {n : Nat} {d : Du} (h : d.Ready n) (hc : d.CanNeed n) (k : Du → Du) : d.needThen n k = k (d.need n) :=
  if_pos ((needed_need h hc).took.ctl_eq.trans h.run)

/-- A code of `n` bits read and dropped. -/
theorem took_need_drop {n : Nat} {d : Du} (h : d.Ready n) (hc : d.CanNeed n) : d.Took n ((d.need n).drop n) := by
  have hn := needed_need h hc
  have := hn.took.trans (took_drop hn.took.stream hn.held)
  rwa [Nat.zero_add] at this

theorem Ready.mono {n m : Nat} {d : Du} (h : d.Ready n) (hm : m ≤ n) : d.Ready m := ⟨h.run, h.stream, hm.trans h.there⟩

theorem Took.ready {m n : Nat} {d e : Du} (h : d.Took m e) (k : d.Ready (m + n)) : e.Ready n :=
  ⟨h.ctl_eq.trans k.run, h.stream, by have := h.count; have := k.there; omega⟩

end Sys2Proof.Machine.Du
end

section
/-! PROOF. An instruction read as a code or as a decode-table entry acts as its symbol (30_encoding.md R110, R130, R131): its bits are
dropped, and what follows is the operation that the symbol's own instruction runs. -/

namespace Sys2Proof.Machine

open Claims

theorem onStream_withDu {f : Du → Du} {d : Du} (h : d.ctl = .run) (s : State) : onStream f (withDu s d) = .next (withDu s (f d)) :=
  if_pos h

theorem onStream_run {f : Du → Du} {s : State} (h : s.du.ctl = .run) : onStream f s = .next (withDu s (f s.du)) := if_pos h

/-! ## The symbols as operations -/

theorem exec_lengthInstrs : ∀ k < 29, ∀ s, exec (lengthInstrs.getD k .eob) s = onStream (Du.symLen (baseLength k) (extraLbits k)) s := by
  intro k hk s
  interval_cases k <;> rfl

theorem exec_distanceInstrs : ∀ k < 30, ∀ s,
    exec (distanceInstrs.getD k (.distReserved false)) s = onStream (Du.symDist (baseDist k) (extraDbits k)) s := by
  intro k hk s
  interval_cases k <;> rfl

theorem exec_lengthRows : ∀ row ∈ lengthRows, (∀ s, exec row.1 s = onStream (Du.symLen row.2.1 row.2.2) s) ∧
    row.2.1 < 65536 ∧ row.2.2 < 14 := by
  intro row hr
  fin_cases hr <;> exact ⟨fun _ => rfl, by decide⟩

theorem exec_distRows : ∀ row ∈ distRows, (∀ s, exec row.1 s = onStream (Du.symDist row.2.1 row.2.2) s) ∧
    row.2.1 < 65536 ∧ row.2.2 < 14 := by
  intro row hr
  fin_cases hr <;> exact ⟨fun _ => rfl, by decide⟩

/-- A literal/length symbol of a number (30_encoding.md R116) runs the operation of that number. -/
theorem exec_llSymbol {n : Nat} {i : Instr} (hn : n < 512) (h : decode .llSymbol n = .ok i) (s : State) :
    exec i s = onStream (Du.llSymbol n) s := by
  have hf : ∀ {f : Du → Du}, (∀ d, d.llSymbol n = f d) → onStream (Du.llSymbol n) s = onStream f s := fun hd => by rw [funext hd]
  simp only [decode, decodeLlSymbol, Nat.mod_eq_of_lt hn] at h
  split at h
  · rw [hf fun d => if_pos ‹_›, ← Except.ok.inj h]
    show onStream (Du.symLit (BitVec.ofNat 8 n).toNat) s = _
    rw [BitVec.toNat_ofNat, Nat.mod_eq_of_lt ‹n < 256›]
  · split at h
    · rw [hf fun d => (if_neg ‹_›).trans (if_pos ‹_›), ← Except.ok.inj h]
      rfl
    · split at h
      · rw [hf fun d => (if_neg ‹_›).trans ((if_neg ‹_›).trans (if_pos ‹_›)), ← Except.ok.inj h, exec_lengthInstrs _ (by omega)]
      · split at h
        · rw [hf fun d => (if_neg ‹_›).trans ((if_neg ‹_›).trans (if_neg ‹_›)), ← Except.ok.inj h]
          rfl
        · cases h

/-- A distance symbol of a number (30_encoding.md R117) runs the operation of that number. -/
theorem exec_distSymbol {n : Nat} {i : Instr} (hn : n < 32) (h : decode .distSymbol n = .ok i) (s : State) :
    exec i s = onStream (Du.distSymbol n) s := by
  have hf : ∀ {f : Du → Du}, (∀ d, d.distSymbol n = f d) → onStream (Du.distSymbol n) s = onStream f s := fun hd => by rw [funext hd]
  simp only [decode, decodeDistSymbol, Nat.mod_eq_of_lt hn] at h
  split at h
  · rw [hf fun d => if_pos ‹_›, ← Except.ok.inj h, exec_distanceInstrs _ ‹_›]
  · rw [hf fun d => if_neg ‹_›, ← Except.ok.inj h]
    rfl

/-- `g` acts as the instruction `i` with `n` bits of the stream in front of it. -/
def ReadsAs (n : Nat) (g : Du → Du) (i : Instr) (s : State) : Prop :=
  ∃ (d : Du) (t : State), s.du.Took n d ∧ onStream g s = .next t ∧ exec i (withDu s d) = .next t

/-- A code of `n` bits in front of an operation: the bits go, and an instruction that runs the operation does the rest. -/
theorem code_reads {n : Nat} {f : Du → Du} {i : Instr} {s : State} (h : s.du.Ready n) (hn : n ≤ 25)
    (hi : ∀ s, exec i s = onStream f s) : ReadsAs n (fun d => d.needThen n fun d => f (d.drop n)) i s := by
  have ht := Du.took_need_drop h (.inl hn)
  refine ⟨_, withDu s (f ((s.du.need n).drop n)), ht, ?_, ?_⟩
  · rw [onStream_run h.run, Du.needThen_of_ready h (.inl hn)]
  · rw [hi, onStream_withDu (ht.ctl_eq.trans h.run)]

/-- A literal is the symbol of its number. -/
theorem exec_lit (b : Byte) (s : State) : exec (.lit b) s = onStream (Du.llSymbol b.toNat) s := by
  rw [show Du.llSymbol b.toNat = Du.symLit b.toNat from funext fun d => if_pos b.isLt]
  rfl

/-- Settles O51: each fixed code is its bits in front of the operation of its symbol's number, which the symbol's instruction runs. -/
theorem fixedCodesAct : Obligations.FixedCodesAct := by
  intro s
  refine ⟨fun b _ h => code_reads h (by decide) (exec_lit b), fun b _ h => code_reads h (by decide) (exec_lit b), ?_, ?_, ?_⟩
  · exact fun v i _ _ hi h => code_reads h (by decide) (exec_llSymbol v.isLt hi)
  · exact fun v i _ _ hi h => code_reads h (by decide) (exec_llSymbol v.isLt hi)
  · exact fun v i hi h => code_reads h (by decide) (exec_distSymbol v.isLt hi)

/-! ## Decode-table entries -/

theorem mkEntry_of_fields {e : Word32} {op bits val : Nat} (ho : op = entryOp e) (hb : bits = entryBits e) (hv : val = entryVal e) :
    mkEntry op bits val = e := by
  subst ho hb hv
  simp only [mkEntry, byteOf, word16Of, entryOp, entryBits, entryVal, BitVec.ofNat_toNat, BitVec.setWidth_eq]
  ext i hi
  have hbit : e.getLsbD i = e[i] := BitVec.getLsbD_eq_getElem hi
  simp only [BitVec.getElem_append, BitVec.getElem_extractLsb']
  split
  · rw [Nat.zero_add, hbit]
  · split
    · rw [show 16 + (i - 16) = i by omega, hbit]
    · rw [show 24 + (i - 16 - 8) = i by omega, hbit]

/-- An entry that is no link is executed as what its word holds (30_encoding.md R130, R131). -/
theorem exec_tableEntry {e : Word32} {i : Instr} (h : decode .tableEntry e.toNat = .ok i) (hl : ¬ (1 ≤ entryOp e ∧ entryOp e ≤ 15))
    (s : State) : exec i s = onStream (Du.execEntry e) s := by
  have hb : (BitVec.ofNat 8 (fieldOf e.toNat 24 8)).toNat = entryBits e := by
    simp [fieldOf, entryBits, BitVec.extractLsb'_toNat]
  have ho : fieldOf e.toNat 16 8 = entryOp e := by simp [fieldOf, entryOp, BitVec.extractLsb'_toNat]
  have hv : (BitVec.ofNat 16 e.toNat).toNat = entryVal e := by simp [entryVal, BitVec.extractLsb'_toNat]
  have key : ∀ {op bits val : Nat}, op = entryOp e → bits = entryBits e → val = entryVal e →
      onStream (Du.execEntry (mkEntry op bits val)) s = onStream (Du.execEntry e) s := fun h1 h2 h3 => by
    rw [mkEntry_of_fields h1 h2 h3]
  have h0 : BitVec.ofNat 16 e.toNat = 0 → 0 = entryVal e := fun hz => by rw [← hv, hz]; rfl
  simp only [decode, decodeTableEntry, ho] at h
  split at h
  · rw [← Except.ok.inj h]
    exact key (Eq.symm ‹_›) hb hv
  · split at h
    · omega
    · split at h
      · rw [← Except.ok.inj h]
        refine key ?_ hb hv
        rw [BitVec.toNat_ofNat]
        omega
      · split at h
        · rename_i hc
          rw [← Except.ok.inj h]
          exact key hc.1.symm hb (h0 hc.2)
        · split at h
          · rename_i hc
            rw [← Except.ok.inj h]
            exact key hc.1.symm hb (h0 hc.2)
          · cases h

/-! ### What the states do with an entry -/

theorem entry_fields {op n val : Nat} (ho : op < 256) (hn : n ≤ 15) (hv : val < 65536) :
    entryOp (mkEntry op n val) = op ∧ entryBits (mkEntry op n val) = n ∧ entryVal (mkEntry op n val) = val := by
  rw [entryOp_mkEntry, entryBits_mkEntry, entryVal_mkEntry]
  omega

section
variable {n : Nat} (hn : n ≤ 15) (d : Du)
include hn

theorem applyLl_literal {val : Nat} (hv : val < 65536) : d.applyLl (mkEntry 0 n val) = (d.drop n).symLit val := by
  obtain ⟨ho, hb, hv⟩ := entry_fields (op := 0) (by decide) hn hv
  simp [Du.applyLl, ho, hb, hv]

theorem applyLl_endOfBlock : d.applyLl (mkEntry 96 n 0) = (d.drop n).symEob := by
  obtain ⟨ho, hb, hv⟩ := entry_fields (op := 96) (val := 0) (by decide) hn (by decide)
  simp [Du.applyLl, ho, hb, hv, Du.bitSet, Du.symEob]

theorem applyLl_invalid : d.applyLl (mkEntry 64 n 0) = (d.drop n).symLlInvalid := by
  obtain ⟨ho, hb, hv⟩ := entry_fields (op := 64) (val := 0) (by decide) hn (by decide)
  simp [Du.applyLl, ho, hb, hv, Du.bitSet, Du.symLlInvalid]

theorem applyLl_base {x val : Nat} (hx : x < 14) (hv : val < 65536) :
    d.applyLl (mkEntry (16 + x) n val) = (d.drop n).symLen val x := by
  obtain ⟨ho, hb, hv⟩ := entry_fields (op := 16 + x) (by omega) hn hv
  have h5 : (16 + x) / 32 % 2 = 0 := by omega
  have h6 : (16 + x) / 64 % 2 = 0 := by omega
  simp [Du.applyLl, ho, hb, hv, Du.bitSet, h5, h6, Nat.mod_eq_of_lt (show x < 16 by omega)]

theorem applyDist_invalid : d.applyDist (mkEntry 64 n 0) = (d.drop n).symDistInvalid := by
  obtain ⟨ho, hb, -⟩ := entry_fields (op := 64) (val := 0) (by decide) hn (by decide)
  simp [Du.applyDist, ho, hb, Du.bitSet]

theorem applyDist_base {x val : Nat} (hx : x < 14) (hv : val < 65536) :
    d.applyDist (mkEntry (16 + x) n val) = (d.drop n).symDist val x := by
  obtain ⟨ho, hb, hv⟩ := entry_fields (op := 16 + x) (by omega) hn hv
  have h6 : (16 + x) / 64 % 2 = 0 := by omega
  simp [Du.applyDist, ho, hb, hv, Du.bitSet, h6, Nat.mod_eq_of_lt (show x < 16 by omega)]

end

theorem applyEntry_len {d : Du} (h : d.mode = .len) (e : Word32) : d.applyEntry e = d.applyLl e := by rw [Du.applyEntry, h]
theorem applyEntry_dist {d : Du} (h : d.mode = .dist) (e : Word32) : d.applyEntry e = d.applyDist e := by rw [Du.applyEntry, h]
theorem applyEntry_codelens {d : Du} (h : d.mode = .codelens) (e : Word32) : d.applyEntry e = d.applyCl e := by rw [Du.applyEntry, h]

/-- An entry that the state applies as `n` bits in front of an operation: the bits go, then the operation acts. -/
theorem execEntry_acts {op n val : Nat} {f : Du → Du} {s : State} (h : s.du.Ready n) (hn : n ≤ 15)
    (hf : ∀ d : Du, d.mode = s.du.mode → d.applyEntry (mkEntry op n val) = f (d.drop n)) :
    onStream (Du.execEntry (mkEntry op n val)) s = .next (withDu s (f ((s.du.need n).drop n))) := by
  have hb : entryBits (mkEntry op n val) = n := (entryBits_mkEntry ..).trans (Nat.mod_eq_of_lt (by omega))
  rw [onStream_run h.run, Du.execEntry, hb, Du.needThen_of_ready h (.inl (by omega)),
    hf _ (Du.needed_need h (.inl (by omega))).took.mode_eq]

/-- The same beside the instruction of the operation. -/
theorem entry_reads {op n val : Nat} {f : Du → Du} {i : Instr} {s : State} (h : s.du.Ready n) (hn : n ≤ 15)
    (hf : ∀ d : Du, d.mode = s.du.mode → d.applyEntry (mkEntry op n val) = f (d.drop n)) (hi : ∀ s, exec i s = onStream f s) :
    ReadsAs n (Du.execEntry (mkEntry op n val)) i s := by
  have ht := Du.took_need_drop h (.inl (by omega))
  exact ⟨_, _, ht, execEntry_acts h hn hf, by rw [hi, onStream_withDu (ht.ctl_eq.trans h.run)]⟩

/-! ### Code-length symbols with extra bits -/

/-- An operation on a code-length code of `n` bits that fetches `x` extra bits with it. -/
def ExtraBits (x : Nat) (g : Nat → Du → Du) : Prop := ∃ body : Du → Du, ∀ n d, g n d = d.needThen (n + x) fun d => body (d.drop n)

theorem extraBits_clCopyPrev : ExtraBits 2 Du.clCopyPrev :=
  ⟨fun d => if d.haveCount = 0 then d.bad .invalidBitLengthRepeat
    else (d.drop 2).repeatLen (d.lensAt (d.haveCount - 1)) (3 + d.peek 2), fun _ _ => rfl⟩

theorem extraBits_clZeros (base x : Nat) : ExtraBits x fun n => Du.clZeros n base x :=
  ⟨fun d => (d.drop x).repeatLen 0 (base + d.peek x), fun _ _ => rfl⟩

/-- The code is taken off with its extra bits fetched, so that the symbol's instruction, which has no code, finds them held. -/
theorem ExtraBits.reads {x n val : Nat} {g : Nat → Du → Du} {i : Instr} {s : State} (hg : ExtraBits x g)
    (h : s.du.Ready (n + x)) (hn : n ≤ 15) (hx : x ≤ 7)
    (hf : ∀ d : Du, d.mode = s.du.mode → d.applyEntry (mkEntry 0 n val) = g n d) (hi : ∀ s, exec i s = onStream (g 0) s) :
    ReadsAs n (Du.execEntry (mkEntry 0 n val)) i s := by
  obtain ⟨body, hg⟩ := hg
  have hb : entryBits (mkEntry 0 n val) = n := (entryBits_mkEntry ..).trans (Nat.mod_eq_of_lt (by omega))
  have h1 := Du.needed_need (h.mono (Nat.le_add_right n x)) (.inl (by omega))
  have hr := h1.took.ready (n := n + x) (by rwa [Nat.zero_add])
  have h2 := Du.needed_need hr (.inl (by omega))
  generalize he : (s.du.need n).need (n + x) = e at h2
  have ht : s.du.Took n (e.drop n) := by
    have := (h1.took.trans h2.took).trans (Du.took_drop h2.took.stream (show n ≤ e.bits by have := h2.held; omega))
    simpa only [Nat.zero_add] using this
  have hrun : (e.drop n).ctl = .run := ht.ctl_eq.trans h.run
  refine ⟨_, withDu s (body (e.drop n)), ht, ?_, ?_⟩
  · rw [onStream_run h.run, Du.execEntry, hb, Du.needThen_of_ready (h.mono (Nat.le_add_right n x)) (.inl (by omega)), hf _ h1.took.mode_eq,
      hg, Du.needThen_of_ready hr (.inl (by omega)), he]
  · rw [hi, onStream_withDu hrun, hg, Du.needThen_of_le hrun (show 0 + x ≤ e.bits - n by have := h2.held; omega), Du.drop_zero]

/-- The entries of the code-length code (44_inflate_engine.md R323). -/
theorem clEntry_reads {n : Nat} {val : Word16} {i : Instr} {s : State} (hn : n ≤ 15) (hi : decode .clSymbol val.toNat = .ok i)
    (hv : val.toNat < 32) (hm : s.du.mode = .codelens)
    (h : s.du.Ready (n + (if val = 16 then 2 else if val = 17 then 3 else if val = 18 then 7 else 0))) :
    ReadsAs n (Du.execEntry (mkEntry 0 n val.toNat)) i s := by
  have hval : ∀ d : Du, d.mode = s.du.mode → d.applyEntry (mkEntry 0 n val.toNat) =
      if val.toNat < 16 then d.clLength n val.toNat else if val.toNat = 16 then d.clCopyPrev n
      else if val.toNat = 17 then d.clZeros n 3 3 else d.clZeros n 11 7 := fun d hd => by
    obtain ⟨-, hb, hv⟩ := entry_fields (op := 0) (by decide) hn val.isLt
    rw [applyEntry_codelens (hd.trans hm), Du.applyCl, hb, hv]
  simp only [decode, decodeClSymbol, Nat.mod_eq_of_lt hv] at hi
  split at hi
  · rename_i h16
    obtain rfl := Except.ok.inj hi
    refine entry_reads (f := fun d => d.pushLen val.toNat) (h.mono (Nat.le_add_right ..)) hn (fun d hd => by rw [hval d hd, if_pos h16]; rfl)
      fun s => ?_
    show onStream (fun d => (d.drop 0).pushLen (BitVec.ofNat 4 val.toNat).toNat) s = _
    simp only [Du.drop_zero, BitVec.toNat_ofNat, Nat.mod_eq_of_lt (show val.toNat < 2 ^ 4 from h16)]
  · split at hi
    · rename_i hc
      obtain rfl := Except.ok.inj hi
      obtain rfl : val = 16 := BitVec.eq_of_toNat_eq hc
      exact extraBits_clCopyPrev.reads h hn (by decide) hval fun _ => rfl
    · split at hi
      · rename_i hc
        obtain rfl := Except.ok.inj hi
        obtain rfl : val = 17 := BitVec.eq_of_toNat_eq hc
        exact (extraBits_clZeros 3 3).reads h hn (by decide) hval fun _ => rfl
      · split at hi
        · rename_i hc
          obtain rfl := Except.ok.inj hi
          obtain rfl : val = 18 := BitVec.eq_of_toNat_eq hc
          exact (extraBits_clZeros 11 7).reads h hn (by decide) hval fun _ => rfl
        · cases hi

/-! ### Links -/

/-- A lookup whose entry needs no more bits than are held. -/
theorem withEntry_of_le {entry : Du → Word32} {needed : Word32 → Nat} {k : Word32 → Du → Du} {d : Du} (h : needed (entry d) ≤ d.bits) :
    d.withEntry entry needed k = k (entry d) d := by
  rw [Du.withEntry, Du.entryLoop, if_pos h]

/-- The second lookup behind a link (44_inflate_engine.md R324), with all its bits held. -/
theorem viaLink_of_le {r : TableRef} {n w val : Nat} {k : Word32 → Du → Du} {d : Du} {e : Word32} (hn : n ≤ 15) (hw : w ≤ 9) (hv : val < 65536)
    (he : e = d.tableAt r (val + d.ahead / 2 ^ n % 2 ^ w)) (hb : n + w ≤ d.bits) (hl : n + entryBits e ≤ d.bits) :
    d.viaLink r (mkEntry w n val) k = k e (d.drop n) := by
  obtain ⟨h2, h1, h3⟩ := entry_fields (show w < 256 by omega) hn hv
  have hx : d.tableAt r (entryVal (mkEntry w n val) + d.peek (entryBits (mkEntry w n val) + entryOp (mkEntry w n val)) /
      2 ^ entryBits (mkEntry w n val)) = e := by
    rw [h1, h2, h3, Du.peek_eq hb, Nat.pow_add, Nat.mod_mul_right_div_self, he]
  rw [Du.viaLink, withEntry_of_le (by rw [hx, h1]; exact hl), hx, h1]

/-- Behind a link the sub-table's entry acts in its place. -/
theorem link_acts {n : Nat} {bits : Byte} {width : BitVec 4} {val : Word16} {e : Word32} {i : Instr} {s : State} (hbits : bits.toNat = n)
    (hn : n ≤ 15) (hw : width.toNat ≤ 9) (hr : s.du.ctl = .run) (hs : s.du.StreamWf) (hb : n + width.toNat ≤ s.du.bits)
    (he : s.du.mode = .len ∧ e = s.du.tableAt s.du.lencode (val.toNat + s.du.ahead / 2 ^ n % 2 ^ width.toNat) ∨
      s.du.mode = .dist ∧ e = s.du.tableAt s.du.distcode (val.toNat + s.du.ahead / 2 ^ n % 2 ^ width.toNat))
    (hl : n + entryBits e ≤ s.du.bits) (hi : decode .tableEntry e.toNat = .ok i) (ho : ¬ (1 ≤ entryOp e ∧ entryOp e ≤ 15)) :
    ∃ (d : Du) (t : State), s.du.Took n d ∧ exec (.entryLink bits width val) s = .next t ∧ exec i (withDu s d) = .next t := by
  refine ⟨s.du.drop n, withDu s ((s.du.drop n).applyEntry e), Du.took_drop hs (by omega), ?_, ?_⟩
  · show execEntryLink bits width val s = _
    rw [execEntryLink, onStream_run hr, hbits, Du.needThen_of_le hr (by omega)]
    rcases he with ⟨hm, he⟩ | ⟨hm, he⟩ <;> rw [hm] <;> dsimp only <;> rw [viaLink_of_le hn hw val.isLt he hb hl]
    · rw [applyEntry_len (d := s.du.drop n) hm]
    · rw [applyEntry_dist (d := s.du.drop n) hm]
  · rw [exec_tableEntry hi ho, onStream_withDu (d := s.du.drop n) hr, Du.execEntry,
      Du.needThen_of_le (d := s.du.drop n) hr (show entryBits e ≤ s.du.bits - n by omega)]

/-- Settles O52: the state that `MODE` names applies each class of entry as its bits in front of the operation that the symbol's own
instruction runs; a link hands the entry of the sub-table on. -/
theorem tableEntriesAct : Obligations.TableEntriesAct := by
  intro s bits hn
  refine ⟨?_, ?_, ?_, ?_, ?_, ?_, ?_⟩
  · intro val hv hm h
    refine entry_reads (f := fun d => d.symLit val.toNat) h hn (fun d hd => ?_) fun s => ?_
    · rw [applyEntry_len (hd.trans hm), applyLl_literal hn d (by omega)]
    · show onStream (Du.symLit (val.setWidth 8).toNat) s = _
      rw [BitVec.toNat_setWidth, Nat.mod_eq_of_lt hv]
  · exact fun val i hi hv hm h => clEntry_reads hn hi hv hm h
  · intro hm h
    have ht := Du.took_need_drop h (.inl (by omega))
    have hr := ht.ctl_eq.trans h.run
    refine ⟨_, _, _, ht, execEntry_acts (f := Du.symEob) h hn fun d hd => ?_, onStream_withDu hr s,
      execEntry_acts (f := Du.symLlInvalid) h hn fun d hd => ?_, onStream_withDu hr s⟩
    · rw [applyEntry_len (hd.trans hm), applyLl_endOfBlock hn]
    · rw [applyEntry_len (hd.trans hm), applyLl_invalid hn]
  · intro hm h
    exact entry_reads (f := Du.symDistInvalid) h hn (fun d hd => by rw [applyEntry_dist (hd.trans hm), applyDist_invalid hn]) fun _ => rfl
  · intro row hrow hm h
    obtain ⟨he, hv, hx⟩ := exec_lengthRows row hrow
    have hx4 : (BitVec.ofNat 4 row.2.2).toNat = row.2.2 := by rw [BitVec.toNat_ofNat]; omega
    have hv16 : (BitVec.ofNat 16 row.2.1).toNat = row.2.1 := by rw [BitVec.toNat_ofNat]; omega
    refine entry_reads h hn (fun d hd => ?_) he
    rw [hx4, hv16, applyEntry_len (hd.trans hm), applyLl_base hn d hx hv]
  · intro row hrow hm h
    obtain ⟨he, hv, hx⟩ := exec_distRows row hrow
    have hx4 : (BitVec.ofNat 4 row.2.2).toNat = row.2.2 := by rw [BitVec.toNat_ofNat]; omega
    have hv16 : (BitVec.ofNat 16 row.2.1).toNat = row.2.1 := by rw [BitVec.toNat_ofNat]; omega
    refine entry_reads h hn (fun d hd => ?_) he
    rw [hx4, hv16, applyEntry_dist (hd.trans hm), applyDist_base hn d hx hv]
  · exact fun width val e i _ hw hr hs hb he hl hi ho => link_acts rfl hn hw hr hs hb he hl hi ho

end Sys2Proof.Machine
end

section
/-! PROOF. A stored block read whole (30_encoding.md R107 to R109; 44_inflate_engine.md R318 to R320, R339): one lemma for each round of
the state loop, from the head of the stream to `DONE`. -/

namespace Sys2Proof.Machine

namespace Du

/-! ## Whole bytes -/

/-- With nothing held `need` fetches the bytes that `n` bits take, and these are what is held. -/
theorem need_of_empty {n k : Nat} {d : Du} (hr : d.ctl = .run) (hh : d.hold = 0) (hb : d.bits = 0) (hn : 0 < n ∧ n ≤ 32)
    (hk : k = (n + 7) / 8) (hc : d.cur.nextIn + k ≤ d.cur.inp.length) :
    d.need n = { d with hold := word32Of (leNat (d.cur.nextBytes k)), bits := 8 * k, cur := d.cur.advance k } := by
  have hw : d.StreamWf := ⟨by rw [hh, hb]; decide, by omega, by omega⟩
  have hthere : n ≤ d.aheadBits := by unfold aheadBits Cursor.availIn; omega
  obtain ⟨ht, hheld, hfew⟩ := needed_need ⟨hr, hw, hthere⟩ (.inr ⟨hn.2, by rw [hb]⟩)
  have hs := ht.stream
  have hcount := ht.count
  have hvalue := ht.value
  have hf := ht.frame
  generalize d.need n = e at *
  have hinp : e.cur.inp = d.cur.inp := by rw [hf]
  have hn8 : e.cur.nextIn = d.cur.nextIn + k ∧ e.bits = 8 * k := by
    have := hs.cursor
    simp only [aheadBits, Cursor.availIn, hinp] at this hcount
    omega
  have hlen : (d.cur.nextBytes k).length = k := by
    rw [Cursor.nextBytes, List.length_take, List.length_drop]
    omega
  have hsplit : d.cur.inp.drop d.cur.nextIn = d.cur.nextBytes k ++ e.cur.inp.drop e.cur.nextIn := by
    rw [hinp, hn8.1, ← List.drop_drop, Cursor.nextBytes, List.take_append_drop]
  have hhold : e.hold.toNat = leNat (d.cur.nextBytes k) := by
    simp only [ahead, hh, hb, hsplit, leNat_append, hlen, hn8.2, Nat.pow_zero, Nat.div_one, Nat.one_mul] at hvalue
    simpa using hvalue
  rw [hf, hn8.1, hn8.2, ← hhold, word32Of, BitVec.ofNat_toNat, BitVec.setWidth_eq]
  rfl

/-- Input bytes copied to the output, one by one (44_inflate_engine.md R320). -/
theorem copyBytes_eq {n : Nat} {d : Du} (ha : d.cur.nextIn + n ≤ d.cur.inp.length) :
    forRange 0 n (fun _ d => d.copyByte) d = { d with cur := { d.cur with
      nextIn := d.cur.nextIn + n, out := d.cur.out ++ d.cur.nextBytes n, availOut := d.cur.availOut - n } } := by
  refine forRange_range (P := fun k (e : Du) => e = { d with cur := { d.cur with
    nextIn := d.cur.nextIn + k, out := d.cur.out ++ d.cur.nextBytes k, availOut := d.cur.availOut - k } }) (fun k hk e he => ?_) ?_
  · subst he
    have hlt : d.cur.nextIn + k < d.cur.inp.length := by omega
    have hbyte : d.cur.nextBytes (k + 1) = d.cur.nextBytes k ++ [d.cur.inp.getD (d.cur.nextIn + k) 0#8] := by
      simp [Cursor.nextBytes, List.take_add_one, List.getD_eq_getElem?_getD, hlt]
    simp only [copyByte, Cursor.outPut, Cursor.advance, Cursor.peekByte, hbyte, List.append_assoc, Nat.sub_sub, Nat.add_assoc]
  · simp [Cursor.nextBytes]

/-! ## The rounds -/

/-- A push in progress on a raw stream: the state, the bits held (all zero), whether the block is the last, and the cursors. -/
structure Stands (m : Mode) (bits : Nat) (last : Bool) (cur : Cursor) (d : Du) : Prop where
  run  : d.ctl = .run
  raw  : d.wrap = 0
  mode : d.mode = m
  hold : d.hold = 0
  bits : d.bits = bits
  last : d.last = last
  cur  : d.cur = cur

theorem Stands.runLoop_eq {m : Mode} {b : Nat} {l : Bool} {cur : Cursor} {d : Du} (h : d.Stands m b l cur) (fuel : Nat) :
    runLoop (fuel + 1) d = runLoop fuel d.rule := if_pos h.run

variable {cur : Cursor} {d : Du}

theorem Stands.head {l : Bool} (h : d.Stands .head 0 l cur) : d.rule.Stands .type 0 l cur := by
  have he : d.rule = { d with mode := .type } := by
    rw [rule, h.mode]
    exact if_pos h.raw
  rw [he]
  exact ⟨h.run, h.raw, rfl, h.hold, h.bits, h.last, h.cur⟩

/-- The header `01` of the last block, stored (30_encoding.md R108). -/
theorem Stands.type (h : d.Stands .type 0 false cur) (hc : cur.nextIn < cur.inp.length) (hn : cur.nextBytes 1 = [1]) :
    d.rule.Stands .stored 5 true (cur.advance 1) := by
  have hneed := need_of_empty (n := 3) (k := 1) h.run h.hold h.bits (by decide) rfl (by rw [h.cur]; exact hc)
  rw [h.cur, hn] at hneed
  have hheld : (d.need 3).hold = 1#32 := (congrArg Du.hold hneed).trans (by decide : word32Of (leNat [1]) = 1#32)
  have hpeek : (d.need 3).peek 3 / 2 = 0 := by
    rw [peek, hheld]
    decide
  have he : d.rule = (d.need 3).blockStored true := by
    rw [show d.rule = d.ruleType by rw [rule, h.mode], ruleType, if_neg (by simp [h.last]), needThen, andThen,
      if_pos (by rw [hneed]; exact h.run), hheld]
    simp only [hpeek]
    rfl
  have hdrop : (1#32 >>> 1) >>> 2 = 0#32 := by decide
  have hnew : ((d.need 3).blockStored true).hold = 0 := by
    show ((d.need 3).hold >>> 1) >>> 2 = 0#32
    rw [hheld, hdrop]
  rw [he]
  refine ⟨?_, ?_, rfl, hnew, ?_, rfl, ?_⟩ <;> rw [hneed]
  · exact h.run
  · exact h.raw
  · rfl
  · rfl

/-- The length word of a stored block behind the padding of its header (30_encoding.md R109). -/
theorem Stands.stored {n : Nat} (h : d.Stands .stored 5 true cur) (hc : cur.nextIn + 4 ≤ cur.inp.length) (hlen : n ≤ 65535)
    (hn : cur.nextBytes 4 = [byteOf n, byteOf (n / 256), byteOf (65535 - n), byteOf ((65535 - n) / 256)]) :
    d.rule.Stands .copy 0 true (cur.advance 4) ∧ d.rule.length = n := by
  have hhold : d.bytebits.hold = 0 := by
    show d.hold >>> _ = _
    rw [h.hold]
    exact BitVec.zero_ushiftRight
  have hbits : d.bytebits.bits = 0 := by
    show d.bits - d.bits % 8 = 0
    rw [h.bits]
  have hneed := need_of_empty (n := 32) (k := 4) (d := d.bytebits) h.run hhold hbits (by decide) rfl (by exact h.cur ▸ hc)
  have hval : leNat (d.bytebits.cur.nextBytes 4) = n + 65536 * (65535 - n) := by
    show leNat (d.cur.nextBytes 4) = _
    simp only [h.cur, hn, leNat, byteOf, BitVec.toNat_ofNat]
    omega
  rw [hval] at hneed
  have hword : (d.bytebits.need 32).hold.toNat = n + 65536 * (65535 - n) := by
    rw [hneed]
    exact Nat.mod_eq_of_lt (by omega)
  have hlo : (d.bytebits.need 32).hold.extractLsb' 0 16 = BitVec.ofNat 16 n := by
    apply BitVec.eq_of_toNat_eq
    simp only [BitVec.extractLsb'_toNat, hword, BitVec.toNat_ofNat, Nat.shiftRight_eq_div_pow]
    omega
  have hhi : (d.bytebits.need 32).hold.extractLsb' 16 16 = ~~~BitVec.ofNat 16 n := by
    apply BitVec.eq_of_toNat_eq
    simp only [BitVec.extractLsb'_toNat, hword, BitVec.toNat_not, BitVec.toNat_ofNat, Nat.shiftRight_eq_div_pow, Nat.reducePow]
    rw [Nat.add_mul_div_left _ _ (by decide)]
    omega
  have he : d.rule = { (d.bytebits.need 32).initbits with length := n, mode := .copy } := by
    rw [show d.rule = d.ruleStored by rw [rule, h.mode], ruleStored, needThen, andThen, if_pos (by rw [hneed]; exact h.run)]
    dsimp only
    rw [hlo, hhi, storedLengths, if_neg (by rw [BitVec.not_not]; exact fun k => k rfl), BitVec.toNat_ofNat,
      Nat.mod_eq_of_lt (show n < 2 ^ 16 by omega)]
  rw [he, hneed]
  exact ⟨⟨h.run, h.raw, rfl, rfl, rfl, h.last, congrArg (fun c => Cursor.advance c 4) h.cur⟩, rfl⟩

theorem Stands.copied (h : d.Stands .copy 0 true cur) (h0 : d.length = 0) : d.rule.Stands .type 0 true cur := by
  have he : d.rule = { d with mode := .type } := by
    rw [rule, h.mode]
    exact if_neg (by simp [h0])
  rw [he]
  exact ⟨h.run, h.raw, rfl, h.hold, h.bits, h.last, h.cur⟩

/-- The cursors after `n` input bytes copied to the output. -/
def copiedCursor (n : Nat) (cur : Cursor) : Cursor :=
  { cur with nextIn := cur.nextIn + n, out := cur.out ++ cur.nextBytes n, availOut := cur.availOut - n }

theorem copiedCursor_zero (cur : Cursor) : copiedCursor 0 cur = cur := by simp [copiedCursor, Cursor.nextBytes]

/-- The bytes of a stored block that are all there, with room for them. -/
theorem Stands.copy {n : Nat} (h : d.Stands .copy 0 true cur) (hn : d.length = n) (h0 : n ≠ 0) (hi : cur.nextIn + n ≤ cur.inp.length)
    (ho : n ≤ cur.availOut) : d.rule.Stands .copy 0 true (copiedCursor n cur) ∧ d.rule.length = 0 := by
  have hcopy : min d.length (min d.cur.availIn d.cur.availOut) = n := by
    rw [h.cur, Cursor.availIn]
    omega
  have he : d.rule = { d with cur := copiedCursor n d.cur, length := 0 } := by
    rw [show d.rule = d.ruleCopy by rw [rule, h.mode], ruleCopy, if_pos (by rwa [hn]), hcopy, if_neg h0, copyBytes_eq (by rwa [h.cur]), hn, Nat.sub_self]
    rfl
  rw [he]
  exact ⟨⟨h.run, h.raw, h.mode, h.hold, h.bits, h.last, congrArg (copiedCursor n) h.cur⟩, rfl⟩

/-- `COPY` to its end takes at most two rounds. -/
theorem Stands.copyAll {n : Nat} (h : d.Stands .copy 0 true cur) (hn : d.length = n) (hi : cur.nextIn + n ≤ cur.inp.length)
    (ho : n ≤ cur.availOut) (fuel : Nat) :
    ∃ fuel' ≥ fuel, ∃ e : Du, runLoop (fuel + 2) d = runLoop fuel' e ∧ e.Stands .type 0 true (copiedCursor n cur) := by
  by_cases h0 : n = 0
  · subst h0
    exact ⟨fuel + 1, Nat.le_succ fuel, d.rule, h.runLoop_eq _, by rw [copiedCursor_zero]; exact h.copied hn⟩
  · obtain ⟨h1, hz⟩ := h.copy hn h0 hi ho
    exact ⟨fuel, le_refl fuel, d.rule.rule, by rw [h.runLoop_eq, h1.runLoop_eq], h1.copied hz⟩

theorem runLoop_stop {ret : Status} (h : d.ctl = .stop ret) : ∀ fuel, runLoop fuel d = d
  | 0 => rfl
  | fuel + 1 => if_neg (by rw [h]; exact nofun)

/-- Behind the last block of a raw stream: no trailer, then `DONE` (44_inflate_engine.md R318, R330, R331, R339). -/
theorem Stands.last_block (h : d.Stands .type 0 true cur) (fuel : Nat) :
    runLoop (fuel + 4) d = { d with mode := .done, ctl := .stop .streamEnd } := by
  have htype : d.rule = { d with mode := .check } := by
    rw [show d.rule = d.ruleType by rw [rule, h.mode], ruleType, if_pos h.last, bytebits, show d.bits % 8 = 0 by rw [h.bits], drop_zero]
  have hcheck : Du.rule { d with mode := .check } = { d with mode := .length } := if_neg (by simp [h.raw])
  have hlength : Du.rule { d with mode := .length } = { d with mode := .done } := if_neg (by simp [h.raw])
  have hrun : ∀ (m : Mode) (n : Nat), runLoop (n + 1) { d with mode := m } = runLoop n (Du.rule { d with mode := m }) := fun m n =>
    if_pos h.run
  rw [h.runLoop_eq, htype, hrun, hcheck, hrun, hlength, hrun]
  exact runLoop_stop rfl fuel

/-- A raw stream of one stored block (30_encoding.md R107 to R109). -/
def storedStream (data : List Byte) : List Byte :=
  [1, byteOf data.length, byteOf (data.length / 256), byteOf (65535 - data.length), byteOf ((65535 - data.length) / 256)] ++ data

/-- The loop over it. -/
theorem Stands.storedStream {data : List Byte} {space : Nat} (h : d.Stands .head 0 false (Cursor.start (storedStream data) space))
    (hlen : data.length ≤ 65535) (hs : data.length ≤ space) {fuel : Nat} (hf : 9 ≤ fuel) : ∃ e, runLoop fuel d = e ∧
      e.ctl = .stop .streamEnd ∧ e.mode = .done ∧ e.cur.nextIn = data.length + 5 ∧ e.cur.out = data := by
  obtain ⟨f, rfl⟩ := Nat.exists_eq_add_of_le' hf
  have hin : (Du.storedStream data).length = data.length + 5 := by simp [Du.storedStream]
  have h2 := h.head.type (by show 0 < (Du.storedStream data).length; omega) rfl
  obtain ⟨h3, hn⟩ := h2.stored (n := data.length) (by show 1 + 4 ≤ (Du.storedStream data).length; omega) hlen rfl
  obtain ⟨f', hf', e, he, h4⟩ := h3.copyAll hn (by show 5 + data.length ≤ (Du.storedStream data).length; omega) hs (f + 4)
  obtain ⟨g, rfl⟩ := Nat.exists_eq_add_of_le' (show 4 ≤ f' by omega)
  refine ⟨_, by rw [h.runLoop_eq, h.head.runLoop_eq, h2.runLoop_eq, he, h4.last_block], rfl, rfl, ?_, ?_⟩
  · show e.cur.nextIn = _
    rw [h4.cur]
    exact Nat.add_comm ..
  · show e.cur.out = _
    rw [h4.cur]
    exact List.take_length

/-! ## The push -/

/-- The return from `DONE` (44_inflate_engine.md R341). -/
theorem leave_streamEnd (d : Du) : ∃ e, d.leave .streamEnd = (e, .streamEnd) ∧ e.cur = d.cur ∧ e.mode = d.mode := by
  have h1 : ∃ e, (if d.cur.produced ≠ 0 then d.updateWindow d.cur.out else d) = e ∧ e.cur = d.cur ∧ e.mode = d.mode := by
    refine ⟨_, rfl, ?_⟩
    split
    · obtain ⟨_, _, _, _, he⟩ := updateWindow_frame d.cur.out d
      rw [he]
      exact ⟨rfl, rfl⟩
    · exact ⟨rfl, rfl⟩
  obtain ⟨e, he, hc, hm⟩ := h1
  unfold leave
  rw [if_neg (by decide), he]
  refine ⟨_, if_neg (by simp), ?_⟩
  rw [← hc, ← hm]
  unfold syncCheck
  dsimp only
  split <;> exact ⟨rfl, rfl⟩

end Du

namespace State

theorem pushStep_streamEnd {s : State} (hd : s.du.ctl = .stop .streamEnd) (hm : s.du.mode = .done) : ∃ e : Du,
    s.pushStep = { s with result := some ⟨.streamEnd, s.du.cur.nextIn, s.du.cur.out, none, none⟩, du := e } ∧ e.mode = .done := by
  obtain ⟨e, he, hc, hme⟩ := s.du.leave_streamEnd
  refine ⟨{ e with cur := Cursor.empty, ctl := .idle, pushFlush := 0, checked := 0 }, ?_, hme.trans hm⟩
  rw [pushStep, hd]
  dsimp only
  rw [leavePush, he]
  dsimp only
  rw [hc]
  rfl

theorem startPush_eq {s : State} (hm : s.du.mode ≠ .noStream) (h0 : 0 ≤ s.port.flush) (h5 : s.port.flush ≤ 5) :
    s.startPush = { s with du := { s.du with
      cur := Cursor.start s.port.input s.port.availOut, ctl := .run, pushFlush := s.port.flush, checked := 0 } } := by
  rw [startPush, if_neg hm, if_neg (by simp [flushLegal, h0, h5])]

end State

/-- Settles O44, round by round: `HEAD`, the block header, the length word, the bytes, then the sinks `CHECK`, `LENGTH` and `DONE`. -/
theorem storedStreamDecodes : Obligations.StoredStreamDecodes := by
  intro s data flush hc hm hw hh hb hl hlen h0 h5 hf hs hi
  have hstart := State.startPush_eq (s := s) (by rw [hm]; decide) (by omega) (by omega)
  have h : s.startPush.du.Stands .head 0 false (Cursor.start (Du.storedStream data) s.port.availOut) := by
    rw [hstart]
    exact ⟨rfl, hw, hm, hh, hb, hl, by rw [hi]; rfl⟩
  obtain ⟨d, he, hctl, hmode, hnext, hout⟩ := h.storedStream hlen hs (fuel := s.startPush.du.rounds) (by unfold Du.rounds; omega)
  obtain ⟨e, hp, hme⟩ := State.pushStep_streamEnd (s := { s.startPush with du := d }) hctl hmode
  refine ⟨e, ?_, hme⟩
  show onIdleDu State.iflPush s = _
  rw [onIdleDu, if_pos hc, State.iflPush, he, hp, hstart]
  dsimp only
  rw [hnext, hout]

end Sys2Proof.Machine
end

section
/-! PROOF. What stands in the pending queue of `CU` (20_memory.md R85) after bytes are put in it and handed out, and a stored block in
it (42_tree_builder.md R248). -/

namespace Sys2Proof.Machine
namespace Cu

/-! ## The queue -/

theorem queue_eq (c : Cu) :
    c.queue = (List.range c.pending).map fun k => Mem.rd c.pendingSize c.pendingBuf ((c.pendingOut + k) % c.pendingSize) := by
  rw [queue, lastQueued, Nat.sub_self, List.range_eq_range']

@[simp] theorem length_queue (c : Cu) : c.queue.length = c.pending := by simp [queue_eq]

/-- A byte put in a queue with room stands behind the others. -/
theorem queue_putByte {c : Cu} (hm : c.MemWf) (hp : c.pending < c.pendingSize) (b : Byte) : (c.putByte b).queue = c.queue ++ [b] := by
  have hlast : Mem.rd c.pendingSize (c.putByte b).pendingBuf ((c.pendingOut + c.pending) % c.pendingSize) = b := by
    rw [putByte_pendingBuf, Mem.rd_wr hm.pendingBuf, if_pos ⟨rfl, Nat.mod_lt _ (by omega)⟩]
  have hrest : ∀ k < c.pending, Mem.rd c.pendingSize (c.putByte b).pendingBuf ((c.pendingOut + k) % c.pendingSize) =
      Mem.rd c.pendingSize c.pendingBuf ((c.pendingOut + k) % c.pendingSize) := fun k hk => by
    rw [putByte_pendingBuf, Mem.rd_wr hm.pendingBuf, if_neg]
    rintro ⟨he, -⟩
    have := (Nat.ModEq.add_left_cancel' c.pendingOut he).eq_of_lt_of_lt (hk.trans hp) hp
    omega
  rw [queue_eq, queue_eq]
  show (List.range (c.pending + 1)).map (fun k => Mem.rd c.pendingSize (c.putByte b).pendingBuf _) = _
  rw [List.range_succ, List.map_append, List.map_singleton]
  show _ ++ [Mem.rd c.pendingSize (c.putByte b).pendingBuf ((c.pendingOut + c.pending) % c.pendingSize)] = _
  rw [hlast]
  congr 1
  exact List.map_congr_left fun k hk => hrest k (List.mem_range.1 hk)

theorem putBytes_append (a b : List Byte) (c : Cu) : c.putBytes (a ++ b) = (c.putBytes a).putBytes b := List.foldl_append

/-- Bytes put in a queue with room stand behind the others in their order. -/
theorem queue_putBytes : ∀ (bs : List Byte) {c : Cu}, c.MemWf → c.pending + bs.length ≤ c.pendingSize →
    (c.putBytes bs).queue = c.queue ++ bs
  | [], c, _, _ => (List.append_nil _).symm
  | b :: r, c, hm, hp => by
    rw [List.length_cons] at hp
    have ih := queue_putBytes r (c := c.putByte b) ((quiet_putByte c b).mem hm) (by show c.pending + 1 + r.length ≤ c.pendingSize; omega)
    rw [queue_putByte hm (by omega), List.append_assoc] at ih
    exact ih

/-- `d` follows `c` by the `n` oldest bytes of the queue handed out (41_deflate_engine.md R184). -/
structure GivesOut (n : Nat) (c d : Cu) : Prop where
  frame : ∃ q < c.pendingSize, d = { c with
    cur := { c.cur with out := c.cur.out ++ c.queue.take n, availOut := c.cur.availOut - n }
    pending := c.pending - n, totalOut := c.totalOut + word32Of n, pendingOut := q }
  queue : d.queue = c.queue.drop n

theorem GivesOut.refl {c : Cu} (hq : c.pendingOut < c.pendingSize) : GivesOut 0 c c :=
  ⟨⟨c.pendingOut, hq, by simp [word32Of]⟩, rfl⟩

/-- The rounds of `flush_pending`. -/
theorem flushByte_loop (c : Cu) (hq : c.pendingOut < c.pendingSize) {n : Nat} (hn : n ≤ c.pending) :
    forRange 0 n (fun _ c => c.flushByte) c = { c with
      cur := { c.cur with out := c.cur.out ++ c.queue.take n, availOut := c.cur.availOut - n }
      pendingOut := (c.pendingOut + n) % c.pendingSize } := by
  refine forRange_range (P := fun k (d : Cu) => d = { c with
      cur := { c.cur with out := c.cur.out ++ c.queue.take k, availOut := c.cur.availOut - k }
      pendingOut := (c.pendingOut + k) % c.pendingSize }) ?_ ?_
  · rintro k hk _ rfl
    have hk' : k < c.queue.length := by rw [length_queue]; omega
    have hb : c.queue[k] = Mem.rd c.pendingSize c.pendingBuf ((c.pendingOut + k) % c.pendingSize) := by simp [queue_eq]
    rw [List.take_succ_eq_append_getElem hk', hb, ← List.append_assoc]
    show ({ c with cur := _, pendingOut := ((c.pendingOut + k) % c.pendingSize + 1) % c.pendingSize } : Cu) = _
    rw [Nat.mod_add_mod]
    rfl
  · simp [Nat.mod_eq_of_lt hq]

/-- `flush_pending` hands out what waits and fits, oldest first (41_deflate_engine.md R184). -/
theorem flushPending_eq (c : Cu) (hq : c.pendingOut < c.pendingSize) : c.flushPending = { c with
    cur := { c.cur with
      out := c.cur.out ++ c.queue.take (min c.pending c.cur.availOut)
      availOut := c.cur.availOut - min c.pending c.cur.availOut }
    pending := c.pending - min c.pending c.cur.availOut
    totalOut := c.totalOut + word32Of (min c.pending c.cur.availOut)
    pendingOut := if min c.pending c.cur.availOut ≠ 0 ∧ min c.pending c.cur.availOut = c.pending then 0
      else (c.pendingOut + min c.pending c.cur.availOut) % c.pendingSize } := by
  have hn : min c.pending c.cur.availOut ≤ c.pending := Nat.min_le_left ..
  unfold flushPending
  generalize min c.pending c.cur.availOut = n at *
  dsimp only
  rw [flushByte_loop c hq hn]
  by_cases h0 : n = 0
  · simp [h0, Nat.mod_eq_of_lt hq, word32Of]
  · rw [if_neg h0]
    by_cases h1 : n = c.pending
    · rw [if_pos (by dsimp only; omega), if_pos ⟨h0, h1⟩]
    · rw [if_neg (by dsimp only; omega), if_neg (fun h => h1 h.2)]

/-- A queue whose oldest `n` bytes are passed over. -/
theorem queue_drop (c : Cu) (n : Nat) :
    queue { c with pending := c.pending - n, pendingOut := (c.pendingOut + n) % c.pendingSize } = c.queue.drop n := by
  refine List.ext_getElem (by simp) fun k h1 h2 => ?_
  simp only [queue_eq, List.getElem_map, List.getElem_range, List.getElem_drop]
  show Mem.rd c.pendingSize c.pendingBuf (((c.pendingOut + n) % c.pendingSize + k) % c.pendingSize) = _
  rw [Nat.mod_add_mod, Nat.add_assoc]

theorem givesOut_flushPending (c : Cu) (hq : c.pendingOut < c.pendingSize) :
    GivesOut (min c.pending c.cur.availOut) c c.flushPending := by
  have hn : min c.pending c.cur.availOut ≤ c.pending := Nat.min_le_left ..
  have he := flushPending_eq c hq
  generalize min c.pending c.cur.availOut = n at *
  refine ⟨⟨_, ?_, he⟩, ?_⟩
  · split
    · omega
    · exact Nat.mod_lt _ (by omega)
  · rw [he]
    split
    · rename_i h
      rw [List.drop_of_length_le (by rw [length_queue]; omega), ← List.length_eq_zero_iff, length_queue]
      show c.pending - n = 0
      omega
    · exact queue_drop c n

/-- `makeRoom` (41_deflate_engine.md R200): what it hands out, and that there is room if a byte less leaves room. -/
theorem makeRoom_givesOut (c : Cu) (n : Nat) (hq : c.pendingOut < c.pendingSize) (ha : c.cur.availOut ≠ 0)
    (hn : c.pending - 1 + n ≤ c.pendingSize) :
    ∃ k ≤ min c.pending c.cur.availOut, GivesOut k c (c.makeRoom n) ∧ (c.makeRoom n).pending + n ≤ c.pendingSize := by
  unfold makeRoom
  split
  · refine ⟨_, le_refl _, givesOut_flushPending c hq, ?_⟩
    have := (pending_flushPending c).2.2 ha
    omega
  · exact ⟨0, Nat.zero_le _, .refl hq, by omega⟩

/-! ## The bit buffer filled up (42_tree_builder.md R252) -/

theorem leNat_byte {n : Nat} (h : n < 256) : leNat [byteOf n] = n := by
  simp [leNat, byteOf, Nat.mod_eq_of_lt h]

theorem leNat_short {n : Nat} (h : n < 65536) : leNat [byteOf n, byteOf (n / 256)] = n := by
  simp only [leNat, byteOf, BitVec.toNat_ofNat]
  omega

/-- `bi_windup` puts the bits that are left in whole bytes. -/
theorem biWindup_eq {c : Cu} (h : c.BitsWf) : ∃ head, c.biWindup = { c.putBytes head with biBuf := 0, biValid := 0 } ∧
    leNat head = c.biBuf.toNat ∧ c.biValid ≤ 8 * head.length ∧ 8 * head.length < c.biValid + 8 := by
  obtain ⟨hb, hv⟩ := h
  unfold biWindup
  dsimp only
  split
  · exact ⟨[byteOf c.biBuf.toNat, byteOf (c.biBuf.toNat / 256)], rfl, leNat_short c.biBuf.isLt, hv, by simp; omega⟩
  · split
    · have hlt : c.biBuf.toNat < 256 := hb.trans_le (Nat.pow_le_pow_right (j := 8) (by decide) (by omega))
      have he : c.biBuf.setWidth 8 = byteOf c.biBuf.toNat := BitVec.eq_of_toNat_eq (by simp [byteOf])
      exact ⟨[byteOf c.biBuf.toNat], by rw [he]; rfl, leNat_byte hlt, by simp; omega, by simp; omega⟩
    · rw [show c.biValid = 0 by omega] at hb ⊢
      exact ⟨[], rfl, by show 0 = _; omega, le_refl _, by decide⟩

/-! ## A stored block -/

/-- The first bits of a stored block, where they fit the bit buffer. -/
theorem sendBits_stored {c : Cu} (hb : c.BitsWf) (hv : c.biValid ≤ 13) (last : Bool) : ∃ b : Word16,
    c.sendBits last.toNat 3 = { c with biBuf := b, biValid := c.biValid + 3 } ∧
      b.toNat = c.biBuf.toNat + 2 ^ c.biValid * last.toNat := by
  refine ⟨_, if_neg (by omega), ?_⟩
  have hl : last.toNat < 2 := Bool.toNat_lt last
  have h16 : last.toNat <<< c.biValid < 65536 := (shift_lt (n := 1) _ hl).trans_le
    (Nat.pow_le_pow_right (j := 16) (by decide) (by omega))
  rw [BitVec.toNat_or, BitVec.toNat_shiftLeft, word16Of, BitVec.toNat_ofNat, Nat.mod_eq_of_lt (by omega : last.toNat < 2 ^ 16),
    Nat.mod_eq_of_lt h16, Nat.lor_comm, ← Nat.shiftLeft_add_eq_or_of_lt hb.bits, Nat.shiftLeft_eq]
  ring

/-- `LEN` and `NLEN` of a stored block (30_encoding.md R108, R109). -/
def storedLens (n : Nat) : List Byte := [byteOf n, byteOf (n / 256), byteOf (65535 - n), byteOf ((65535 - n) / 256)]

theorem trStoredBlock_putBytes (data : List Byte) (last : Bool) (c : Cu) (hlen : data.length ≤ 65535) :
    c.trStoredBlock data last =
      ((c.sendBits last.toNat 3).biWindup.makeRoom (data.length + 4)).putBytes (storedLens data.length ++ data) := by
  rw [trStoredBlock, Nat.mod_eq_of_lt (by omega : data.length < 65536), putBytes_append]
  rfl

/-- A stored block begun with an empty queue: the whole bytes that its first bits end, its lengths and its data, of which the first
`n` bytes have gone out. -/
theorem trStoredBlock_eq {c : Cu} {data : List Byte} {last : Bool} (hm : c.MemWf) (hb : c.BitsWf) (hv : c.biValid ≤ 13)
    (hp : c.pending = 0) (hq : c.pendingOut < c.pendingSize) (ha : c.cur.availOut ≠ 0) (hlen : data.length ≤ 65535)
    (hfit : data.length + 5 ≤ c.pendingSize) : ∃ (head : List Byte) (n : Nat) (buf : Mem Byte) (q : Nat),
    c.trStoredBlock data last = { c with
      cur := { c.cur with out := c.cur.out ++ head.take n, availOut := c.cur.availOut - n }
      totalOut := c.totalOut + word32Of n, pendingBuf := buf, pending := head.length - n + (data.length + 4), pendingOut := q
      biBuf := 0, biValid := 0 } ∧
    n ≤ head.length ∧ n ≤ c.cur.availOut ∧ q < c.pendingSize ∧ head.length - n + (data.length + 4) ≤ c.pendingSize ∧
    (c.trStoredBlock data last).queue = head.drop n ++ (storedLens data.length ++ data) ∧
    leNat head = c.biBuf.toNat + 2 ^ c.biValid * last.toNat ∧ c.biValid + 3 ≤ 8 * head.length ∧
      8 * head.length < c.biValid + 3 + 8 := by
  obtain ⟨b, hs, hbv⟩ := sendBits_stored hb hv last
  have hb1 := (sends_sendBits c (v := last.toNat) (n := 3) (by cases last <;> decide) (by decide)).bits hb
  obtain ⟨head, hw, hle, hge, hlt⟩ := biWindup_eq hb1
  have hm1 := (quiet_biWindup _).mem ((quiet_sendBits c last.toNat 3).mem hm)
  rw [hs] at hw hle hge hlt hm1
  have hq0 : c.queue = [] := List.length_eq_zero_iff.1 (by rw [length_queue, hp])
  have hqueue : (biWindup { c with biBuf := b, biValid := c.biValid + 3 }).queue = head := by
    rw [hw]
    exact (queue_putBytes head (c := { c with biBuf := b, biValid := c.biValid + 3 }) { hm with }
      (by show c.pending + head.length ≤ c.pendingSize; dsimp only at hlt; omega)).trans (by
        rw [show queue { c with biBuf := b, biValid := c.biValid + 3 } = c.queue from rfl, hq0, List.nil_append])
  obtain ⟨buf1, hbuf1⟩ := puts_putBytes head { c with biBuf := b, biValid := c.biValid + 3 }
  rw [hbuf1] at hw
  rw [trStoredBlock_putBytes data last c hlen, hs]
  generalize biWindup { c with biBuf := b, biValid := c.biValid + 3 } = d at *
  dsimp only at hw hle hge hlt
  have hd : d.pending = head.length ∧ d.cur = c.cur ∧ d.pendingSize = c.pendingSize ∧ d.pendingOut = c.pendingOut := by
    rw [hw]; exact ⟨(congrArg (· + head.length) hp).trans (Nat.zero_add _), rfl, rfl, rfl⟩
  obtain ⟨hd1, hd2, hd3, hd4⟩ := hd
  obtain ⟨n, hn, hg, hroom⟩ := makeRoom_givesOut d (data.length + 4) (by rw [hd4, hd3]; exact hq) (by rw [hd2]; exact ha)
    (by rw [hd1, hd3]; omega)
  have hm2 : (d.makeRoom (data.length + 4)).MemWf := (moves_makeRoom _ d).mem hm1
  generalize d.makeRoom (data.length + 4) = e at *
  have hbytes : (storedLens data.length ++ data).length = data.length + 4 := by simp [storedLens]
  obtain ⟨⟨q, hq', he⟩, hgq⟩ := hg
  have he' : e.pending = head.length - n ∧ e.pendingSize = c.pendingSize := by
    rw [he, ← hd1]; exact ⟨rfl, hd3⟩
  obtain ⟨buf2, hbuf2⟩ := puts_putBytes (storedLens data.length ++ data) e
  refine ⟨head, n, buf2, q, ?_, by omega, by rw [← hd2]; omega, by rw [← hd3]; exact hq', by omega, ?_, hle.trans hbv, hge, hlt⟩
  · rw [hbuf2, hbytes, he'.1, he, hqueue, hw]
  · rw [queue_putBytes _ hm2 (by rw [hbytes]; omega), hgq, hqueue]

/-- A stored block begun with an empty queue loses no byte. -/
theorem trStoredBlock_exact {c : Cu} {data : List Byte} {last : Bool} (hm : c.MemWf) (hb : c.BitsWf) (hv : c.biValid ≤ 13)
    (hp : c.pending = 0) (hq : c.pendingOut < c.pendingSize) (ha : c.cur.availOut ≠ 0) (hlen : data.length ≤ 65535)
    (hfit : data.length + 5 ≤ c.pendingSize) :
    let e := c.trStoredBlock data last
    (∃ head, e.cur.out ++ e.queue = c.cur.out ++ head ++ storedLens data.length ++ data ∧
      leNat head = c.biBuf.toNat + 2 ^ c.biValid * last.toNat ∧
      c.biValid + 3 ≤ 8 * head.length ∧ 8 * head.length < c.biValid + 3 + 8) ∧
    e.pending ≤ e.pendingSize ∧ e.cur.availOut + e.cur.out.length = c.cur.availOut + c.cur.out.length ∧
    e = { c with
      cur := { c.cur with out := e.cur.out, availOut := e.cur.availOut }
      totalOut := c.totalOut + word32Of (e.cur.out.length - c.cur.out.length)
      pendingBuf := e.pendingBuf, pending := e.pending, pendingOut := e.pendingOut, biBuf := 0, biValid := 0 } := by
  obtain ⟨head, n, buf, q, he, hn, hn', -, hroom, hqueue, hbits⟩ := trStoredBlock_eq (last := last) hm hb hv hp hq ha hlen hfit
  intro e
  refine ⟨⟨head, ?_, hbits⟩, ?_⟩
  · show (c.trStoredBlock data last).cur.out ++ (c.trStoredBlock data last).queue = _
    rw [hqueue, he]
    simp only [← List.append_assoc]
    rw [List.append_assoc c.cur.out, List.take_append_drop]
  · have htake : (c.cur.out ++ head.take n).length = c.cur.out.length + n := by simp; omega
    show (c.trStoredBlock data last).pending ≤ (c.trStoredBlock data last).pendingSize ∧ _
    dsimp only [e]
    rw [he]
    dsimp only
    refine ⟨hroom, by omega, ?_⟩
    rw [htake, Nat.add_sub_cancel_left]

end Cu
end Sys2Proof.Machine
end

section
/-! PROOF. A raw stream of level 0 given whole to one push with `FINISH` (41_deflate_engine.md R186 to R189): all the input is read into
the window at once, passed byte by byte with no block closed, and sent as one stored block. -/

namespace Sys2Proof.Machine
namespace Cu

/-- `CU` in a raw push of level 0 whose input `data` is one block's: `m` of its bytes are in the window and `k` of these have been
passed, with none sent. -/
structure Collects (data : List Byte) (space m k : Nat) (c : Cu) : Prop where
  mem     : c.MemWf
  short   : data.length < c.maxBlock
  roomy   : data.length + 5 < space
  config  : c.level = 0 ∧ c.wrap = 0
  status  : c.status = .busy
  queue   : c.pending = 0 ∧ c.pendingOut = 0
  bits    : c.biBuf = 0 ∧ c.biValid = 0
  block   : c.blockStart = 0 ∧ c.insertCount = 0
  place   : c.strstart = k ∧ k + c.lookahead = m
  cursor  : c.cur = ⟨data, m, [], space⟩
  window  : Mem.readN c.windowSize c.window 0 m = data.take m

section
variable {data : List Byte} {space m k : Nat} {c : Cu}

/-- What the largest block of level 0 leaves in the queue and in the window. -/
theorem Collects.sizes (h : Collects data space m k c) :
    data.length < 65535 ∧ data.length + 5 < c.pendingSize ∧ data.length + 262 < c.wSize := by
  have := h.short
  simp only [maxBlock, Config.minLookahead] at this
  omega

/-- No block is full before the end of the input. -/
theorem Collects.not_full (h : Collects data space m k c) (hm : m ≤ data.length) : ¬ (c.strstart : Int) - c.blockStart = c.maxBlock := by
  have := h.short
  obtain ⟨hk, hl⟩ := h.place
  rw [h.block.1]
  omega

theorem Collects.availIn (h : Collects data space m k c) : c.cur.availIn = data.length - m := by rw [h.cursor]; rfl

theorem Collects.slid (h : Collects data space m k c) (hm : m ≤ data.length) : c.slid = c := by
  obtain ⟨-, -, hw⟩ := h.sizes
  obtain ⟨hk, hl⟩ := h.place
  exact if_neg (by omega)

/-- With no deferred insertion, filling the window starts the hash over at most. -/
theorem catchUp_of_none {c : Cu} (h : c.insertCount = 0) : ∃ insH, c.catchUp = { c with insH := insH } := by
  unfold catchUp
  split
  · dsimp only
    rw [h]
    exact ⟨_, rfl⟩
  · exact ⟨c.insH, rfl⟩

theorem readN_writeList {n : Nat} {w : Mem Byte} {l : List Byte} (hw : Mem.wf n w = true) (hl : l.length ≤ n) :
    Mem.readN n (Mem.writeList n w 0 l) 0 l.length = l := by
  refine List.ext_getElem (by simp [Mem.readN]) fun i h1 h2 => ?_
  simp only [Mem.readN, List.getElem_map, List.getElem_range', Nat.zero_add, Nat.one_mul]
  rw [Mem.rd_writeList hw, if_pos (by omega), Nat.sub_zero, List.getD_eq_getElem _ _ h2]

/-- The first round of `fill_window` reads all the input. -/
theorem Collects.readRound (h : Collects data space 0 0 c) (hd : data ≠ []) :
    Collects data space data.length 0 (c.readRound none c.space).1 ∧ (c.readRound none c.space).2 = none := by
  have hlen : 0 < data.length := List.length_pos_iff.2 hd
  obtain ⟨-, -, hw⟩ := h.sizes
  obtain ⟨hk, hl⟩ := h.place
  have hl0 : c.lookahead = 0 := by omega
  have hsize : data.length ≤ c.windowSize := by unfold windowSize; omega
  have hspace : data.length ≤ c.space := by unfold Cu.space; omega
  have hn : min c.cur.availIn c.space = data.length := by rw [h.availIn]; omega
  have hb : c.cur.nextBytes data.length = data := by simp [h.cursor, Cursor.nextBytes]
  have hread : c.readBuf none (c.strstart + c.lookahead) c.space = ({ c with
      cur := ⟨data, data.length, [], space⟩, window := Mem.writeList c.windowSize c.window 0 data
      totalIn := c.totalIn + word32Of data.length }, none, data.length) := by
    unfold readBuf
    simp only [srcAvail, hn, hb, hk, hl0, h.config.2]
    rw [if_neg (by omega), h.cursor]
    simp [Cursor.advance]
  unfold Cu.readRound
  rw [hread]
  dsimp only
  obtain ⟨x, hx⟩ := catchUp_of_none (c := { c with
    cur := ⟨data, data.length, [], space⟩, window := Mem.writeList c.windowSize c.window 0 data
    totalIn := c.totalIn + word32Of data.length, lookahead := c.lookahead + data.length }) h.block.2
  rw [hx]
  refine ⟨{ h with
    mem := { h.mem with window := Mem.wf_writeList h.mem.window }
    place := ⟨hk, by show 0 + (c.lookahead + data.length) = data.length; omega⟩
    cursor := rfl
    window := ?_ }, rfl⟩
  rw [List.take_length]
  exact readN_writeList h.mem.window hsize

/-- `fill_window` reads what is left of the input. -/
theorem Collects.fillWindow (h : Collects data space m k c) (hm : m = 0 ∨ m = data.length) :
    Collects data space data.length k c.fillWindow := by
  unfold Cu.fillWindow fillWindowFrom
  rw [fillLoop_succ, h.slid (by omega)]
  by_cases ha : m = data.length
  · rw [if_pos (by show c.cur.availIn = 0; rw [h.availIn]; omega), ← ha]
    exact h
  · obtain rfl : m = 0 := by omega
    obtain rfl : k = 0 := by have := h.place.2; omega
    obtain ⟨hr, hsrc⟩ := h.readRound (by rintro rfl; exact ha rfl)
    rw [if_neg (by show c.cur.availIn ≠ 0; rw [h.availIn]; omega)]
    dsimp only
    rw [if_neg]
    · exact hr
    · rw [hsrc]
      rintro ⟨-, h0⟩
      exact h0 (by show Cursor.availIn _ = 0; rw [hr.availIn]; omega)

/-- The look-ahead test of `deflate_stored`. -/
theorem Collects.refill (h : Collects data space m k c) (hm : m = 0 ∨ m = data.length) :
    ∃ d, Collects data space data.length k d ∧ c.refill 1 flushFinish = (d, if k = data.length then .exitLoop else .again) := by
  have hl := h.place.2
  unfold Cu.refill
  split
  · have hf := h.fillWindow hm
    have hl' := hf.place.2
    refine ⟨_, hf, ?_⟩
    dsimp only
    rw [if_neg (fun hc => absurd hc.2 (by decide))]
    by_cases hk : k = data.length
    · rw [if_pos (by omega), if_pos hk]
    · rw [if_neg (by omega), if_neg hk]
  · obtain rfl : m = data.length := by omega
    exact ⟨c, h, by rw [if_neg (by omega)]⟩

/-- A byte is passed, and the block is not closed. -/
theorem Collects.round (h : Collects data space m k c) (hm : m = 0 ∨ m = data.length) (hk : k < data.length) :
    ∃ d, Collects data space data.length (k + 1) d ∧ c.storedRound flushFinish = (d, .again) := by
  obtain ⟨d, hd, he⟩ := h.refill hm
  obtain ⟨hs, hl⟩ := hd.place
  have hnext : Collects data space data.length (k + 1) { d with strstart := d.strstart + 1, lookahead := d.lookahead - 1 } :=
    { hd with
      mem := { hd.mem with }
      place := ⟨congrArg (· + 1) hs, by show k + 1 + (d.lookahead - 1) = _; omega⟩ }
  refine ⟨_, hnext, ?_⟩
  unfold storedRound
  rw [he, if_neg (by omega)]
  exact if_neg (hnext.not_full (le_refl _))

/-- The loop of `deflate_stored` ends with the whole input passed. -/
theorem Collects.loop (tail : Cu → Cu × BState) {fuel : Nat} (h : Collects data space m k c) (hm : m = 0 ∨ m = data.length)
    (hk : k ≤ data.length) (hf : data.length - k < fuel) :
    ∃ d, Collects data space data.length data.length d ∧ strategyLoop (storedRound flushFinish) tail fuel c = tail d := by
  induction fuel generalizing m k c with
  | zero => omega
  | succ fuel ih =>
    by_cases he : k = data.length
    · subst he
      obtain ⟨d, hd, hr⟩ := h.refill hm
      rw [if_pos rfl] at hr
      exact ⟨d, hd, by rw [strategyLoop, storedRound, hr]⟩
    · obtain ⟨d, hd, hr⟩ := h.round hm (by omega)
      obtain ⟨e, hde, hl⟩ := ih hd (.inr rfl) (by omega) (by omega)
      exact ⟨e, hde, by rw [strategyLoop, hr]; exact hl⟩

/-- The stream that stores `data` (30_encoding.md R107 to R109), as it stands when the push has sent it. -/
structure Stored (data : List Byte) (c : Cu) : Prop where
  out    : c.cur.out = [1] ++ storedLens data.length ++ data
  space  : c.cur.availOut ≠ 0
  read   : c.cur.nextIn = data.length
  wrap   : c.wrap = 0

/-- The first byte of a block with nothing before it. -/
theorem eq_one_of_leNat {l : List Byte} (h : leNat l = 1) (hl : l.length = 1) : l = [1] := by
  obtain ⟨b, rfl⟩ := List.length_eq_one_iff.1 hl
  simp only [leNat, Nat.mul_zero, Nat.add_zero] at h
  rw [show b = 1 from BitVec.eq_of_toNat_eq h]

/-- With no bit in the buffer, there is nothing to fill up. -/
theorem biWindup_of_aligned {c : Cu} (h : c.biValid = 0) : c.biWindup = { c with biBuf := 0, biValid := 0 } := by
  unfold biWindup
  rw [h]
  rfl

/-- With space for the whole queue, `flush_pending` hands it out. -/
theorem flushPending_all {c : Cu} (hq : c.pendingOut < c.pendingSize) (ha : c.pending ≤ c.cur.availOut) :
    c.flushPending.cur = { c.cur with out := c.cur.out ++ c.queue, availOut := c.cur.availOut - c.pending } ∧
      c.flushPending.wrap = c.wrap := by
  obtain ⟨⟨q, -, he⟩, -⟩ := givesOut_flushPending c hq
  rw [he, Nat.min_eq_left ha, List.take_of_length_le (length_queue c).le]
  exact ⟨rfl, rfl⟩

/-- What follows the form of a last block (41_deflate_engine.md R187), with space for all that is queued. -/
theorem closeLast {c : Cu} (hv : c.biValid = 0) (hq : c.pendingOut < c.pendingSize) (ha : c.pending ≤ c.cur.availOut)
    (start : Int) :
    (flushPending { c.initBlock.biWindup with blockStart := start }).cur =
      { c.cur with out := c.cur.out ++ c.queue, availOut := c.cur.availOut - c.pending } ∧
    (flushPending { c.initBlock.biWindup with blockStart := start }).wrap = c.wrap := by
  obtain ⟨l, d, bl, he⟩ := initBlock_frame c
  rw [he, biWindup_of_aligned (by exact hv)]
  exact flushPending_all (c := { c with
    dynLtree := l, dynDtree := d, blTree := bl, optLen := 0, staticLen := 0, lastLit := 0, matchCount := 0
    biBuf := 0, biValid := 0, blockStart := start }) hq ha

/-- The last block of the push (41_deflate_engine.md R187). -/
theorem Collects.flushBlockOnly (h : Collects data space data.length data.length c) : Stored data (c.flushBlockOnly true) := by
  obtain ⟨hlen, hfit, hwin⟩ := h.sizes
  have hcur := h.cursor
  have hroomy := h.roomy
  have hn : ((c.strstart : Int) - c.blockStart).toNat = data.length := by rw [h.block.1, h.place.1]; omega
  have hbuf : Mem.readN c.windowSize c.window 0 data.length = data := h.window.trans (List.take_length ..)
  have hemit : emitBlock (some data) data.length true (c.blockSizes data.length) = c.trStoredBlock data true := by
    rw [blockSizes, if_neg (by rw [h.config.1]; decide)]
    exact if_pos ⟨by omega, rfl, hlen.le⟩
  obtain ⟨head, n, buf, q, he, hnh, hna, hq, hroom, hqueue, hle, hge, hlt⟩ := trStoredBlock_eq (last := true) h.mem
    ⟨by rw [h.bits.1, h.bits.2]; decide, by rw [h.bits.2]; decide⟩ (by rw [h.bits.2]; decide) h.queue.1
    (by rw [h.queue.2]; omega) (by rw [hcur]; dsimp only; omega) (by omega) hfit.le
  rw [h.bits.1, h.bits.2] at hle
  rw [h.bits.2] at hge hlt
  obtain rfl := eq_one_of_leNat hle (by omega)
  have hspace : (c.trStoredBlock data true).pending ≤ (c.trStoredBlock data true).cur.availOut := by
    rw [he, hcur]
    dsimp only
    omega
  obtain ⟨hc, hw⟩ := closeLast (c := c.trStoredBlock data true) (by rw [he]) (by rw [he]; exact hq) hspace
    (c.trStoredBlock data true).initBlock.biWindup.strstart
  have hdone : c.flushBlockOnly true = flushPending { (c.trStoredBlock data true).initBlock.biWindup with
      blockStart := (c.trStoredBlock data true).initBlock.biWindup.strstart } := by
    unfold Cu.flushBlockOnly
    dsimp only
    rw [hn, h.block.1, if_pos (le_refl _), Int.toNat_zero, hbuf, trFlushBlock, hemit, if_pos rfl]
  rw [← hdone, hqueue, he, hcur] at hc
  rw [← hdone, he] at hw
  dsimp only at hc
  refine ⟨?_, ?_, by rw [hc], hw.trans h.config.2⟩
  · rw [hc]
    show [] ++ [1].take n ++ ([1].drop n ++ (storedLens data.length ++ data)) = _
    rw [List.nil_append, ← List.append_assoc, List.take_append_drop, List.append_assoc]
  · rw [hc]
    dsimp only
    omega

/-- `deflate_stored` (41_deflate_engine.md R189) sends one block and is done. -/
theorem Collects.deflateStored (h : Collects data space 0 0 c) :
    ∃ d, Stored data d ∧ c.deflateStored flushFinish = (d, .finishDone) := by
  obtain ⟨d, hd, he⟩ := h.loop (storedTail flushFinish) (fuel := c.rounds) (.inl rfl) (Nat.zero_le _) (by
    rw [rounds, h.availIn]; omega)
  have hs := Collects.flushBlockOnly (c := { d with insertCount := 0 })
    { hd with mem := { hd.mem with }, block := ⟨hd.block.1, rfl⟩ }
  refine ⟨_, hs, ?_⟩
  rw [Cu.deflateStored, he, storedTail, if_pos rfl, finishBlocks, if_neg hs.space]

theorem runFunc_stored {c : Cu} (h : c.func = .stored) (flush : Int) : c.runFunc flush = c.deflateStored flush := by
  rw [runFunc, h]

theorem runStrategy_finishDone {c d : Cu} {flush : Int} (h : c.runFunc flush = (d, .finishDone)) :
    c.runStrategy flush = ({ d with status := .finish }, false) := by
  rw [runStrategy, h]
  rfl

theorem headerFields_of_none {c : Cu} (h : c.gzhead = none) : c.headerFields = c := by
  rw [headerFields, h]

/-- A push with `FINISH` that has no header to write and nothing to hand out first. -/
theorem push_eq_pushCode {c : Cu} (hs : c.status ≠ .init) (hg : c.gzhead = none) (hp : c.pending = 0) :
    Cu.push flushFinish c = pushCode flushFinish { c with lastFlush := flushFinish } := by
  unfold Cu.push
  dsimp only
  rw [if_neg hs, headerFields_of_none (c := { c with lastFlush := flushFinish }) hg, if_neg (not_not.2 hp),
    if_neg (fun hc => hc.2.2 rfl)]

/-- The whole push (41_deflate_engine.md R182). -/
theorem Collects.push (h : Collects data space 0 0 c) (hf : c.func = .stored) (hg : c.gzhead = none) :
    ∃ d, Stored data d ∧ Cu.push flushFinish c = (d, .streamEnd) := by
  have h1 : Collects data space 0 0 { c with lastFlush := flushFinish } := { h with mem := { h.mem with } }
  obtain ⟨d, hd, he⟩ := h1.deflateStored
  have hend : Stored data { d with status := .finish } := ⟨hd.out, hd.space, hd.read, hd.wrap⟩
  refine ⟨_, hend, ?_⟩
  have hrun := runStrategy_finishDone ((runFunc_stored (c := { c with lastFlush := flushFinish }) hf flushFinish).trans he)
  rw [push_eq_pushCode (by rw [h.status]; decide) hg h.queue.1, pushCode,
    if_pos (.inr (.inr ⟨by decide, by dsimp only; rw [h.status]; decide⟩)), hrun]
  dsimp only
  rw [if_neg (by decide), if_neg (by simp), if_pos hd.wrap.le]

end

/-! ## The stream opened -/

theorem levelOperand_eq {o : Operands} {wrap : Int} {wBits level memLevel strategy : Nat}
    (h : Claims.InitOperands o wrap wBits level memLevel strategy) : levelOperand o.level = level := by
  have := h.level.2
  unfold levelOperand
  omega

theorem memWf_zeroMemories (c : Cu) : c.zeroMemories.MemWf := by constructor <;> exact Mem.wf_nil _

/-- `DFL_INIT` accepts a raw stream. -/
theorem dflInitOperands_raw {o : Operands} {wBits level memLevel strategy : Nat} (h : Claims.InitOperands o 0 wBits level memLevel strategy) :
    dflInitOperands o = some (0, wBits) := by
  have hlo := levelOperand_eq h
  obtain ⟨⟨hw9, hw15, hw⟩, ⟨hl9, -⟩, ⟨hm1, hm9, hm⟩, ⟨hs4, hs⟩, -⟩ := h
  have hwin : o.windowBits = -(wBits : Int) := by omega
  unfold dflInitOperands
  rw [cuWindowBits, if_pos (by omega)]
  dsimp only
  have hlegal : levelLegal (levelOperand o.level) = true ∧ memLevelLegal o.memLevel = true ∧ strategyLegal o.strategy = true := by
    simp only [hlo, levelLegal, memLevelLegal, strategyLegal, Bool.and_eq_true, decide_eq_true_eq]
    omega
  rw [if_neg (by simp [hlegal]), if_neg (fun hc => absurd hc.1 (by decide))]
  simp only [Option.some.injEq, Prod.mk.injEq, true_and]
  omega

/-- A raw stream of level 0 as `DFL_INIT` opens it. -/
structure Opened (wBits memLevel : Nat) (c : Cu) : Prop where
  mem     : c.MemWf
  sizes   : c.wBits = wBits ∧ c.litBufsize = 2 ^ (memLevel + 6)
  config  : c.level = 0 ∧ c.wrap = 0
  func    : c.func = .stored
  gzhead  : c.gzhead = none
  status  : c.status = .busy
  queue   : c.pending = 0 ∧ c.pendingOut = 0
  bits    : c.biBuf = 0 ∧ c.biValid = 0
  block   : c.blockStart = 0 ∧ c.insertCount = 0
  place   : c.strstart = 0 ∧ c.lookahead = 0

theorem opened_resetKeep {c : Cu} (hm : c.MemWf) (hc : c.level = 0 ∧ c.wrap = 0) (hg : c.gzhead = none) {wBits memLevel : Nat}
    (hs : c.wBits = wBits ∧ c.litBufsize = 2 ^ (memLevel + 6)) : Opened wBits memLevel c.resetKeep := by
  have hmem := memWf_resetKeep hm
  obtain ⟨l, d, bl, he⟩ := initBlock_frame c.resetRegs
  rw [resetKeep_eq, he] at hmem ⊢
  have hw : (if c.wrap < 0 then -c.wrap else c.wrap) = 0 := by rw [hc.2]; rfl
  refine ⟨hmem, hs, ⟨hc.1, hw⟩, ?_, hg, ?_, ⟨rfl, rfl⟩, ⟨rfl, rfl⟩, ⟨rfl, rfl⟩, ⟨rfl, rfl⟩⟩
  · show selectFunc c.level c.strategy = _
    rw [hc.1]
    rfl
  · show (if (if c.wrap < 0 then -c.wrap else c.wrap) ≠ 0 then CuStatus.init else .busy) = _
    rw [hw]
    rfl

/-- A push of a short input starts to collect it. -/
theorem Opened.collects {wBits memLevel : Nat} {c : Cu} (h : Opened wBits memLevel c) {data : List Byte} {space : Nat}
    (hw : data.length < 2 ^ wBits - 262) (hq : data.length + 5 < 4 * 2 ^ (memLevel + 6)) (hl : data.length < 65535)
    (hs : data.length + 5 < space) : Collects data space 0 0 { c with cur := Cursor.start data space } where
  mem := { h.mem with }
  short := by
    have hw' : c.wSize = 2 ^ wBits := by rw [wSize, h.sizes.1]
    have hq' : c.pendingSize = 4 * 2 ^ (memLevel + 6) := by rw [pendingSize, h.sizes.2]
    show data.length < min 65535 (min (c.pendingSize - 5) (c.wSize - 262))
    omega
  roomy := hs
  config := h.config
  status := h.status
  queue := h.queue
  bits := h.bits
  block := h.block
  place := ⟨h.place.1, by show 0 + c.lookahead = 0; rw [h.place.2]⟩
  cursor := rfl
  window := rfl

end Cu

theorem opened_dflInit {s t : State} {wBits memLevel strategy : Nat} (hs : s.cu.status = .noStream)
    (ho : Claims.InitOperands s.port 0 wBits 0 memLevel strategy) (he : exec .dflInit s = .next t) : Cu.Opened wBits memLevel t.cu := by
  have hlevel : (levelOperand s.port.level).toNat = 0 := by
    rw [Cu.levelOperand_eq ho]
    rfl
  have hmem : s.port.memLevel.toNat = memLevel := by
    have := ho.memLevel.2.2
    omega
  change execDflInit s = .next t at he
  rw [execDflInit, if_neg (not_not.2 hs), Cu.dflInitOperands_raw ho, hlevel, hmem] at he
  cases he
  exact Cu.opened_resetKeep (Cu.memWf_zeroMemories _) ⟨rfl, rfl⟩ rfl ⟨rfl, rfl⟩

/-- A push with `FINISH` of a stream in progress that comes to its end. -/
theorem State.flushFinish_streamEnd {s : State} {d : Cu} (hb : s.cu.status = .busy) (ha : s.port.availOut ≠ 0)
    (hp : Cu.push flushFinish (s.cu.started s.port) = (d, .streamEnd)) :
    exec .flushFinish s =
      .next (State.finishCu { s with cu := d } ⟨.streamEnd, d.cur.nextIn, d.cur.out, none, none⟩) := by
  show Host.Outcome.next (s.dflPushWith flushFinish) = _
  rw [State.dflPushWith, if_neg (by rw [hb]; decide), if_neg (by decide), if_neg (by rw [hb]; simp), if_neg ha]
  change Host.Outcome.next (match Cu.push flushFinish (s.cu.started s.port) with
      | (c, .bufError) => State.raise .cu .bufError { s with cu := { c with cur := Cursor.empty, bflush := false } }
      | (c, st) => State.finishCu { s with cu := c } ⟨st, c.cur.nextIn, c.cur.out, none, none⟩) = _
  rw [hp]

/-- Settles O24: the whole push is one stored block (`Collects.push`), and `trStoredBlock_exact` for a block of its own. -/
theorem storedStreamIsExact : Obligations.StoredStreamIsExact := by
  refine ⟨fun s wBits memLevel strategy hs ho t data space he hw hq hl hsp => ?_, fun c data last hm hb hv hp hq ha hlen hfit => ?_⟩
  · have hopen := opened_dflInit hs ho he
    obtain ⟨d, hd, hpush⟩ := (hopen.collects hw hq hl hsp).push hopen.func hopen.gzhead
    refine ⟨{ d with cur := Cursor.empty, bflush := false }, ?_⟩
    rw [State.flushFinish_streamEnd (s := { t with port := { t.port with input := data, availOut := space } }) hopen.status
      (by dsimp only; omega) hpush, hd.read, hd.out]
    rfl
  · exact Cu.trStoredBlock_exact hm hb hv hp hq ha hlen hfit

end Sys2Proof.Machine
end

section
/-! PROOF. The slide seen through the reads (40_matcher.md R160): what the window, `HEAD` and `PREV` hold afterwards. -/

namespace Sys2Proof.Machine

namespace Mem

variable {α : Type}

/-- The entries after the slide copy: below `w` those of the upper half moved down, from `w` on those that stood there. -/
theorem mem_slideDown {w : Nat} {m : Mem α} {i : Nat} {v : α} :
    (i, v) ∈ slideDown w m ↔ i < w ∧ (i + w, v) ∈ m ∨ w ≤ i ∧ (i, v) ∈ m := by
  simp only [slideDown, List.mem_append, List.mem_filterMap, List.mem_filter, decide_eq_true_eq, Option.ite_none_right_eq_some,
    Option.some.injEq, Prod.mk.injEq]
  refine or_congr ⟨?_, fun ⟨hi, hm⟩ => ⟨_, hm, by dsimp only; omega, by dsimp only; omega, rfl⟩⟩ and_comm
  rintro ⟨⟨j, x⟩, hm, hj, hji, rfl⟩
  dsimp only at hj hji
  obtain rfl : j = i + w := by omega
  exact ⟨by omega, hm⟩

variable [Inhabited α] [DecidableEq α]

/-- In the canonical form the listed entries are those that do not read zero. -/
theorem mem_iff_get {n : Nat} {m : Mem α} (h : wf n m = true) {i : Nat} {v : α} : (i, v) ∈ m ↔ v ≠ default ∧ get m i = v := by
  induction m with
  | nil => exact ⟨nofun, fun ⟨hv, hg⟩ => absurd hg.symm hv⟩
  | cons a r ih =>
    obtain ⟨hp, hall⟩ := wf_iff.1 h
    obtain ⟨hlt, hr⟩ := List.pairwise_cons.1 hp
    have ih := ih (wf_iff.2 ⟨hr, fun e he => hall e (List.mem_cons_of_mem _ he)⟩)
    have htail : i ≤ a.1 → (i, v) ∉ r := fun hi he => absurd (hlt _ he) (Nat.not_lt.2 hi)
    rw [List.mem_cons, get]
    split
    case isTrue hi =>
      have hne : (i, v) ≠ a := by rintro rfl; exact lt_irrefl _ hi
      simp only [hne, htail hi.le, or_self, false_iff, not_and]
      exact fun hv => hv.symm
    case isFalse =>
      split
      case isTrue hi =>
        subst hi
        have ha := (hall a (List.mem_cons_self ..)).2
        simp only [htail le_rfl, or_false, Prod.ext_iff, true_and]
        exact ⟨fun hv => ⟨hv ▸ ha, hv.symm⟩, fun hv => hv.2.symm⟩
      case isFalse hi =>
        have hne : (i, v) ≠ a := by rintro rfl; exact hi rfl
        simpa only [hne, false_or] using ih

/-- Two reads agree when the same entries are listed at the two indexes. -/
theorem get_eq_of_mem_iff {n n' : Nat} {m m' : Mem α} (h : wf n m = true) (h' : wf n' m' = true) {i j : Nat}
    (hmem : ∀ v, (i, v) ∈ m ↔ (j, v) ∈ m') : get m i = get m' j := by
  simp only [mem_iff_get h, mem_iff_get h'] at hmem
  by_cases hi : get m i = default
  · by_contra hne
    exact hne ((hmem (get m' j)).2 ⟨fun hj => hne (hi.trans hj.symm), rfl⟩).2
  · exact ((hmem (get m i)).1 ⟨hi, rfl⟩).2.symm

/-- What a read gives after the slide copy. -/
theorem rd_slideDown {w : Nat} {m : Mem α} (h : wf (2 * w) m = true) (i : Nat) :
    rd (2 * w) (slideDown w m) i = rd (2 * w) m (if i < w then i + w else i) := by
  have hs := wf_slideDown h
  unfold rd
  split
  case isTrue hi =>
    rw [if_pos (by split <;> omega)]
    refine get_eq_of_mem_iff hs h fun v => ?_
    rw [mem_slideDown]
    split
    case isTrue hlt => simp [hlt]
    case isFalse hge => simp [hge, Nat.le_of_not_lt hge]
  case isFalse hi => rw [if_neg (by split <;> omega)]

/-- What a bounded read gives after every entry has been replaced, for a function that keeps zero. -/
theorem rd_mapVals {n : Nat} {m : Mem α} {f : α → α} (hf : f default = default) (h : wf n m = true) (i : Nat) :
    rd n (mapVals f m) i = f (rd n m i) := by
  unfold rd
  split
  · exact get_mapVals hf (wf_iff.1 h).1 i
  · exact hf.symm

end Mem

namespace Cu

@[simp] theorem toNat_slidePos (w : Nat) (m : Word16) : (slidePos w m).toNat = m.toNat - w := by
  have hm := m.isLt
  unfold slidePos
  split
  case isTrue => rw [word16Of, BitVec.toNat_ofNat, Nat.mod_eq_of_lt (by omega)]
  case isFalse hw => exact (Nat.sub_eq_zero_of_le (Nat.le_of_not_le hw)).symm

/-- `NIL` stays `NIL`. -/
theorem slidePos_default (w : Nat) : slidePos w default = default :=
  BitVec.eq_of_toNat_eq ((toNat_slidePos w default).trans (Nat.zero_sub w))

theorem win_slide {c : Cu} (h : c.MemWf) (i : Nat) : c.slide.win i = c.win (if i < c.wSize then i + c.wSize else i) :=
  Mem.rd_slideDown h.window i

theorem headAt_slide {c : Cu} (h : c.MemWf) (i : Nat) : c.slide.headAt i = slidePos c.wSize (c.headAt i) :=
  Mem.rd_mapVals (slidePos_default _) h.head i

theorem prevAt_slide {c : Cu} (h : c.MemWf) (i : Nat) : c.slide.prevAt i = slidePos c.wSize (c.prevAt i) :=
  Mem.rd_mapVals (slidePos_default _) h.prev i

end Cu

/-- Settles O30: `win_slide` for each half of the window, and `toNat_slidePos` for the entries of `HEAD` and `PREV`. -/
theorem slideMovesPositions : Obligations.SlideMovesPositions := by
  intro c hm _
  refine ⟨fun i hi => ?_, fun i hi => ?_, fun i => ?_, fun i => ?_, rfl⟩
  · rw [Cu.win_slide hm, if_pos hi]
  · rw [Cu.win_slide hm, if_neg (Nat.not_lt.2 hi)]
  · rw [Cu.headAt_slide hm, Cu.toNat_slidePos]
  · rw [Cu.prevAt_slide hm, Cu.toNat_slidePos]

end Sys2Proof.Machine
end

section
/-! PROOF. The search (40_matcher.md R162) compares every byte of the match it answers. -/

namespace Sys2Proof.Machine

namespace Cu

/-- The bytes that `matchLen` counts agree. -/
theorem win_eq_of_lt_matchLen (c : Cu) : ∀ {cap p q k : Nat}, k < c.matchLen p q cap → c.win (p + k) = c.win (q + k)
  | 0, _, _, _, h => absurd h (Nat.not_lt_zero _)
  | cap + 1, p, q, k, h => by
    rw [matchLen] at h
    split at h
    case isTrue heq =>
      match k with
      | 0 => exact heq
      | k + 1 =>
        have hk := win_eq_of_lt_matchLen c (Nat.lt_of_succ_lt_succ h)
        rwa [Nat.add_right_comm p, Nat.add_right_comm q] at hk
    case isFalse => exact absurd h (Nat.not_lt_zero _)

/-- What a chain walk may answer: no candidate and the length it began with, or a 16-bit position with a length of at
most `cap` whose bytes all agree with those at `STRSTART`. -/
def Verified (c : Cu) (cap best : Nat) : Option Nat × Nat → Prop
  | (none, l) => l = best
  | (some p, l) => p < 2 ^ 16 ∧ l ≤ cap ∧ ∀ k < l, c.win (p + k) = c.win (c.strstart + k)

/-- One candidate compared: the better of it and the match so far. -/
theorem Verified.candidate {c : Cu} {cap best : Nat} {start : Option Nat} {l : Nat} (h : c.Verified cap best (start, l)) {p : Nat}
    (hp : p < 2 ^ 16) :
    c.Verified cap best (if l < c.matchLen p c.strstart cap then some p else start,
      if l < c.matchLen p c.strstart cap then c.matchLen p c.strstart cap else l) := by
  split
  · exact ⟨hp, matchLen_le .., fun _ hk => win_eq_of_lt_matchLen c hk⟩
  · exact h

theorem Verified.chainWalk {c : Cu} {cap best : Nat} (limit nice : Nat) : ∀ (chain : Nat) {cur : Nat} {start : Option Nat} {l : Nat},
    cur < 2 ^ 16 → c.Verified cap best (start, l) → c.Verified cap best (c.chainWalk limit nice cap chain cur start l)
  | 0, _, _, _, _, h => h
  | chain + 1, cur, _, _, hcur, h => by
    have hnext := h.candidate hcur
    rw [Cu.chainWalk]
    dsimp only
    split
    · exact hnext
    · split
      · exact Verified.chainWalk limit nice chain (c.prevAt _).isLt hnext
      · exact hnext

/-- `longest_match` answers `PREV_LENGTH` at most, or writes the position of a verified match of at most 258 bytes. -/
theorem longestMatch_verified (c : Cu) {cand : Nat} (h : cand < 2 ^ 16) :
    (c.longestMatch cand).2 ≤ c.prevLength ∨
      (c.longestMatch cand).2 ≤ Config.maxMatch ∧ ∀ k < (c.longestMatch cand).2,
        c.win ((c.longestMatch cand).1.matchStart.toNat + k) = c.win (c.strstart + k) := by
  have hwalk := Verified.chainWalk (c := c) (cap := min Config.maxMatch c.lookahead) (best := c.prevLength)
    (if c.maxDist < c.strstart then c.strstart - c.maxDist else 0) (min c.niceMatch c.lookahead)
    (max (if c.goodMatch ≤ c.prevLength then c.maxChainLength / 4 else c.maxChainLength) 1) h (start := none) rfl
  unfold longestMatch
  dsimp only
  split
  next p l he =>
    rw [he] at hwalk
    obtain ⟨hp, hl, hwin⟩ := hwalk
    refine .inr ⟨(Nat.min_le_left ..).trans (hl.trans (Nat.min_le_left ..)), fun k hk => ?_⟩
    rw [word32Of, BitVec.toNat_ofNat, Nat.mod_eq_of_lt (by omega)]
    exact hwin k (hk.trans_le (Nat.min_le_left ..))
  next l he =>
    rw [he] at hwalk
    exact .inl ((Nat.min_le_left ..).trans (le_of_eq hwalk))

end Cu

/-- Settles O31: every candidate is compared byte by byte (`longestMatch_verified`); the rest is `longestMatch_frame`. -/
theorem longestMatchIsVerified : Obligations.LongestMatchIsVerified := by
  intro c cand hcand
  obtain ⟨⟨p, hframe⟩, hlen⟩ := Cu.longestMatch_frame c cand
  refine ⟨hlen, fun hbeats => ?_, by rw [hframe]⟩
  exact (Cu.longestMatch_verified c hcand).resolve_left (Nat.not_le.2 hbeats)

end Sys2Proof.Machine
end

section
/-! PROOF. What `CU` queues and hands out (20_memory.md R85), what it answers to a push that can make no progress (41_deflate_engine.md
R182, R185), and the zlib header it writes (41_deflate_engine.md R206). -/

namespace Sys2Proof.Machine

/-- Settles O25: a byte put in the queue stands last (`queue_putByte`), and `flush_pending` hands out the oldest (`flushPending_eq`,
`givesOut_flushPending`). -/
theorem pendingQueueIsFifo : Obligations.PendingQueueIsFifo := fun c hm hq _ =>
  ⟨fun b hp => ⟨Cu.queue_putByte hm hp b, Cu.putByte_pending c b⟩, (Cu.givesOut_flushPending c hq).queue, Cu.flushPending_eq c hq⟩

/-! ## The zlib header -/

/-- A zlib header is read back from its word (30_encoding.md R105). -/
theorem decode_word_zlibHeader (cinfo : BitVec 4) (flevel : BitVec 2) (fdict : Bool) (fcheck : BitVec 5) :
    decode .zlibHeader (Instr.zlibHeader cinfo flevel fdict fcheck).word = .ok (.zlibHeader cinfo flevel fdict fcheck) := by
  obtain ⟨w, hw⟩ : ∃ w, w = (Instr.zlibHeader cinfo flevel fdict fcheck).word := ⟨_, rfl⟩
  have hsum : w = 2 ^ 12 * cinfo.toNat + 2 ^ 8 * 8 + 2 ^ 6 * flevel.toNat + 2 ^ 5 * fdict.toNat + fcheck.toNat := hw
  have hd := Bool.toNat_lt fdict
  have hcm : fieldOf w 8 4 = 8 := by rw [fieldOf, Nat.shiftRight_eq_div_pow]; omega
  have hinfo : fieldOf w 12 4 = cinfo.toNat := by rw [fieldOf, Nat.shiftRight_eq_div_pow]; omega
  have hlevel : fieldOf w 6 2 = flevel.toNat := by rw [fieldOf, Nat.shiftRight_eq_div_pow]; omega
  have hdict : fieldOf w 5 1 = fdict.toNat := by rw [fieldOf, Nat.shiftRight_eq_div_pow]; omega
  have hcheck : BitVec.ofNat 5 w = fcheck := BitVec.eq_of_toNat_eq (by rw [BitVec.toNat_ofNat]; omega)
  have hbit : (fdict.toNat == 1) = fdict := by cases fdict <;> rfl
  rw [← hw]
  show decodeZlibHeader w = _
  rw [decodeZlibHeader, if_pos hcm, hinfo, hlevel, hdict, hcheck, hbit, BitVec.ofNat_toNat, BitVec.ofNat_toNat,
    BitVec.setWidth_eq, BitVec.setWidth_eq]

namespace Cu

theorem levelFlags_lt (c : Cu) : c.levelFlags < 4 := by
  unfold levelFlags
  split_ifs <;> decide

/-- The header word of `CU` is that of a zlib header instruction, and its check bits make it a multiple of 31: they are at most 31, so
they fill the five low bits and carry into no other field (41_deflate_engine.md R206). -/
theorem zlibHeaderWord_eq (c : Cu) (h8 : 8 ≤ c.wBits) (h15 : c.wBits ≤ 15) : c.zlibHeaderWord % 31 = 0 ∧ ∃ check : BitVec 5,
    c.zlibHeaderWord = (Instr.zlibHeader (BitVec.ofNat 4 (c.wBits - 8)) (BitVec.ofNat 2 c.levelFlags) (c.strstart ≠ 0) check).word := by
  have hl := c.levelFlags_lt
  have hdict : (if c.strstart ≠ 0 then 0x20 else 0) = 2 ^ 5 * (decide (c.strstart ≠ 0)).toNat := by
    by_cases h : c.strstart = 0 <;> simp [h]
  obtain ⟨h, hh⟩ : ∃ h, h = (8 + (c.wBits - 8) * 16) * 256 + c.levelFlags * 64 + 2 ^ 5 * (decide (c.strstart ≠ 0)).toNat :=
    ⟨_, rfl⟩
  have hword : c.zlibHeaderWord = h + (31 - h % 31) := by rw [hh, ← hdict, zlibHeaderWord]
  refine ⟨by omega, BitVec.ofNat 5 (31 - h % 31), ?_⟩
  rw [hword, Instr.word, BitVec.toNat_ofNat, BitVec.toNat_ofNat, BitVec.toNat_ofNat,
    Nat.mod_eq_of_lt (by omega : c.wBits - 8 < 2 ^ 4), Nat.mod_eq_of_lt hl, Nat.mod_eq_of_lt (by omega : 31 - h % 31 < 2 ^ 5)]
  omega

end Cu

/-- Settles O29: the header is the word of a zlib header instruction (`zlibHeaderWord_eq`), which decodes as itself. -/
theorem zlibHeaderIsValid : Obligations.ZlibHeaderIsValid := by
  intro c h9 h15
  obtain ⟨h31, check, hw⟩ := c.zlibHeaderWord_eq (by omega) h15
  refine ⟨?_, h31, check, ?_⟩
  · rw [hw]
    exact (Laws.WordFits.zlibHeader _ _ _ check rfl).1
  · rw [hw, decode_word_zlibHeader]

/-! ## A push that can make no progress -/

namespace Cu

/-- In `BUSY` no header is being written (41_deflate_engine.md R182, step 7). -/
theorem headerFields_of_busy {c : Cu} (h : c.status = .busy) : c.headerFields = c := by
  unfold headerFields
  cases c.gzhead <;> simp [h]

/-- A redundant push in `BUSY`, with nothing queued and no input, ends at step 8 (41_deflate_engine.md R182, R185). -/
theorem push_bufError {c : Cu} {flush : Int} (hb : c.status = .busy) (hp : c.pending = 0) (hi : c.cur.availIn = 0)
    (hr : flushRank flush ≤ flushRank c.lastFlush) (hf : flush ≠ flushFinish) :
    Cu.push flush c = ({ c with lastFlush := flush }, .bufError) := by
  have hs : c.status ≠ .init := by rw [hb]; decide
  unfold Cu.push
  dsimp only
  rw [if_neg hs, headerFields_of_busy (c := { c with lastFlush := flush }) hb, if_neg (not_not.2 hp),
    if_pos ⟨hi, hr, hf⟩]

end Cu

/-- Both forms of the order of the flush values agree on them and on -1 (41_deflate_engine.md R185). -/
theorem flushRank_eq_rank {f : Int} (h : f ≤ 5) : flushRank f = Claims.rank f := by
  unfold flushRank Claims.rank
  split_ifs <;> omega

/-- Each row of pushes runs a push with the flush value it names (30_encoding.md R101). -/
theorem exec_of_mem_pushRows {i : Instr} {f : State → Int} (h : (i, f) ∈ Claims.pushRows) (s : State) :
    exec i s = .next (s.dflPushWith (f s)) := by
  simp only [Claims.pushRows, List.mem_cons, Prod.mk.injEq, List.not_mem_nil, or_false] at h
  rcases h with ⟨rfl, rfl⟩ | ⟨rfl, rfl⟩ | ⟨rfl, rfl⟩ | ⟨rfl, rfl⟩ | ⟨rfl, rfl⟩ | ⟨rfl, rfl⟩ | ⟨rfl, rfl⟩ <;> rfl

namespace State

theorem raise_cu_bufError (s : State) : s.raise .cu .bufError = Claims.cuRaised .bufError .bufferError s :=
  Isolation.raise_cu_eq_post .bufError s

/-- After `FINISH`, a push with `FINISH` and no input passes step 3 (41_deflate_engine.md R182). -/
theorem not_refused_after_finish {s : State} {flush : Int} (h : s.cu.status = .finish → flush = flushFinish ∧ s.port.input = []) :
    ¬ (s.cu.status = .finish ∧ (flush ≠ flushFinish ∨ s.port.input ≠ [])) := by
  rintro ⟨hs, hf | hi⟩
  · exact hf (h hs).1
  · exact hi (h hs).2

/-- A push without output space ends at step 4 (41_deflate_engine.md R182). -/
theorem dflPushWith_of_no_space {s : State} {flush : Int} (hs : s.cu.status ≠ .noStream) (hl : flushLegal flush = true)
    (hf : s.cu.status = .finish → flush = flushFinish ∧ s.port.input = []) (ha : s.port.availOut = 0) :
    s.dflPushWith flush = s.raise .cu .bufError := by
  rw [dflPushWith, if_neg hs, if_neg (not_not.2 hl), if_neg (not_refused_after_finish hf), if_pos ha]

/-- A push that starts and ends at step 8 hands out nothing and raises `BUF_ERROR` (41_deflate_engine.md R182). -/
theorem dflPushWith_of_bufError {s : State} {flush : Int} {c : Cu} (h : s.cu.Starts s.port flush)
    (hp : Cu.push flush (s.cu.started s.port) = (c, .bufError)) :
    s.dflPushWith flush = State.raise .cu .bufError { s with cu := { c with cur := Cursor.empty, bflush := false } } := by
  rw [dflPushWith, if_neg h.stream, if_neg (not_not.2 h.legal), if_neg (not_refused_after_finish h.finish), if_neg h.space]
  show (match Cu.push flush (s.cu.started s.port) with
      | (c, .bufError) => State.raise .cu .bufError { s with cu := { c with cur := Cursor.empty, bflush := false } }
      | (c, st) => State.finishCu { s with cu := c } ⟨st, c.cur.nextIn, c.cur.out, none, none⟩) = _
  rw [hp]

end State

/-- Settles O18: without output space a push ends at step 4, and a redundant one at step 8 (`push_bufError`). -/
theorem deflateBufErrorCauses : Obligations.DeflateBufErrorCauses := by
  intro i f hi s hs h0 h5 hfin
  have hlegal : flushLegal (f s) = true := by simp [flushLegal, h0, h5]
  rw [exec_of_mem_pushRows hi, ← State.raise_cu_bufError, ← State.raise_cu_bufError]
  refine ⟨fun ha => ?_, fun ha hb hp hin hr hf _ hlast => ?_⟩
  · rw [State.dflPushWith_of_no_space hs hlegal hfin ha]
  · have hpush := Cu.push_bufError (c := s.cu.started s.port) hb hp (by show s.port.input.length - 0 = 0; rw [hin]; rfl)
      (flush := f s) (by show flushRank _ ≤ flushRank s.cu.lastFlush; rwa [flushRank_eq_rank h5, flushRank_eq_rank hlast]) hf
    rw [State.dflPushWith_of_bufError ⟨hs, hlegal, hfin, ha⟩ hpush]
    rfl

end Sys2Proof.Machine
end

section
/-! PROOF. The bits that `CU` has sent, as a number (20_memory.md R76): what `send_bits`, `bi_flush` and `bi_windup` do to it
(42_tree_builder.md R250 to R252), and so what the markers of the flush modes send (R248, R249). -/

namespace Sys2Proof.Machine

namespace Cu

/-- Bytes put in a queue with room stand above the bytes queued. -/
theorem leNat_queue_putBytes {c : Cu} (hm : c.MemWf) {bs : List Byte} (hp : c.pending + bs.length ≤ c.pendingSize) :
    leNat (c.putBytes bs).queue = leNat c.queue + 2 ^ (8 * c.pending) * leNat bs := by
  rw [queue_putBytes bs hm hp, leNat_append, length_queue]

/-- The bit buffer with a value put above its bits, before it is cut to 16 bits. -/
theorem toNat_or_shiftLeft {b : Word16} {k v : Nat} (hb : b.toNat < 2 ^ k) (hv : v < 2 ^ 16) :
    (b ||| word16Of v <<< k).toNat = (b.toNat + 2 ^ k * v) % 2 ^ 16 := by
  have hor : v <<< k ||| b.toNat = v <<< k + b.toNat := (Nat.shiftLeft_add_eq_or_of_lt hb v).symm
  rw [BitVec.toNat_or, BitVec.toNat_shiftLeft, word16Of, BitVec.toNat_ofNat, Nat.mod_eq_of_lt hv, Nat.mul_comm (2 ^ k), ← Nat.shiftLeft_eq,
    Nat.add_comm, ← hor, Nat.or_mod_two_pow, Nat.mod_eq_of_lt b.isLt, Nat.lor_comm]

/-- `send_bits` appends the bits of its value (42_tree_builder.md R250). -/
theorem sent_sendBits {c : Cu} (hm : c.MemWf) (hb : c.BitsWf) {v n : Nat} (hv : v < 2 ^ n) (hn : n ≤ 16)
    (hp : c.pending + 2 ≤ c.pendingSize) : (c.sendBits v n).sent = c.sent + 2 ^ c.waiting * v := by
  obtain ⟨hbits, hvalid⟩ := hb
  have hv16 : v < 2 ^ 16 := hv.trans_le (Nat.pow_le_pow_right (by decide) hn)
  have hor := toNat_or_shiftLeft hbits hv16
  have hsum : c.sent + 2 ^ c.waiting * v = leNat c.queue + 2 ^ (8 * c.pending) * (c.biBuf.toNat + 2 ^ c.biValid * v) := by
    rw [sent, waiting, Nat.pow_add]
    ring
  rw [hsum]
  unfold sendBits
  split
  case isTrue hfull =>
    -- what the two bytes put in the queue hold, and what is left for the bit buffer
    have hlow := leNat_short (c.biBuf ||| word16Of v <<< c.biValid).isLt
    have hqueue := leNat_queue_putBytes hm (bs := [byteOf (c.biBuf ||| word16Of v <<< c.biValid).toNat,
      byteOf ((c.biBuf ||| word16Of v <<< c.biValid).toNat / 256)]) hp
    have hhigh : (c.biBuf.toNat + 2 ^ c.biValid * v) / 2 ^ 16 = v >>> (16 - c.biValid) := by
      have h16 : 2 ^ 16 = 2 ^ c.biValid * 2 ^ (16 - c.biValid) := by rw [← Nat.pow_add, Nat.add_sub_cancel' hvalid]
      rw [h16, ← Nat.div_div_eq_div_mul, Nat.add_mul_div_left _ _ (Nat.two_pow_pos _), Nat.div_eq_of_lt hbits, Nat.zero_add,
        Nat.shiftRight_eq_div_pow]
    have hrest : (word16Of (v >>> (16 - c.biValid))).toNat = v >>> (16 - c.biValid) :=
      Nat.mod_eq_of_lt (lt_of_le_of_lt (Nat.shiftRight_le ..) hv16)
    show leNat (c.putBytes [_, _]).queue + 2 ^ (8 * (c.pending + 2)) * (word16Of (v >>> (16 - c.biValid))).toNat = _
    rw [hqueue, hlow, hor, hrest, ← hhigh, Nat.mul_add 8, Nat.pow_add, Nat.add_assoc, Nat.mul_assoc, ← Nat.mul_add, Nat.mod_add_div]
  case isFalse hroom =>
    have hfits : c.biBuf.toNat + 2 ^ c.biValid * v < 2 ^ 16 := by
      have h1 : 2 ^ c.biValid * (v + 1) ≤ 2 ^ c.biValid * 2 ^ n := Nat.mul_le_mul_left _ hv
      have h2 : 2 ^ c.biValid * 2 ^ n ≤ 2 ^ 16 := by
        rw [← Nat.pow_add]
        exact Nat.pow_le_pow_right (by decide) (by omega)
      rw [Nat.mul_add] at h1
      omega
    show leNat c.queue + 2 ^ (8 * c.pending) * (c.biBuf ||| word16Of v <<< c.biValid).toNat = _
    rw [hor, Nat.mod_eq_of_lt hfits]

/-- How many bytes `send_bits` puts in the queue. -/
theorem pending_sendBits (c : Cu) (v : Nat) {n : Nat} (hn : n ≤ 16) :
    (c.sendBits v n).pending = c.pending + if 16 < c.biValid + n then 2 else 0 := by
  unfold sendBits
  split
  case isTrue h => rw [if_pos (by omega)]; rfl
  case isFalse h => rw [if_neg (by omega)]; rfl

/-- What stands between two queues of the same room. -/
theorem Sends.pendingSize_eq {n : Nat} {c d : Cu} (h : Sends n c d) : d.pendingSize = c.pendingSize := by
  obtain ⟨_, _, _, _, rfl⟩ := h.frame
  rfl

theorem Sends.frame_eq {n : Nat} {c d : Cu} (h : Sends n c d) :
    d = { c with pendingBuf := d.pendingBuf, pending := d.pending, biBuf := d.biBuf, biValid := d.biValid } := by
  obtain ⟨_, _, _, _, rfl⟩ := h.frame
  rfl

/-- `bi_flush` moves bits and loses none (42_tree_builder.md R251). -/
theorem sent_biFlush {c : Cu} (hm : c.MemWf) (hp : c.pending + 2 ≤ c.pendingSize) : c.biFlush.sent = c.sent := by
  unfold biFlush
  split
  · have hqueue := leNat_queue_putBytes hm (bs := [byteOf c.biBuf.toNat, byteOf (c.biBuf.toNat / 256)]) hp
    rw [leNat_short c.biBuf.isLt] at hqueue
    show leNat (c.putBytes [_, _]).queue + 2 ^ (8 * (c.pending + 2)) * 0 = _
    rw [hqueue]
    rfl
  · split
    · have hqueue := leNat_queue_putBytes hm (bs := [c.biBuf.setWidth 8]) (by simp; omega)
      show leNat (c.putBytes [_]).queue + 2 ^ (8 * (c.pending + 1)) * (c.biBuf >>> 8).toNat = _
      have hsplit : leNat [c.biBuf.setWidth 8] + 2 ^ 8 * (c.biBuf >>> 8).toNat = c.biBuf.toNat := by
        simp only [leNat, BitVec.toNat_setWidth, BitVec.toNat_ushiftRight, Nat.shiftRight_eq_div_pow]
        omega
      rw [hqueue, Nat.mul_add 8, Nat.pow_add, Nat.add_assoc, Nat.mul_assoc, ← Nat.mul_add, hsplit]
      rfl
    · rfl

/-- `bi_windup` makes whole bytes of all that was sent (42_tree_builder.md R252). -/
theorem biWindup_whole {c : Cu} (hm : c.MemWf) (hb : c.BitsWf) (hp : c.pending + 2 ≤ c.pendingSize) :
    leNat c.biWindup.queue = c.sent ∧ c.waiting ≤ 8 * c.biWindup.pending ∧ 8 * c.biWindup.pending < c.waiting + 8 ∧
      c.biWindup = { c with pendingBuf := c.biWindup.pendingBuf, pending := c.biWindup.pending, biBuf := 0, biValid := 0 } := by
  have hv := hb.valid
  obtain ⟨head, he, hval, hlo, hhi⟩ := biWindup_eq hb
  obtain ⟨buf, hputs⟩ := puts_putBytes head c
  have hqueue := leNat_queue_putBytes hm (bs := head) (by omega)
  have hpend : c.biWindup.pending = c.pending + head.length := by rw [he, hputs]
  refine ⟨?_, by rw [hpend, waiting]; omega, by rw [hpend, waiting]; omega, by rw [he, hputs]⟩
  rw [sent, ← hval, ← hqueue, he]
  rfl

/-! ## The markers of the flush modes -/

/-- The marker of `PARTIAL_FLUSH` (42_tree_builder.md R249): the header of a fixed block and the code of its end. -/
theorem trAlign_eq (c : Cu) : c.trAlign = ((c.sendBits 2 3).sendBits 0 7).biFlush := rfl

theorem trAlign_facts {c : Cu} (hm : c.MemWf) (hb : c.BitsWf) (hp : c.pending + 6 ≤ c.pendingSize) :
    c.trAlign.sent = c.sent + 2 ^ c.waiting * 2 ∧ Sends 10 c c.trAlign ∧ c.trAlign.biValid ≤ 7 := by
  have h1 := sends_sendBits c (v := 2) (n := 3) (by decide) (by decide)
  have h2 := sends_sendBits (c.sendBits 2 3) (v := 0) (n := 7) (by decide) (by decide)
  obtain ⟨h3, h7⟩ := sends_biFlush ((c.sendBits 2 3).sendBits 0 7)
  have hm1 := (quiet_sendBits c 2 3).mem hm
  have hm2 := (quiet_sendBits (c.sendBits 2 3) 0 7).mem hm1
  have hs1 := sent_sendBits hm hb (v := 2) (n := 3) (by decide) (by decide) (by omega)
  have hp1 := pending_sendBits c 2 (n := 3) (by decide)
  have hp2 := pending_sendBits (c.sendBits 2 3) 0 (n := 7) (by decide)
  have hsz1 := h1.pendingSize_eq
  have hsz2 := h2.pendingSize_eq
  have hroom1 : (c.sendBits 2 3).pending + 2 ≤ (c.sendBits 2 3).pendingSize := by rw [hp1, hsz1]; split <;> omega
  have hroom2 : ((c.sendBits 2 3).sendBits 0 7).pending + 2 ≤ ((c.sendBits 2 3).sendBits 0 7).pendingSize := by
    rw [hp2, hp1, hsz2, hsz1]; split <;> split <;> omega
  have hs2 := sent_sendBits hm1 (h1.bits hb) (v := 0) (n := 7) (by decide) (by decide) hroom1
  rw [Nat.mul_zero, Nat.add_zero] at hs2
  rw [trAlign_eq]
  exact ⟨by rw [sent_biFlush hm2 hroom2, hs2, hs1], (h1.trans h2).trans h3, h7 ((h1.trans h2).bits hb)⟩

/-- The marker of `SYNC_FLUSH` (42_tree_builder.md R248): a stored block without data. The queue has room for all of it, so that
nothing is handed out. -/
theorem trStoredBlock_nil {c : Cu} (hp : (c.sendBits 0 3).biWindup.pending + 4 ≤ (c.sendBits 0 3).biWindup.pendingSize) :
    c.trStoredBlock [] false = (c.sendBits 0 3).biWindup.putBytes [0x00, 0x00, 0xFF, 0xFF] := by
  rw [trStoredBlock_putBytes [] false c (by decide)]
  show ((c.sendBits 0 3).biWindup.makeRoom 4).putBytes _ = _
  rw [makeRoom, if_neg (by omega)]
  rfl

theorem syncMarker_facts {c : Cu} (hm : c.MemWf) (hb : c.BitsWf) (hp : c.pending + 8 ≤ c.pendingSize) :
    (∃ buf p, c.trStoredBlock [] false = { c with pendingBuf := buf, pending := p, biBuf := 0, biValid := 0 }) ∧
    ∃ head, (c.trStoredBlock [] false).queue = head ++ [0x00, 0x00, 0xFF, 0xFF] ∧ leNat head = c.sent ∧
      c.waiting + 3 ≤ 8 * head.length ∧ 8 * head.length < c.waiting + 3 + 8 := by
  have h1 := sends_sendBits c (v := 0) (n := 3) (by decide) (by decide)
  have hb1 := h1.bits hb
  have hm1 := (quiet_sendBits c 0 3).mem hm
  have hs1 := sent_sendBits hm hb (v := 0) (n := 3) (by decide) (by decide) (by omega)
  rw [Nat.mul_zero, Nat.add_zero] at hs1
  have hsz1 := h1.pendingSize_eq
  have hp1 := pending_sendBits c 0 (n := 3) (by decide)
  obtain ⟨hval, hlo, hhi, hframe⟩ := biWindup_whole hm1 hb1 (by rw [hp1, hsz1]; split <;> omega)
  have hm2 := (quiet_biWindup _).mem hm1
  have hsz2 : (c.sendBits 0 3).biWindup.pendingSize = c.pendingSize := by rw [← hsz1, hframe]; rfl
  have hv1 := hb1.valid
  have hroom : (c.sendBits 0 3).biWindup.pending + 4 ≤ (c.sendBits 0 3).biWindup.pendingSize := by
    have hw := h1.count hb
    have hv := hb.valid
    rw [hsz2]
    rw [hw, waiting] at hhi
    omega
  rw [trStoredBlock_nil hroom]
  rw [h1.count hb] at hlo hhi
  refine ⟨?_, (c.sendBits 0 3).biWindup.queue, queue_putBytes _ hm2 hroom, hval.trans hs1, by rwa [length_queue], by rwa [length_queue]⟩
  obtain ⟨buf, hputs⟩ := puts_putBytes [0x00, 0x00, 0xFF, 0xFF] (c.sendBits 0 3).biWindup
  obtain ⟨_, _, _, _, he⟩ := h1.frame
  exact ⟨buf, _, by rw [hputs, hframe, he]⟩

end Cu

/-- Settles O27: the value stands above the bits already sent (`sent_sendBits`); the counts and the frame are those of
`sends_sendBits`. -/
theorem sendBitsAppends : Obligations.SendBitsAppends := by
  intro c value length hm hb hlen hval _ hroom
  have hs := Cu.sends_sendBits c hval hlen
  exact ⟨Cu.sent_sendBits hm hb hval hlen hroom, hs.count hb, Cu.pending_sendBits c value hlen, hs.bits hb, hs.frame_eq⟩

/-- Settles O28: the markers are what `trAlign_facts` and `syncMarker_facts` say. -/
theorem flushMarkers : Obligations.FlushMarkers := by
  intro c hm hb _ hroom
  obtain ⟨hsent, halign, hvalid⟩ := Cu.trAlign_facts hm hb (by omega)
  obtain ⟨⟨_, _, hframe⟩, hhead⟩ := Cu.syncMarker_facts hm hb hroom
  exact ⟨hsent, halign.count hb, Nat.lt_succ_of_le hvalid, halign.bits hb, halign.frame_eq, by rw [hframe], by rw [hframe],
    by rw [hframe], hhead⟩

end Sys2Proof.Machine
end

section
/-! PROOF. What a tally writes (42_tree_builder.md R231): its entry of the tally buffer and the frequencies of its symbols. -/

namespace Sys2Proof.Machine

namespace Cu

/-- A frequency counted up. -/
theorem node_incFreq {c : Cu} (h : c.MemWf) (t : Tree) {n : Nat} (hn : n < t.size) (m : Nat) :
    (c.incFreq t n).node t m = { c.node t m with freq := (c.node t m).freq + if m = n then 1 else 0 } := by
  rw [incFreq, setFreq, node_setNode h]
  by_cases hm : m = n
  · rw [if_pos ⟨hm, hn⟩, if_pos hm, hm]
  · rw [if_neg fun hc => hm hc.1, if_neg hm]
    exact congrArg (fun f => { c.node t m with freq := f }) (BitVec.add_zero _).symm

theorem rd_dBuf_tallyEntry {c : Cu} (h : c.MemWf) (hr : c.lastLit < c.litBufsize) (dist : Nat) (lc : Byte) (j : Nat) :
    Mem.rd c.litBufsize (c.tallyEntry dist lc).dBuf j = if j = c.lastLit then word16Of dist else Mem.rd c.litBufsize c.dBuf j := by
  refine (Mem.rd_wr h.dBuf).trans ?_
  simp only [hr, and_true]

theorem rd_lBuf_tallyEntry {c : Cu} (h : c.MemWf) (hr : c.lastLit < c.litBufsize) (dist : Nat) (lc : Byte) (j : Nat) :
    Mem.rd c.litBufsize (c.tallyEntry dist lc).lBuf j = if j = c.lastLit then lc else Mem.rd c.litBufsize c.lBuf j := by
  refine (Mem.rd_wr h.lBuf).trans ?_
  simp only [hr, and_true]

/-- The frequencies that a literal leaves: those of the symbols before it and its own. -/
theorem node_tallyLit {c : Cu} (h : c.MemWf) (b : Byte) (n : Nat) :
    (c.tallyLit b).node .l n = { c.node .l n with freq := (c.node .l n).freq + if n = b.toNat then 1 else 0 } :=
  node_incFreq ((quiet_tallyEntry c 0 b).mem h) .l (b.isLt.trans (by decide)) n

/-- The frequencies that a match leaves: its length symbol and its distance symbol are counted. -/
theorem node_tallyMatch {c : Cu} (h : c.MemWf) {dist len : Nat} (hd : 1 ≤ dist ∧ dist ≤ 32768) (hl : 3 ≤ len ∧ len ≤ 258) (n : Nat) :
    (c.tallyMatch dist len).node .l n =
        { c.node .l n with freq := (c.node .l n).freq + if n = 257 + lengthCode len then 1 else 0 } ∧
      (c.tallyMatch dist len).node .d n = { c.node .d n with freq := (c.node .d n).freq + if n = distCode dist then 1 else 0 } := by
  have hm : MemWf { c.tallyEntry dist (byteOf (len - Config.minMatch)) with matchCount := c.matchCount + 1 } :=
    { (quiet_tallyEntry c dist (byteOf (len - Config.minMatch))).mem h with }
  obtain ⟨hlen, -⟩ := length_extra hl.1 hl.2
  obtain ⟨hdist, -⟩ := dist_extra hd.1 hd.2
  have hls : 257 + lengthCode len < Tree.l.size := by show _ < 573; omega
  have hds : distCode dist < Tree.d.size := by show _ < 61; omega
  exact ⟨node_incFreq hm .l hls n, node_incFreq ((quiet_incFreq _ .l (257 + lengthCode len)).mem hm) .d hds n⟩

end Cu

/-- Settles O32: the entry is that of `tallyEntry`, the frequencies are those of `node_incFreq`; no operation of a tally writes
anything else. -/
theorem tallyRecordsTheSymbol : Obligations.TallyRecordsTheSymbol := by
  intro c b dist len hm hr hd1 hd2 hl1 hl2
  have hnode := Cu.node_tallyMatch hm ⟨hd1, hd2⟩ ⟨hl1, hl2⟩
  refine ⟨Cu.rd_dBuf_tallyEntry hm hr 0 b, Cu.rd_lBuf_tallyEntry hm hr 0 b, Cu.node_tallyLit hm b, rfl, fun j => ?_, fun j => ?_,
    fun n => (hnode n).1, fun n => (hnode n).2, rfl⟩
  · refine (congrArg BitVec.toNat (Cu.rd_dBuf_tallyEntry hm hr dist (byteOf (len - 3)) j)).trans ?_
    rw [apply_ite BitVec.toNat, word16Of, BitVec.toNat_ofNat, Nat.mod_eq_of_lt (by omega)]
  · refine (congrArg BitVec.toNat (Cu.rd_lBuf_tallyEntry hm hr dist (byteOf (len - 3)) j)).trans ?_
    rw [apply_ite BitVec.toNat, byteOf, BitVec.toNat_ofNat, Nat.mod_eq_of_lt (by omega)]

end Sys2Proof.Machine
end

section
/-! PROOF. The run-length coding of code lengths (42_tree_builder.md R241) read back as 30_encoding.md R112 says: a run of equal lengths
comes back as that run. -/

namespace Sys2Proof.Machine

theorem expandCl_append : ∀ (a b : List Cu.ClItem) (l : List Nat), expandCl (a ++ b) l = expandCl b (expandCl a l)
  | [], _, _ => rfl
  | _ :: r, b, _ => expandCl_append r b _

/-- Lengths sent one by one. -/
theorem expandCl_replicate {cur : Nat} (hc : cur < 16) : ∀ (n : Nat) (l : List Nat),
    expandCl (List.replicate n ⟨cur, 0, 0⟩) l = l ++ List.replicate n cur
  | 0, l => (List.append_nil l).symm
  | n + 1, l => by
    rw [List.replicate_succ, expandCl, if_pos hc, expandCl_replicate hc n, List.append_assoc, List.replicate_succ]
    rfl

namespace Cu

/-- The lengths already read back end with the length of the last run. -/
def EndsWith (prev : Option Nat) (l : List Nat) : Prop := ∀ p, prev = some p → l.getLastD 0 = p

/-- After a run of `cur` the lengths end with `cur`. -/
theorem endsWith_run (cur count : Nat) (l : List Nat) : EndsWith (some cur) (l ++ List.replicate (count + 1) cur) := by
  rintro _ ⟨⟩
  rw [List.replicate_succ', ← List.append_assoc, List.getLastD_concat]

/-- What a finished run is sent as stands for that run. -/
theorem expandCl_runItems {prev : Option Nat} {cur count maxCount minCount : Nat} (h : RunOk prev cur count maxCount minCount)
    {l : List Nat} (hl : EndsWith prev l) : expandCl (runItems prev cur count minCount) l = l ++ List.replicate count cur := by
  have hlen := h.len
  unfold runItems
  split
  case isTrue => exact expandCl_replicate (by omega) count l
  case isFalse hmin =>
    split
    case isTrue hcur =>
      split
      case isTrue hprev =>
        obtain ⟨-, h4⟩ := h.other hcur hprev
        simp only [expandCl, if_pos (show cur < 16 by omega), List.getLastD_concat]
        rw [if_neg (by decide), if_pos trivial, List.append_assoc, List.singleton_append, ← List.replicate_succ,
          show 3 + (count - 1 - 3) + 1 = count by omega]
      case isFalse hprev =>
        obtain ⟨-, h3⟩ := h.same hcur (not_not.1 hprev)
        simp only [expandCl]
        rw [if_neg (by decide), if_pos trivial, hl cur (not_not.1 hprev), show 3 + (count - 3) = count by omega]
    case isFalse hcur =>
      obtain rfl := not_not.1 hcur
      obtain ⟨-, h3⟩ := h.zero rfl
      split
      case isTrue =>
        simp only [expandCl]
        rw [if_neg (by decide), if_neg (by decide), if_pos trivial, show 3 + (count - 3) = count by omega]
      case isFalse =>
        simp only [expandCl]
        rw [if_neg (by decide), if_neg (by decide), if_neg (by decide), show 11 + (count - 11) = count by omega]

/-- The lengths not yet visited come back behind the `count` lengths of the run that has begun. -/
theorem expandCl_scanLoop : ∀ (lens : List Nat) {prev : Option Nat} {count maxCount minCount : Nat} {l : List Nat},
    (∀ x ∈ lens, x ≤ 15) → (∀ x, lens.head? = some x → RunOk prev x (count + 1) maxCount minCount) → (lens = [] → count = 0) →
    EndsWith prev l → expandCl (scanLoop lens prev count maxCount minCount) l = l ++ List.replicate count (lens.headD 0) ++ lens
  | [], _, count, _, _, l, _, _, h0, _ => by simp [scanLoop, expandCl, h0 rfl]
  | cur :: rest, prev, count, maxCount, minCount, l, hx, hr, _, hl => by
    have hrun := hr cur rfl
    have hrest : ∀ x ∈ rest, x ≤ 15 := fun x hm => hx x (List.mem_cons_of_mem _ hm)
    rw [scanLoop]
    dsimp only
    split
    case isTrue hgo =>
      -- the run goes on
      obtain ⟨tail, rfl⟩ := List.head?_eq_some_iff.1 hgo.2
      rw [expandCl_scanLoop (cur :: tail) hrest (fun x hh => by cases hh; exact { hrun with count := hgo.1 }) nofun hl]
      simp only [List.headD_cons, List.replicate_succ', List.append_assoc, List.cons_append, List.nil_append]
    case isFalse =>
      -- the run ends, and what follows begins one of its own
      generalize hp : (if rest.head? = some 0 then (138, 3) else if rest.head? = some cur then (6, 3) else (7, 4)) = p
      obtain ⟨a, b⟩ := p
      dsimp only
      rw [expandCl_append, expandCl_runItems hrun hl, expandCl_scanLoop rest hrest (fun x hh => ?_) (fun _ => rfl) (endsWith_run cur count l)]
      · simp only [List.headD_cons, List.replicate_succ', List.replicate_zero, List.append_assoc, List.cons_append, List.nil_append]
      · refine runOk_next (hrest x (List.mem_of_head? hh)) a b ?_
        rw [← hp, hh]
        simp only [Option.some.injEq]

/-- The first run of a sequence of lengths. -/
theorem expandCl_scanOrSend {lens : List Nat} (h : ∀ x ∈ lens, x ≤ 15) : expandCl (scanOrSend lens) [] = lens := by
  have hnone : EndsWith none [] := nofun
  unfold scanOrSend
  split
  case isTrue h0 =>
    rw [expandCl_scanLoop lens h (fun x hx => ?_) (fun _ => rfl) hnone]
    · rfl
    · obtain rfl : 0 = x := Option.some.inj (h0.symm.trans hx)
      exact ⟨by omega, fun _ => ⟨rfl, rfl⟩, by omega, by omega, by omega⟩
  case isFalse h0 =>
    rw [expandCl_scanLoop lens h (fun x hx => ?_) (fun _ => rfl) hnone]
    · rfl
    · have hx0 : x ≠ 0 := fun he => h0 (he ▸ hx)
      exact ⟨h x (List.mem_of_head? hx), fun he => absurd he hx0, fun _ hn => (nomatch hn), fun _ _ => ⟨rfl, rfl⟩, by omega⟩

/-- The widths of the extra bits of the code-length symbols (30_encoding.md R112). -/
theorem ClItem.Wf.width_cases {i : ClItem} (h : i.Wf) :
    i.sym ≤ 15 ∧ i.width = 0 ∨ i.sym = 16 ∧ i.width = 2 ∨ i.sym = 17 ∧ i.width = 3 ∨ i.sym = 18 ∧ i.width = 7 := by
  obtain ⟨hsym, hwidth, -⟩ := h
  unfold extraBlbits at hwidth
  split_ifs at hwidth <;> omega

end Cu

/-- Settles O34: every run comes back as it was (`expandCl_scanLoop`), and the symbols are those of `wf_scanOrSend`. -/
theorem runLengthCodingIsLossless : Obligations.RunLengthCodingIsLossless := by
  intro lens h
  refine ⟨Cu.expandCl_scanOrSend h, fun i hi => ?_⟩
  have hwf := (Cu.wf_scanOrSend h).1 i hi
  exact ⟨hwf.extra, hwf.width_cases⟩

end Sys2Proof.Machine
end

section
/-! PROOF. The symbols that `build_tree` puts on its heap (42_tree_builder.md R234): those with a frequency and, where these are fewer
than two, synthetic ones; every other symbol has the length 0. -/

namespace Sys2Proof.Machine

namespace Cu

/-- The length of a node. -/
def lenOf (c : Cu) (t : Tree) (x : Nat) : Nat := (c.node t x).len.toNat

/-- The father of a node. -/
def dadOf (c : Cu) (t : Tree) (x : Nat) : Nat := (c.node t x).dad.toNat

/-- A write of another field of a node leaves the lengths alone. -/
theorem lenOf_setNode {c : Cu} (h : c.MemWf) (t : Tree) (n : Nat) {v : Node} (hv : v.len = (c.node t n).len) :
    (c.setNode t n v).lenOf t = c.lenOf t := by
  funext x
  rw [lenOf, node_setNode h]
  split
  case isTrue hx => rw [hv, hx.1, lenOf]
  case isFalse => rfl

/-- A write of another field of a node leaves the fathers alone. -/
theorem dadOf_setNode {c : Cu} (h : c.MemWf) (t : Tree) (n : Nat) {v : Node} (hv : v.dad = (c.node t n).dad) :
    (c.setNode t n v).dadOf t = c.dadOf t := by
  funext x
  rw [dadOf, node_setNode h]
  split
  case isTrue hx => rw [hv, hx.1, dadOf]
  case isFalse => rfl

theorem lenOf_setLen {c : Cu} (h : c.MemWf) (t : Tree) (n : Nat) {v : Nat} (hv : v ≤ 15) (x : Nat) :
    (c.setLen t n v).lenOf t x = if x = n ∧ n < t.size then v else c.lenOf t x := len_setLen h t n x hv

theorem freq_setLen {c : Cu} (h : c.MemWf) (t : Tree) (n v x : Nat) : ((c.setLen t n v).node t x).freq = (c.node t x).freq :=
  freq_setNode h t n x rfl

theorem dadOf_setDad {c : Cu} (h : c.MemWf) (t : Tree) (n : Nat) {v : Nat} (hv : v < 2 ^ 16) (x : Nat) :
    (c.setDad t n v).dadOf t x = if x = n ∧ n < t.size then v else c.dadOf t x := by
  rw [dadOf, setDad, node_setNode h]
  split
  · exact Nat.mod_eq_of_lt hv
  · rfl

/-! ## The symbols without a frequency -/

/-- The first loop gives a symbol without a frequency the length 0. -/
theorem lenOf_heapSymbols (t : Tree) {c : Cu} (h : c.MemWf) : ∀ x < t.elems, (c.node t x).freq = 0 →
    (c.heapSymbols t).1.lenOf t x = 0 := by
  have hsize := t.size_eq
  refine (forRange_range (P := fun k (p : Cu × Int) => p.1.MemWf ∧ (∀ x, (p.1.node t x).freq = (c.node t x).freq) ∧
    ∀ x < k, (c.node t x).freq = 0 → p.1.lenOf t x = 0) ?_ ⟨{ h with }, fun _ => rfl, by omega⟩).2.2
  rintro k hk ⟨d, m⟩ ⟨hd, hfreq, hlen⟩
  dsimp only at hd hfreq hlen ⊢
  split
  case isTrue hf =>
    refine ⟨(quiet_setDepth ..).mem ((quiet_setHeap ..).mem { hd with }), hfreq, fun x hx h0 => ?_⟩
    rcases Nat.lt_succ_iff_lt_or_eq.1 hx with hlt | rfl
    · exact hlen x hlt h0
    · exact absurd h0 (hfreq x ▸ hf)
  case isFalse hf =>
    refine ⟨(quiet_setLen ..).mem hd, fun x => ?_, fun x hx h0 => ?_⟩
    · exact (freq_setLen hd t k 0 x).trans (hfreq x)
    · rw [lenOf_setLen hd t k (Nat.zero_le _)]
      split
      · rfl
      · exact hlen x (by omega) h0

/-! ## The synthetic symbols -/

theorem lenOf_forceSymbol {c : Cu} (h : c.MemWf) (t : Tree) (m : Int) : (c.forceSymbol t m).1.lenOf t = c.lenOf t := by
  have hm : MemWf (setHeap { c with heapLen := c.heapLen + 1 } (c.heapLen + 1) (forcedNode m).1) := (quiet_setHeap ..).mem { h with }
  funext x
  have hx := congrFun (lenOf_setNode hm t (forcedNode m).1
    (v := { (setHeap { c with heapLen := c.heapLen + 1 } (c.heapLen + 1) (forcedNode m).1).node t (forcedNode m).1 with freq := 1 }) rfl) x
  cases t <;> exact hx

/-- What a symbol of one bit adds to the bits counted is what was taken off for it. -/
theorem Forced.cost {t : Tree} {x : Nat} {c d : Cu} (h : Forced t x c d) {g : Nat → Nat} (hg : g x = 1) :
    d.optLen + word32Of (d.weight t g) = c.optLen + word32Of (c.weight t g) := by
  have h1 : word32Of 1 = 1 := rfl
  rw [h.opt, h.weight_eq, hg, word32Of_add, h1]
  ring

/-- What became of the frequencies of `c`, and of the bits counted, once its symbols are on the heap: `few` says that there are less
than two of them. -/
structure Prepared (t : Tree) (few : Prop) (c b : Cu) : Prop where
  freq   : ∀ x < t.elems, (b.node t x).freq = (c.node t x).freq ∨
    (c.node t x).freq = 0 ∧ x ≤ 2 ∧ (b.node t x).freq = 1 ∧ few
  unused : ∀ x < t.elems, (b.node t x).freq = 0 → b.lenOf t x = 0
  cost   : ∀ g : Nat → Nat, (few → ∀ x ≤ 2, (b.node t x).freq ≠ 0 → g x = 1) →
    b.optLen + word32Of (b.weight t g) = c.optLen + word32Of (c.weight t g)

/-- A synthetic symbol more. -/
theorem Prepared.force {t : Tree} {few : Prop} {c b d : Cu} {x : Nat} (h : Prepared t few c b) (hfew : few) (hd : Forced t x b d)
    (hlen : d.lenOf t = b.lenOf t) : Prepared t few c d := by
  have hE := t.elems_le
  have hx := hd.small
  have hused : ∀ y, (b.node t y).freq ≠ 0 → (d.node t y).freq ≠ 0 := fun y hy => by
    rw [hd.freq y]
    split
    · decide
    · exact hy
  refine ⟨fun y hy => ?_, fun y hy hf => ?_, fun g hg => ?_⟩
  · rw [hd.freq y]
    by_cases hyx : y = x
    · have hy0 : (c.node t y).freq = 0 := by
        have h0 : (b.node t y).freq = 0 := hyx ▸ hd.unused
        rcases h.freq y hy with he | ⟨he, -⟩
        · exact he.symm.trans h0
        · exact he
      exact .inr ⟨hy0, by omega, if_pos hyx, hfew⟩
    · rw [if_neg hyx]
      exact h.freq y hy
  · rw [hlen]
    exact h.unused y hy (not_not.1 fun hne => hused y hne hf)
  · rw [hd.cost (hg hfew x hx (by rw [hd.freq, if_pos rfl]; decide))]
    exact h.cost g fun hf y hy hne => hg hf y hy (hused y hne)

/-- The second loop makes no, one or two rounds, and ends with two symbols if it makes any. -/
theorem prepared_forceTwo {t : Tree} {few : Prop} {c b : Cu} {m : Int} (h : Prepared t few c b) (hb : Leaves t b m)
    (hfew : few ↔ b.heapLen < 2) : Prepared t few c (forceTwo t (b, m)).1 ∧ (few → (forceTwo t (b, m)).1.heapLen = 2) := by
  unfold forceTwo
  dsimp only
  split
  case isTrue h0 =>
    obtain ⟨⟨x, hx⟩, h1, hl1⟩ := leaves_forceSymbol hb (by omega)
    obtain ⟨⟨y, hy⟩, -, hl2⟩ := leaves_forceSymbol h1 (by omega)
    have hp := h.force (hfew.2 (by omega)) hx (lenOf_forceSymbol hb.mem t m)
    exact ⟨hp.force (hfew.2 (by omega)) hy (lenOf_forceSymbol h1.mem t _), fun _ => by omega⟩
  case isFalse =>
    split
    case isTrue h0 =>
      obtain ⟨⟨x, hx⟩, -, hl1⟩ := leaves_forceSymbol hb (by omega)
      exact ⟨h.force (hfew.2 (by omega)) hx (lenOf_forceSymbol hb.mem t m), fun _ => by omega⟩
    case isFalse => exact ⟨h, fun hf => by have := hfew.1 hf; omega⟩

end Cu

end Sys2Proof.Machine
end

section
/-! PROOF. The tree that `build_tree` makes of the heap (42_tree_builder.md R236): every inner node is the father of two nodes, and stands
below them in the upper part of the heap. -/

namespace Sys2Proof.Machine

namespace Cu

/-! ## A round of the merge loop -/

theorem siftLoop_heapOnly (t : Tree) (v : Nat) : ∀ fuel k j (c : Cu), ∃ heap, siftLoop t v fuel k j c = { c with heap := heap }
  | 0, _, _, _ => ⟨_, rfl⟩
  | fuel + 1, k, j, c => by
    rw [siftLoop]
    split
    · exact ⟨_, rfl⟩
    · dsimp only
      generalize (if j < c.heapLen && c.smaller t (c.heapAt (j + 1)) (c.heapAt j) then j + 1 else j) = j'
      split
      · exact ⟨_, rfl⟩
      · obtain ⟨heap, he⟩ := siftLoop_heapOnly t v fuel j' (2 * j') (c.setHeap k (c.heapAt j'))
        exact ⟨heap, he⟩

/-- Sifting changes no node. -/
theorem node_pqdownheap (t : Tree) (k : Nat) (c : Cu) : (c.pqdownheap t k).node = c.node := by
  obtain ⟨heap, he⟩ := siftLoop_heapOnly t (c.heapAt k) c.heapLen k (2 * k) c
  rw [pqdownheap, he]
  rfl

theorem node_foldl_pqdownheap (t : Tree) : ∀ (l : List Nat) (c : Cu), (l.foldl (fun c n => c.pqdownheap t n) c).node = c.node
  | [], _ => rfl
  | n :: r, c => (node_foldl_pqdownheap t r _).trans (node_pqdownheap t n c)

/-- Two nodes with their father written. -/
theorem joinNodes_nodes {c : Cu} (h : c.MemWf) (t : Tree) {node : Nat} (hn : node < 2 ^ 16) (n m : Nat) :
    (c.joinNodes t node n m).lenOf t = c.lenOf t ∧
      ∀ x, (c.joinNodes t node n m).dadOf t x = if (x = n ∨ x = m) ∧ x < t.size then node else c.dadOf t x := by
  have h5 := (quiet_setFreq c t node ((c.node t n).freq + (c.node t m).freq)).mem h
  have hl5 := lenOf_setNode h t node (v := { c.node t node with freq := (c.node t n).freq + (c.node t m).freq }) rfl
  have hd5 := dadOf_setNode h t node (v := { c.node t node with freq := (c.node t n).freq + (c.node t m).freq }) rfl
  unfold joinNodes
  dsimp only
  change (c.setFreq t node ((c.node t n).freq + (c.node t m).freq)).lenOf t = _ at hl5
  change (c.setFreq t node ((c.node t n).freq + (c.node t m).freq)).dadOf t = _ at hd5
  generalize c.setFreq t node ((c.node t n).freq + (c.node t m).freq) = c5 at *
  have h6 := (quiet_setDepth c5 node (max (c5.depthAt n) (c5.depthAt m) + 1)).mem h5
  have hn6 : (c5.setDepth node (max (c5.depthAt n) (c5.depthAt m) + 1)).node = c5.node := rfl
  generalize c5.setDepth node (max (c5.depthAt n) (c5.depthAt m) + 1) = c6 at *
  have h7 := (quiet_setDad c6 t n node).mem h6
  have hl7 : (c6.setDad t n node).lenOf t = c6.lenOf t := lenOf_setNode h6 t n rfl
  have hl8 : ((c6.setDad t n node).setDad t m node).lenOf t = (c6.setDad t n node).lenOf t := lenOf_setNode h7 t m rfl
  have hl6 : c6.lenOf t = c5.lenOf t := funext fun x => by rw [lenOf, hn6, lenOf]
  refine ⟨by rw [hl8, hl7, hl6, hl5], fun x => ?_⟩
  rw [dadOf_setDad h7 t m hn, dadOf_setDad h6 t n hn, dadOf, hn6, ← dadOf, hd5]
  split_ifs <;> first | rfl | omega

/-- `d` is `c` after a round of the merge loop, which takes `n` and `m` off the heap and makes them children of `node`. -/
structure Joined (t : Tree) (node n m : Nat) (c d : Cu) : Prop where
  top   : d.heapMax = c.heapMax - 2
  upper : ∀ i, c.heapMax - 2 ≤ i → d.heapAt i = if i = c.heapMax - 2 then m else if i = c.heapMax - 1 then n else c.heapAt i
  dads  : ∀ x, d.dadOf t x = if (x = n ∨ x = m) ∧ x < t.size then node else c.dadOf t x
  lens  : d.lenOf t = c.lenOf t
  taken : ∀ g : Nat → Nat, g n + g m ≤ c.low g

theorem heapAt_stackTwo {c : Cu} (h : c.MemWf) {n m : Nat} (hn : n < 2 ^ 16) (hm : m < 2 ^ 16) (h2 : 2 ≤ c.heapMax) (ht : c.heapMax ≤ 573)
    (i : Nat) : (c.stackTwo n m).heapAt i = if i = c.heapMax - 2 then m else if i = c.heapMax - 1 then n else c.heapAt i := by
  have h0 : MemWf { c with heapMax := c.heapMax - 2 } := { h with }
  have h1 := (quiet_setHeap { c with heapMax := c.heapMax - 2 } (c.heapMax - 2 + 1) n).mem h0
  unfold stackTwo
  rw [heapAt_setHeap h1 (by omega) hm, heapAt_setHeap h0 (by omega) hn, show c.heapMax - 2 + 1 = c.heapMax - 1 by omega]
  rfl

theorem memWf_stackTwo {c : Cu} (h : c.MemWf) (n m : Nat) : (c.stackTwo n m).MemWf :=
  (quiet_setHeap ..).mem ((quiet_setHeap { c with heapMax := c.heapMax - 2 } (c.heapMax - 2 + 1) n).mem { h with })

theorem joined_mergeRound {t : Tree} {c : Cu} {node : Nat} (h : c.MemWf) (hE : t.elems ≤ node) (hn : node < 2 ^ 16)
    (h2 : 2 ≤ c.heapLen) (hl : c.heapLen + 2 < c.heapMax) (ht : c.heapMax ≤ 573) : ∃ n m, Joined t node n m c (c.mergeRound t node) := by
  obtain ⟨hdm, hdl, hdt, hdlow, hdabove, -⟩ := popped_popLeast t h h2 (by omega)
  have hdn : (c.popLeast t).node = c.node := node_pqdownheap ..
  have hn16 := heapAt_lt c 1
  have hm16 := heapAt_lt (c.popLeast t) 1
  have hleast : ∀ g : Nat → Nat, g ((c.popLeast t).heapAt 1) ≤ (c.popLeast t).low g := fun g =>
    Finset.single_le_sum (f := fun i => g ((c.popLeast t).heapAt i)) (fun _ _ => Nat.zero_le _)
      (Finset.mem_Icc.2 ⟨le_refl 1, by omega⟩)
  rw [mergeRound_eq]
  refine ⟨c.heapAt 1, (c.popLeast t).heapAt 1, ?_⟩
  generalize (c.popLeast t).heapAt 1 = m at *
  have htaken : ∀ g : Nat → Nat, g (c.heapAt 1) + g m ≤ c.low g := fun g => by have := hdlow g; have := hleast g; omega
  generalize c.heapAt 1 = n at *
  generalize c.popLeast t = d at *
  have hem := memWf_stackTwo hdm n m
  have heat := heapAt_stackTwo hdm hn16 hm16 (by omega) (by omega)
  have hen : (d.stackTwo n m).node = d.node := rfl
  have hel : (d.stackTwo n m).heapLen = d.heapLen := rfl
  have het : (d.stackTwo n m).heapMax = d.heapMax - 2 := rfl
  generalize d.stackTwo n m = e at *
  have hf := marks_joinNodes hE n m e
  have hfm := hf.mem hem
  obtain ⟨hfh, hfl, hft⟩ := hf.heap
  obtain ⟨hflen, hfdad⟩ := joinNodes_nodes hem t hn n m
  generalize e.joinNodes t node n m = f at *
  have hk := sifts_pqdownheap t ((quiet_setHeap f 1 node).mem hfm) (by show f.heapLen < 573; omega) (le_refl 1)
    (by show 1 ≤ f.heapLen; omega)
  have hkn : ((f.setHeap 1 node).pqdownheap t 1).node = f.node := node_pqdownheap ..
  refine ⟨?_, fun i hi => ?_, fun x => ?_, funext fun x => ?_, htaken⟩
  · rw [hk.heapMax_eq, show (f.setHeap 1 node).heapMax = f.heapMax from rfl, hft, het, hdt]
  · rw [hk.above i (by show f.heapLen < i; omega), heapAt_setHeap hfm (by omega) hn, if_neg (by omega), heapAt, hfh, ← heapAt, heat, hdt]
    split_ifs <;> first | rfl | exact hdabove i (by omega)
  · rw [dadOf, hkn, ← dadOf, hfdad, dadOf, hen, hdn, ← dadOf]
  · rw [lenOf, hkn, ← lenOf, hflen, lenOf, hen, hdn, ← lenOf]

/-! ## The upper part of the heap -/

/-- After `r` rounds: a father stands below its children in the upper part, if it stands there, and every inner node made so far is
the father of two nodes. -/
structure Parented (t : Tree) (r : Nat) (c : Cu) : Prop where
  order : ∀ i j, c.heapMax ≤ i → i < 573 → c.heapMax ≤ j → j < 573 → c.heapAt j = c.dadOf t (c.heapAt i) → j < i
  pairs : ∀ f : Nat → Nat, c.heapSum (Finset.Ico c.heapMax 573) (fun n => f (c.dadOf t n)) =
    2 * ∑ y ∈ Finset.Ico t.elems (t.elems + r), f y

/-- A node is a symbol with a frequency or one of the inner nodes, and only once. -/
theorem node_once (b : Cu) {t : Tree} {k : Nat} (hk : t.elems ≤ k) (x : Nat) : (b.leafSum t fun y => if y = x then 1 else 0) +
    ∑ y ∈ Finset.Ico t.elems k, (if y = x then 1 else 0) ≤ if x < k then 1 else 0 := by
  have hx : b.leafSum t (fun y => if y = x then 1 else 0) ≤ if x < t.elems then 1 else 0 := by
    have hle : ∀ y ∈ Finset.range t.elems, (if (b.node t y).freq ≠ 0 then if y = x then 1 else 0 else 0) ≤ if y = x then 1 else 0 :=
      fun y _ => by split <;> omega
    refine (Finset.sum_le_sum hle).trans ?_
    rw [Finset.sum_ite_eq']
    simp
  have hy : ∑ y ∈ Finset.Ico t.elems k, (if y = x then 1 else 0) = if t.elems ≤ x ∧ x < k then 1 else 0 := by
    rw [Finset.sum_ite_eq' (Finset.Ico t.elems k) x fun _ => 1]
    simp
  split_ifs at hx hy ⊢ <;> omega

/-- What stands in the upper part when two nodes are taken off the heap: symbols and inner nodes made before, other than these two. -/
theorem Merging.upper_ne {t : Tree} {b c : Cu} {m : Int} {r n n' : Nat} (hb : Leaves t b m) (h : Merging t b r c)
    (ht : ∀ g : Nat → Nat, g n + g n' ≤ c.low g) :
    n < t.elems + r ∧ n' < t.elems + r ∧ ∀ i, c.heapMax ≤ i → i < 573 → c.heapAt i < t.elems + r ∧ c.heapAt i ≠ n ∧ c.heapAt i ≠ n' := by
  have honce : ∀ x, (if n = x then 1 else 0) + (if n' = x then 1 else 0) + (c.high fun y => if y = x then 1 else 0) ≤
      if x < t.elems + r then 1 else 0 := fun x => by
    have h1 := b.node_once (Nat.le_add_right t.elems r) x
    have h2 := h.bag fun y => if y = x then 1 else 0
    have h3 := ht fun y => if y = x then 1 else 0
    rw [hb.bag] at h2
    exact (Nat.add_le_add_right h3 _).trans (h2.le.trans h1)
  have hlt : ∀ x, 1 ≤ (if n = x then 1 else 0) + (if n' = x then 1 else 0) + (c.high fun y => if y = x then 1 else 0) →
      x < t.elems + r := fun x hx => by
    by_contra hge
    have := honce x
    rw [if_neg hge] at this
    omega
  have hone : ∀ x, (if n = x then 1 else 0) + (if n' = x then 1 else 0) + (c.high fun y => if y = x then 1 else 0) ≤ 1 := fun x =>
    (honce x).trans (by split <;> omega)
  have hhigh : ∀ i, c.heapMax ≤ i → i < 573 → 1 ≤ c.high fun y => if y = c.heapAt i then 1 else 0 := fun i h1 h2 =>
    le_of_eq_of_le (if_pos rfl).symm (Finset.single_le_sum (f := fun j => if c.heapAt j = c.heapAt i then 1 else 0)
      (fun _ _ => Nat.zero_le _) (Finset.mem_Ico.2 ⟨h1, h2⟩))
  refine ⟨hlt n (by rw [if_pos rfl]; omega), hlt n' (by rw [if_pos (rfl : n' = n')]; omega), fun i h1 h2 => ?_⟩
  have hi := hhigh i h1 h2
  refine ⟨hlt _ (by omega), fun he => ?_, fun he => ?_⟩
  · have := hone (c.heapAt i)
    rw [if_pos he.symm] at this
    omega
  · have := hone (c.heapAt i)
    rw [if_pos he.symm] at this
    omega

/-- A round of the merge loop makes the next inner node a father. -/
theorem Parented.step {t : Tree} {b c d : Cu} {m : Int} {r n n' : Nat} (hb : Leaves t b m) (hc : Merging t b r c) (h : Parented t r c)
    (h2 : 2 ≤ c.heapLen) (hd : Joined t (t.elems + r) n n' c d) : Parented t (r + 1) d := by
  have hH := hb.heapLen_le
  have hlen := hc.len
  have htop := hc.top
  have hS := t.size_eq
  have hE := t.elems_le
  obtain ⟨hn, hn', hold⟩ := hc.upper_ne hb hd.taken
  have hdn : d.dadOf t n = t.elems + r := by rw [hd.dads, if_pos ⟨.inl rfl, by omega⟩]
  have hdn' : d.dadOf t n' = t.elems + r := by rw [hd.dads, if_pos ⟨.inr rfl, by omega⟩]
  have hat : ∀ i, c.heapMax ≤ i → i < 573 → d.heapAt i = c.heapAt i ∧ d.dadOf t (d.heapAt i) = c.dadOf t (c.heapAt i) := fun i h1 h3 => by
    have he : d.heapAt i = c.heapAt i := by rw [hd.upper i (by omega), if_neg (by omega), if_neg (by omega)]
    obtain ⟨-, hne, hne'⟩ := hold i h1 h3
    exact ⟨he, by rw [he, hd.dads, if_neg fun hx => hx.1.elim hne hne']⟩
  have h0 : d.heapAt (c.heapMax - 2) = n' := by rw [hd.upper _ (le_refl _), if_pos rfl]
  have h1 : d.heapAt (c.heapMax - 1) = n := by rw [hd.upper _ (by omega), if_neg (by omega), if_pos rfl]
  have hlt : ∀ j, c.heapMax - 2 ≤ j → j < 573 → d.heapAt j < t.elems + r := fun j h3 h4 => by
    rw [hd.upper j h3]
    split_ifs
    · exact hn'
    · exact hn
    · exact (hold j (by omega) h4).1
  refine ⟨fun i j hi hi' hj hj' he => ?_, fun f => ?_⟩
  · rw [hd.top] at hi hj
    have hltj := hlt j hj hj'
    rcases lt_or_ge i c.heapMax with hnew | hge
    · rcases (by omega : i = c.heapMax - 2 ∨ i = c.heapMax - 1) with rfl | rfl
      · rw [h0, hdn'] at he; omega
      · rw [h1, hdn] at he; omega
    · rcases lt_or_ge j c.heapMax with hjn | hjg
      · omega
      · rw [(hat i hge hi').2, (hat j hjg hj').1] at he
        exact h.order i j hge hi' hjg hj' he
  · have hsum : ∑ i ∈ Finset.Ico c.heapMax 573, f (d.dadOf t (d.heapAt i)) = ∑ i ∈ Finset.Ico c.heapMax 573, f (c.dadOf t (c.heapAt i)) :=
      Finset.sum_congr rfl fun i hi => by rw [(hat i (Finset.mem_Ico.1 hi).1 (Finset.mem_Ico.1 hi).2).2]
    have hpairs := h.pairs f
    unfold heapSum at hpairs ⊢
    dsimp only at hpairs ⊢
    rw [hd.top, Finset.sum_eq_sum_Ico_succ_bot (by omega), Finset.sum_eq_sum_Ico_succ_bot (by omega),
      show c.heapMax - 2 + 1 = c.heapMax - 1 by omega, show c.heapMax - 1 + 1 = c.heapMax by omega, h0, h1, hdn, hdn', hsum, hpairs,
      ← Nat.add_assoc t.elems, Finset.sum_Ico_succ_top (by omega)]
    ring

theorem parented_mergeLoop {t : Tree} {b : Cu} {m : Int} (hb : Leaves t b m) : ∀ fuel {r : Nat} {c : Cu}, Merging t b r c →
    Parented t r c → c.lenOf t = b.lenOf t → 2 ≤ c.heapLen → c.heapLen ≤ fuel + 1 →
    Parented t (b.heapLen - 1) (mergeLoop t fuel (t.elems + r) c) ∧ (mergeLoop t fuel (t.elems + r) c).lenOf t = b.lenOf t
  | 0, _, _, _, _, _, h2, hf => by omega
  | fuel + 1, r, c, h, hp, hlen, h2, hf => by
    have hE := t.elems_le
    have hH := hb.heapLen_le
    have hl := h.len
    have ht := h.top
    obtain ⟨n, n', hj⟩ := joined_mergeRound h.mem (Nat.le_add_right t.elems r) (by omega) h2 (by omega) (by omega)
    obtain ⟨h1, -⟩ := merging_mergeRound h h2 hH
    have hp1 := hp.step hb h h2 hj
    have hl1 := h1.len
    rw [mergeLoop]
    split
    · rw [show b.heapLen - 1 = r + 1 by omega]
      exact ⟨hp1, hj.lens.trans hlen⟩
    · exact parented_mergeLoop hb fuel h1 hp1 (hj.lens.trans hlen) (by omega) (by omega)

/-- The tree in the upper part of the heap: what `Grown` says of its nodes, and who is whose father. -/
structure Shaped (t : Tree) (b c : Cu) : Prop extends Grown t b c where
  order : ∀ i j, c.heapMax < i → i < 573 → c.heapMax ≤ j → j < 573 → c.heapAt j = c.dadOf t (c.heapAt i) → j < i
  pairs : ∀ f : Nat → Nat, c.heapSum (Finset.Ico (c.heapMax + 1) 573) (fun n => f (c.dadOf t n)) =
    2 * ∑ y ∈ Finset.Ico t.elems (c.heapAt c.heapMax + 1), f y
  lens  : c.lenOf t = b.lenOf t
  below : c.heapMax < 573
  small : c.heapAt c.heapMax < 2 * t.elems

/-- The root put on top of the upper part. -/
def placeRoot (c : Cu) : Cu :=
  let c1 : Cu := { c with heapMax := c.heapMax - 1 }
  c1.setHeap c1.heapMax (c1.heapAt 1)

theorem mergeTree_eq (t : Tree) (c : Cu) : c.mergeTree t = (mergeLoop t c.heapLen t.elems c).placeRoot := rfl

theorem heapAt_placeRoot {c : Cu} (h : c.MemWf) (h1 : 1 ≤ c.heapMax) (ht : c.heapMax ≤ 573) (i : Nat) :
    c.placeRoot.heapAt i = if i = c.heapMax - 1 then c.heapAt 1 else c.heapAt i :=
  heapAt_setHeap (c := { c with heapMax := c.heapMax - 1 }) { h with } (by show c.heapMax - 1 < 573; omega) (heapAt_lt c 1) i

theorem shaped_mergeTree {t : Tree} {b : Cu} {m : Int} (hb : Leaves t b m) (h2 : 2 ≤ b.heapLen) : Shaped t b (b.mergeTree t) := by
  have hE := t.elems_le
  have hH := hb.heapLen_le
  have h0 : Merging t b 0 b := ⟨hb.mem, rfl, hb.top, fun g => by
    rw [Nat.add_zero, Finset.Ico_self, Finset.sum_empty, high, heapSum, hb.top, Finset.Ico_self, Finset.sum_empty], .refl t b⟩
  have hp0 : Parented t 0 b := ⟨fun i j hi hi' => by have := hb.top; omega, fun f => by
    rw [Nat.add_zero, Finset.Ico_self, Finset.sum_empty, heapSum, hb.top, Finset.Ico_self, Finset.sum_empty, Nat.mul_zero]⟩
  obtain ⟨h1, hroot⟩ := merging_mergeLoop hb b.heapLen h0 h2 (by omega)
  obtain ⟨hp1, hlens⟩ := parented_mergeLoop hb b.heapLen h0 hp0 rfl h2 (by omega)
  have hgrown := grown_mergeTree hb h2
  rw [Nat.add_zero] at h1 hroot hp1 hlens
  rw [mergeTree_eq] at hgrown ⊢
  generalize mergeLoop t b.heapLen t.elems b = c at *
  obtain ⟨hm, hl, ht, -, -⟩ := h1
  have hat := heapAt_placeRoot hm (by omega) (by omega)
  have hmax : c.placeRoot.heapMax = c.heapMax - 1 := rfl
  have hnode : c.placeRoot.node = c.node := rfl
  generalize c.placeRoot = d at *
  have hlow : ∀ i, c.heapMax ≤ i → d.heapAt i = c.heapAt i := fun i hi => (hat i).trans (if_neg (by omega))
  have hdad : d.dadOf t = c.dadOf t := funext fun x => by rw [dadOf, hnode, dadOf]
  have hup : c.heapMax - 1 + 1 = c.heapMax := by omega
  have hr : d.heapAt (c.heapMax - 1) = t.elems + (b.heapLen - 2) := by rw [hat, if_pos rfl, hroot]
  refine { hgrown with
    order := fun i j hi hi' hj hj' he => ?_, pairs := fun f => ?_, lens := ?_, below := by omega, small := by rw [hmax, hr]; omega }
  · rw [hmax] at hi hj
    rcases Nat.eq_or_lt_of_le hj with rfl | hj
    · exact hi
    · rw [hlow i (by omega), hlow j (by omega), hdad] at he
      exact hp1.order i j (by omega) hi' (by omega) hj' he
  · have hpairs := hp1.pairs f
    rw [hmax, hup, hr, hdad, show t.elems + (b.heapLen - 2) + 1 = t.elems + (b.heapLen - 1) by omega, ← hpairs]
    exact heapSum_congr (fun i hi => hlow i (Finset.mem_Ico.1 hi).1) _
  · rw [← hlens]
    exact funext fun x => by rw [lenOf, hnode, lenOf]

end Cu

end Sys2Proof.Machine
end

section
/-! PROOF. The first pass of `gen_bitlen` (42_tree_builder.md R237): every node is one bit longer than its father, but for the limit of
the tree. The nodes cut there are counted, and they are twice as many as the units of code space that are too many. -/

namespace Sys2Proof.Machine

namespace Cu

/-! ## Where the nodes stand -/

/-- A node stands in a part of the heap just if it is counted there. -/
theorem heapSum_pos_iff (c : Cu) (s : Finset Nat) (x : Nat) :
    0 < (c.heapSum s fun y => if y = x then 1 else 0) ↔ ∃ i ∈ s, c.heapAt i = x := by
  unfold heapSum
  rw [Finset.sum_pos_iff]
  refine exists_congr fun i => and_congr_right fun _ => ?_
  dsimp only
  split <;> simp_all

/-- The nodes of the upper part: the symbols with a frequency and the inner nodes above the root, each once. -/
theorem Grown.count {t : Tree} {b c : Cu} (h : Grown t b c) (x : Nat) :
    (c.heapSum (Finset.Ico (c.heapMax + 1) 573) fun y => if y = x then 1 else 0) =
      if x < t.elems ∧ (b.node t x).freq ≠ 0 ∨ t.elems ≤ x ∧ x < c.heapAt c.heapMax then 1 else 0 := by
  have hleaf : (b.leafSum t fun y => if y = x then 1 else 0) = if x < t.elems ∧ (b.node t x).freq ≠ 0 then 1 else 0 := by
    have hswap : ∀ y ∈ Finset.range t.elems, (if (b.node t y).freq ≠ 0 then if y = x then 1 else 0 else 0) =
        if y = x then if (b.node t x).freq ≠ 0 then 1 else 0 else 0 := fun y _ => by
      by_cases hy : y = x
      · rw [hy, if_pos rfl, if_pos rfl]
      · rw [if_neg hy, if_neg hy, ite_self]
    unfold leafSum
    rw [Finset.sum_congr rfl hswap, Finset.sum_ite_eq', ite_and]
    simp only [Finset.mem_range]
  have hinner : ∑ y ∈ Finset.Ico t.elems (c.heapAt c.heapMax), (if y = x then 1 else 0) =
      if t.elems ≤ x ∧ x < c.heapAt c.heapMax then 1 else 0 := by
    rw [Finset.sum_ite_eq']
    simp only [Finset.mem_Ico]
  rw [h.bag, hleaf, hinner]
  by_cases hx : x < t.elems
  · simp only [hx, Nat.not_le.2 hx, true_and, false_and, or_false, if_false, Nat.add_zero]
  · simp only [hx, false_and, false_or, if_false, Nat.zero_add]

/-- A node is a symbol with a frequency or an inner node above the root. -/
theorem Grown.node_at {t : Tree} {b c : Cu} (h : Grown t b c) {i : Nat} (hi : c.heapMax < i) (hi' : i < 573) :
    c.heapAt i < t.elems ∧ (b.node t (c.heapAt i)).freq ≠ 0 ∨ t.elems ≤ c.heapAt i ∧ c.heapAt i < c.heapAt c.heapMax := by
  have hpos := (c.heapSum_pos_iff (Finset.Ico (c.heapMax + 1) 573) (c.heapAt i)).2 ⟨i, Finset.mem_Ico.2 ⟨hi, hi'⟩, rfl⟩
  rw [h.count] at hpos
  by_contra hne
  rw [if_neg hne] at hpos
  omega

/-- The root stands only on top of the upper part. -/
theorem Grown.ne_root {t : Tree} {b c : Cu} (h : Grown t b c) {i : Nat} (hi : c.heapMax < i) (hi' : i < 573) :
    c.heapAt i ≠ c.heapAt c.heapMax := by
  have hroot := h.root
  rcases h.node_at hi hi' with h1 | h1 <;> omega

/-- No node stands twice in the upper part, the root included. -/
theorem Grown.inj_root {t : Tree} {b c : Cu} (h : Grown t b c) {i j : Nat} (hi : c.heapMax ≤ i) (hi' : i < 573) (hj : c.heapMax ≤ j)
    (hj' : j < 573) (he : c.heapAt i = c.heapAt j) : i = j := by
  rcases Nat.eq_or_lt_of_le hi with rfl | hi
  · rcases Nat.eq_or_lt_of_le hj with rfl | hj
    · rfl
    · exact absurd he.symm (h.ne_root hj hj')
  · rcases Nat.eq_or_lt_of_le hj with rfl | hj
    · exact absurd he (h.ne_root hi hi')
    · exact h.inj (Finset.mem_Ico.2 ⟨hi, hi'⟩) (Finset.mem_Ico.2 ⟨hj, hj'⟩) he

/-- Every inner node stands in the upper part. -/
theorem Grown.mem_of_inner {t : Tree} {b c : Cu} (h : Grown t b c) (hH : c.heapMax < 573) {y : Nat} (hy : t.elems ≤ y)
    (hy' : y ≤ c.heapAt c.heapMax) : ∃ j, c.heapMax ≤ j ∧ j < 573 ∧ c.heapAt j = y := by
  rcases Nat.eq_or_lt_of_le hy' with rfl | hlt
  · exact ⟨_, le_refl _, hH, rfl⟩
  · obtain ⟨j, hj, he⟩ := (c.heapSum_pos_iff (Finset.Ico (c.heapMax + 1) 573) y).1 (by
      rw [h.count, if_pos (.inr ⟨hy, hlt⟩)]
      exact Nat.one_pos)
    obtain ⟨h1, h2⟩ := Finset.mem_Ico.1 hj
    exact ⟨j, by omega, h2, he⟩

theorem Shaped.node_lt {t : Tree} {b c : Cu} (h : Shaped t b c) {i : Nat} (hi : c.heapMax < i) (hi' : i < 573) :
    c.heapAt i < t.size := by
  have hS := t.size_eq
  have hE := t.elems_le
  have hR := h.small
  rcases h.node_at hi hi' with h1 | h1 <;> omega

/-- The father of a node stands below it. -/
theorem Shaped.dad_at {t : Tree} {b c : Cu} (h : Shaped t b c) {i : Nat} (hi : c.heapMax < i) (hi' : i < 573) :
    ∃ j, c.heapMax ≤ j ∧ j < i ∧ c.heapAt j = c.dadOf t (c.heapAt i) := by
  have hpos : 0 < c.heapSum (Finset.Ico (c.heapMax + 1) 573) fun n => if c.dadOf t n = c.dadOf t (c.heapAt i) then 1 else 0 :=
    Finset.sum_pos_iff.2 ⟨i, Finset.mem_Ico.2 ⟨hi, hi'⟩, lt_of_lt_of_eq Nat.one_pos (if_pos rfl).symm⟩
  have hin : c.dadOf t (c.heapAt i) ∈ Finset.Ico t.elems (c.heapAt c.heapMax + 1) := by
    rw [h.pairs fun y => if y = c.dadOf t (c.heapAt i) then 1 else 0, Finset.sum_ite_eq'] at hpos
    by_contra hne
    rw [if_neg hne] at hpos
    omega
  obtain ⟨h1, h2⟩ := Finset.mem_Ico.1 hin
  obtain ⟨j, hj, hj', he⟩ := h.mem_of_inner h.below h1 (Nat.le_of_lt_succ h2)
  exact ⟨j, hj, h.order i j hi hi' hj hj' he, he⟩

/-! ## One node -/

theorem blCountAt_setBlCount {c : Cu} (h : c.MemWf) {i v : Nat} (hi : i ≤ 15) (hv : v < 2 ^ 16) (l : Nat) :
    (c.setBlCount i v).blCountAt l = if l = i then v else c.blCountAt l := by
  unfold blCountAt setBlCount
  dsimp only
  rw [Mem.rd_wr h.blCount]
  by_cases hl : l = i
  · rw [if_pos ⟨hl, by show i < 16; omega⟩, if_pos hl, word16Of, BitVec.toNat_ofNat, Nat.mod_eq_of_lt hv]
  · rw [if_neg fun hc => hl hc.1, if_neg hl]

theorem blCountAt_lt (c : Cu) (l : Nat) : c.blCountAt l < 2 ^ 16 := (Mem.rd (Config.maxBits + 1) c.blCount l).isLt

theorem bitsFor_eq (t : Tree) (n : Nat) (c : Cu) : c.bitsFor t n = min (c.lenOf t (c.dadOf t n) + 1) t.maxLength := rfl

theorem blCountAt_lengthened (t : Tree) (n : Nat) (c : Cu) : (c.lengthened t n).blCountAt = c.blCountAt := by cases t <;> rfl

theorem blCountAt_countBits (t : Tree) (n bits : Nat) (c : Cu) : (c.countBits t n bits).blCountAt = c.blCountAt := rfl

theorem bitlenNode_snd (t : Tree) (m h o : Nat) (c : Cu) : (bitlenNode t m h (c, o)).2 =
    o + if t.maxLength ≤ c.lenOf t (c.dadOf t (c.heapAt h)) then 1 else 0 := by
  have hiff : t.maxLength < (c.node t (c.node t (c.heapAt h)).dad.toNat).len.toNat + 1 ↔
      t.maxLength ≤ c.lenOf t (c.dadOf t (c.heapAt h)) := Nat.lt_succ_iff
  unfold bitlenNode
  dsimp only
  rw [apply_ite Prod.snd, ite_self]
  simp only [hiff]
  split <;> rfl

/-- A node of the first pass: its length, and the count of this length. -/
theorem bitlenNode_facts {t : Tree} {m h o : Nat} {c : Cu} (hc : c.MemWf) (hn : c.heapAt h < t.size)
    (hcount : ∀ l, c.blCountAt l + 1 < 2 ^ 16) :
    (∀ x, (bitlenNode t m h (c, o)).1.lenOf t x = if x = c.heapAt h then c.bitsFor t (c.heapAt h) else c.lenOf t x) ∧
    (bitlenNode t m h (c, o)).1.dadOf t = c.dadOf t ∧
    ∀ l, (bitlenNode t m h (c, o)).1.blCountAt l =
      c.blCountAt l + if c.heapAt h ≤ m ∧ c.bitsFor t (c.heapAt h) = l then 1 else 0 := by
  rw [bitlenNode_fst]
  generalize c.heapAt h = n at *
  have hb := bitsFor_bounds t n c
  have hd := (quiet_setLen c t n (c.bitsFor t n)).mem hc
  have hlen : ∀ x, (c.lengthened t n).lenOf t x = if x = n then c.bitsFor t n else c.lenOf t x := fun x => by
    rw [lengthened, lenOf_setLen hc t n hb.2]
    simp only [hn, and_true]
  have hdad : (c.lengthened t n).dadOf t = c.dadOf t := dadOf_setNode hc t n rfl
  have hbl := blCountAt_lengthened t n c
  change (c.lengthened t n).MemWf at hd
  generalize c.lengthened t n = d at *
  split
  case isTrue hmn => exact ⟨hlen, hdad, fun l => by rw [hbl, if_neg fun hh => absurd hh.1 (Nat.not_le.2 hmn), Nat.add_zero]⟩
  case isFalse hmn =>
    have hnode : ∀ x, (((d.setBlCount (c.bitsFor t n) (d.blCountAt (c.bitsFor t n) + 1)).countBits t n (c.bitsFor t n)).node t x) =
        d.node t x := fun x => node_countBits ..
    refine ⟨fun x => by rw [lenOf, hnode, ← lenOf, hlen], funext fun x => by rw [dadOf, hnode, ← dadOf, hdad], fun l => ?_⟩
    have hv : d.blCountAt (c.bitsFor t n) + 1 < 2 ^ 16 := by rw [hbl]; exact hcount _
    rw [blCountAt_countBits, blCountAt_setBlCount hd hb.2 hv, hbl]
    by_cases hl : l = c.bitsFor t n
    · rw [if_pos hl, if_pos ⟨Nat.le_of_not_lt hmn, hl.symm⟩, hl]
    · rw [if_neg hl, if_neg fun hh => hl hh.2.symm, Nat.add_zero]

/-! ## The whole pass -/

/-- The first pass over the heap of `c` after `k` nodes: every node so far is one bit longer than its father. -/
structure Pass (t : Tree) (c : Cu) (m k : Nat) (p : Cu × Nat) : Prop where
  mem    : p.1.MemWf
  heap   : p.1.heap = c.heap
  dads   : p.1.dadOf t = c.dadOf t
  root   : p.1.lenOf t (c.heapAt c.heapMax) = 0
  rest   : ∀ x, (∀ i, c.heapMax ≤ i → i < 573 → c.heapAt i ≠ x) → p.1.lenOf t x = c.lenOf t x
  lens   : ∀ i ∈ Finset.Ico (c.heapMax + 1) (c.heapMax + 1 + k),
    p.1.lenOf t (c.heapAt i) = min (p.1.lenOf t (c.dadOf t (c.heapAt i)) + 1) t.maxLength
  cut    : p.2 = c.heapSum (Finset.Ico (c.heapMax + 1) (c.heapMax + 1 + k)) fun n =>
    if t.maxLength ≤ p.1.lenOf t (c.dadOf t n) then 1 else 0
  counts : ∀ l, p.1.blCountAt l = c.heapSum (Finset.Ico (c.heapMax + 1) (c.heapMax + 1 + k)) fun n =>
    if n ≤ m ∧ p.1.lenOf t n = l then 1 else 0

theorem heapSum_Ico_succ (c : Cu) (lo k : Nat) (g : Nat → Nat) : c.heapSum (Finset.Ico lo (lo + (k + 1))) g =
    c.heapSum (Finset.Ico lo (lo + k)) g + g (c.heapAt (lo + k)) := Finset.sum_Ico_succ_top (Nat.le_add_right ..) _

/-- A count of nodes is small. -/
theorem heapSum_count_le (c : Cu) (lo k : Nat) (p : Nat → Prop) [DecidablePred p] :
    (c.heapSum (Finset.Ico lo (lo + k)) fun n => if p n then 1 else 0) ≤ k := by
  refine (Finset.sum_le_card_nsmul _ _ 1 fun i _ => ?_).trans (by simp)
  dsimp only
  split <;> omega

theorem Pass.step {t : Tree} {b c : Cu} {m k : Nat} {p : Cu × Nat} (hc : Shaped t b c) (hk : c.heapMax + 1 + k < 573)
    (h : Pass t c m k p) : Pass t c m (k + 1) (bitlenNode t m (c.heapMax + 1 + k) p) := by
  obtain ⟨d, o⟩ := p
  obtain ⟨hmem, hheap, hdads, hroot, hrest, hlens, hcut, hcounts⟩ := h
  dsimp only at hmem hheap hdads hroot hrest hlens hcut hcounts
  have hat : d.heapAt = c.heapAt := funext fun i => by rw [heapAt, hheap, heapAt]
  obtain ⟨hlen, hdad, hbl⟩ := bitlenNode_facts (m := m) (h := c.heapMax + 1 + k) (o := o) hmem
    (by rw [hat]; exact hc.node_lt (by omega) hk) fun l => by
      have := c.heapSum_count_le (c.heapMax + 1) k fun n => n ≤ m ∧ d.lenOf t n = l
      rw [← hcounts l] at this
      omega
  have hsnd := bitlenNode_snd t m (c.heapMax + 1 + k) o d
  have hmem' := (quiet_bitlenNode t m (c.heapMax + 1 + k) (d, o)).mem hmem
  have hheap' : (bitlenNode t m (c.heapMax + 1 + k) (d, o)).1.heap = d.heap := by
    rw [bitlenNode_fst]
    split <;> exact (regs_setNode ..).2.2.2.2
  rw [hat] at hlen hbl hsnd
  rw [hdads] at hdad hsnd
  generalize bitlenNode t m (c.heapMax + 1 + k) (d, o) = q at *
  obtain ⟨e, o'⟩ := q
  dsimp only at *
  -- the nodes below keep their lengths, and the father of the new one is one of them
  have hold : ∀ j, c.heapMax ≤ j → j < c.heapMax + 1 + k → e.lenOf t (c.heapAt j) = d.lenOf t (c.heapAt j) := fun j hj hj' => by
    rw [hlen, if_neg fun he => by have := hc.inj_root hj (by omega) (by omega) hk he; omega]
  have hfather : ∀ i, c.heapMax < i → i ≤ c.heapMax + 1 + k →
      e.lenOf t (c.dadOf t (c.heapAt i)) = d.lenOf t (c.dadOf t (c.heapAt i)) := fun i hi hi' => by
    obtain ⟨j, hj, hji, he⟩ := hc.dad_at hi (by omega)
    rw [← he]
    exact hold j hj (by omega)
  have hsum : ∀ f g : Nat → Nat, (∀ i, c.heapMax < i → i < c.heapMax + 1 + k → f (c.heapAt i) = g (c.heapAt i)) →
      c.heapSum (Finset.Ico (c.heapMax + 1) (c.heapMax + 1 + k)) f = c.heapSum (Finset.Ico (c.heapMax + 1) (c.heapMax + 1 + k)) g :=
    fun f g hfg => Finset.sum_congr rfl fun i hi => hfg i (Finset.mem_Ico.1 hi).1 (Finset.mem_Ico.1 hi).2
  have hnew : e.lenOf t (c.heapAt (c.heapMax + 1 + k)) = d.bitsFor t (c.heapAt (c.heapMax + 1 + k)) := by rw [hlen, if_pos rfl]
  refine ⟨hmem', hheap'.trans hheap, hdad, by rw [hold _ (le_refl _) (by omega), hroot], fun x hx => ?_, fun i hi => ?_, ?_, fun l => ?_⟩
  · rw [hlen, if_neg fun he => hx _ (by omega) hk he.symm, hrest x hx]
  · obtain ⟨hi1, hi2⟩ := Finset.mem_Ico.1 hi
    dsimp only
    rw [hfather i (by omega) (by omega)]
    rcases (by omega : i < c.heapMax + 1 + k ∨ i = c.heapMax + 1 + k) with hlt | rfl
    · rw [hold i (by omega) hlt]
      exact hlens i (Finset.mem_Ico.2 ⟨hi1, hlt⟩)
    · rw [hnew, bitsFor_eq, hdads]
  · dsimp only
    rw [heapSum_Ico_succ, hfather _ (by omega) (le_refl _), hsnd, hcut]
    congr 1
    exact hsum _ _ fun i hi hi' => by rw [hfather i hi (by omega)]
  · dsimp only
    rw [heapSum_Ico_succ, hbl, hcounts, hnew]
    congr 1
    exact hsum _ _ fun i hi hi' => by rw [hold i (by omega) hi']

/-- `BL_COUNT` cleared, and the root given the length 0. -/
theorem pass_begin {t : Tree} {b c : Cu} (hc : Shaped t b c) (m : Nat) : Pass t c m 0
    ((forRange 0 (Config.maxBits + 1) (fun l c => c.setBlCount l 0) c).setLen t (c.heapAt c.heapMax) 0, 0) ∧
    ((forRange 0 (Config.maxBits + 1) (fun l c => c.setBlCount l 0) c).setLen t (c.heapAt c.heapMax) 0).heapMax = c.heapMax := by
  obtain ⟨hmem, hzero, bl, hframe⟩ := forRange_range (n := Config.maxBits + 1) (P := fun k (d : Cu) => d.MemWf ∧
    (∀ l < k, d.blCountAt l = 0) ∧ ∃ bl, d = { c with blCount := bl }) (f := fun l c => c.setBlCount l 0) (s := c)
    (fun i hi d => by
      rintro ⟨hm, hz, bl, rfl⟩
      refine ⟨(quiet_setBlCount ..).mem hm, fun l hl => ?_, _, rfl⟩
      rw [blCountAt_setBlCount hm (Nat.le_of_lt_succ hi) (by decide)]
      split
      · rfl
      · exact hz l (by omega)) ⟨hc.mem, by omega, c.blCount, rfl⟩
  have hS := t.size_eq
  have hR := hc.small
  generalize forRange 0 (Config.maxBits + 1) (fun l c => c.setBlCount l 0) c = d at *
  have hnode : d.node = c.node := by rw [hframe]; rfl
  have hlen := lenOf_setLen hmem t (c.heapAt c.heapMax) (Nat.zero_le 15)
  have hdad := dadOf_setNode hmem t (c.heapAt c.heapMax) (v := { d.node t (c.heapAt c.heapMax) with len := word16Of 0 }) rfl
  have hblc : (d.setLen t (c.heapAt c.heapMax) 0).blCountAt = d.blCountAt := by cases t <;> rfl
  obtain ⟨-, hmax, -, -, hheap⟩ := regs_setNode d t (c.heapAt c.heapMax) { d.node t (c.heapAt c.heapMax) with len := word16Of 0 }
  have hrd : ∀ l, d.blCountAt l = 0 := fun l => by
    rcases lt_or_ge l 16 with hl | hl
    · exact hzero l hl
    · rw [blCountAt, Mem.rd, if_neg (Nat.not_lt.2 hl)]
      rfl
  refine ⟨⟨(quiet_setLen ..).mem hmem, hheap.trans (by rw [hframe]), ?_, ?_, fun x hx => ?_, fun i hi => ?_, ?_, fun l => ?_⟩,
    hmax.trans (by rw [hframe])⟩
  · exact hdad.trans (funext fun x => by rw [dadOf, hnode, dadOf])
  · exact (hlen _).trans (if_pos ⟨rfl, by omega⟩)
  · dsimp only
    rw [hlen, if_neg fun he => hx _ (le_refl _) hc.below he.1.symm, lenOf, hnode, lenOf]
  · simp at hi
  · simp [heapSum]
  · simp [heapSum, hblc, hrd]

theorem pass_genBitlen {t : Tree} {b c : Cu} (hc : Shaped t b c) (m : Nat) : Pass t c m (573 - (c.heapMax + 1)) (c.genBitlen t m) := by
  obtain ⟨h0, hmax⟩ := pass_begin hc m
  have hroot : (forRange 0 (Config.maxBits + 1) (fun l c => c.setBlCount l 0) c).heapAt
      (forRange 0 (Config.maxBits + 1) (fun l c => c.setBlCount l 0) c).heapMax = c.heapAt c.heapMax := by
    obtain ⟨bl, he⟩ := forRange_induction (fun d : Cu => ∃ bl, d = { c with blCount := bl }) 0 (Config.maxBits + 1)
      (fun l c => c.setBlCount l 0) (fun i d => by rintro ⟨x, rfl⟩; exact ⟨_, rfl⟩) c ⟨c.blCount, rfl⟩
    rw [he]
    rfl
  unfold genBitlen
  dsimp only
  rw [hroot, hmax]
  exact forRange_range_from (P := fun k p => Pass t c m k p) (fun k hk p hp => hp.step hc (by omega)) h0

end Cu

end Sys2Proof.Machine
end

section
/-! PROOF. The code space of the lengths that the first pass of `gen_bitlen` gives (42_tree_builder.md R237): two children take the space
of their father, or, where the father is already as long as the tree's limit, one unit more. -/

namespace Sys2Proof.Machine

namespace Cu

theorem Tree.one_le_maxLength (t : Tree) : 1 ≤ t.maxLength := by cases t <;> decide

theorem leafSum_congr {b : Cu} {t : Tree} {f g : Nat → Nat} (h : ∀ x < t.elems, (b.node t x).freq ≠ 0 → f x = g x) :
    b.leafSum t f = b.leafSum t g := by
  refine Finset.sum_congr rfl fun x hx => ?_
  split
  · exact h x (Finset.mem_range.1 hx) ‹_›
  · rfl

/-- A sum over the nodes that counts the symbols only. -/
theorem Grown.heapSum_symbols {t : Tree} {b c : Cu} {m : Nat} (h : Grown t b c) (hm : m < t.elems)
    (hlast : ∀ x < t.elems, (b.node t x).freq ≠ 0 → x ≤ m) (g : Nat → Nat) :
    (c.heapSum (Finset.Ico (c.heapMax + 1) 573) fun n => if n ≤ m then g n else 0) = b.leafSum t g := by
  have hinner : ∑ y ∈ Finset.Ico t.elems (c.heapAt c.heapMax), (if y ≤ m then g y else 0) = 0 :=
    Finset.sum_eq_zero fun y hy => if_neg (by have := Finset.mem_Ico.1 hy; omega)
  rw [h.bag, hinner, Nat.add_zero]
  exact leafSum_congr fun x hx hf => if_pos (hlast x hx hf)

/-- The symbols of `b` with the lengths of the first pass: `BL_COUNT` counts them, the nodes that were cut are `2 * e`, and the space
of the lengths is `e` units too large. -/
structure Measured (t : Tree) (b d : Cu) (o : Nat) : Prop where
  mem    : d.MemWf
  unused : ∀ x < t.elems, (b.node t x).freq = 0 → d.lenOf t x = b.lenOf t x
  lens   : ∀ x < t.elems, (b.node t x).freq ≠ 0 → 1 ≤ d.lenOf t x ∧ d.lenOf t x ≤ t.maxLength
  counts : ∀ l, d.blCountAt l = b.leafSum t fun x => if d.lenOf t x = l then 1 else 0
  space  : ∃ e, o = 2 * e ∧ b.leafSum t (fun x => 2 ^ (t.maxLength - d.lenOf t x)) = 2 ^ t.maxLength + e ∧
    e ≤ b.leafSum t fun x => if d.lenOf t x = t.maxLength then 1 else 0

section
variable {t : Tree} {b c d : Cu} {m o : Nat} (hc : Shaped t b c) (hp : Pass t c m (573 - (c.heapMax + 1)) (d, o))
include hc hp

/-- Every node is one bit longer than its father, up to the limit. -/
theorem Pass.len_at {i : Nat} (hi : i ∈ Finset.Ico (c.heapMax + 1) 573) :
    d.lenOf t (c.heapAt i) = min (d.lenOf t (c.dadOf t (c.heapAt i)) + 1) t.maxLength := by
  have hH := hc.below
  exact hp.lens i (by rwa [Nat.add_sub_cancel' hH])

/-- The nodes that were cut are the children of the fathers at the limit. -/
theorem Pass.cut_eq : o = 2 * ∑ y ∈ Finset.Ico t.elems (c.heapAt c.heapMax + 1), if t.maxLength ≤ d.lenOf t y then 1 else 0 := by
  have hH := hc.below
  have hcut := hp.cut
  rw [Nat.add_sub_cancel' hH] at hcut
  exact hcut.trans (hc.pairs fun y => if t.maxLength ≤ d.lenOf t y then 1 else 0)

/-- The space of the symbols is that of the root and the fathers at the limit. -/
theorem Pass.space_eq : b.leafSum t (fun x => 2 ^ (t.maxLength - d.lenOf t x)) = 2 ^ t.maxLength +
    ∑ y ∈ Finset.Ico t.elems (c.heapAt c.heapMax + 1), if t.maxLength ≤ d.lenOf t y then 1 else 0 := by
  have hnode : ∀ i ∈ Finset.Ico (c.heapMax + 1) 573, 2 * 2 ^ (t.maxLength - d.lenOf t (c.heapAt i)) =
      2 ^ (t.maxLength - d.lenOf t (c.dadOf t (c.heapAt i))) + if t.maxLength ≤ d.lenOf t (c.dadOf t (c.heapAt i)) then 1 else 0 :=
    fun i hi => by
      rw [hp.len_at hc hi]
      split
      case isTrue hle => rw [Nat.min_eq_right (by omega), Nat.sub_self, Nat.sub_eq_zero_of_le hle, Nat.pow_zero]
      case isFalse hlt =>
        rw [Nat.min_eq_left (by omega), ← Nat.pow_succ']
        exact congrArg (2 ^ ·) (by omega)
  have hsum : 2 * c.heapSum (Finset.Ico (c.heapMax + 1) 573) (fun n => 2 ^ (t.maxLength - d.lenOf t n)) =
      2 * ∑ y ∈ Finset.Ico t.elems (c.heapAt c.heapMax + 1),
        (2 ^ (t.maxLength - d.lenOf t y) + if t.maxLength ≤ d.lenOf t y then 1 else 0) := by
    rw [← hc.pairs fun y => 2 ^ (t.maxLength - d.lenOf t y) + if t.maxLength ≤ d.lenOf t y then 1 else 0]
    unfold heapSum
    rw [Finset.mul_sum]
    exact Finset.sum_congr rfl hnode
  have hroot := hp.root
  dsimp only at hroot
  rw [hc.bag, Finset.sum_add_distrib, Finset.sum_Ico_succ_top hc.root (fun y => 2 ^ (t.maxLength - d.lenOf t y)), hroot,
    Nat.sub_zero] at hsum
  omega

/-- The symbols at the limit are at least as many as the fathers there: all children of these are. -/
theorem Pass.long_le : (∑ y ∈ Finset.Ico t.elems (c.heapAt c.heapMax + 1), if t.maxLength ≤ d.lenOf t y then 1 else 0) ≤
    b.leafSum t fun x => if t.maxLength ≤ d.lenOf t x then 1 else 0 := by
  have hle : c.heapSum (Finset.Ico (c.heapMax + 1) 573) (fun n => if t.maxLength ≤ d.lenOf t (c.dadOf t n) then 1 else 0) ≤
      c.heapSum (Finset.Ico (c.heapMax + 1) 573) fun n => if t.maxLength ≤ d.lenOf t n then 1 else 0 :=
    Finset.sum_le_sum fun i hi => by
      have := hp.len_at hc hi
      dsimp only
      split_ifs <;> omega
  have hroot := hp.root
  have h1 := t.one_le_maxLength
  dsimp only at hroot
  rw [hc.pairs fun y => if t.maxLength ≤ d.lenOf t y then 1 else 0, hc.bag, Finset.sum_Ico_succ_top hc.root, hroot,
    if_neg (by omega)] at hle
  rw [Finset.sum_Ico_succ_top hc.root, hroot, if_neg (by omega)]
  omega

theorem Pass.measured (hm : m < t.elems) (hlast : ∀ x < t.elems, (b.node t x).freq ≠ 0 → x ≤ m) : Measured t b d o := by
  have hH := hc.below
  have hlens : ∀ x < t.elems, (b.node t x).freq ≠ 0 → 1 ≤ d.lenOf t x ∧ d.lenOf t x ≤ t.maxLength := fun x hx hf => by
    obtain ⟨i, hi, rfl⟩ := hc.mem_of_freq hx hf
    have hlen := hp.len_at hc hi
    have h1 := t.one_le_maxLength
    omega
  refine ⟨hp.mem, fun x hx hf => ?_, hlens, fun l => ?_, _, hp.cut_eq hc, hp.space_eq hc, ?_⟩
  · rw [← hc.lens]
    refine hp.rest x fun i hi hi' he => ?_
    have hroot := hc.root
    rcases Nat.eq_or_lt_of_le hi with rfl | hlt
    · omega
    · rcases hc.node_at hlt hi' with h1 | h1
      · exact h1.2 (he ▸ hf)
      · omega
  · have hcounts := hp.counts l
    rw [Nat.add_sub_cancel' hH] at hcounts
    simp only [ite_and] at hcounts
    exact hcounts.trans (hc.heapSum_symbols hm hlast _)
  · refine (hp.long_le hc).trans_eq (leafSum_congr fun x hx hf => ?_)
    have := hlens x hx hf
    exact if_congr (by omega) rfl rfl

end

theorem measured_genBitlen {t : Tree} {b c : Cu} {m : Nat} (hc : Shaped t b c) (hm : m < t.elems)
    (hlast : ∀ x < t.elems, (b.node t x).freq ≠ 0 → x ≤ m) : Measured t b (c.genBitlen t m).1 (c.genBitlen t m).2 :=
  (pass_genBitlen hc m).measured hc hm hlast

end Cu

end Sys2Proof.Machine
end

section
/-! PROOF. The overflow repair of `gen_bitlen` (42_tree_builder.md R238): each round of its first loop makes the counts of the lengths
one unit of code space smaller, and its second loop gives the symbols these lengths. -/

namespace Sys2Proof.Machine

namespace Cu

/-! ## The counts -/

/-- What the lengths counted in `BL_COUNT` add up to. -/
def countSum (t : Tree) (c : Cu) (g : Nat → Nat) : Nat := ∑ l ∈ Finset.range (t.maxLength + 1), c.blCountAt l * g l

/-- A count changed. -/
theorem countSum_setBlCount {t : Tree} {c : Cu} (h : c.MemWf) {i v : Nat} (hi : i ≤ t.maxLength) (hv : v < 2 ^ 16) (g : Nat → Nat) :
    countSum t (c.setBlCount i v) g + c.blCountAt i * g i = countSum t c g + v * g i := by
  have h15 := maxLength_le t
  have hrd := blCountAt_setBlCount h (by omega : i ≤ 15) hv
  have hmem := Finset.mem_range.2 (Nat.lt_succ_of_le hi)
  unfold countSum
  rw [← Finset.add_sum_erase _ _ hmem, ← Finset.add_sum_erase _ (fun l => c.blCountAt l * g l) hmem, hrd, if_pos rfl,
    Finset.sum_congr rfl fun l hl => by rw [hrd, if_neg (Finset.ne_of_mem_erase hl)]]
  omega

/-- The lengths of the symbols of a tree counted length by length. -/
theorem leafSum_by_length {b : Cu} {t : Tree} {len : Nat → Nat} {n : Nat} (h : ∀ x < t.elems, (b.node t x).freq ≠ 0 → len x < n)
    (g : Nat → Nat) : b.leafSum t (fun x => g (len x)) =
      ∑ l ∈ Finset.range n, (b.leafSum t fun x => if len x = l then 1 else 0) * g l := by
  simp only [leafSum, Finset.sum_mul]
  rw [Finset.sum_comm]
  refine Finset.sum_congr rfl fun x hx => ?_
  split
  case isTrue hf =>
    simp only [ite_mul, Nat.one_mul, Nat.zero_mul]
    rw [Finset.sum_ite_eq, if_pos (Finset.mem_range.2 (h x (Finset.mem_range.1 hx) hf))]
  case isFalse => simp

/-! ## The first loop -/

/-- The counts of `N` codes whose lengths take `e` units of code space too many. -/
structure Excess (t : Tree) (N e : Nat) (c : Cu) : Prop where
  mem   : c.MemWf
  zero  : c.blCountAt 0 = 0
  total : countSum t c (fun _ => 1) = N
  space : countSum t c (fun l => 2 ^ (t.maxLength - l)) = 2 ^ t.maxLength + e
  long  : e ≤ c.blCountAt t.maxLength

/-- The length that a round of the repair makes longer is one that some code has. -/
theorem usedLength_spec (c : Cu) : ∀ k, c.usedLength k ≤ k ∧
    (c.usedLength k = 0 ∧ (∀ l, 1 ≤ l → l ≤ k → c.blCountAt l = 0) ∨ 1 ≤ c.usedLength k ∧ c.blCountAt (c.usedLength k) ≠ 0)
  | 0 => ⟨le_refl 0, .inl ⟨rfl, by omega⟩⟩
  | k + 1 => by
    obtain ⟨hle, hk⟩ := usedLength_spec c k
    rw [usedLength]
    split
    case isTrue h0 =>
      refine ⟨hle.trans (Nat.le_succ k), hk.imp (fun ⟨h1, h2⟩ => ⟨h1, fun l hl hl' => ?_⟩) id⟩
      rcases Nat.eq_or_lt_of_le hl' with rfl | hlt
      · exact h0
      · exact h2 l hl (Nat.le_of_lt_succ hlt)
    case isFalse h0 => exact ⟨le_refl _, .inr ⟨Nat.succ_le_succ (Nat.zero_le k), h0⟩⟩

/-- Where space is missing, not all codes are as long as the limit: there would have to be more than `2 ^ limit` of them. -/
theorem Excess.usedLength_pos {t : Tree} {N e : Nat} {c : Cu} (h : Excess t N (e + 1) c) (hN : N ≤ 2 ^ t.maxLength) :
    1 ≤ c.usedLength (t.maxLength - 1) ∧ c.usedLength (t.maxLength - 1) ≤ t.maxLength - 1 ∧
      c.blCountAt (c.usedLength (t.maxLength - 1)) ≠ 0 := by
  obtain ⟨hle, ⟨-, h0⟩ | ⟨h1, hne⟩⟩ := usedLength_spec c (t.maxLength - 1)
  · have hsame : countSum t c (fun l => 2 ^ (t.maxLength - l)) = countSum t c fun _ => 1 := Finset.sum_congr rfl fun l hl => by
      have hl := Finset.mem_range.1 hl
      dsimp only
      rcases (by omega : l = 0 ∨ 1 ≤ l ∧ l ≤ t.maxLength - 1 ∨ l = t.maxLength) with rfl | hlt | rfl
      · rw [h.zero, Nat.zero_mul, Nat.zero_mul]
      · rw [h0 l hlt.1 hlt.2, Nat.zero_mul, Nat.zero_mul]
      · rw [Nat.sub_self t.maxLength, Nat.pow_zero]
    rw [h.space, h.total] at hsame
    omega
  · exact ⟨h1, hle, hne⟩

/-- A round of the first loop: a code of length `bits` becomes the father of two, one of which comes from the limit. -/
def repairRound (t : Tree) (c : Cu) : Cu :=
  let bits := c.usedLength (t.maxLength - 1)
  let c1 := c.setBlCount bits (c.blCountAt bits - 1)
  let c2 := c1.setBlCount (bits + 1) (c1.blCountAt (bits + 1) + 2)
  c2.setBlCount t.maxLength (c2.blCountAt t.maxLength - 1)

theorem repairLoop_succ (t : Tree) (fuel o : Nat) (c : Cu) : repairLoop t (fuel + 1) o c =
    if o ≤ 2 then c.repairRound t else repairLoop t fuel (o - 2) (c.repairRound t) := rfl

theorem countSum_ge {t : Tree} (c : Cu) {l : Nat} (hl : l ≤ t.maxLength) : c.blCountAt l ≤ countSum t c fun _ => 1 := by
  have h := Finset.single_le_sum (f := fun l => c.blCountAt l * 1) (fun _ _ => Nat.zero_le _) (Finset.mem_range.2 (Nat.lt_succ_of_le hl))
  rwa [Nat.mul_one] at h

theorem Excess.repairRound {t : Tree} {N e : Nat} {c : Cu} (h : Excess t N (e + 1) c) (hN : N ≤ 2 ^ t.maxLength) (hN16 : N + 2 < 2 ^ 16) :
    Excess t N e (c.repairRound t) ∧ ∀ l, t.maxLength < l → (c.repairRound t).blCountAt l = c.blCountAt l := by
  have h15 := maxLength_le t
  obtain ⟨hmem, hzero, htotal, hspace, hlong⟩ := h
  obtain ⟨hq1, hq2, hq⟩ := Excess.usedLength_pos ⟨hmem, hzero, htotal, hspace, hlong⟩ hN
  have hcount := fun {l : Nat} (hl : l ≤ t.maxLength) => htotal ▸ countSum_ge c hl
  unfold Cu.repairRound
  dsimp only
  generalize c.usedLength (t.maxLength - 1) = q at *
  have hcq := hcount (by omega : q ≤ t.maxLength)
  have hcq1 := hcount (by omega : q + 1 ≤ t.maxLength)
  have hcL := hcount (le_refl t.maxLength)
  -- the first write
  have hm1 := (quiet_setBlCount c q (c.blCountAt q - 1)).mem hmem
  have hs1 := countSum_setBlCount hmem (by omega : q ≤ t.maxLength) (by omega : c.blCountAt q - 1 < 2 ^ 16)
  have hr1 := blCountAt_setBlCount hmem (by omega : q ≤ 15) (by omega : c.blCountAt q - 1 < 2 ^ 16)
  generalize c.setBlCount q (c.blCountAt q - 1) = c1 at *
  -- the second
  have hv2 : c1.blCountAt (q + 1) + 2 < 2 ^ 16 := by rw [hr1, if_neg (by omega)]; omega
  have hm2 := (quiet_setBlCount c1 (q + 1) (c1.blCountAt (q + 1) + 2)).mem hm1
  have hs2 := countSum_setBlCount hm1 (by omega : q + 1 ≤ t.maxLength) hv2
  have hr2 := blCountAt_setBlCount hm1 (by omega : q + 1 ≤ 15) hv2
  generalize c1.setBlCount (q + 1) (c1.blCountAt (q + 1) + 2) = c2 at *
  -- the third
  have hL2 : c.blCountAt t.maxLength ≤ c2.blCountAt t.maxLength := by
    rw [hr2, hr1, hr1, if_neg (by omega : ¬ t.maxLength = q), if_neg (by omega : ¬ q + 1 = q)]
    split_ifs with he
    · rw [he]; omega
    · exact le_refl _
  have hv3 : c2.blCountAt t.maxLength - 1 < 2 ^ 16 := (Nat.sub_le _ _).trans_lt (blCountAt_lt c2 _)
  have hm3 := (quiet_setBlCount c2 t.maxLength (c2.blCountAt t.maxLength - 1)).mem hm2
  have hs3 := countSum_setBlCount hm2 (le_refl t.maxLength) hv3
  have hr3 := blCountAt_setBlCount hm2 h15 hv3
  generalize c2.setBlCount t.maxLength (c2.blCountAt t.maxLength - 1) = c3 at *
  have hsum : ∀ g : Nat → Nat, countSum t c3 g + g t.maxLength + g q = countSum t c g + 2 * g (q + 1) := fun g => by
    obtain ⟨x, hx⟩ : ∃ x, c.blCountAt q = x + 1 := ⟨_, (Nat.succ_pred_eq_of_ne_zero hq).symm⟩
    obtain ⟨y, hy⟩ : ∃ y, c2.blCountAt t.maxLength = y + 1 := ⟨c2.blCountAt t.maxLength - 1, by omega⟩
    have h1 := hs1 g
    have h2 := hs2 g
    have h3 := hs3 g
    rw [hx, Nat.add_sub_cancel, Nat.add_mul] at h1
    rw [Nat.add_mul] at h2
    rw [hy, Nat.add_sub_cancel, Nat.add_mul] at h3
    omega
  refine ⟨⟨hm3, ?_, ?_, ?_, ?_⟩, fun l hl => ?_⟩
  · rw [hr3, if_neg (by omega), hr2, if_neg (by omega), hr1, if_neg (by omega), hzero]
  · have := hsum fun _ => 1
    omega
  · have hg := hsum fun l => 2 ^ (t.maxLength - l)
    have hpow : 2 * 2 ^ (t.maxLength - (q + 1)) = 2 ^ (t.maxLength - q) := by
      rw [← Nat.pow_succ']
      exact congrArg (2 ^ ·) (by omega)
    rw [hpow, Nat.sub_self, Nat.pow_zero, hspace] at hg
    omega
  · rw [hr3, if_pos rfl]
    omega
  · rw [hr3, if_neg (by omega), hr2, if_neg (by omega), hr1, if_neg (by omega)]

/-- The first loop takes all of the space that is too much. -/
theorem Excess.repairLoop {t : Tree} {N : Nat} (hN : N ≤ 2 ^ t.maxLength) (hN16 : N + 2 < 2 ^ 16) : ∀ (fuel e : Nat) {c : Cu},
    Excess t N (e + 1) c → e < fuel → Excess t N 0 (Cu.repairLoop t fuel (2 * (e + 1)) c) ∧
      ∀ l, t.maxLength < l → (Cu.repairLoop t fuel (2 * (e + 1)) c).blCountAt l = c.blCountAt l
  | 0, _, _, _, hf => by omega
  | fuel + 1, e, c, h, hf => by
    obtain ⟨h1, hl⟩ := h.repairRound hN hN16
    rw [repairLoop_succ]
    split
    case isTrue h2 =>
      obtain rfl : e = 0 := by omega
      exact ⟨h1, hl⟩
    case isFalse h2 =>
      obtain ⟨e, rfl⟩ : ∃ k, e = k + 1 := ⟨e - 1, by omega⟩
      obtain ⟨h3, hl3⟩ := Excess.repairLoop hN hN16 fuel e h1 (by omega)
      exact ⟨h3, fun l hk => (hl3 l hk).trans (hl l hk)⟩

theorem repairRound_frame (t : Tree) (c : Cu) : ∃ bl, c.repairRound t = { c with blCount := bl } := by
  have hthree : ∀ i v j w k x, ∃ bl, ((c.setBlCount i v).setBlCount j w).setBlCount k x = { c with blCount := bl } :=
    fun _ _ _ _ _ _ => ⟨_, rfl⟩
  exact hthree _ _ _ _ _ _

theorem repairLoop_frame (t : Tree) : ∀ fuel o (c : Cu), ∃ bl, repairLoop t fuel o c = { c with blCount := bl }
  | 0, _, c => ⟨c.blCount, rfl⟩
  | fuel + 1, o, c => by
    obtain ⟨bl, h⟩ := repairRound_frame t c
    rw [repairLoop_succ, h]
    split
    · exact ⟨bl, rfl⟩
    · obtain ⟨bl', he⟩ := repairLoop_frame t fuel (o - 2) { c with blCount := bl }
      exact ⟨bl', he⟩

end Cu

end Sys2Proof.Machine
end

section
/-! PROOF. The second loop of the overflow repair (42_tree_builder.md R238): the symbols in the order of the heap, from its end on, get
the lengths counted in `BL_COUNT`, the longest first; so the lengths that `gen_bitlen` ends with are a complete code. -/

namespace Sys2Proof.Machine

namespace Cu

/-- The symbols in a part of the heap of `c`. -/
def symbolsIn (c : Cu) (m lo hi : Nat) : Nat := c.heapSum (Finset.Ico lo hi) fun n => if n ≤ m then 1 else 0

theorem symbolsIn_split (c : Cu) (m : Nat) {lo mid hi : Nat} (h1 : lo ≤ mid) (h2 : mid ≤ hi) :
    c.symbolsIn m lo mid + c.symbolsIn m mid hi = c.symbolsIn m lo hi := Finset.sum_Ico_consecutive _ h1 h2

/-- `n` symbols below `h` in the heap of `c`, down to `h'`, have got the length `bits`. -/
structure Relens (t : Tree) (c : Cu) (m bits n h h' : Nat) (d e : Cu) : Prop where
  mem    : e.MemWf
  heap   : e.heap = c.heap
  counts : e.blCountAt = d.blCountAt
  place  : c.heapMax < h' ∧ h' ≤ h
  number : c.symbolsIn m h' h = n
  given  : ∀ i, h' ≤ i → i < h → c.heapAt i ≤ m → e.lenOf t (c.heapAt i) = bits
  rest   : ∀ x, (∀ i, h' ≤ i → i < h → c.heapAt i ≠ x) → e.lenOf t x = d.lenOf t x

/-- One symbol of the loop: its length is `bits` afterwards, whatever it was. -/
def relenSymbol (t : Tree) (x bits : Nat) (c : Cu) : Cu :=
  if (c.node t x).len ≠ word16Of bits then
    { c.setLen t x bits with
      optLen := c.optLen + (word32Of bits - word32Of (c.node t x).len.toNat) * word32Of (c.node t x).freq.toNat }
  else c

theorem relenLoop_succ (t : Tree) (m bits h n : Nat) (c : Cu) : relenLoop t m bits (h + 1) n c =
    if n = 0 then (c, h + 1)
    else if m < c.heapAt h then relenLoop t m bits h n c
    else relenLoop t m bits h (n - 1) (c.relenSymbol t (c.heapAt h) bits) := rfl

theorem relenSymbol_facts {t : Tree} {x bits : Nat} {c : Cu} (h : c.MemWf) (hx : x < t.size) (hb : bits ≤ 15) :
    (c.relenSymbol t x bits).MemWf ∧ (c.relenSymbol t x bits).heap = c.heap ∧
      (c.relenSymbol t x bits).blCountAt = c.blCountAt ∧ ∀ y, (c.relenSymbol t x bits).lenOf t y = if y = x then bits else c.lenOf t y := by
  have hlen := lenOf_setLen h t x hb
  have hm := (quiet_setLen c t x bits).mem h
  have hheap : (c.setLen t x bits).heap = c.heap := (regs_setNode ..).2.2.2.2
  have hbl : (c.setLen t x bits).blCountAt = c.blCountAt := by cases t <;> rfl
  unfold relenSymbol
  split
  case isTrue =>
    refine ⟨{ hm with }, hheap, hbl, fun y => ?_⟩
    have hy := hlen y
    simp only [hx, and_true] at hy
    rw [← hy]
    cases t <;> rfl
  case isFalse he =>
    refine ⟨h, rfl, rfl, fun y => ?_⟩
    split
    case isTrue hy =>
      rw [hy, lenOf, not_not.1 he]
      exact Nat.mod_eq_of_lt (by omega)
    case isFalse => rfl

section
variable {t : Tree} {b c : Cu} {m : Nat} (hc : Shaped t b c)
include hc

theorem relens_relenLoop {bits : Nat} (hm : m < t.elems) (hb : bits ≤ 15) : ∀ (h n : Nat) {d : Cu}, d.MemWf → d.heap = c.heap →
    c.heapMax < h → h ≤ 573 → n ≤ c.symbolsIn m (c.heapMax + 1) h →
    Relens t c m bits n h (relenLoop t m bits h n d).2 d (relenLoop t m bits h n d).1
  | 0, _, _, _, _, h0, _, _ => by omega
  | h + 1, n, d, hd, hheap, hlo, hhi, hn => by
    have hS := t.size_eq
    have hat : d.heapAt h = c.heapAt h := by rw [heapAt, hheap, heapAt]
    rw [relenLoop_succ]
    split
    case isTrue h0 =>
      exact ⟨hd, hheap, rfl, ⟨hlo, le_refl _⟩, by rw [h0, symbolsIn, Finset.Ico_self]; rfl, by omega, fun _ _ => rfl⟩
    case isFalse h0 =>
      have hlt : c.heapMax < h := by
        by_contra hle
        rw [symbolsIn, Finset.Ico_eq_empty (by omega)] at hn
        exact h0 (Nat.le_zero.1 hn)
      have htop : ∀ lo ≤ h, c.symbolsIn m lo (h + 1) = c.symbolsIn m lo h + if c.heapAt h ≤ m then 1 else 0 := fun lo hle =>
        Finset.sum_Ico_succ_top hle _
      rw [htop (c.heapMax + 1) hlt] at hn
      rw [hat]
      split
      case isTrue hmh =>
        rw [if_neg (by omega)] at hn
        obtain ⟨hmem, hhp, hcounts, hplace, hnumber, hgiven, hrest⟩ := relens_relenLoop hm hb h n hd hheap hlt (by omega) hn
        refine ⟨hmem, hhp, hcounts, ⟨hplace.1, hplace.2.trans (Nat.le_succ h)⟩, ?_, fun i hi hi' him => ?_, fun x hx => ?_⟩
        · rw [htop _ hplace.2, if_neg (by omega), Nat.add_zero, hnumber]
        · rcases Nat.lt_succ_iff_lt_or_eq.1 hi' with hlt' | rfl
          · exact hgiven i hi hlt' him
          · omega
        · exact hrest x fun i hi hi' => hx i hi (by omega)
      case isFalse hmh =>
        rw [if_pos (by omega)] at hn
        obtain ⟨hd1, hheap1, hbl1, hlen1⟩ := relenSymbol_facts (t := t) (x := c.heapAt h) hd (by omega) hb
        obtain ⟨hmem, hhp, hcounts, hplace, hnumber, hgiven, hrest⟩ :=
          relens_relenLoop hm hb h (n - 1) hd1 (hheap1.trans hheap) hlt (by omega) (by omega)
        have hself : ∀ i, c.heapMax < i → i < h → c.heapAt i ≠ c.heapAt h := fun i hi hi' he => by
          have := hc.inj_root (by omega) (by omega) (by omega) (by omega) he
          omega
        refine ⟨hmem, hhp, hcounts.trans hbl1, ⟨hplace.1, hplace.2.trans (Nat.le_succ h)⟩, ?_, fun i hi hi' him => ?_, fun x hx => ?_⟩
        · rw [htop _ hplace.2, if_pos (by omega), hnumber]
          omega
        · rcases Nat.lt_succ_iff_lt_or_eq.1 hi' with hlt' | rfl
          · exact hgiven i hi hlt' him
          · rw [hrest _ fun j hj hj' => hself j (by omega) hj', hlen1, if_pos rfl]
        · rw [hrest x fun i hi hi' => hx i hi (by omega), hlen1, if_neg fun he => hx h hplace.2 (Nat.lt_succ_self h) he.symm]

/-- The second loop with the lengths above `k` given out: the symbols from `p.2` on have them. -/
structure GivenOut (t : Tree) (c : Cu) (m : Nat) (d : Cu) (k : Nat) (p : Cu × Nat) : Prop where
  mem    : p.1.MemWf
  heap   : p.1.heap = c.heap
  counts : p.1.blCountAt = d.blCountAt
  place  : c.heapMax < p.2 ∧ p.2 ≤ 573
  left   : c.symbolsIn m (c.heapMax + 1) p.2 = ∑ l ∈ Finset.range (k + 1), d.blCountAt l
  given  : ∀ g : Nat → Nat, c.heapSum (Finset.Ico p.2 573) (fun n => if n ≤ m then g (p.1.lenOf t n) else 0) =
    ∑ l ∈ Finset.Ico (k + 1) (t.maxLength + 1), d.blCountAt l * g l
  rest   : ∀ x, (∀ i, c.heapMax < i → i < 573 → c.heapAt i ≠ x) → p.1.lenOf t x = d.lenOf t x

theorem GivenOut.step {d : Cu} {k : Nat} {p : Cu × Nat} (hm : m < t.elems) (hk : k + 1 ≤ t.maxLength)
    (h : GivenOut t c m d (k + 1) p) : GivenOut t c m d k (relenLoop t m (k + 1) p.2 (p.1.blCountAt (k + 1)) p.1) := by
  obtain ⟨hmem, hheap, hcounts, ⟨hlo, hhi⟩, hleft, hgiven, hrest⟩ := h
  have h15 := maxLength_le t
  rw [Finset.sum_range_succ] at hleft
  have hr := relens_relenLoop hc hm (by omega : k + 1 ≤ 15) p.2 (p.1.blCountAt (k + 1)) hmem hheap hlo hhi (by rw [hcounts, hleft]; omega)
  generalize relenLoop t m (k + 1) p.2 (p.1.blCountAt (k + 1)) p.1 = q at *
  obtain ⟨hmem', hheap', hcounts', ⟨hlo', hhi'⟩, hnumber, hgiven', hrest'⟩ := hr
  rw [hcounts] at hnumber
  refine ⟨hmem', hheap', hcounts'.trans hcounts, ⟨hlo', hhi'.trans hhi⟩, ?_, fun g => ?_, fun x hx => ?_⟩
  · have := c.symbolsIn_split m (lo := c.heapMax + 1) hlo' hhi'
    omega
  · have hnew : c.heapSum (Finset.Ico q.2 p.2) (fun n => if n ≤ m then g (q.1.lenOf t n) else 0) = d.blCountAt (k + 1) * g (k + 1) := by
      rw [← hnumber, symbolsIn, heapSum, heapSum, Finset.sum_mul]
      refine Finset.sum_congr rfl fun i hi => ?_
      obtain ⟨h1, h2⟩ := Finset.mem_Ico.1 hi
      split
      · rw [hgiven' i h1 h2 ‹_›, Nat.one_mul]
      · exact (Nat.zero_mul _).symm
    have hold : c.heapSum (Finset.Ico p.2 573) (fun n => if n ≤ m then g (q.1.lenOf t n) else 0) =
        c.heapSum (Finset.Ico p.2 573) fun n => if n ≤ m then g (p.1.lenOf t n) else 0 := Finset.sum_congr rfl fun i hi => by
      obtain ⟨h1, h2⟩ := Finset.mem_Ico.1 hi
      dsimp only
      rw [hrest' _ fun j hj hj' he => by have := hc.inj_root (by omega) (by omega) (by omega) h2 he; omega]
    have hcons : c.heapSum (Finset.Ico q.2 p.2) (fun n => if n ≤ m then g (q.1.lenOf t n) else 0) +
        c.heapSum (Finset.Ico p.2 573) (fun n => if n ≤ m then g (q.1.lenOf t n) else 0) =
        c.heapSum (Finset.Ico q.2 573) fun n => if n ≤ m then g (q.1.lenOf t n) else 0 := Finset.sum_Ico_consecutive _ hhi' hhi
    rw [← hcons, hnew, hold, hgiven g, Finset.sum_eq_sum_Ico_succ_bot (by omega : k + 1 < t.maxLength + 1)]
  · rw [hrest' x fun i hi hi' => hx i (by omega) (by omega), hrest x hx]

theorem GivenOut.foldl {d : Cu} (hm : m < t.elems) : ∀ (k : Nat) {p : Cu × Nat}, k ≤ t.maxLength → GivenOut t c m d k p →
    GivenOut t c m d 0 ((List.range' 1 k).reverse.foldl (fun p bits => relenLoop t m bits p.2 (p.1.blCountAt bits) p.1) p)
  | 0, _, _, h => h
  | k + 1, p, hk, h => by
    rw [List.range'_concat, List.reverse_append, List.reverse_singleton, List.singleton_append, List.foldl_cons, Nat.one_mul,
      Nat.add_comm 1 k]
    exact GivenOut.foldl hm k (by omega) (h.step hc hm hk)

end

/-! ## The lengths in the end -/

/-- The symbols of `b` with lengths inside the limit that are a complete code, counted in `BL_COUNT`. -/
structure Complete (t : Tree) (b d : Cu) : Prop where
  mem    : d.MemWf
  unused : ∀ x < t.elems, (b.node t x).freq = 0 → d.lenOf t x = b.lenOf t x
  lens   : ∀ x < t.elems, (b.node t x).freq ≠ 0 → 1 ≤ d.lenOf t x ∧ d.lenOf t x ≤ t.maxLength
  counts : ∀ l, d.blCountAt l = b.leafSum t fun x => if d.lenOf t x = l then 1 else 0
  space  : b.leafSum t (fun x => 2 ^ (t.maxLength - d.lenOf t x)) = 2 ^ t.maxLength

theorem leafSum_eq_zero_iff {b : Cu} {t : Tree} {g : Nat → Nat} :
    b.leafSum t g = 0 ↔ ∀ x < t.elems, (b.node t x).freq ≠ 0 → g x = 0 := by
  unfold leafSum
  rw [Finset.sum_eq_zero_iff]
  refine forall_congr' fun x => ?_
  rw [Finset.mem_range]
  refine imp_congr_right fun _ => ?_
  split <;> simp_all

/-- No symbol is cut: nothing is to be repaired. -/
theorem Measured.complete {t : Tree} {b d : Cu} (h : Measured t b d 0) : Complete t b d := by
  obtain ⟨e, he, hspace, -⟩ := h.space
  obtain rfl : e = 0 := by omega
  exact ⟨h.mem, h.unused, h.lens, h.counts, hspace⟩

/-- The counts of the first pass. -/
theorem Measured.excess {t : Tree} {b d : Cu} {e : Nat} (h : Measured t b d (2 * e)) : Excess t (b.leafSum t fun _ => 1) e d := by
  obtain ⟨e', he, hspace, hlong⟩ := h.space
  obtain rfl : e = e' := by omega
  have hby := fun g => leafSum_by_length (len := d.lenOf t) (n := t.maxLength + 1) (fun x hx hf => Nat.lt_succ_of_le (h.lens x hx hf).2) g
  have hsum : ∀ g : Nat → Nat, countSum t d g = b.leafSum t fun x => g (d.lenOf t x) := fun g => by
    rw [hby]
    exact Finset.sum_congr rfl fun l _ => by rw [h.counts]
  refine ⟨h.mem, ?_, hsum _, (hsum _).trans hspace, hlong.trans_eq (h.counts _).symm⟩
  rw [h.counts, leafSum_eq_zero_iff]
  intro x hx hf
  exact if_neg (Nat.ne_of_gt (h.lens x hx hf).1)

/-- The codes of a tree are fewer than the longest codes there can be. -/
theorem leafSum_one_le (b : Cu) (t : Tree) : b.leafSum t (fun _ => 1) ≤ 2 ^ t.maxLength ∧ b.leafSum t (fun _ => 1) + 2 < 2 ^ 16 := by
  have hle : b.leafSum t (fun _ => 1) ≤ t.elems := by
    refine (Finset.sum_le_card_nsmul _ _ 1 fun x _ => ?_).trans (by simp)
    dsimp only
    split <;> omega
  have hE := t.elems_le
  have hp : t.elems ≤ 2 ^ t.maxLength := by cases t <;> decide
  omega

/-- What the second loop has given out when it ends. -/
theorem GivenOut.complete {t : Tree} {b c d : Cu} {m : Nat} {p : Cu × Nat} (hc : Shaped t b c) (hm : m < t.elems)
    (hlast : ∀ x < t.elems, (b.node t x).freq ≠ 0 → x ≤ m)
    (hunused : ∀ x < t.elems, (b.node t x).freq = 0 → d.lenOf t x = b.lenOf t x) (hzero : d.blCountAt 0 = 0)
    (hlong : ∀ l, t.maxLength < l → d.blCountAt l = 0) (hspace : countSum t d (fun l => 2 ^ (t.maxLength - l)) = 2 ^ t.maxLength)
    (h : GivenOut t c m d 0 p) : Complete t b p.1 := by
  have hnone : c.heapSum (Finset.Ico (c.heapMax + 1) p.2) (fun n => if n ≤ m then 1 else 0) = 0 := by
    rw [← symbolsIn, h.left, Finset.sum_range_one, hzero]
  have hbelow : ∀ g : Nat → Nat, c.heapSum (Finset.Ico (c.heapMax + 1) p.2) (fun n => if n ≤ m then g (p.1.lenOf t n) else 0) = 0 :=
    fun g => Finset.sum_eq_zero fun i hi => by
      have := Finset.sum_eq_zero_iff.1 hnone i hi
      dsimp only at this ⊢
      split at this
      · omega
      · rw [if_neg ‹_›]
  have hsum : ∀ g : Nat → Nat, b.leafSum t (fun x => g (p.1.lenOf t x)) = ∑ l ∈ Finset.Ico 1 (t.maxLength + 1), d.blCountAt l * g l :=
    fun g => by
      have hcons : c.heapSum (Finset.Ico (c.heapMax + 1) p.2) (fun n => if n ≤ m then g (p.1.lenOf t n) else 0) +
          c.heapSum (Finset.Ico p.2 573) (fun n => if n ≤ m then g (p.1.lenOf t n) else 0) =
          c.heapSum (Finset.Ico (c.heapMax + 1) 573) fun n => if n ≤ m then g (p.1.lenOf t n) else 0 :=
        Finset.sum_Ico_consecutive _ h.place.1 h.place.2
      rw [← hc.heapSum_symbols hm hlast, ← hcons, hbelow, h.given, Nat.zero_add]
  refine ⟨h.mem, fun x hx hf => ?_, ?_, fun l => ?_, ?_⟩
  · rw [← hunused x hx hf]
    refine h.rest x fun i hi hi' he => ?_
    rcases hc.node_at hi hi' with h1 | h1
    · exact h1.2 (he ▸ hf)
    · omega
  · have hout := hsum fun l => if 1 ≤ l ∧ l ≤ t.maxLength then 0 else 1
    rw [Finset.sum_eq_zero fun l hl => by
      have := Finset.mem_Ico.1 hl
      rw [if_pos (by omega), Nat.mul_zero], leafSum_eq_zero_iff] at hout
    intro x hx hf
    by_contra hne
    have := hout x hx hf
    rw [if_neg hne] at this
    omega
  · rw [hsum fun k => if k = l then 1 else 0, h.counts]
    simp only [mul_ite, mul_one, mul_zero]
    rw [Finset.sum_ite_eq']
    split
    case isTrue => rfl
    case isFalse hl =>
      rcases Nat.eq_zero_or_pos l with rfl | hpos
      · exact hzero
      · exact hlong l (by by_contra hle; exact hl (Finset.mem_Ico.2 ⟨hpos, by omega⟩))
  · rw [hsum fun l => 2 ^ (t.maxLength - l), ← hspace, countSum, ← Finset.sum_range_add_sum_Ico _ (Nat.succ_le_succ (Nat.zero_le t.maxLength)),
      Finset.sum_range_one, hzero, Nat.zero_mul, Nat.zero_add]

/-- The lengths that `gen_bitlen` ends with (42_tree_builder.md R237, R238). -/
theorem complete_repairBitlen {t : Tree} {b c : Cu} {m : Nat} (hc : Shaped t b c) (hm : m < t.elems)
    (hlast : ∀ x < t.elems, (b.node t x).freq ≠ 0 → x ≤ m) :
    Complete t b ((c.genBitlen t m).1.repairBitlen t m (c.genBitlen t m).2) := by
  have hmeas := measured_genBitlen hc hm hlast
  have hheap := (pass_genBitlen hc m).heap
  generalize c.genBitlen t m = q at *
  obtain ⟨d, o⟩ := q
  dsimp only at *
  obtain ⟨hN, hN16⟩ := leafSum_one_le b t
  unfold repairBitlen
  split
  case isTrue h0 => exact (h0 ▸ hmeas).complete
  case isFalse h0 =>
    obtain ⟨e, rfl⟩ : ∃ e, o = 2 * (e + 1) := by
      obtain ⟨e, he, -⟩ := hmeas.space
      exact ⟨e - 1, by omega⟩
    obtain ⟨hex, hlong⟩ := hmeas.excess.repairLoop hN hN16 (2 * (e + 1)) e (by omega)
    obtain ⟨bl, hframe⟩ := repairLoop_frame t (2 * (e + 1)) (2 * (e + 1)) d
    have hheap' : (repairLoop t (2 * (e + 1)) (2 * (e + 1)) d).heap = c.heap := by rw [hframe]; exact hheap
    have hlen : (repairLoop t (2 * (e + 1)) (2 * (e + 1)) d).lenOf t = d.lenOf t := by rw [hframe]; rfl
    dsimp only
    generalize repairLoop t (2 * (e + 1)) (2 * (e + 1)) d = d' at *
    have hbegin : GivenOut t c m d' t.maxLength (d', Config.heapSize) := by
      refine ⟨hex.mem, hheap', rfl, ⟨hc.below, le_refl _⟩, ?_, fun g => ?_, fun _ _ => rfl⟩
      · have htotal := hex.total
        simp only [countSum, Nat.mul_one] at htotal
        rw [htotal]
        exact hc.heapSum_symbols hm hlast _
      · simp only [heapSum, Finset.Ico_self, Finset.sum_empty]
    refine (GivenOut.foldl hc hm t.maxLength (le_refl _) hbegin).complete hc hm hlast (fun x hx hf => ?_) hex.zero (fun l hl => ?_) hex.space
    · rw [hlen, hmeas.unused x hx hf]
    · rw [hlong l hl, hmeas.counts, leafSum_eq_zero_iff]
      intro x hx hf
      exact if_neg (by have := (hmeas.lens x hx hf).2; omega)

end Cu

end Sys2Proof.Machine
end

section
/-! PROOF. Canonical codes (30_encoding.md R113, 42_tree_builder.md R239): they are read back from their reversed bits, and those of a
complete set of lengths have the width of their length. -/

open Sys2Proof.Claims

namespace Sys2Proof.Laws

/-! ## Reversed codes -/

/-- The bits of a code read first bit first are the reversed code. -/
theorem codeRead_eq_biReverse : ∀ (b l : Nat), codeRead b l = biReverse b l
  | _, 0 => rfl
  | b, l + 1 => by
    rw [biReverse, ← codeRead_eq_biReverse (b / 2) l, codeRead, codeRead, List.range_succ_eq_map, List.map_cons, List.sum_cons, List.map_map,
      Nat.pow_zero, Nat.div_one, Nat.add_sub_cancel, Nat.sub_zero]
    congr 2
    refine List.map_congr_left fun i _ => ?_
    show b / 2 ^ (i + 1) % 2 * 2 ^ (l - (i + 1)) = b / 2 / 2 ^ i % 2 * 2 ^ (l - 1 - i)
    rw [Nat.pow_succ', Nat.div_div_eq_div_mul, Nat.sub_sub, Nat.add_comm i 1]

/-- The top bit comes out last. -/
theorem biReverse_top {a : Nat} (ha : a < 2) : ∀ (l : Nat) {y : Nat}, y < 2 ^ l → biReverse (a * 2 ^ l + y) (l + 1) = 2 * biReverse y l + a
  | 0, y, hy => by
    obtain rfl : y = 0 := by omega
    simp only [biReverse]
    omega
  | l + 1, y, hy => by
    rw [Nat.pow_succ] at hy ⊢
    have hmod : (a * (2 ^ l * 2) + y) % 2 = y % 2 := by rw [← Nat.mul_assoc]; omega
    have hdiv : (a * (2 ^ l * 2) + y) / 2 = a * 2 ^ l + y / 2 := by rw [← Nat.mul_assoc]; omega
    rw [biReverse, hmod, hdiv, biReverse_top ha l (by omega), biReverse, Nat.pow_succ]
    ring

theorem biReverse_biReverse : ∀ (l c : Nat), biReverse (biReverse c l) l = c % 2 ^ l
  | 0, c => by rw [Nat.pow_zero, Nat.mod_one]; rfl
  | l + 1, c => by
    rw [show biReverse c (l + 1) = c % 2 * 2 ^ l + biReverse (c / 2) l from rfl, biReverse_top (Nat.mod_lt c (by decide)) l (biReverse_lt ..), biReverse_biReverse l,
      Nat.pow_succ', Nat.mod_mul, Nat.add_comm]

/-! ## Lists of lengths as functions -/

theorem sum_map_range (f : Nat → Nat) (n : Nat) : ((List.range n).map f).sum = ∑ x ∈ Finset.range n, f x := rfl

theorem sum_map_filter_range (p : Nat → Bool) (f : Nat → Nat) : ∀ n, (((List.range n).filter p).map f).sum =
    ∑ x ∈ Finset.range n, if p x then f x else 0
  | 0 => rfl
  | n + 1 => by
    rw [List.range_succ, List.filter_append, List.map_append, List.sum_append, sum_map_filter_range p f n, Finset.sum_range_succ]
    by_cases h : p n <;> simp [h]

theorem length_filter_range (p : Nat → Bool) (n : Nat) : ((List.range n).filter p).length = ∑ x ∈ Finset.range n, if p x then 1 else 0 := by
  rw [← sum_map_filter_range, List.map_const', List.sum_replicate, smul_eq_mul, Nat.mul_one]

theorem getD_map_range (f : Nat → Nat) {n v : Nat} (hv : v < n) : ((List.range n).map f).getD v 0 = f v := by
  rw [List.getD_eq_getElem?_getD, List.getElem?_map, List.getElem?_range hv]
  rfl

/-! ## The canonical code -/

/-- What a symbol takes of the code space of length `l` before symbol `w`, of that length, gets its code. -/
def spaceBefore (len : Nat → Nat) (l w v : Nat) : Nat := if 0 < len v ∧ len v < l then 2 ^ (l - len v) else if len v = l ∧ v < w then 1 else 0

theorem canonicalCode_eq (len : Nat → Nat) {n w : Nat} (hw : w < n) :
    canonicalCode ((List.range n).map len) w = ∑ v ∈ Finset.range n, spaceBefore len (len w) w v := by
  rw [canonicalCode, List.length_map, List.length_range, ← sum_map_range, getD_map_range len hw]
  refine congrArg List.sum (List.map_congr_left fun v hv => ?_)
  rw [getD_map_range len (List.mem_range.1 hv), spaceBefore]

theorem codeSpace_eq (len : Nat → Nat) (n : Nat) :
    codeSpace ((List.range n).map len) = ∑ v ∈ Finset.range n, if len v = 0 then 0 else 2 ^ (15 - len v) := by
  rw [codeSpace, List.map_map, ← sum_map_range]
  rfl

/-- In code space that is not exceeded, a canonical code has the width of its length. -/
theorem canonicalCode_lt {len : Nat → Nat} {n w : Nat} (hw : w < n) (h1 : 1 ≤ len w) (h15 : len w ≤ 15)
    (hspace : codeSpace ((List.range n).map len) ≤ 2 ^ 15) : canonicalCode ((List.range n).map len) w < 2 ^ len w := by
  have hterm : ∀ v ∈ Finset.range n, (spaceBefore len (len w) w v + if v = w then 1 else 0) * 2 ^ (15 - len w) ≤
      if len v = 0 then 0 else 2 ^ (15 - len v) := fun v _ => by
    have hpow : len v < len w → 2 ^ (len w - len v) * 2 ^ (15 - len w) = 2 ^ (15 - len v) := fun hlt => by
      rw [← Nat.pow_add]
      exact congrArg (2 ^ ·) (by omega)
    unfold spaceBefore
    by_cases hvw : v = w
    · subst hvw
      rw [if_neg (by omega), if_neg (by omega), if_pos rfl, if_neg (by omega), Nat.zero_add, Nat.one_mul]
    · rw [if_neg hvw, Nat.add_zero]
      split
      case isTrue h => rw [hpow h.2, if_neg (by omega)]
      case isFalse =>
        split
        case isTrue h => rw [h.1, if_neg (by omega), Nat.one_mul]
        case isFalse => rw [Nat.zero_mul]; exact Nat.zero_le _
  have hsum := Finset.sum_le_sum hterm
  rw [← Finset.sum_mul, Finset.sum_add_distrib, ← canonicalCode_eq len hw, ← codeSpace_eq, Finset.sum_ite_eq', if_pos (Finset.mem_range.2 hw)]
    at hsum
  have htotal : 2 ^ 15 = 2 ^ len w * 2 ^ (15 - len w) := by rw [← Nat.pow_add, Nat.add_sub_cancel' h15]
  exact Nat.le_of_mul_le_mul_right (htotal ▸ hsum.trans hspace) (Nat.two_pow_pos _)

end Sys2Proof.Laws
end

section
/-! PROOF. The codes that `gen_codes` gives (42_tree_builder.md R239) are the canonical ones, and so `build_tree` makes a complete
code (R240). -/

open Sys2Proof.Claims

namespace Sys2Proof.Machine

namespace Cu

/-! ## The first code of each length -/

/-- The first code of length `l`: the space that the shorter codes counted in `BL_COUNT` take. -/
def firstCode (c : Cu) (l : Nat) : Nat := ∑ k ∈ Finset.range l, c.blCountAt k * 2 ^ (l - k)

theorem firstCode_succ (c : Cu) (l : Nat) : c.firstCode (l + 1) = (c.firstCode l + c.blCountAt l) * 2 := by
  have hterm : ∀ k ∈ Finset.range l, c.blCountAt k * 2 ^ (l + 1 - k) = c.blCountAt k * 2 ^ (l - k) * 2 := fun k hk => by
    have := Finset.mem_range.1 hk
    rw [show l + 1 - k = l - k + 1 by omega, Nat.pow_succ, Nat.mul_assoc]
  rw [firstCode, Finset.sum_range_succ, Finset.sum_congr rfl hterm, ← Finset.sum_mul, Nat.add_mul, Nat.add_sub_cancel_left, Nat.pow_one]
  rfl

theorem word16Of_shiftLeft_one (n : Nat) : word16Of n <<< 1 = word16Of (n * 2) := by
  refine BitVec.eq_of_toNat_eq ?_
  simp only [word16Of, BitVec.toNat_shiftLeft, BitVec.toNat_ofNat, Nat.shiftLeft_eq]
  omega

theorem word16Of_add (a b : Nat) : word16Of a + word16Of b = word16Of (a + b) := (BitVec.ofNat_add a b).symm

/-- `next_code[l]` is the first code of length `l`, in 16 bits. -/
theorem nextCodes_spec (c : Cu) : c.nextCodes.length = 16 ∧ ∀ l ≤ 15, c.nextCodes.getD l 0#16 = word16Of (c.firstCode l) := by
  have hloop : ∀ k, ((List.range' 1 k).foldl (fun l b => l ++ [(l.getD (b - 1) 0#16 + word16Of (c.blCountAt (b - 1))) <<< 1]) [0#16]).length =
      k + 1 ∧ ∀ l ≤ k, ((List.range' 1 k).foldl (fun l b => l ++ [(l.getD (b - 1) 0#16 + word16Of (c.blCountAt (b - 1))) <<< 1])
        [0#16]).getD l 0#16 = word16Of (c.firstCode l) := fun k => by
    induction k with
    | zero =>
      refine ⟨rfl, fun l hl => ?_⟩
      obtain rfl := Nat.le_zero.1 hl
      rfl
    | succ k ih =>
      obtain ⟨hlen, hget⟩ := ih
      rw [List.range'_concat, List.foldl_append, List.foldl_cons, List.foldl_nil, Nat.one_mul, Nat.add_sub_cancel_left]
      generalize (List.range' 1 k).foldl (fun l b => l ++ [(l.getD (b - 1) 0#16 + word16Of (c.blCountAt (b - 1))) <<< 1]) [0#16] = next at *
      refine ⟨by rw [List.length_append, hlen, List.length_singleton], fun l hl => ?_⟩
      rcases Nat.eq_or_lt_of_le hl with rfl | hlt
      · rw [List.getD_append_right _ _ _ _ (by omega), hlen, Nat.sub_self, List.getD_cons_zero, hget k (le_refl k), word16Of_add,
          word16Of_shiftLeft_one, firstCode_succ]
      · rw [List.getD_append _ _ _ _ (by omega), hget l (by omega)]
  exact hloop 15

/-! ## The codes -/

/-- How many symbols below `w` have the length `l`. -/
def earlier (c : Cu) (t : Tree) (l w : Nat) : Nat := ∑ v ∈ Finset.range w, if c.lenOf t v = l then 1 else 0

/-- The code of symbol `w` as `gen_codes` counts it. -/
def codeOfSymbol (c : Cu) (t : Tree) (w : Nat) : Nat := c.firstCode (c.lenOf t w) + c.earlier t (c.lenOf t w) w

/-- `gen_codes` after `k` symbols. -/
structure Encoded (t : Tree) (d : Cu) (k : Nat) (p : Cu × List Word16) : Prop where
  mem  : p.1.MemWf
  lens : p.1.lenOf t = d.lenOf t
  same : SameCounts t d p.1
  next : p.2.length = 16 ∧ ∀ l, 1 ≤ l → l ≤ 15 → p.2.getD l 0#16 = word16Of (d.firstCode l + d.earlier t l k)
  code : ∀ x < k, d.lenOf t x ≠ 0 → (p.1.node t x).code = word16Of (biReverse (d.codeOfSymbol t x % 2 ^ 16) (d.lenOf t x))

/-- One symbol of `gen_codes`. -/
def encodeSymbol (t : Tree) (n : Nat) (p : Cu × List Word16) : Cu × List Word16 :=
  if p.1.lenOf t n = 0 then p
  else (p.1.setCode t n (word16Of (biReverse (p.2.getD (p.1.lenOf t n) 0#16).toNat (p.1.lenOf t n))),
    p.2.set (p.1.lenOf t n) (p.2.getD (p.1.lenOf t n) 0#16 + 1))

theorem genCodes_eq (t : Tree) (m : Nat) (c : Cu) : c.genCodes t m = (forRange 0 (m + 1) (encodeSymbol t) (c, c.nextCodes)).1 := rfl

theorem earlier_succ (c : Cu) (t : Tree) (l w : Nat) : c.earlier t l (w + 1) = c.earlier t l w + if c.lenOf t w = l then 1 else 0 :=
  Finset.sum_range_succ ..

theorem lenOf_setCode {c : Cu} (h : c.MemWf) (t : Tree) (n : Nat) (v : Word16) : (c.setCode t n v).lenOf t = c.lenOf t :=
  lenOf_setNode h t n rfl

theorem Encoded.step {t : Tree} {d : Cu} {k : Nat} {p : Cu × List Word16} (hk : k < t.elems) (h15 : d.lenOf t k ≤ 15)
    (h : Encoded t d k p) : Encoded t d (k + 1) (encodeSymbol t k p) := by
  have hS := t.size_eq
  obtain ⟨e, next⟩ := p
  obtain ⟨hmem, hlens, hsame, ⟨hlen, hnext⟩, hcode⟩ := h
  dsimp only at hmem hlens hsame hlen hnext hcode
  unfold encodeSymbol
  dsimp only
  rw [hlens]
  split
  case isTrue h0 =>
    refine ⟨hmem, hlens, hsame, ⟨hlen, fun l hl1 hl => ?_⟩, fun x hx hx0 => ?_⟩
    · rw [earlier_succ, if_neg (by omega)]
      exact hnext l hl1 hl
    · exact hcode x (by rcases Nat.lt_succ_iff_lt_or_eq.1 hx with hlt | rfl <;> omega) hx0
  case isFalse h0 =>
    have hval : next.getD (d.lenOf t k) 0#16 = word16Of (d.codeOfSymbol t k) := hnext _ (by omega) h15
    have hnode := node_setNode hmem t k
      (v := { e.node t k with code := word16Of (biReverse (word16Of (d.codeOfSymbol t k)).toNat (d.lenOf t k)) })
    rw [hval]
    refine ⟨(quiet_setCode ..).mem hmem, (lenOf_setCode hmem t k _).trans hlens, hsame.trans (sameCounts_setNode hmem t k rfl),
      ⟨by rw [List.length_set, hlen], fun l hl1 hl => ?_⟩, fun x hx hx0 => ?_⟩
    · dsimp only
      rw [earlier_succ, List.getD_eq_getElem?_getD, List.getElem?_set]
      by_cases hl' : d.lenOf t k = l
      · subst hl'
        rw [if_pos rfl, if_pos (by omega), if_pos rfl, Option.getD_some, ← Nat.add_assoc]
        exact word16Of_add _ 1
      · rw [if_neg hl', if_neg hl', Nat.add_zero, ← List.getD_eq_getElem?_getD]
        exact hnext l hl1 hl
    · refine (congrArg Node.code (hnode x)).trans ?_
      by_cases hxk : x = k
      · subst hxk
        rw [if_pos ⟨rfl, by omega⟩]
        rfl
      · rw [if_neg fun hh => hxk hh.1]
        exact hcode x (by omega) hx0

/-- What `gen_codes` leaves: the lengths and counts as they were, and the codes. -/
theorem encoded_genCodes {t : Tree} {d : Cu} {m : Nat} (h : d.MemWf) (hm : m < t.elems) (h15 : ∀ x ≤ m, d.lenOf t x ≤ 15) :
    (d.genCodes t m).lenOf t = d.lenOf t ∧ SameCounts t d (d.genCodes t m) ∧ ∀ x ≤ m, d.lenOf t x ≠ 0 →
      ((d.genCodes t m).node t x).code = word16Of (biReverse (d.codeOfSymbol t x % 2 ^ 16) (d.lenOf t x)) := by
  obtain ⟨hlen, hfirst⟩ := d.nextCodes_spec
  have hloop := forRange_range (P := Encoded t d) (n := m + 1) (f := encodeSymbol t) (s := (d, d.nextCodes))
    (fun k hk p hp => hp.step (by omega) (h15 k (by omega)))
    ⟨h, rfl, .refl t d, ⟨hlen, fun l _ hl => by rw [hfirst l hl, earlier, Finset.sum_range_zero, Nat.add_zero]⟩, by omega⟩
  rw [genCodes_eq]
  exact ⟨hloop.lens, hloop.same, fun x hx => hloop.code x (by omega)⟩

/-! ## The lengths of a tree -/

/-- Lengths of the symbols up to `m`, inside the limit of the tree: those with a frequency in `b` have one, and together they fill the
code space. -/
structure CodeLengths (t : Tree) (b : Cu) (m : Nat) (len : Nat → Nat) : Prop where
  bound : m < t.elems
  last  : ∀ x < t.elems, (b.node t x).freq ≠ 0 → x ≤ m
  none  : ∀ x < t.elems, (b.node t x).freq = 0 → len x = 0
  some  : ∀ x < t.elems, (b.node t x).freq ≠ 0 → 1 ≤ len x ∧ len x ≤ t.maxLength
  space : b.leafSum t (fun x => 2 ^ (t.maxLength - len x)) = 2 ^ t.maxLength

section
variable {t : Tree} {b : Cu} {m : Nat} {len : Nat → Nat} (h : CodeLengths t b m len)
include h

/-- A sum over the symbols with a frequency is one over the symbols up to the last. -/
theorem CodeLengths.leafSum_eq {g : Nat → Nat} (hg : ∀ x, len x = 0 → g x = 0) : b.leafSum t g = ∑ x ∈ Finset.range (m + 1), g x := by
  have hm := h.bound
  have hterm : ∀ x ∈ Finset.range t.elems, (if (b.node t x).freq ≠ 0 then g x else 0) = g x := fun x hx => by
    split
    case isTrue => rfl
    case isFalse hf => exact (hg x (h.none x (Finset.mem_range.1 hx) (not_not.1 hf))).symm
  rw [leafSum, Finset.sum_congr rfl hterm]
  refine (Finset.sum_subset (Finset.range_mono (by omega)) fun x hx hxm => ?_).symm
  have hx := Finset.mem_range.1 hx
  refine hg x (h.none x hx (not_not.1 fun hf => hxm (Finset.mem_range.2 ?_)))
  exact Nat.lt_succ_of_le (h.last x hx hf)

theorem CodeLengths.len_le {x : Nat} (hx : x ≤ m) : len x ≤ t.maxLength := by
  have hm := h.bound
  by_cases hf : (b.node t x).freq = 0
  · rw [h.none x (by omega) hf]
    exact Nat.zero_le _
  · exact (h.some x (by omega) hf).2

/-- As many symbols have a code as have a frequency. -/
theorem CodeLengths.number : (((List.range (m + 1)).map len).filter (· ≠ 0)).length = b.leafSum t fun _ => 1 := by
  have hterm : b.leafSum t (fun _ => 1) = b.leafSum t fun x => if len x ≠ 0 then 1 else 0 :=
    leafSum_congr fun x hx hf => (if_pos (Nat.ne_of_gt (h.some x hx hf).1)).symm
  rw [hterm, h.leafSum_eq fun x hx => if_neg (not_not.2 hx), List.filter_map, List.length_map, Laws.length_filter_range]
  simp only [Function.comp_apply, decide_eq_true_eq]

/-- The code space of the lengths is just filled. -/
theorem CodeLengths.codeSpace_eq : codeSpace ((List.range (m + 1)).map len) = 2 ^ 15 := by
  have h15 := maxLength_le t
  have hterm : ∀ x < t.elems, (b.node t x).freq ≠ 0 → (if len x = 0 then 0 else 2 ^ (15 - len x)) =
      2 ^ (15 - t.maxLength) * 2 ^ (t.maxLength - len x) := fun x hx hf => by
    obtain ⟨h1, h2⟩ := h.some x hx hf
    rw [if_neg (by omega), ← Nat.pow_add]
    exact congrArg (2 ^ ·) (by omega)
  have hmul : b.leafSum t (fun x => 2 ^ (15 - t.maxLength) * 2 ^ (t.maxLength - len x)) =
      2 ^ (15 - t.maxLength) * b.leafSum t fun x => 2 ^ (t.maxLength - len x) := by
    simp only [leafSum, Finset.mul_sum, mul_ite, mul_zero]
  rw [Laws.codeSpace_eq, ← h.leafSum_eq (fun x hx => if_pos hx), leafSum_congr hterm, hmul, h.space, ← Nat.pow_add,
    Nat.sub_add_cancel h15]

/-- Two codes are of one bit each: neither takes more than half of the space. -/
theorem CodeLengths.len_of_two (htwo : b.leafSum t (fun _ => 1) = 2) {x : Nat} (hx : x < t.elems) (hf : (b.node t x).freq ≠ 0) :
    len x = 1 := by
  have hspace := h.space
  obtain ⟨h1, hL⟩ := h.some x hx hf
  obtain ⟨k, hk⟩ : ∃ k, t.maxLength = k + 1 := ⟨t.maxLength - 1, by omega⟩
  have hrest : ∑ y ∈ (Finset.range t.elems).erase x, (if (b.node t y).freq ≠ 0 then 2 ^ (t.maxLength - len y) else 0) ≤
      (∑ y ∈ (Finset.range t.elems).erase x, if (b.node t y).freq ≠ 0 then 1 else 0) * 2 ^ k := by
    rw [Finset.sum_mul]
    refine Finset.sum_le_sum fun y hy => ?_
    split
    case isTrue hfy =>
      have := (h.some y (Finset.mem_range.1 (Finset.mem_of_mem_erase hy)) hfy).1
      rw [Nat.one_mul]
      exact Nat.pow_le_pow_right (by decide) (by omega)
    case isFalse => exact Nat.zero_le _
  rw [leafSum, ← Finset.add_sum_erase _ _ (Finset.mem_range.2 hx), if_pos hf] at htwo hspace
  rw [show ∑ y ∈ (Finset.range t.elems).erase x, (if (b.node t y).freq ≠ 0 then 1 else 0) = 1 by omega, Nat.one_mul] at hrest
  rw [hk] at hrest hspace
  rw [Nat.pow_succ] at hspace
  have hge := (Nat.pow_le_pow_iff_right (by decide : 1 < 2)).1 (by omega : 2 ^ k ≤ 2 ^ (k + 1 - len x))
  omega

end

/-- The code that `gen_codes` counts is the canonical one. -/
theorem CodeLengths.codeOfSymbol_eq {t : Tree} {b d : Cu} {m : Nat} (h : CodeLengths t b m (d.lenOf t))
    (hcounts : ∀ l, d.blCountAt l = b.leafSum t fun x => if d.lenOf t x = l then 1 else 0) {w : Nat} (hw : w ≤ m) :
    d.codeOfSymbol t w = canonicalCode ((List.range (m + 1)).map (d.lenOf t)) w := by
  have h15 := maxLength_le t
  have hw15 := h.len_le hw
  have hsplit : ∀ v ∈ Finset.range (m + 1), Laws.spaceBefore (d.lenOf t) (d.lenOf t w) w v =
      (if 0 < d.lenOf t v ∧ d.lenOf t v < d.lenOf t w then 2 ^ (d.lenOf t w - d.lenOf t v) else 0) +
        if v < w then if d.lenOf t v = d.lenOf t w then 1 else 0 else 0 := fun v _ => by
    unfold Laws.spaceBefore
    split_ifs <;> omega
  have hearlier : ∑ v ∈ Finset.range (m + 1), (if v < w then if d.lenOf t v = d.lenOf t w then 1 else 0 else 0) =
      d.earlier t (d.lenOf t w) w := by
    rw [← Finset.sum_filter, earlier]
    refine Finset.sum_congr (Finset.ext fun v => ?_) fun _ _ => rfl
    simp only [Finset.mem_filter, Finset.mem_range]
    omega
  have hfirst : ∑ v ∈ Finset.range (m + 1), (if 0 < d.lenOf t v ∧ d.lenOf t v < d.lenOf t w then 2 ^ (d.lenOf t w - d.lenOf t v) else 0) =
      d.firstCode (d.lenOf t w) := by
    have hzero : d.blCountAt 0 = 0 := by
      rw [hcounts, leafSum_eq_zero_iff]
      exact fun x hx hf => if_neg (by have := (h.some x hx hf).1; omega)
    rw [← h.leafSum_eq (fun x hx => if_neg (by omega)),
      leafSum_by_length (g := fun l => if 0 < l ∧ l < d.lenOf t w then 2 ^ (d.lenOf t w - l) else 0) (n := t.maxLength + 1)
        fun x hx hf => Nat.lt_succ_of_le (h.some x hx hf).2, firstCode]
    have hterm : ∀ l ∈ Finset.range (d.lenOf t w), d.blCountAt l * 2 ^ (d.lenOf t w - l) =
        (b.leafSum t fun x => if d.lenOf t x = l then 1 else 0) * if 0 < l ∧ l < d.lenOf t w then 2 ^ (d.lenOf t w - l) else 0 :=
      fun l hl => by
        have hl := Finset.mem_range.1 hl
        rw [← hcounts]
        rcases Nat.eq_zero_or_pos l with rfl | hpos
        · rw [hzero, Nat.zero_mul, Nat.zero_mul]
        · rw [if_pos ⟨hpos, hl⟩]
    rw [Finset.sum_congr rfl hterm]
    refine (Finset.sum_subset (Finset.range_mono (by omega)) fun l hl hl' => ?_).symm
    rw [Finset.mem_range] at hl'
    rw [if_neg (by omega), Nat.mul_zero]
  rw [Laws.canonicalCode_eq (d.lenOf t) (Nat.lt_succ_of_le hw), Finset.sum_congr rfl hsplit, Finset.sum_add_distrib, hfirst, hearlier,
    codeOfSymbol]

/-! ## One tree -/

/-- What `build_tree` makes of `c`: `b` is `c` with its symbols on the heap, `e` has their codes, `m` is the last of them. -/
structure TreeBuilt (t : Tree) (c b e : Cu) (m : Nat) : Prop where
  prepared : Prepared t (c.leafSum t (fun _ => 1) < 2) c b
  two      : 2 ≤ b.leafSum t (fun _ => 1)
  few      : c.leafSum t (fun _ => 1) < 2 → b.leafSum t (fun _ => 1) = 2
  lengths  : CodeLengths t b m (e.lenOf t)
  codes    : ∀ x ≤ m, e.lenOf t x ≠ 0 →
    (e.node t x).code.toNat = biReverse (canonicalCode ((List.range (m + 1)).map (e.lenOf t)) x) (e.lenOf t x)
  freq     : ∀ x < t.elems, (e.node t x).freq = (b.node t x).freq
  opt      : e.optLen = b.optLen + word32Of (b.weight t (e.bitsOf t))

/-- The heap of `build_tree` (42_tree_builder.md R234). -/
theorem prepared_buildHeap (t : Tree) {c : Cu} (h : c.MemWf) : ∃ m : Int, (c.buildHeap t).2 = m.toNat ∧ Leaves t (c.buildHeap t).1 m ∧
    2 ≤ (c.buildHeap t).1.heapLen ∧ Prepared t (c.leafSum t (fun _ => 1) < 2) c (c.buildHeap t).1 ∧
      (c.leafSum t (fun _ => 1) < 2 → (c.buildHeap t).1.heapLen = 2) := by
  have h1 := scanned_heapSymbols t h
  have hlen := lenOf_heapSymbols t h
  have hbase : Prepared t (c.leafSum t (fun _ => 1) < 2) c (c.heapSymbols t).1 :=
    ⟨fun x hx => .inl (h1.counts.freq x hx), fun x hx hf => hlen x hx ((h1.counts.freq x hx).symm.trans hf), fun g _ => by
      rw [h1.counts.opt, h1.counts.weight_eq]⟩
  obtain ⟨h2, hl2, -⟩ := leaves_forceTwo h1.leaves
  obtain ⟨hp, hfew⟩ := prepared_forceTwo hbase h1.leaves (by rw [h1.leaves.heapLen_eq, h1.counts.leafSum_eq])
  unfold buildHeap
  dsimp only
  generalize forceTwo t ((c.heapSymbols t).1, (c.heapSymbols t).2) = q at *
  have hH := h2.heapLen_le
  have hE := t.elems_le
  have h3 := sifts_foldl t (List.range' 1 (q.1.heapLen / 2)).reverse h2.mem (by omega) fun n hn => by
    simp only [List.mem_reverse, List.mem_range'_1] at hn
    omega
  have hnode := node_foldl_pqdownheap t (List.range' 1 (q.1.heapLen / 2)).reverse q.1
  generalize (List.range' 1 (q.1.heapLen / 2)).reverse.foldl (fun c n => c.pqdownheap t n) q.1 = b at *
  have hs := SameCounts.of_sifts (t := t) h3
  have hlb := h3.heapLen_eq
  refine ⟨q.2, rfl, h2.sifts h3, by omega, ⟨fun x hx => ?_, fun x hx hf => ?_, fun g hg => ?_⟩, fun hf => hlb.trans (hfew hf)⟩
  · rw [hnode]
    exact hp.freq x hx
  · rw [lenOf, hnode]
    rw [hnode] at hf
    exact hp.unused x hx hf
  · rw [hs.opt, hs.weight_eq]
    exact hp.cost g fun hf x hx hne => hg hf x hx (by rwa [hnode])

theorem treeBuilt_buildTree (t : Tree) {c : Cu} (h : c.MemWf) : ∃ b, TreeBuilt t c b (c.buildTree t).1 (c.buildTree t).2 := by
  obtain ⟨mi, hmi, hleaves, h2, hprep, hfew⟩ := prepared_buildHeap t h
  have hm : (c.buildHeap t).2 < t.elems := by have := hleaves.code; have := t.elems_le; omega
  have hlast : ∀ x < t.elems, ((c.buildHeap t).1.node t x).freq ≠ 0 → x ≤ (c.buildHeap t).2 := fun x hx hf => by
    have := hleaves.last x hx hf
    omega
  have hcount := hleaves.heapLen_eq
  refine ⟨(c.buildHeap t).1, ?_⟩
  show TreeBuilt t c _ ((((((c.buildHeap t).1.mergeTree t).genBitlen t (c.buildHeap t).2).1.repairBitlen t (c.buildHeap t).2
    (((c.buildHeap t).1.mergeTree t).genBitlen t (c.buildHeap t).2).2)).genCodes t (c.buildHeap t).2) (c.buildHeap t).2
  generalize (c.buildHeap t).2 = m at *
  generalize (c.buildHeap t).1 = b at *
  have hshape := shaped_mergeTree hleaves h2
  have hcomplete := complete_repairBitlen hshape hm hlast
  have hsized := sized_repairBitlen (sized_genBitlen hshape.toGrown hm hlast) hm ((b.mergeTree t).genBitlen t m).2
  generalize ((b.mergeTree t).genBitlen t m).1.repairBitlen t m ((b.mergeTree t).genBitlen t m).2 = d at *
  have hlengths : CodeLengths t b m (d.lenOf t) :=
    ⟨hm, hlast, fun x hx hf => (hcomplete.unused x hx hf).trans (hprep.unused x hx hf), hcomplete.lens, hcomplete.space⟩
  have h15 : ∀ x ≤ m, d.lenOf t x ≤ 15 := fun x hx => (hlengths.len_le hx).trans (maxLength_le t)
  obtain ⟨hlens, hsame, hcodes⟩ := encoded_genCodes hcomplete.mem hm h15
  have hcode := fun x (hx : x ≤ m) => hlengths.codeOfSymbol_eq hcomplete.counts hx
  generalize d.genCodes t m = e at *
  have hbits : e.bitsOf t = d.bitsOf t := funext fun x => congrArg (· + t.xbits x) (congrFun hlens x)
  rw [← hlens] at hlengths h15 hcodes hcode
  refine ⟨hprep, by omega, fun hf => by have := hfew hf; omega, hlengths, fun x hx h0 => ?_,
    fun x hx => (hsame.freq x hx).trans (hsized.freq x hx), by rw [hsame.opt, hsized.opt, hbits]⟩
  have hx15 := h15 x hx
  have hlt := Laws.canonicalCode_lt (len := e.lenOf t) (n := m + 1) (w := x) (by omega) (by omega) hx15 hlengths.codeSpace_eq.le
  have hrev := Laws.biReverse_lt (canonicalCode ((List.range (m + 1)).map (e.lenOf t)) x) (e.lenOf t x)
  have hpow : 2 ^ e.lenOf t x ≤ 2 ^ 15 := Nat.pow_le_pow_right (by decide) hx15
  rw [hcodes x hx h0, hcode x hx, Nat.mod_eq_of_lt (by omega : _ < 2 ^ 16), word16Of, BitVec.toNat_ofNat, Nat.mod_eq_of_lt (by omega)]

/-- The extra bits of the symbols are those of the spec's tables. -/
theorem extraOf_eq_xbits : ∀ (t : Tree), ∀ x < t.elems, extraOf t x = t.xbits x
  | .l => fun x hx => by
    have hrows : ∀ k < 29, (lengthRows.getD k (.len257, 0, 0)).2.2 = extraLbits k := by decide
    show (if 257 ≤ x then _ else 0) = if 257 ≤ x then _ else 0
    split
    · exact hrows _ (by have : x < 286 := hx; omega)
    · rfl
  | .d => by decide
  | .bl => by decide

theorem treeLimits_eq (t : Tree) : treeLimits t = (t.elems, t.maxLength) := by cases t <;> rfl

/-- A symbol with a frequency in `c` has it in `b`. -/
theorem TreeBuilt.freq_of_used {t : Tree} {c b e : Cu} {m : Nat} (h : TreeBuilt t c b e m) {x : Nat} (hx : x < t.elems)
    (hf : (c.node t x).freq ≠ 0) : (b.node t x).freq = (c.node t x).freq :=
  (h.prepared.freq x hx).resolve_right fun ⟨h0, _⟩ => hf h0

/-- `OPT_LEN` grows by what the symbols with a frequency take: for a synthetic one its only bit was taken off beforehand. -/
theorem TreeBuilt.optLen_eq {t : Tree} {c b e : Cu} {m : Nat} (h : TreeBuilt t c b e m) :
    e.optLen = c.optLen + word32Of (c.weight t (e.bitsOf t)) := by
  have hE := t.elems_le
  rw [h.opt]
  refine h.prepared.cost _ fun hfew x hx hf => ?_
  show e.lenOf t x + t.xbits x = 1
  rw [h.lengths.len_of_two (h.few hfew) (by omega) hf, t.xbits_small hx]

end Cu

/-- Settles O33: the tree in the heap makes every inner node the father of two (`shaped_mergeTree`), so the lengths of the first pass take
the code space and half a unit for each node cut (`Pass.space_eq`), which the repair takes off (`Excess.repairLoop`); the codes are
those of `encoded_genCodes`. -/
theorem treesAreCompleteCodes : Obligations.TreesAreCompleteCodes := by
  intro t c hc
  obtain ⟨b, hb⟩ := Cu.treeBuilt_buildTree t hc
  rw [Cu.treeLimits_eq]
  generalize c.buildTree t = p at *
  obtain ⟨e, m⟩ := p
  dsimp only at *
  have hm := hb.lengths.bound
  have hused : ∀ x, x ∈ (List.range t.elems).filter (fun n => (c.node t n).freq ≠ 0) ↔ x < t.elems ∧ (c.node t x).freq ≠ 0 := fun x => by
    rw [List.mem_filter, List.mem_range, decide_eq_true_eq]
  have hcount : ((List.range t.elems).filter (fun n => (c.node t n).freq ≠ 0)).length = c.leafSum t fun _ => 1 := by
    rw [Laws.length_filter_range]
    simp only [decide_eq_true_eq, Cu.leafSum]
  refine ⟨hm, fun l hl => ?_, hb.lengths.number.symm ▸ hb.two, hb.lengths.codeSpace_eq, fun x hx => ?_, fun x hx hxu => ?_, fun x hx hx0 => ?_, ?_⟩
  · obtain ⟨x, hx, rfl⟩ := List.mem_map.1 hl
    exact hb.lengths.len_le (Nat.le_of_lt_succ (List.mem_range.1 hx))
  · obtain ⟨hx, hf⟩ := (hused x).1 hx
    have hfb := hb.freq_of_used hx hf
    have hlen := (hb.lengths.some x hx (hfb ▸ hf)).1
    exact ⟨hb.lengths.last x hx (hfb ▸ hf), fun h0 => by rw [Cu.lenOf, h0] at hlen; exact absurd hlen (by decide), (hb.freq x hx).trans hfb⟩
  · have hx' : x < t.elems := by omega
    have hf0 : (c.node t x).freq = 0 := not_not.1 fun hf => hxu ((hused x).2 ⟨hx', hf⟩)
    rw [hb.freq x hx', hcount]
    rcases hb.prepared.freq x hx' with he | ⟨-, h2, h1, hfew⟩
    · have hfb := he.trans hf0
      exact .inl ⟨BitVec.eq_of_toNat_eq (hb.lengths.none x hx' hfb), hfb⟩
    · exact .inr ⟨hfew, h2, h1⟩
  · have hne : e.lenOf t x ≠ 0 := fun h0 => hx0 (BitVec.eq_of_toNat_eq h0)
    have hlt := Laws.canonicalCode_lt (len := e.lenOf t) (n := m + 1) (w := x) (by omega) (by omega)
      ((hb.lengths.len_le hx).trans (Cu.maxLength_le t)) hb.lengths.codeSpace_eq.le
    rw [hb.codes x hx hne]
    refine ⟨Laws.biReverse_lt .., ?_⟩
    rw [Laws.codeRead_eq_biReverse]
    exact (Laws.biReverse_biReverse ..).trans (Nat.mod_eq_of_lt hlt)
  · rw [hb.optLen_eq, Laws.sum_map_filter_range]
    refine congrArg (c.optLen + word32Of ·) (Finset.sum_congr rfl fun x hx => ?_)
    rw [Cu.extraOf_eq_xbits t x (Finset.mem_range.1 hx)]
    by_cases hf : (c.node t x).freq = 0
    · simp [hf]
    · rw [if_pos (decide_eq_true hf)]
      rfl

end Sys2Proof.Machine
end

section
/-! PROOF. What the lookups of the fast loop and of the slow path read (43_table_decoder_fastloop.md R281, R288; 44_inflate_engine.md R324):
in a code table both find the code that stands first in the stream, however many bits are held. -/

namespace Sys2Proof.Machine

/-! ## Entries of symbols -/

theorem mkEntry_mod (op n val : Nat) : mkEntry op (n % 256) val = mkEntry op n val := by
  simp only [mkEntry, byteOf]
  rw [show BitVec.ofNat 8 (n % 256) = BitVec.ofNat 8 n from BitVec.eq_of_toNat_eq (by simp)]

theorem lensEntry_mod (w n : Nat) : lensEntry w (n % 256) = lensEntry w n := by simp only [lensEntry, mkEntry_mod]

theorem distsEntry_mod (w n : Nat) : distsEntry w (n % 256) = distsEntry w n := by simp only [distsEntry, mkEntry_mod]

theorem entryBits_lensEntry (w n : Nat) : entryBits (lensEntry w n) = n % 256 := by
  unfold lensEntry
  split_ifs <;> exact entryBits_mkEntry ..

theorem entryBits_distsEntry (w n : Nat) : entryBits (distsEntry w n) = n % 256 := by
  unfold distsEntry
  split_ifs <;> exact entryBits_mkEntry ..

/-- The bases and extra bits of the length symbols (30_encoding.md R118). -/
theorem lengthSymbol_range : ∀ c < 29, extraLbits c ≤ 5 ∧ 3 ≤ baseLength c ∧ baseLength c + 2 ^ extraLbits c ≤ 259 := by decide

theorem distanceSymbol_range : ∀ c < 30, extraDbits c ≤ 13 ∧ baseDist c < 65536 := by decide

/-- The classes of literal/length entries (43_table_decoder_fastloop.md R277). -/
theorem lensEntry_cases (w n : Nat) : (∃ val < 256, lensEntry w n = mkEntry 0 n val) ∨ lensEntry w n = mkEntry 96 n 0 ∨
    (∃ x ≤ 5, ∃ val ≥ 3, val + 2 ^ x ≤ 259 ∧ lensEntry w n = mkEntry (16 + x) n val) ∨ lensEntry w n = mkEntry 64 n 0 := by
  unfold lensEntry
  split
  · exact .inl ⟨w, ‹_›, rfl⟩
  · split
    · exact .inr (.inl rfl)
    · split
      · obtain ⟨hx, h3, hv⟩ := lengthSymbol_range (w - 257) (by omega)
        exact .inr (.inr (.inl ⟨_, hx, _, h3, hv, rfl⟩))
      · exact .inr (.inr (.inr rfl))

/-- The classes of distance entries (43_table_decoder_fastloop.md R277). -/
theorem distsEntry_cases (w n : Nat) : (∃ x ≤ 13, ∃ val < 65536, distsEntry w n = mkEntry (16 + x) n val) ∨ distsEntry w n = mkEntry 64 n 0 := by
  unfold distsEntry
  split
  · obtain ⟨hx, hv⟩ := distanceSymbol_range w ‹_›
    exact .inl ⟨_, hx, _, hv, rfl⟩
  · exact .inr rfl

theorem linkLl_lensEntry (w n : Nat) : Du.linkLl (entryOp (lensEntry w n)) = false := by
  rcases lensEntry_cases w n with ⟨val, -, he⟩ | he | ⟨x, hx, val, -, -, he⟩ | he <;> rw [he, entryOp_mkEntry]
  · rfl
  · rfl
  · interval_cases x <;> rfl
  · rfl

theorem linkDist_distsEntry (w n : Nat) : Du.linkDist (entryOp (distsEntry w n)) = false := by
  rcases distsEntry_cases w n with ⟨x, hx, val, -, he⟩ | he <;> rw [he, entryOp_mkEntry]
  · interval_cases x <;> rfl
  · rfl

theorem linkLl_of_isLink {e : Word32} (h : Du.isLink e = true) : Du.linkLl (entryOp e) = true := by
  simp only [Du.isLink, Bool.and_eq_true, decide_eq_true_eq] at h
  obtain ⟨h1, h15⟩ := h
  generalize entryOp e = op at h1 h15
  interval_cases op <;> rfl

theorem linkDist_of_isLink {e : Word32} (h : Du.isLink e = true) : Du.linkDist (entryOp e) = true := by
  simp only [Du.isLink, Bool.and_eq_true, decide_eq_true_eq] at h
  obtain ⟨h1, h15⟩ := h
  generalize entryOp e = op at h1 h15
  interval_cases op <;> rfl

namespace Du

/-! ## Code tables -/

theorem tableAt_congr {d e : Du} (h : e.codes = d.codes) : e.tableAt = d.tableAt := by
  funext r i
  simp only [tableAt, codeAt, h]

theorem lookup_congr {d e : Du} (h : e.codes = d.codes) (r : TableRef) (w b : Nat) : e.lookup r w b = d.lookup r w b := by
  simp only [lookup, tableAt_congr h]

theorem CodeTable.congr {entry : Nat → Nat → Word32} {r : TableRef} {w : Nat} {d e : Du} (ht : d.CodeTable entry r w)
    (h : e.codes = d.codes) : e.CodeTable entry r w := by
  have hl := lookup_congr h r w
  exact ⟨fun b => hl b ▸ ht.size b, fun b => hl b ▸ ht.alphabet b, fun b b' => by rw [hl, hl]; exact ht.decides b b',
    tableAt_congr h ▸ ht.link⟩

theorem Took.codes_eq {n : Nat} {d e : Du} (h : d.Took n e) : e.codes = d.codes := by rw [h.frame]

theorem lookup_plain {r : TableRef} {w b : Nat} {d : Du} (h : isLink (d.tableAt r (b % 2 ^ w)) = false) :
    d.lookup r w b = (d.tableAt r (b % 2 ^ w), entryBits (d.tableAt r (b % 2 ^ w))) := by
  simp only [lookup, h, Bool.false_eq_true, if_false]

theorem lookup_link {r : TableRef} {w b : Nat} {d : Du} {here : Word32} (he : d.tableAt r (b % 2 ^ w) = here) (h : isLink here = true) :
    d.lookup r w b = (d.tableAt r (entryVal here + b / 2 ^ entryBits here % 2 ^ entryOp here),
      entryBits here + entryBits (d.tableAt r (entryVal here + b / 2 ^ entryBits here % 2 ^ entryOp here))) := by
  simp only [lookup, he, h, if_true]

section
variable {entry : Nat → Nat → Word32} {r : TableRef} {w : Nat} {d e : Du}

/-- A code that ends inside the bits held is the code that stands first in the stream. -/
theorem CodeTable.lookup_hold (ht : d.CodeTable entry r w) (he : d.Took 0 e)
    (hb : (d.lookup r w e.hold.toNat).2 ≤ e.bits ∨ (d.lookup r w d.ahead).2 ≤ e.bits) :
    d.lookup r w e.hold.toNat = d.lookup r w d.ahead := by
  have hahead : e.ahead = d.ahead := by rw [he.value, Nat.pow_zero, Nat.div_one]
  have hmod : ∀ {n}, n ≤ e.bits → e.hold.toNat % 2 ^ n = d.ahead % 2 ^ n := fun hn => hahead ▸ peek_eq hn
  rcases hb with hb | hb
  · exact (ht.decides _ _ (hmod hb)).symm
  · exact ht.decides _ _ (hmod hb).symm

/-- The root's entry is the stream's as soon as the root's bits are held. -/
theorem root_hold (he : d.Took 0 e) (hb : w ≤ e.bits) : d.tableAt r (e.hold.toNat % 2 ^ w) = d.tableAt r (d.ahead % 2 ^ w) := by
  have hahead : e.ahead = d.ahead := by rw [he.value, Nat.pow_zero, Nat.div_one]
  exact congrArg (d.tableAt r) (hahead ▸ peek_eq hb)

theorem CodeTable.width_le (ht : d.CodeTable entry r w) {b : Nat} (hl : isLink (d.tableAt r (b % 2 ^ w)) = true) :
    w ≤ (d.lookup r w b).2 := by
  rw [lookup_link rfl hl, ht.link b hl]
  exact Nat.le_add_right ..

/-- Before a link is followed, exactly the root's bits are needed. -/
theorem CodeTable.root_needed_link (ht : d.CodeTable entry r w) (he : d.Took 0 e) (hl : isLink (d.tableAt r (d.ahead % 2 ^ w)) = true) :
    entryBits (d.tableAt r (e.hold.toNat % 2 ^ w)) ≤ e.bits ↔ w ≤ e.bits := by
  refine ⟨fun hb => ?_, fun hb => by rw [root_hold he hb, ht.link _ hl]; exact hb⟩
  by_cases hh : isLink (d.tableAt r (e.hold.toNat % 2 ^ w)) = true
  · rwa [ht.link _ hh] at hb
  · have hp := lookup_plain (Bool.not_eq_true _ ▸ hh)
    have hk := ht.lookup_hold he (.inl (by rw [hp]; exact hb))
    have hw := ht.width_le hl
    rw [← hk, hp] at hw
    exact hw.trans hb

/-- A code in the root needs exactly its own bits. -/
theorem CodeTable.root_needed_plain (ht : d.CodeTable entry r w) (he : d.Took 0 e) (hl : isLink (d.tableAt r (d.ahead % 2 ^ w)) = false) :
    entryBits (d.tableAt r (e.hold.toNat % 2 ^ w)) ≤ e.bits ↔ (d.lookup r w d.ahead).2 ≤ e.bits := by
  by_cases hh : isLink (d.tableAt r (e.hold.toNat % 2 ^ w)) = true
  · have hw : ¬ w ≤ e.bits := fun hb => by rw [root_hold he hb, hl] at hh; cases hh
    refine ⟨fun hb => absurd (ht.link _ hh ▸ hb) hw, fun hb => absurd ?_ hw⟩
    have := ht.width_le hh
    rw [ht.lookup_hold he (.inr hb)] at this
    exact this.trans hb
  · have hp := lookup_plain (Bool.not_eq_true _ ▸ hh)
    refine ⟨fun hb => ?_, fun hb => ?_⟩
    · rw [← ht.lookup_hold he (.inl (by rw [hp]; exact hb)), hp]; exact hb
    · rw [← ht.lookup_hold he (.inr hb), hp] at hb; exact hb

/-! ## The lookup of the slow path -/

theorem bits_need_lt {n : Nat} (h : d.Ready n) (hc : d.CanNeed n) (hb : d.bits < n + 8) : (d.need n).bits < n + 8 := by
  by_cases hn : d.bits < n
  · exact (needed_need h hc).few hn
  · rwa [need_of_le (Nat.le_of_not_lt hn)]

/-- A lookup loop that ends when `n` bits are held fetches as `need(n)` does. -/
theorem entryLoop_eq_need {entry : Du → Word32} {needed : Word32 → Nat} {k : Word32 → Du → Du} {n : Nat} (hn : n ≤ 25) :
    ∀ {fuel m : Nat} {d : Du}, d.Ready n → d.cur.availIn < fuel → n ≤ d.bits + 8 * m →
      (∀ e, d.Took 0 e → d.bits ≤ e.bits → (needed (entry e) ≤ e.bits ↔ n ≤ e.bits)) →
      entryLoop entry needed k fuel d = k (entry (needLoop m n d)) (needLoop m n d) := by
  intro fuel
  induction fuel with
  | zero => intro m d _ hf; exact absurd hf (Nat.not_lt_zero _)
  | succ fuel ih =>
    intro m d h hf hm hiff
    rw [entryLoop]
    by_cases hb : n ≤ d.bits
    · rw [if_pos ((hiff d (took_refl h.stream) le_rfl).2 hb)]
      cases m with
      | zero => rfl
      | succ m => rw [needLoop, if_neg (Nat.not_lt.2 hb)]
    · rw [if_neg fun hc => hb ((hiff d (took_refl h.stream) le_rfl).1 hc)]
      obtain ⟨m, rfl⟩ : ∃ j, m = j + 1 := ⟨m - 1, by omega⟩
      have hin : d.cur.availIn ≠ 0 := fun h0 => by have := h.there; unfold aheadBits at this; omega
      have hfetch := took_fetch h.stream (by omega) hin
      have hbits : d.fetch.bits = d.bits + 8 := rfl
      have hless : d.fetch.cur.availIn < fuel := by have := hfetch.count; unfold aheadBits at this; omega
      have hready : d.fetch.Ready n := ⟨h.run, hfetch.stream, by have := hfetch.count; have := h.there; omega⟩
      have hrun : d.fetch.ctl = .run := h.run
      rw [needLoop, if_pos (Nat.lt_of_not_le hb), pull, if_neg hin, andThen, andThen, if_pos hrun, if_pos hrun]
      exact ih hready hless (by omega) fun e he hbe => hiff e (by simpa using hfetch.trans he) (by omega)

theorem withEntry_eq_need {entry : Du → Word32} {needed : Word32 → Nat} {k : Word32 → Du → Du} {n : Nat} (h : d.Ready n) (hn : n ≤ 25)
    (hiff : ∀ e, d.Took 0 e → d.bits ≤ e.bits → (needed (entry e) ≤ e.bits ↔ n ≤ e.bits)) :
    d.withEntry entry needed k = k (entry (d.need n)) (d.need n) :=
  entryLoop_eq_need hn h (Nat.lt_succ_self _) (by omega) hiff

/-- Behind a link the lookup needs the whole code. -/
theorem viaLink_eq_need {k : Word32 → Du → Du} (ht : d.CodeTable entry r w) (h : d.Ready (d.lookup r w d.ahead).2)
    (hl : isLink (d.tableAt r (d.ahead % 2 ^ w)) = true) (hb : w ≤ d.bits) :
    d.viaLink r (d.tableAt r (d.ahead % 2 ^ w)) k = k (d.lookup r w d.ahead).1 ((d.need (d.lookup r w d.ahead).2).drop w) := by
  have hlast := ht.link _ hl
  have hsize := (ht.size d.ahead).2
  set last := d.tableAt r (d.ahead % 2 ^ w) with hlast_def
  have hsub : ∀ e, d.Took 0 e → d.bits ≤ e.bits → d.lookup r w e.hold.toNat =
      (e.tableAt r (entryVal last + e.peek (entryBits last + entryOp last) / 2 ^ entryBits last),
        entryBits last + entryBits (e.tableAt r (entryVal last + e.peek (entryBits last + entryOp last) / 2 ^ entryBits last))) :=
    fun e he hbe => by
      rw [lookup_link (root_hold he (hb.trans hbe)) hl, tableAt_congr he.codes_eq, peek, Nat.pow_add, Nat.mod_mul_right_div_self]
  have hneed := needed_need h (.inl (by omega))
  have hmore : d.bits ≤ (d.need (d.lookup r w d.ahead).2).bits := by
    by_cases hc : d.bits < (d.lookup r w d.ahead).2
    · have := hneed.held; omega
    · rw [need_of_le (Nat.le_of_not_lt hc)]
  have hfound := hsub _ hneed.took hmore
  rw [ht.lookup_hold hneed.took (.inr hneed.held)] at hfound
  obtain ⟨hentry, -⟩ := Prod.ext_iff.1 hfound
  rw [viaLink, withEntry_eq_need h (by omega), hentry, hlast]
  intro e he hbe
  obtain ⟨-, hbits⟩ := Prod.ext_iff.1 (hsub e he hbe)
  dsimp only at hbits
  rw [← hbits]
  exact ⟨fun hc => ht.lookup_hold he (.inl hc) ▸ hc, fun hc => ht.lookup_hold he (.inr hc) ▸ hc⟩

/-- The lookup of the slow path (44_inflate_engine.md R324): the rest of the rule gets the entry of the code that stands first in the
stream, and behind that code's bits less than a byte is held. -/
theorem decodeEntry_reads (ht : d.CodeTable entry r w) (h : d.Ready (d.lookup r w d.ahead).2) (hb : d.bits < 8) (k : Word32 → Du → Du) :
    ∃ e, d.decodeEntry r w k = k (d.lookup r w d.ahead).1 e ∧
      d.Took (d.lookup r w d.ahead).2 (e.drop (entryBits (d.lookup r w d.ahead).1)) ∧
      (e.drop (entryBits (d.lookup r w d.ahead).1)).bits < 8 := by
  have hsize := (ht.size d.ahead).2
  have hroot : ∀ e : Du, d.Took 0 e → e.tableAt r (e.peek w) = d.tableAt r (e.hold.toNat % 2 ^ w) := fun e he => by
    rw [tableAt_congr he.codes_eq, peek]
  by_cases hl : isLink (d.tableAt r (d.ahead % 2 ^ w)) = true
  · have hw := ht.width_le hl
    have h1 := needed_need (h.mono hw) (.inl (by omega))
    have hb1 := bits_need_lt (h.mono hw) (.inl (by omega)) (by omega)
    have hd := lookup_congr h1.took.codes_eq r w
    have hahead : (d.need w).ahead = d.ahead := by rw [h1.took.value, Nat.pow_zero, Nat.div_one]
    have hr1 : (d.need w).Ready (d.lookup r w d.ahead).2 := h1.took.ready (by rwa [Nat.zero_add])
    have h2 := needed_need hr1 (.inl (by omega))
    have hb2 := bits_need_lt hr1 (.inl (by omega)) (by omega)
    have hL : (d.lookup r w d.ahead).2 = w + entryBits (d.lookup r w d.ahead).1 := by
      rw [lookup_link rfl hl, ht.link _ hl]
    refine ⟨((d.need w).need (d.lookup r w d.ahead).2).drop w, ?_, ?_, ?_⟩
    · rw [decodeEntry, withEntry_eq_need (h.mono hw) (by omega) fun e he _ => by rw [hroot e he]; exact ht.root_needed_link he hl,
        hroot _ h1.took, root_hold h1.took h1.held, if_pos hl]
      have := viaLink_eq_need (k := k) (ht.congr h1.took.codes_eq) (by rw [hahead, hd]; exact hr1)
        (by rw [hahead, tableAt_congr h1.took.codes_eq]; exact hl) h1.held
      rw [hahead, hd, tableAt_congr h1.took.codes_eq] at this
      exact this
    · rw [drop_drop, ← hL]
      simpa only [Nat.zero_add] using (h1.took.trans h2.took).trans (took_drop h2.took.stream h2.held)
    · rw [drop_drop, ← hL]
      show _ - _ < 8
      omega
  · have hl : isLink (d.tableAt r (d.ahead % 2 ^ w)) = false := Bool.not_eq_true _ ▸ hl
    have h1 := needed_need h (.inl (by omega))
    have hb1 := bits_need_lt h (.inl (by omega)) (by omega)
    have hp := lookup_plain hl
    have hL : entryBits (d.lookup r w d.ahead).1 = (d.lookup r w d.ahead).2 := by rw [hp]
    have hsame : d.tableAt r ((d.need (d.lookup r w d.ahead).2).hold.toNat % 2 ^ w) = (d.lookup r w d.ahead).1 := by
      have hk := ht.lookup_hold h1.took (.inr h1.held)
      have hn : isLink (d.tableAt r ((d.need (d.lookup r w d.ahead).2).hold.toNat % 2 ^ w)) = false := by
        refine Bool.not_eq_true _ ▸ fun hh => ?_
        have := ht.width_le hh
        rw [hk] at this
        rw [root_hold h1.took (this.trans h1.held), hl] at hh
        cases hh
      rw [lookup_plain hn] at hk
      exact congrArg Prod.fst hk
    refine ⟨d.need (d.lookup r w d.ahead).2, ?_, ?_, ?_⟩
    · rw [decodeEntry, withEntry_eq_need h (by omega) fun e he _ => by rw [hroot e he]; exact ht.root_needed_plain he hl,
        hroot _ h1.took, hsame, if_neg]
      rw [hp]
      exact Bool.not_eq_true _ ▸ hl
    · rw [hL]
      simpa only [Nat.zero_add] using h1.took.trans (took_drop h1.took.stream h1.held)
    · rw [hL]
      show _ - _ < 8
      omega

/-! ## The lookup of the fast loop -/

/-- The lookup of the fast loop (43_table_decoder_fastloop.md R281) with 15 bits held. -/
theorem fastResolve_eq_lookup {link : Nat → Bool} (ht : d.CodeTable entry r w) (h : d.StreamWf) (hb : 15 ≤ d.bits)
    (hplain : ∀ v n, link (entryOp (entry v n)) = false) (hlink : ∀ {e : Word32}, isLink e = true → link (entryOp e) = true) :
    fastResolve r link 2 (d.tableAt r (d.peek w)) d = ((d.lookup r w d.ahead).1, d.drop (d.lookup r w d.ahead).2) := by
  have hk : d.lookup r w d.ahead = d.lookup r w d.hold.toNat :=
    (ht.lookup_hold (took_refl h) (.inr ((ht.size d.ahead).2.trans hb))).symm
  obtain ⟨v, n, hv⟩ := ht.alphabet d.hold.toNat
  have hstop : link (entryOp (d.lookup r w d.hold.toNat).1) = false := hv ▸ hplain v n
  rw [hk, peek]
  by_cases hl : isLink (d.tableAt r (d.hold.toNat % 2 ^ w)) = true
  · have hlook := lookup_link rfl hl
    have hpeek : ∀ a b, (d.drop a).peek b = d.hold.toNat / 2 ^ a % 2 ^ b := fun a b => by
      rw [peek, drop, BitVec.toNat_ushiftRight, Nat.shiftRight_eq_div_pow]
    rw [hlook] at hstop ⊢
    rw [fastResolve, if_pos (hlink hl), hpeek, fastResolve]
    dsimp only at hstop ⊢
    rw [show (d.drop (entryBits (d.tableAt r (d.hold.toNat % 2 ^ w)))).tableAt = d.tableAt from rfl, if_neg (by rw [hstop]; decide), drop_drop]
  · have hlook := lookup_plain (Bool.not_eq_true _ ▸ hl)
    rw [hlook] at hstop ⊢
    rw [fastResolve, if_neg (by rw [hstop]; decide)]

end

end Du

end Sys2Proof.Machine
end

section
/-! PROOF. The fast loop is the slow path (43_table_decoder_fastloop.md R280 to R286): it runs on a state that has fetched ahead of need, and
each of its rounds leaves, fetched ahead in the same way, what one or two rounds of the slow path leave. -/

namespace Sys2Proof.Machine

open Claims

namespace Du

/-! ## Bytes fetched ahead of need -/

/-- `f` stands where `s` stands, with bytes fetched ahead of need; `s` holds less than a byte. The registers that are dead between two
symbols, and `MODE`, are free. -/
structure Prefetched (s f : Du) : Prop where
  value  : f.ahead = s.ahead
  count  : f.aheadBits = s.aheadBits
  stream : f.StreamWf
  behind : s.StreamWf
  small  : s.bits < 8
  frame  : f = { s with
    hold := f.hold, bits := f.bits, cur := { s.cur with nextIn := f.cur.nextIn }
    length := f.length, offset := f.offset, extra := f.extra, mode := f.mode }

theorem prefetched_refl {s : Du} (h : s.StreamWf) (hb : s.bits < 8) : Prefetched s s := ⟨rfl, rfl, h, h, hb, rfl⟩

section
variable {s f s' f' : Du} {n : Nat}

theorem Prefetched.took (h : Prefetched s f) (hs : s.Took n s') (hb : s'.bits < 8) (hf : f.Took n f') : Prefetched s' f' := by
  refine ⟨by rw [hf.value, hs.value, h.value], by have := hf.count; have := hs.count; have := h.count; omega, hf.stream, hs.stream, hb, ?_⟩
  rw [hf.frame, h.frame, hs.frame]

theorem Prefetched.fetched (h : Prefetched s f) (hf : f.Took 0 f') : Prefetched s f' := h.took (took_refl h.behind) h.small hf

theorem Prefetched.regs (h : Prefetched s f) (m m' : Mode) (l o x l' o' x' : Nat) :
    Prefetched { s with mode := m, length := l, offset := o, extra := x } { f with mode := m', length := l', offset := o', extra := x' } :=
  ⟨h.value, h.count, ⟨h.stream.hold, h.stream.bits, h.stream.cursor⟩, ⟨h.behind.hold, h.behind.bits, h.behind.cursor⟩, h.small,
    by rw [h.frame]⟩

theorem Prefetched.bad (h : Prefetched s f) (m : Msg) : Prefetched (s.bad m) (f.bad m) :=
  ⟨h.value, h.count, ⟨h.stream.hold, h.stream.bits, h.stream.cursor⟩, ⟨h.behind.hold, h.behind.bits, h.behind.cursor⟩, h.small,
    by rw [h.frame]; rfl⟩

theorem Prefetched.outPut (h : Prefetched s f) (b : Byte) : Prefetched (s.outPut b) (f.outPut b) :=
  ⟨h.value, h.count, ⟨h.stream.hold, h.stream.bits, h.stream.cursor⟩, ⟨h.behind.hold, h.behind.bits, h.behind.cursor⟩, h.small,
    by rw [h.frame]; rfl⟩

theorem Prefetched.hist (h : Prefetched s f) (k : Nat) : f.hist k = s.hist k := by rw [h.frame]; rfl

theorem Prefetched.copyMatch (h : Prefetched s f) (k n : Nat) : Prefetched (s.copyMatch k n) (f.copyMatch k n) := by
  unfold Du.copyMatch forRange
  induction List.range' 0 n generalizing s f with
  | nil => exact h
  | cons i r ih =>
    refine ih ?_
    show Prefetched (s.outPut (s.hist k)) (f.outPut (f.hist k))
    rw [h.hist]
    exact h.outPut _

theorem Prefetched.cursor_eq (h : Prefetched s f) : f.cur = { s.cur with nextIn := f.cur.nextIn } := congrArg Du.cur h.frame

theorem Prefetched.availOut_eq (h : Prefetched s f) : f.cur.availOut = s.cur.availOut := by rw [h.cursor_eq]

/-- `return_unused` gives back what was fetched ahead of need (43_table_decoder_fastloop.md R285). -/
theorem Prefetched.returnUnused (h : Prefetched s f) :
    f.returnUnused = { s with length := f.length, offset := f.offset, extra := f.extra, mode := f.mode } := by
  have hinp : f.cur.inp = s.cur.inp := by rw [h.cursor_eq]
  have hcount := h.count
  have hf := h.stream.cursor
  have hs := h.behind.cursor
  have hsmall := h.small
  simp only [aheadBits, Cursor.availIn, hinp] at hcount hf
  have hbits : f.bits - 8 * (f.bits / 8) = s.bits := by omega
  have hnext : f.cur.nextIn - f.bits / 8 = s.cur.nextIn := by omega
  have hhold : f.hold &&& word32Of (2 ^ s.bits - 1) = s.hold := by
    refine BitVec.eq_of_toNat_eq ?_
    have hlt : 2 ^ s.bits ≤ 2 ^ 8 := Nat.pow_le_pow_right (by decide) hsmall.le
    have hmask : (word32Of (2 ^ s.bits - 1)).toNat = 2 ^ s.bits - 1 := by
      rw [word32Of, BitVec.toNat_ofNat, Nat.mod_eq_of_lt (by omega)]
    rw [BitVec.toNat_and, hmask, Nat.and_two_pow_sub_one_eq_mod]
    have hpeek : f.peek s.bits = s.peek s.bits := by rw [peek_eq (by omega), peek_eq le_rfl, h.value]
    rw [peek, peek, Nat.mod_eq_of_lt h.behind.hold] at hpeek
    exact hpeek
  unfold Du.returnUnused
  dsimp only
  rw [hbits, hnext, hhold, h.frame]

end

/-! ## Fetching in the fast loop -/

theorem took_fetchIf {n : Nat} {d : Du} (h : d.StreamWf) (hn : n ≤ 25) (ha : n ≤ d.aheadBits) : d.Took 0 (d.fetchIf n) := by
  unfold fetchIf
  split
  · exact took_fetch h (by omega) fun h0 => by unfold aheadBits at ha; omega
  · exact took_refl h

theorem took_fetch15 {d : Du} (h : d.StreamWf) (ha : 23 ≤ d.aheadBits) : d.Took 0 d.fetch15 := by
  unfold fetch15
  split
  · unfold aheadBits at ha
    have h1 := took_fetch h (by omega) (by omega)
    have hc := h1.count
    have hbits : d.fetch.bits = d.bits + 8 := rfl
    unfold aheadBits at hc
    exact h1.trans (took_fetch h1.stream (by omega) (by omega))
  · exact took_refl h

theorem bits_fetch15 (d : Du) (h : d.bits ≤ 32) : 15 ≤ d.fetch15.bits ∧ d.fetch15.bits ≤ 32 := by
  unfold fetch15
  split
  · show 15 ≤ d.bits + 8 + 8 ∧ d.bits + 8 + 8 ≤ 32
    omega
  · omega

theorem bits_fetchIf_lt {n : Nat} (d : Du) (h : d.bits < 32) (hn : n ≤ 15) : (d.fetchIf n).bits < 32 := by
  unfold fetchIf
  split
  · show d.bits + 8 < 32
    omega
  · exact h

theorem le_bits_fetchIf (n : Nat) (d : Du) : min n (d.bits + 8) ≤ (d.fetchIf n).bits := by
  unfold fetchIf
  split
  · exact Nat.min_le_right ..
  · omega

/-! ## A round -/

/-- What a symbol leaves alone: the registers that select the decode tables, their memory, and the input. -/
def setting (d : Du) := (d.codes, d.lencode, d.lenbits, d.distcode, d.distbits, d.cur.inp)

/-- The fast loop has left `p.1` where the slow path has come from `s` to `e`; `p.2` says that the fast loop goes on. -/
structure Follows (s e : Du) (p : Du × Bool) : Prop where
  ahead  : Prefetched e p.1
  mode   : e.mode = p.1.mode
  run    : e.ctl = .run
  setting : e.setting = s.setting
  taken  : e.aheadBits ≤ s.aheadBits
  held   : p.1.bits < 32
  on     : p.2 = true → e.mode = .len ∧ e.cur.availOut < s.cur.availOut
  off    : p.2 = false → e.mode = .type ∨ e.mode = .bad

theorem Took.setting_eq {n : Nat} {d e : Du} (h : d.Took n e) : e.setting = d.setting := by rw [h.frame]; rfl

theorem Took.cur_eq {n : Nat} {d e : Du} (h : d.Took n e) : e.cur = { d.cur with nextIn := e.cur.nextIn } := congrArg Du.cur h.frame

theorem Took.availOut_eq {n : Nat} {d e : Du} (h : d.Took n e) : e.cur.availOut = d.cur.availOut := by rw [h.cur_eq]

theorem CodeTable.alphabet_le {entry : Nat → Nat → Word32} {r : TableRef} {w : Nat} {d : Du} (ht : d.CodeTable entry r w)
    (hmod : ∀ v n, entry v (n % 256) = entry v n) (hbits : ∀ v n, entryBits (entry v n) = n % 256) (b : Nat) :
    ∃ v n, n ≤ 15 ∧ (d.lookup r w b).1 = entry v n := by
  obtain ⟨v, n, hv⟩ := ht.alphabet b
  refine ⟨v, n % 256, ?_, by rw [hv, hmod]⟩
  have hle : entryBits (d.lookup r w b).1 ≤ (d.lookup r w b).2 := by
    rw [lookup]
    dsimp only
    split
    · exact Nat.le_add_left ..
    · exact le_rfl
  rw [hv, hbits] at hle
  exact hle.trans (ht.size b).2

/-- What both paths read at one place of the stream: the slow path drops the code and holds less than a byte, the fast loop has 15 bits
and drops the same code. -/
theorem Prefetched.reads {entry : Nat → Nat → Word32} {r : TableRef} {w : Nat} {s f : Du} {link : Nat → Bool} (h : Prefetched s f)
    (hr : s.ctl = .run) (ha : 23 ≤ s.aheadBits) (ht : s.CodeTable entry r w) (k : Word32 → Du → Du)
    (hplain : ∀ v n, link (entryOp (entry v n)) = false) (hlink : ∀ {e : Word32}, isLink e = true → link (entryOp e) = true) :
    ∃ e s' f', s.decodeEntry r w k = k (s.lookup r w s.ahead).1 e ∧ e.drop (entryBits (s.lookup r w s.ahead).1) = s' ∧
      fastResolve r link 2 (f.fetch15.tableAt r (f.fetch15.peek w)) f.fetch15 = ((s.lookup r w s.ahead).1, f') ∧
      s.Took (s.lookup r w s.ahead).2 s' ∧ Prefetched s' f' ∧ f'.bits < 32 ∧ f'.mode = f.mode := by
  obtain ⟨h1, h15⟩ := ht.size s.ahead
  obtain ⟨e, he, htook, hsmall⟩ := decodeEntry_reads ht ⟨hr, h.behind, by omega⟩ h.small k
  have hf := took_fetch15 h.stream (by rw [h.count]; exact ha)
  have hbits := bits_fetch15 f h.stream.bits
  have hcodes : f.fetch15.codes = s.codes := by rw [hf.codes_eq, h.frame]
  have hahead : f.fetch15.ahead = s.ahead := by rw [hf.value, h.value, Nat.pow_zero, Nat.div_one]
  have hfast := fastResolve_eq_lookup (ht.congr hcodes) hf.stream hbits.1 hplain hlink
  rw [hahead, lookup_congr hcodes] at hfast
  refine ⟨e, _, _, he, rfl, hfast, htook, (h.fetched hf).took htook hsmall (took_drop hf.stream (by omega)), ?_, hf.mode_eq⟩
  show _ - _ < 32
  omega

theorem availOut_copyMatch (k n : Nat) (d : Du) : (d.copyMatch k n).cur.availOut = d.cur.availOut - n := by
  unfold Du.copyMatch forRange
  have : ∀ (l : List Nat) (d : Du), (l.foldl (fun s _ => s.outPut (s.hist k)) d).cur.availOut = d.cur.availOut - l.length := by
    intro l
    induction l with
    | nil => intro d; rfl
    | cons i r ih => intro d; rw [List.foldl_cons, ih, List.length_cons]; show d.cur.availOut - 1 - _ = _; omega
  rw [this, List.length_range']

theorem setting_copyMatch (k n : Nat) (d : Du) : (d.copyMatch k n).setting = d.setting ∧ (d.copyMatch k n).ctl = d.ctl ∧
    (d.copyMatch k n).mode = d.mode ∧ (d.copyMatch k n).bits = d.bits ∧ (d.copyMatch k n).aheadBits = d.aheadBits :=
  forRange_induction (fun e : Du => e.setting = d.setting ∧ e.ctl = d.ctl ∧ e.mode = d.mode ∧ e.bits = d.bits ∧ e.aheadBits = d.aheadBits)
    0 n (fun _ d => d.outPut (d.hist k)) (fun _ _ h => h) d ⟨rfl, rfl, rfl, rfl, rfl⟩

/-- Extra bits: the slow path fetches what they need, the fast loop has them. -/
theorem Prefetched.extra {s f f' : Du} {x : Nat} (h : Prefetched s f) (hr : s.ctl = .run) (hx : x ≤ 25) (ha : x ≤ s.aheadBits)
    (hf : f.Took 0 f') (hb : x ≤ f'.bits) :
    Prefetched ((s.need x).drop x) (f'.drop x) ∧ f'.peek x = (s.need x).peek x := by
  have hready : s.Ready x := ⟨hr, h.behind, ha⟩
  have hneed := needed_need hready (.inl hx)
  have hsmall := bits_need_lt hready (.inl hx) (by have := h.small; omega)
  have htook : f.Took x (f'.drop x) := by simpa only [Nat.zero_add] using hf.trans (took_drop hf.stream hb)
  refine ⟨h.took (took_need_drop hready (.inl hx)) (show _ - _ < 8 by omega) htook, ?_⟩
  rw [peek_eq hb, peek_eq hneed.held, hf.value, hneed.took.value, h.value]

theorem Follows.of_base {s t e : Du} {p : Du × Bool} (h : Follows t e p) (ht : t.setting = s.setting) (ha : t.aheadBits ≤ s.aheadBits)
    (ho : t.cur.availOut ≤ s.cur.availOut) : Follows s e p :=
  ⟨h.ahead, h.mode, h.run, h.setting.trans ht, h.taken.trans ha, h.held, fun hp => ⟨(h.on hp).1, (h.on hp).2.trans_le ho⟩, h.off⟩

/-- The match with its distance read (43_table_decoder_fastloop.md R281, R282; 44_inflate_engine.md R328). -/
theorem follows_match {s f : Du} {len dist : Nat} (h : Prefetched s f) (hr : s.ctl = .run) (hf : f.mode = .len)
    (hb : f.bits < 32) (hlen : s.length = len) (h0 : 0 < len) (hout : len ≤ s.cur.availOut) (hdist : s.offset = dist) :
    Follows s s.ruleMatch (if 2 ^ f.wbits < dist ∨ f.cur.produced + f.whave < dist then (f.bad .invalidDistanceTooFarBack, false)
      else (f.copyMatch dist len, true)) := by
  have hfields : f.wbits = s.wbits ∧ f.cur.produced = s.cur.produced ∧ f.whave = s.whave := by rw [h.frame]; exact ⟨rfl, rfl, rfl⟩
  obtain ⟨hw, hp, hh⟩ := hfields
  rw [hw, hp, hh, ruleMatch, if_neg (by omega), hdist]
  by_cases hv : 2 ^ s.wbits < dist ∨ s.cur.produced + s.whave < dist
  · have hbad : ¬ s.distValid dist := by
      simp only [distValid, sane, Bool.not_true, Bool.false_or, Bool.and_eq_true, decide_eq_true_eq]
      omega
    rw [if_pos hbad, if_pos hv]
    exact ⟨h.bad _, rfl, hr, rfl, le_rfl, hb, (nomatch ·), fun _ => .inr rfl⟩
  · have hgood : ¬ ¬ s.distValid dist := by
      simp only [distValid, sane, Bool.not_true, Bool.false_or, Bool.and_eq_true, decide_eq_true_eq]
      omega
    rw [if_neg hgood, if_neg hv, hlen, Nat.min_eq_left hout]
    dsimp only
    rw [Nat.sub_self, if_pos rfl]
    obtain ⟨ht, hc, -, -, ha⟩ := setting_copyMatch dist len s
    obtain ⟨-, -, hfm, hfb, -⟩ := setting_copyMatch dist len f
    have hcopy := h.copyMatch dist len
    refine ⟨hcopy.regs .len _ 0 _ _ _ _ _, by rw [hfm, hf], hc.trans hr, ht, ha.le, by rw [hfb]; exact hb,
      fun _ => ⟨rfl, ?_⟩, (nomatch ·)⟩
    show (s.copyMatch dist len).cur.availOut < _
    rw [availOut_copyMatch]
    omega

/-- A distance symbol with its extra bits, and the match behind it (43_table_decoder_fastloop.md R281; 44_inflate_engine.md R326 to
R328); the fast loop has fetched the extra bits in `f'`. -/
theorem follows_symDist {s f f' : Du} {len val x : Nat} (h : Prefetched s f) (hr : s.ctl = .run) (hf : f.mode = .len)
    (hx : x ≤ 25) (ha : x ≤ s.aheadBits) (hfetch : f.Took 0 f') (hheld : x ≤ f'.bits) (hb : f'.bits < 32) (hlen : s.length = len)
    (h0 : 0 < len) (hout : len ≤ s.cur.availOut) :
    Follows s (s.symDist val x) (if 2 ^ (f'.drop x).wbits < val + f'.peek x ∨
        (f'.drop x).cur.produced + (f'.drop x).whave < val + f'.peek x then ((f'.drop x).bad .invalidDistanceTooFarBack, false)
      else ((f'.drop x).copyMatch (val + f'.peek x) len, true)) := by
  have hsym := h.regs .distext f.mode s.length val x f.length f.offset f.extra
  obtain ⟨hpre, hpeek⟩ := hsym.extra hr hx ha hfetch hheld
  have hready : Ready x { s with mode := .distext, length := s.length, offset := val, extra := x } := ⟨hr, hsym.behind, ha⟩
  have htook := took_need_drop hready (.inl hx)
  have hneed := (needed_need hready (.inl hx)).took.frame
  have hslow : s.symDist val x = ruleDistext { s with mode := .distext, length := s.length, offset := val, extra := x } := rfl
  rw [hslow, ruleDistext, needThen_of_ready hready (.inl hx)]
  generalize Du.need x { s with mode := .distext, length := s.length, offset := val, extra := x } = t at *
  have hfields : t.extra = x ∧ t.offset = val ∧ t.length = s.length ∧ t.ctl = s.ctl := by rw [hneed]; exact ⟨rfl, rfl, rfl, rfl⟩
  obtain ⟨hextra, hoffset, hlength, hctl⟩ := hfields
  dsimp only
  rw [hextra, hoffset, hpeek]
  have hmatch := follows_match (s := { t.drop x with offset := val + t.peek x, mode := .matchCopy }) (f := f'.drop x)
    (len := len) (dist := val + t.peek x)
    (hpre.regs .matchCopy f'.mode t.length (val + t.peek x) t.extra f'.length f'.offset f'.extra) (hctl.trans hr)
    (hfetch.mode_eq.trans hf) ((Nat.sub_le ..).trans_lt hb) (hlength.trans hlen) h0 (htook.availOut_eq ▸ hout) rfl
  exact hmatch.of_base htook.setting_eq (by have := htook.count; exact Nat.le_of_add_right_le this.le) htook.availOut_eq.le

/-- The distance half of a match: one round of the slow path in `DIST` (43_table_decoder_fastloop.md R281; 44_inflate_engine.md R326 to
R328). -/
theorem follows_fastDist {s f : Du} {len : Nat} (h : Prefetched s f) (hr : s.ctl = .run) (hm : s.mode = .dist) (hf : f.mode = .len)
    (ha : 28 ≤ s.aheadBits) (ht : s.CodeTable distsEntry s.distcode s.distbits) (hlen : s.length = len) (h0 : 0 < len)
    (hout : len ≤ s.cur.availOut) : Follows s (slowRound s) (f.fastDist len) := by
  have hslow : slowRound s = s.decodeEntry s.distcode s.distbits (fun here d => d.applyDist here) := by
    rw [slowRound, if_neg (by rw [hm]; decide), rule, hm]
    rfl
  obtain ⟨e, s', f', hdecode, hdrop, hfast, htook, hpre, hbits, hfm⟩ := h.reads hr (by omega) ht (fun here d => d.applyDist here)
    linkDist_distsEntry linkDist_of_isLink
  obtain ⟨h1, h15⟩ := ht.size s.ahead
  have hcount := htook.count
  have hsel : f.fetch15.distcode = s.distcode ∧ f.fetch15.distbits = s.distbits := by
    rw [(took_fetch15 h.stream (by rw [h.count]; omega)).frame, h.frame]
    exact ⟨rfl, rfl⟩
  obtain ⟨v, n, hn, hv⟩ := ht.alphabet_le distsEntry_mod entryBits_distsEntry s.ahead
  rw [hv] at hdrop hdecode hfast
  rw [hslow, hdecode, fastDist]
  dsimp only
  rw [hsel.1, hsel.2, hfast]
  dsimp only
  rcases distsEntry_cases v n with ⟨x, hx, val, hval, he⟩ | he
  · obtain ⟨ho, hbits', hval'⟩ := entry_fields (show 16 + x < 256 by omega) hn hval
    have hset : bitSet (16 + x) 4 = true := by simp only [bitSet, decide_eq_true_eq]; omega
    rw [he, hbits'] at hdrop
    rw [he, applyDist_base hn e (by omega) hval, hdrop, ho, if_pos hset, hval', show (16 + x) % 16 = x by omega]
    have hfield : s'.length = s.length ∧ s'.mode = s.mode := by rw [htook.frame]; exact ⟨rfl, rfl⟩
    have h1 := took_fetchIf (n := x) hpre.stream (by omega) (by rw [hpre.count]; omega)
    have h2 := took_fetchIf (n := x) h1.stream (by omega) (by have := h1.count; have := hpre.count; omega)
    exact (follows_symDist hpre (htook.ctl_eq.trans hr) (hfm.trans hf) (by omega) (by omega) (h1.trans h2)
      (by have := le_bits_fetchIf x f'; have := le_bits_fetchIf x (f'.fetchIf x); omega)
      (bits_fetchIf_lt _ (bits_fetchIf_lt f' hbits (by omega)) (by omega)) (hfield.1.trans hlen) h0
      (by rw [htook.availOut_eq]; exact hout)).of_base htook.setting_eq (by omega) htook.availOut_eq.le
  · obtain ⟨ho, hbits', -⟩ := entry_fields (op := 64) (val := 0) (by decide) hn (by decide)
    rw [he, hbits'] at hdrop
    rw [he, applyDist_invalid hn, hdrop, ho, if_neg (by decide)]
    exact ⟨hpre.bad _, rfl, htook.ctl_eq.trans hr, htook.setting_eq, by show s'.aheadBits ≤ _; omega, hbits, (nomatch ·), fun _ => .inr rfl⟩

/-- Some rounds of the slow path, at least one, lead where the fast loop has come. -/
def Reached (s : Du) (p : Du × Bool) : Prop := ∃ r, 1 ≤ r ∧ Follows s (slowRound^[r] s) p

theorem Follows.reached {s : Du} {p : Du × Bool} (h : Follows s (slowRound s) p) : Reached s p := ⟨1, le_rfl, h⟩

/-- A length symbol with its extra bits; the match behind it takes a second round of the slow path (43_table_decoder_fastloop.md R281;
44_inflate_engine.md R325). -/
theorem reached_symLen {s s' f : Du} {val x : Nat} (h : Prefetched s' f) (hr : s'.ctl = .run) (hf : f.mode = .len)
    (hb : f.bits < 32) (hx : x ≤ 5) (hv : 3 ≤ val ∧ val + 2 ^ x ≤ 259) (ha : 33 ≤ s'.aheadBits)
    (ht : s'.CodeTable distsEntry s'.distcode s'.distbits) (hout : 258 ≤ s'.cur.availOut) (hslow : slowRound s = s'.symLen val x)
    (htab : s'.setting = s.setting) (haa : s'.aheadBits ≤ s.aheadBits) (ho : s'.cur.availOut ≤ s.cur.availOut) :
    Reached s (fastDist (val + (f.fetchIf x).peek x) ((f.fetchIf x).drop x)) := by
  have hsym := h.regs .lenext f.mode val s'.offset x f.length f.offset f.extra
  have hfetch := took_fetchIf (n := x) h.stream (by omega) (by rw [h.count]; omega)
  obtain ⟨hpre, hpeek⟩ := hsym.extra hr (by omega) (show x ≤ s'.aheadBits by omega) hfetch (by have := le_bits_fetchIf x f; omega)
  have hready : Ready x { s' with mode := .lenext, length := val, offset := s'.offset, extra := x } :=
    ⟨hr, hsym.behind, show x ≤ s'.aheadBits by omega⟩
  have htook := took_need_drop hready (.inl (by omega))
  have hneed := (needed_need hready (.inl (by omega))).took.frame
  have hrule : s'.symLen val x = ruleLenext { s' with mode := .lenext, length := val, offset := s'.offset, extra := x } := rfl
  rw [hrule, ruleLenext, needThen_of_ready hready (.inl (by omega))] at hslow
  generalize Du.need x { s' with mode := .lenext, length := val, offset := s'.offset, extra := x } = t at *
  have hfields : t.extra = x ∧ t.length = val ∧ t.ctl = s'.ctl := by rw [hneed]; exact ⟨rfl, rfl, rfl⟩
  obtain ⟨hextra, hlength, hctl⟩ := hfields
  dsimp only at hslow
  rw [hextra, hlength] at hslow
  have hcount : (t.drop x).aheadBits + x = s'.aheadBits := htook.count
  have hbound : t.peek x < 2 ^ x := Nat.mod_lt _ (Nat.two_pow_pos x)
  have hcode : ({ t.drop x with length := val + t.peek x, mode := .dist } : Du).CodeTable distsEntry t.distcode t.distbits := by
    rw [hneed]
    exact ht.congr rfl
  have hdist := follows_fastDist (s := { t.drop x with length := val + t.peek x, mode := .dist }) (f := (f.fetchIf x).drop x)
    (len := val + t.peek x)
    (hpre.regs .dist (f.fetchIf x).mode (val + t.peek x) t.offset t.extra (f.fetchIf x).length (f.fetchIf x).offset (f.fetchIf x).extra)
    (hctl.trans hr) rfl (hfetch.mode_eq.trans hf) (show 28 ≤ (t.drop x).aheadBits by omega) hcode rfl
    (by omega) (show _ ≤ (t.drop x).cur.availOut by rw [htook.availOut_eq]; show _ ≤ s'.cur.availOut; omega)
  rw [hpeek]
  refine ⟨2, by decide, ?_⟩
  rw [Function.iterate_succ_apply, Function.iterate_one, hslow]
  exact hdist.of_base (htook.setting_eq.trans htab) (show (t.drop x).aheadBits ≤ _ by omega)
    (htook.availOut_eq.le.trans ho)

/-- A round of the fast loop (43_table_decoder_fastloop.md R281). -/
theorem reached_fastRound {s f : Du} (h : Prefetched s f) (hr : s.ctl = .run) (hm : s.mode = .len) (hf : f.mode = .len)
    (ha : 48 ≤ s.aheadBits) (hout : 258 ≤ s.cur.availOut) (hl : s.CodeTable lensEntry s.lencode s.lenbits)
    (hd : s.CodeTable distsEntry s.distcode s.distbits) : Reached s f.fastRound := by
  have hslow : slowRound s = s.decodeEntry s.lencode s.lenbits (fun here d => d.applyLl here) := if_pos hm
  obtain ⟨e, s', f', hdecode, hdrop, hfast, htook, hpre, hbits, hfm⟩ := h.reads hr (by omega) hl (fun here d => d.applyLl here)
    linkLl_lensEntry linkLl_of_isLink
  obtain ⟨h1, h15⟩ := hl.size s.ahead
  have hcount := htook.count
  have hsel : f.fetch15.lencode = s.lencode ∧ f.fetch15.lenbits = s.lenbits := by
    rw [(took_fetch15 h.stream (by rw [h.count]; omega)).frame, h.frame]
    exact ⟨rfl, rfl⟩
  have hrun := htook.ctl_eq.trans hr
  have hflen := hfm.trans hf
  have hroom : 258 ≤ s'.cur.availOut := htook.availOut_eq ▸ hout
  obtain ⟨v, n, hn, hv⟩ := hl.alphabet_le lensEntry_mod entryBits_lensEntry s.ahead
  rw [hv] at hdrop hdecode hfast
  rw [hdecode] at hslow
  rw [fastRound]
  dsimp only
  rw [hsel.1, hsel.2, hfast]
  dsimp only
  rcases lensEntry_cases v n with ⟨val, hval, he⟩ | he | ⟨x, hx, val, hval3, hval, he⟩ | he
  · obtain ⟨ho, hbits', hval'⟩ := entry_fields (op := 0) (by decide) hn (show val < 65536 by omega)
    rw [he, hbits'] at hdrop
    rw [he, applyLl_literal hn e (by omega), hdrop] at hslow
    rw [he, ho, if_pos rfl, hval']
    have hlit : s'.symLit val = { s'.outPut (byteOf val) with length := val, mode := .len } := if_neg (by show ¬ s'.cur.availOut = 0; omega)
    refine Follows.reached (hslow ▸ hlit ▸ ?_)
    refine ⟨(hpre.outPut (byteOf val)).regs .len f'.mode val _ _ f'.length f'.offset f'.extra, hflen.symm, hrun, htook.setting_eq,
      show s'.aheadBits ≤ _ by omega, hbits, fun _ => ⟨rfl, ?_⟩, (nomatch ·)⟩
    have := htook.availOut_eq
    show s'.cur.availOut - 1 < _
    omega
  · obtain ⟨ho, hbits', -⟩ := entry_fields (op := 96) (val := 0) (by decide) hn (by decide)
    rw [he, hbits'] at hdrop
    rw [he, applyLl_endOfBlock hn, hdrop] at hslow
    rw [he, ho, if_neg (by decide), if_neg (by decide), if_pos (by decide)]
    exact Follows.reached (hslow ▸ ⟨hpre.regs .type .type 0 _ _ f'.length f'.offset f'.extra, rfl, hrun, htook.setting_eq,
      show s'.aheadBits ≤ _ by omega, hbits, (nomatch ·), fun _ => .inl rfl⟩)
  · have hsmall : val < 65536 := (Nat.le_of_add_right_le hval).trans_lt (by decide)
    obtain ⟨ho, hbits', hval'⟩ := entry_fields (show 16 + x < 256 by omega) hn hsmall
    have hset : bitSet (16 + x) 4 = true := by simp only [bitSet, decide_eq_true_eq]; omega
    rw [he, hbits'] at hdrop
    rw [he, applyLl_base hn e (by omega) hsmall, hdrop] at hslow
    rw [he, ho, if_neg (by omega), if_pos hset, hval', show (16 + x) % 16 = x by omega]
    have hcode : s'.CodeTable distsEntry s'.distcode s'.distbits := by
      have := htook.frame
      rw [this]
      exact hd.congr rfl
    exact reached_symLen hpre hrun hflen hbits hx ⟨hval3, hval⟩ (by omega) hcode hroom hslow htook.setting_eq (by omega) htook.availOut_eq.le
  · obtain ⟨ho, hbits', -⟩ := entry_fields (op := 64) (val := 0) (by decide) hn (by decide)
    rw [he, hbits'] at hdrop
    rw [he, applyLl_invalid hn, hdrop] at hslow
    rw [he, ho, if_neg (by decide), if_neg (by decide), if_neg (by decide)]
    exact Follows.reached (hslow ▸ ⟨(hpre.regs s'.mode f'.mode 0 _ _ f'.length f'.offset f'.extra).bad _, rfl, hrun, htook.setting_eq,
      show s'.aheadBits ≤ _ by omega, hbits, (nomatch ·), fun _ => .inr rfl⟩)

/-! ## The loop -/

theorem fastReady_iff (d : Du) : d.fastReady = true ↔ 6 ≤ d.cur.availIn ∧ 258 ≤ d.cur.availOut := by
  simp only [fastReady, Bool.and_eq_true, decide_eq_true_eq]

theorem codeTables_congr {s e : Du} (h : e.setting = s.setting)
    (hs : s.CodeTable lensEntry s.lencode s.lenbits ∧ s.CodeTable distsEntry s.distcode s.distbits) :
    e.CodeTable lensEntry e.lencode e.lenbits ∧ e.CodeTable distsEntry e.distcode e.distbits := by
  simp only [setting, Prod.mk.injEq] at h
  obtain ⟨hcodes, hlencode, hlenbits, hdistcode, hdistbits, -⟩ := h
  rw [hlencode, hlenbits, hdistcode, hdistbits]
  exact ⟨hs.1.congr hcodes, hs.2.congr hcodes⟩

/-- Where the fast loop ends: in another state, or without the input or the room for a further round. -/
structure Finished (s e f : Du) : Prop where
  ahead : Prefetched e f
  mode  : e.mode = f.mode
  run   : e.ctl = .run
  setting : e.setting = s.setting
  taken : e.aheadBits ≤ s.aheadBits
  held  : f.bits < 32
  ended : e.mode = .type ∨ e.mode = .bad ∨ e.mode = .len ∧ (f.cur.availIn < 6 ∨ f.cur.availOut < 258)

theorem finished_fastLoop : ∀ (fuel : Nat) {s f : Du}, Prefetched s f → s.ctl = .run → s.mode = .len → f.mode = .len →
    f.fastReady = true → f.cur.availOut < fuel →
    s.CodeTable lensEntry s.lencode s.lenbits ∧ s.CodeTable distsEntry s.distcode s.distbits →
    ∃ r, 1 ≤ r ∧ Finished s (slowRound^[r] s) (fastLoop fuel f)
  | 0, _, _, _, _, _, _, _, hfuel, _ => absurd hfuel (Nat.not_lt_zero _)
  | fuel + 1, s, f, h, hr, hm, hf, hready, hfuel, ht => by
    obtain ⟨hin, hout⟩ := (fastReady_iff f).1 hready
    have hahead : 48 ≤ s.aheadBits := by rw [← h.count, aheadBits]; omega
    obtain ⟨r, hr1, hround⟩ := reached_fastRound h hr hm hf hahead (h.availOut_eq ▸ hout) ht.1 ht.2
    rw [fastLoop]
    generalize f.fastRound = p at hround
    obtain ⟨f', go⟩ := p
    cases go with
    | false =>
      exact ⟨r, hr1, hround.ahead, hround.mode, hround.run, hround.setting, hround.taken, hround.held, (hround.off rfl).elim .inl fun hb => .inr (.inl hb)⟩
    | true =>
      obtain ⟨hlen, hless⟩ := hround.on rfl
      have hroom := hround.ahead.availOut_eq
      dsimp only at hroom ⊢
      split
      · rename_i hready'
        obtain ⟨r', hr', hend⟩ := finished_fastLoop fuel hround.ahead hround.run hlen (hround.mode.symm.trans hlen) hready'
          (by dsimp only; have := h.availOut_eq; omega) (codeTables_congr hround.setting ht)
        refine ⟨r' + r, by omega, ?_⟩
        rw [Function.iterate_add_apply]
        exact ⟨hend.ahead, hend.mode, hend.run, hend.setting.trans hround.setting, hend.taken.trans hround.taken, hend.held, hend.ended⟩
      · rename_i hready'
        rw [fastReady_iff] at hready'
        exact ⟨r, hr1, hround.ahead, hround.mode, hround.run, hround.setting, hround.taken, hround.held, .inr (.inr ⟨hlen, by omega⟩)⟩

end Du

/-- Settles O58: the fast loop runs on a state that has fetched ahead of need (`Du.Prefetched`), each of its rounds leaves what one or two
rounds of the slow path leave (`Du.reached_fastRound`), and `return_unused` gives back what was fetched ahead
(`Du.Prefetched.returnUnused`). -/
theorem fastLoopIsTheSlowPath : Obligations.FastLoopIsTheSlowPath := by
  intro d hr hm hready hs hb ht
  have htables := ht.symbols (by rw [hm]; decide)
  obtain ⟨r, hr1, hend⟩ := Du.finished_fastLoop (d.cur.availOut + 1) (Du.prefetched_refl hs hb) hr hm hm hready (Nat.lt_succ_self _) htables
  have hfast : d.inflateFast = _ := hend.ahead.returnUnused
  have htaken := hend.taken
  have hheld := hend.held
  have hcount := hend.ahead.count
  have hmode := hend.mode
  have hout := hend.ahead.availOut_eq
  have hended := hend.ended
  have hcur := hend.ahead.behind.cursor
  have hsmall := hend.ahead.small
  have hinp : (slowRound^[r] d).cur.inp = d.cur.inp := congrArg (fun t => t.2.2.2.2.2) hend.setting
  generalize Du.fastLoop (d.cur.availOut + 1) d = f at *
  refine ⟨?_, ⟨r, f.length, f.offset, f.extra, hr1, ?_⟩, ?_, ?_, ?_, ?_, ?_, fun h => ?_⟩
  · rw [Du.rule, hm]
    exact if_pos hready
  all_goals rw [hfast]
  · rw [← hmode]
  · show f.mode ∈ _
    rw [← hmode]
    simp only [List.mem_cons, List.not_mem_nil]
    tauto
  · exact hend.run
  · exact hsmall
  · exact ⟨hend.ahead.behind.hold, hend.ahead.behind.bits, hend.ahead.behind.cursor⟩
  · show _ ≤ (slowRound^[r] d).cur.nextIn
    have := hs.cursor
    simp only [Du.aheadBits, Cursor.availIn, hinp] at htaken hcur
    omega
  · rw [hfast] at h
    replace h : f.mode = .len := h
    rw [← hmode] at h
    show (slowRound^[r] d).cur.availIn < _ ∨ (slowRound^[r] d).cur.availOut < _
    simp only [Du.aheadBits] at hcount
    rcases hended with he | he | ⟨-, he⟩
    · rw [h] at he; cases he
    · rw [h] at he; cases he
    · omega

end Sys2Proof.Machine
end

section
/-! PROOF. Codes as places in the code space (30_encoding.md R110, R113; 43_table_decoder_fastloop.md R273): the 15 bits that stand first in
the stream, the first one highest, are a place in a space of 2^15 units; a code takes an interval there, and its bits in the stream's
order are the reversed place. -/

namespace Sys2Proof.Laws

open Claims

/-! ## Reversed numbers -/

theorem biReverse_succ (c l : Nat) : biReverse c (l + 1) = c % 2 * 2 ^ l + biReverse (c / 2) l := rfl

theorem biReverse_mod : ∀ (l c : Nat), biReverse (c % 2 ^ l) l = biReverse c l
  | 0, _ => rfl
  | l + 1, c => by
    rw [biReverse_succ, biReverse_succ, Nat.pow_succ', Nat.mod_mul_right_mod, Nat.mod_mul_right_div_self, biReverse_mod l]

/-- Fewer bits read: the first bits of the code. -/
theorem biReverse_shorter (b l : Nat) : ∀ k, biReverse b l = biReverse b (l + k) / 2 ^ k := by
  intro k
  induction l generalizing b with
  | zero => rw [Nat.zero_add, Nat.div_eq_of_lt (biReverse_lt ..)]; rfl
  | succ l ih =>
    rw [show l + 1 + k = (l + k) + 1 by omega, biReverse_succ, biReverse_succ, ih, Nat.pow_add, ← Nat.mul_assoc, Nat.mul_comm _ (2 ^ k),
      Nat.mul_add_div (Nat.two_pow_pos k)]

/-- The low bits of a reversed number are its reversed top bits. -/
theorem biReverse_mod_shorter (c l k : Nat) : biReverse c (l + k) % 2 ^ l = biReverse (c % 2 ^ (l + k) / 2 ^ k) l := by
  rw [← biReverse_biReverse (l + k), ← biReverse_shorter, biReverse_biReverse]

theorem biReverse_mul_two_pow (c l : Nat) : ∀ k, biReverse (c * 2 ^ k) (l + k) = biReverse c l
  | 0 => by rw [Nat.pow_zero, Nat.mul_one, Nat.add_zero]
  | k + 1 => by
    rw [← Nat.add_assoc, biReverse_succ, Nat.pow_succ, ← Nat.mul_assoc, Nat.mul_mod_left, Nat.mul_div_cancel _ (by decide), Nat.zero_mul,
      Nat.zero_add, biReverse_mul_two_pow c l k]

theorem biReverse_inj {a b l : Nat} (ha : a < 2 ^ l) (hb : b < 2 ^ l) : biReverse a l = biReverse b l ↔ a = b := by
  refine ⟨fun h => ?_, fun h => h ▸ rfl⟩
  have := congrArg (biReverse · l) h
  rwa [biReverse_biReverse, biReverse_biReverse, Nat.mod_eq_of_lt ha, Nat.mod_eq_of_lt hb] at this

end Sys2Proof.Laws

namespace Sys2Proof.Machine

open Laws Claims

/-! ## The next reversed code (43_table_decoder_fastloop.md R273) -/

theorem nextHuff_mod : ∀ (l h : Nat), nextHuff (h % 2 ^ l) l = nextHuff h l
  | 0, _ => rfl
  | l + 1, h => by
    have hdvd : 2 ^ l ∣ 2 ^ (l + 1) := Nat.pow_dvd_pow 2 (Nat.le_succ l)
    have htop : h % 2 ^ (l + 1) / 2 ^ l % 2 = h / 2 ^ l % 2 := by
      rw [Nat.pow_succ, Nat.mod_mul_right_div_self, Nat.mod_mod]
    rw [nextHuff, nextHuff, htop, Nat.mod_mod_of_dvd _ hdvd, ← nextHuff_mod l (h % 2 ^ (l + 1)), Nat.mod_mod_of_dvd _ hdvd, nextHuff_mod l]

theorem nextHuff_biReverse : ∀ (l c : Nat), nextHuff (biReverse c l) l = biReverse (c + 1) l
  | 0, _ => rfl
  | l + 1, c => by
    have hlt := biReverse_lt (c / 2) l
    have hbit : biReverse c (l + 1) / 2 ^ l % 2 = c % 2 := by
      rw [biReverse_succ, Nat.mul_comm, Nat.mul_add_div (Nat.two_pow_pos l), Nat.div_eq_of_lt hlt, Nat.add_zero, Nat.mod_mod]
    have hrest : biReverse c (l + 1) % 2 ^ l = biReverse (c / 2) l := by
      rw [biReverse_succ, Nat.mul_comm, Nat.mul_add_mod, Nat.mod_eq_of_lt hlt]
    rw [nextHuff, hbit, biReverse_succ (c + 1)]
    split
    · rw [← nextHuff_mod, hrest, nextHuff_biReverse l, show (c + 1) % 2 = 0 by omega, show (c + 1) / 2 = c / 2 + 1 by omega, Nat.zero_mul,
        Nat.zero_add]
    · rw [hrest, show (c + 1) % 2 = 1 by omega, show (c + 1) / 2 = c / 2 by omega, Nat.one_mul, Nat.add_comm]

/-! ## Places -/

/-- The place in the code space of the bits that stand first in `b`. -/
def place (b : Nat) : Nat := biReverse b 15

theorem place_lt (b : Nat) : place b < 2 ^ 15 := biReverse_lt ..

/-- The code of `l` bits that stands first in `b` (30_encoding.md R113). -/
theorem codeRead_eq_place (b : Nat) {l : Nat} (hl : l ≤ 15) : codeRead b l = place b / 2 ^ (15 - l) := by
  rw [codeRead_eq_biReverse, biReverse_shorter b l (15 - l), Nat.add_sub_cancel' hl, place]

/-- The code of `l` bits at place `c`, in the stream's order. -/
def bitsAt (c : Nat) : Nat := biReverse c 15

theorem bitsAt_mod {c l : Nat} (hc : c < 2 ^ 15) (hl : l ≤ 15) : bitsAt c % 2 ^ l = biReverse (c / 2 ^ (15 - l)) l := by
  have h := biReverse_mod_shorter c l (15 - l)
  rwa [Nat.add_sub_cancel' hl, Nat.mod_eq_of_lt hc] at h

theorem bitsAt_place (b : Nat) : bitsAt (place b) = b % 2 ^ 15 := biReverse_biReverse ..

theorem div_lt_two_pow {c l : Nat} (hc : c < 2 ^ 15) (hl : l ≤ 15) : c / 2 ^ (15 - l) < 2 ^ l := by
  rw [Nat.div_lt_iff_lt_mul (Nat.two_pow_pos _), ← Nat.pow_add, Nat.add_sub_cancel' hl]
  exact hc

/-- Two bit strings agree on their first `l` bits when their places agree on their top `l` bits. -/
theorem mod_eq_bitsAt_mod_iff (b : Nat) {c l : Nat} (hc : c < 2 ^ 15) (hl : l ≤ 15) :
    b % 2 ^ l = bitsAt c % 2 ^ l ↔ place b / 2 ^ (15 - l) = c / 2 ^ (15 - l) := by
  have hb : b % 2 ^ l = biReverse (place b / 2 ^ (15 - l)) l := by
    rw [← bitsAt_mod (place_lt b) hl, bitsAt_place, Nat.mod_mod_of_dvd _ (Nat.pow_dvd_pow 2 hl)]
  rw [hb, bitsAt_mod hc hl, biReverse_inj (div_lt_two_pow (place_lt b) hl) (div_lt_two_pow hc hl)]

theorem bitsAt_of_dvd {c l : Nat} (hl : l ≤ 15) (hd : 2 ^ (15 - l) ∣ c) : bitsAt c = biReverse (c / 2 ^ (15 - l)) l := by
  have h := biReverse_mul_two_pow (c / 2 ^ (15 - l)) l (15 - l)
  rwa [Nat.div_mul_cancel hd, Nat.add_sub_cancel' hl] at h

theorem bitsAt_lt {c l : Nat} (hl : l ≤ 15) (hd : 2 ^ (15 - l) ∣ c) : bitsAt c < 2 ^ l := by
  rw [bitsAt_of_dvd hl hd]
  exact biReverse_lt ..

/-- The interval of a code of `l` bits at place `c` holds the bit strings that begin with it. -/
theorem mod_eq_bitsAt_iff (b : Nat) {c l : Nat} (hc : c < 2 ^ 15) (hl : l ≤ 15) (hd : 2 ^ (15 - l) ∣ c) :
    b % 2 ^ l = bitsAt c ↔ c ≤ place b ∧ place b < c + 2 ^ (15 - l) := by
  rw [← Nat.mod_eq_of_lt (bitsAt_lt hl hd), mod_eq_bitsAt_mod_iff b hc hl]
  obtain ⟨k, rfl⟩ := hd
  have hp := Nat.two_pow_pos (15 - l)
  rw [Nat.mul_div_cancel_left _ hp, Nat.div_eq_iff hp, Nat.mul_comm k, Nat.mul_comm (2 ^ (15 - l)) k]
  omega

theorem nextHuff_bitsAt {c l : Nat} (hl : l ≤ 15) (hd : 2 ^ (15 - l) ∣ c) : nextHuff (bitsAt c) l = bitsAt (c + 2 ^ (15 - l)) := by
  rw [bitsAt_of_dvd hl hd, nextHuff_biReverse, bitsAt_of_dvd hl (Nat.dvd_add hd dvd_rfl), Nat.add_div_right _ (Nat.two_pow_pos _)]

end Sys2Proof.Machine
end

section
/-! PROOF. The canonical order of the symbols and the numbers that `inflate_table` takes from the histogram (43_table_decoder_fastloop.md R271,
R272): `WORK` lists the coded symbols by length and then by number. -/

namespace Sys2Proof.Machine

open Laws Claims

/-! ## The order -/

/-- The code length of symbol `w`. -/
abbrev lenOf (lens : List Nat) (w : Nat) : Nat := lens.getD w 0

/-- The symbols that have a code. -/
def coded (lens : List Nat) : Finset Nat := (Finset.range lens.length).filter fun w => lenOf lens w ≠ 0

/-- The coded symbols whose code comes before that of `w` (30_encoding.md R113). -/
def earlier (lens : List Nat) (w : Nat) : Finset Nat :=
  (coded lens).filter fun v => lenOf lens v < lenOf lens w ∨ lenOf lens v = lenOf lens w ∧ v < w

/-- The index of `w` in `WORK`. -/
def rank (lens : List Nat) (w : Nat) : Nat := (earlier lens w).card

variable {lens : List Nat} {v w : Nat}

theorem mem_coded : w ∈ coded lens ↔ w < lens.length ∧ lenOf lens w ≠ 0 := by rw [coded, Finset.mem_filter, Finset.mem_range]

theorem mem_earlier : v ∈ earlier lens w ↔ v ∈ coded lens ∧ (lenOf lens v < lenOf lens w ∨ lenOf lens v = lenOf lens w ∧ v < w) := by
  rw [earlier, Finset.mem_filter]

theorem rank_lt_of_earlier (h : v ∈ earlier lens w) : rank lens v < rank lens w := by
  obtain ⟨hv, hlt⟩ := mem_earlier.1 h
  refine Finset.card_lt_card (Finset.ssubset_iff_of_subset (fun u hu => ?_) |>.2 ⟨v, h, fun hc => ?_⟩)
  · obtain ⟨hu, hult⟩ := mem_earlier.1 hu
    exact mem_earlier.2 ⟨hu, by omega⟩
  · have := (mem_earlier.1 hc).2
    omega

theorem rank_lt (hw : w ∈ coded lens) : rank lens w < (coded lens).card :=
  Finset.card_lt_card (Finset.ssubset_iff_of_subset (Finset.filter_subset ..) |>.2 ⟨w, hw, fun hc => by
    have := (mem_earlier.1 hc).2
    omega⟩)

theorem earlier_or_eq_or (hv : v ∈ coded lens) (hw : w ∈ coded lens) : v ∈ earlier lens w ∨ v = w ∨ w ∈ earlier lens v := by
  simp only [mem_earlier, hv, hw, true_and]
  omega

theorem mem_earlier_iff_rank_lt (hv : v ∈ coded lens) (hw : w ∈ coded lens) : v ∈ earlier lens w ↔ rank lens v < rank lens w := by
  refine ⟨rank_lt_of_earlier, fun h => ?_⟩
  rcases earlier_or_eq_or hv hw with he | rfl | he
  · exact he
  · exact absurd h (lt_irrefl _)
  · exact absurd (rank_lt_of_earlier he) (Nat.lt_asymm h)

theorem rank_injOn (lens : List Nat) : Set.InjOn (rank lens) (coded lens) := by
  intro v hv w hw h
  rcases earlier_or_eq_or hv hw with he | he | he
  · exact absurd h (rank_lt_of_earlier he).ne
  · exact he
  · exact absurd h (rank_lt_of_earlier he).ne'

theorem exists_rank_eq {j : Nat} (hj : j < (coded lens).card) : ∃ w ∈ coded lens, rank lens w = j := by
  have himage : (coded lens).image (rank lens) = Finset.range (coded lens).card :=
    Finset.eq_of_subset_of_card_le (fun i hi => by
      obtain ⟨w, hw, rfl⟩ := Finset.mem_image.1 hi
      exact Finset.mem_range.2 (rank_lt hw)) (by rw [Finset.card_range, Finset.card_image_of_injOn (rank_injOn lens)])
  exact Finset.mem_image.1 (himage ▸ Finset.mem_range.2 hj)

/-! ## The histogram -/

theorem lens_eq_map (lens : List Nat) : lens = (List.range lens.length).map (lenOf lens) := by
  refine List.ext_getElem (by simp) fun i hi _ => ?_
  simp [lenOf, hi]

theorem count_eq_card (lens : List Nat) (l : Nat) : lens.count l = ((Finset.range lens.length).filter fun w => lenOf lens w = l).card := by
  conv_lhs => rw [lens_eq_map lens, List.count, List.countP_map, List.countP_eq_length_filter, length_filter_range]
  rw [Finset.card_filter]
  simp

/-- How many symbols have a code shorter than `l`. -/
def shorter (lens : List Nat) (l : Nat) : Nat := ((coded lens).filter fun w => lenOf lens w < l).card

theorem shorter_one (lens : List Nat) : shorter lens 1 = 0 := by
  rw [shorter, Finset.card_eq_zero, Finset.filter_eq_empty_iff]
  exact fun w hw => by have := (mem_coded.1 hw).2; omega

theorem shorter_succ (lens : List Nat) {l : Nat} (hl : 1 ≤ l) : shorter lens (l + 1) = shorter lens l + lens.count l := by
  rw [shorter, shorter, count_eq_card, ← Finset.card_union_of_disjoint]
  · congr 1
    ext w
    simp only [Finset.mem_filter, Finset.mem_union, mem_coded, Finset.mem_range]
    omega
  · rw [Finset.disjoint_left]
    intro w hw hw'
    have := (Finset.mem_filter.1 hw).2
    have := (Finset.mem_filter.1 hw').2
    omega

theorem offsets_spec (lens : List Nat) : (offsets (countLens lens)).length = 16 ∧
    ∀ l, 1 ≤ l → l ≤ 15 → (offsets (countLens lens)).getD l 0 = shorter lens l := by
  have key : ∀ m ≤ 14, ((List.range' 1 m).foldl (fun o l => o ++ [o.getD l 0 + (countLens lens).getD l 0]) [0, 0]).length = m + 2 ∧
      ∀ l, 1 ≤ l → l ≤ m + 1 → ((List.range' 1 m).foldl (fun o l => o ++ [o.getD l 0 + (countLens lens).getD l 0]) [0, 0]).getD l 0 =
        shorter lens l := by
    intro m
    induction m with
    | zero =>
      refine fun _ => ⟨rfl, fun l h1 hl => ?_⟩
      obtain rfl : l = 1 := by omega
      exact (shorter_one lens).symm
    | succ m ih =>
      intro hm
      obtain ⟨hlen, hval⟩ := ih (by omega)
      rw [List.range'_concat, List.foldl_append, List.foldl_cons, List.foldl_nil]
      generalize (List.range' 1 m).foldl _ _ = o at hlen hval
      refine ⟨by rw [List.length_append, hlen]; rfl, fun l h1 hl => ?_⟩
      rcases Nat.lt_or_ge l (m + 2) with h | h
      · rw [List.getD_append _ _ _ _ (by omega), hval l h1 (by omega)]
      · obtain rfl : l = m + 2 := by omega
        rw [List.getD_append_right _ _ _ _ (by omega), hlen, Nat.sub_self, show 1 + 1 * m = m + 1 by omega, List.getD_cons_zero,
          hval _ (by omega) le_rfl, getD_countLens lens (by omega)]
        exact (shorter_succ lens (by omega)).symm
  obtain ⟨hlen, hval⟩ := key 14 le_rfl
  exact ⟨hlen, fun l h1 hl => hval l h1 hl⟩

/-! ## The sort -/

/-- The symbols below `k` with a code of length `l`. -/
def sameBelow (lens : List Nat) (k l : Nat) : Nat := ((Finset.range k).filter fun v => lenOf lens v = l).card

theorem sameBelow_succ (lens : List Nat) (k l : Nat) : sameBelow lens (k + 1) l = sameBelow lens k l + if lenOf lens k = l then 1 else 0 := by
  rw [sameBelow, Finset.range_add_one, Finset.filter_insert]
  split
  · rw [Finset.card_insert_of_notMem (by simp)]
    rfl
  · rfl

theorem rank_eq (hw : w ∈ coded lens) : rank lens w = shorter lens (lenOf lens w) + sameBelow lens w (lenOf lens w) := by
  have hpos := (mem_coded.1 hw).2
  have hlt := (mem_coded.1 hw).1
  rw [shorter, sameBelow, ← Finset.card_union_of_disjoint]
  · rw [rank]
    congr 1
    ext v
    simp only [mem_earlier, Finset.mem_filter, Finset.mem_union, mem_coded, Finset.mem_range]
    omega
  · rw [Finset.disjoint_left]
    intro u hu hu'
    have := (Finset.mem_filter.1 hu).2
    have := (Finset.mem_filter.1 hu').2
    omega

/-- The sort after the symbols below `k`. -/
structure Sorted (lens : List Nat) (k : Nat) (p : Mem Word16 × List Nat) : Prop where
  wf     : Mem.wf Du.workSize p.1 = true
  length : p.2.length = 16
  next   : ∀ l, 1 ≤ l → l ≤ 15 → p.2.getD l 0 = shorter lens l + sameBelow lens k l
  placed : ∀ v ∈ coded lens, v < k → Mem.rd Du.workSize p.1 (rank lens v) = word16Of v

/-- One symbol sorted (43_table_decoder_fastloop.md R272). -/
def sortSymbol (lens : List Nat) (sym : Nat) (p : Mem Word16 × List Nat) : Mem Word16 × List Nat :=
  if lens.getD sym 0 = 0 then p
  else (Mem.wr Du.workSize p.1 (p.2.getD (lens.getD sym 0) 0) (word16Of sym),
    p.2.set (lens.getD sym 0) (p.2.getD (lens.getD sym 0) 0 + 1))

theorem sortSymbols_eq (lens count : List Nat) (work : Mem Word16) :
    sortSymbols lens count work = (forRange 0 lens.length (sortSymbol lens) (work, offsets count)).1 := rfl

theorem card_coded_le (lens : List Nat) : (coded lens).card ≤ lens.length := by
  conv_rhs => rw [← Finset.card_range lens.length]
  exact Finset.card_filter_le _ _

theorem Sorted.step (h15 : ∀ l ∈ lens, l ≤ 15) (h288 : lens.length ≤ 288) {k : Nat} (hk : k < lens.length) {p : Mem Word16 × List Nat}
    (h : Sorted lens k p) : Sorted lens (k + 1) (sortSymbol lens k p) := by
  have hlen15 : lenOf lens k ≤ 15 := by
    rw [lenOf, List.getD_eq_getElem _ _ hk]
    exact h15 _ (List.getElem_mem hk)
  unfold sortSymbol
  split
  · rename_i h0
    refine ⟨h.wf, h.length, fun l h1 hl => ?_, fun v hv hvk => h.placed v hv ?_⟩
    · rw [sameBelow_succ, if_neg (by rw [lenOf, h0]; omega), Nat.add_zero, h.next l h1 hl]
    · rcases Nat.lt_succ_iff_lt_or_eq.1 hvk with hlt | rfl
      · exact hlt
      · exact absurd h0 (mem_coded.1 hv).2
  · rename_i h0
    have hcoded : k ∈ coded lens := mem_coded.2 ⟨hk, h0⟩
    have hoff : p.2.getD (lenOf lens k) 0 = rank lens k := by rw [h.next _ (Nat.pos_of_ne_zero h0) hlen15, rank_eq hcoded]
    have hin : rank lens k < Du.workSize := (rank_lt hcoded).trans_le ((card_coded_le lens).trans h288)
    rw [hoff]
    refine ⟨Mem.wf_wr h.wf, by rw [List.length_set]; exact h.length, fun l h1 hl => ?_, fun v hv hvk => ?_⟩
    · rw [sameBelow_succ]
      have := h.next l h1 hl
      have hlength := h.length
      dsimp only
      split
      · rename_i he
        rw [← he] at this ⊢
        rw [List.getD_eq_getElem?_getD, List.getElem?_set_self (hlength ▸ Nat.lt_succ_of_le hlen15), Option.getD_some, ← hoff, this, Nat.add_assoc]
      · rename_i he
        rw [List.getD_eq_getElem?_getD, List.getElem?_set_ne he, ← List.getD_eq_getElem?_getD, this, Nat.add_zero]
    · rw [Mem.rd_wr h.wf]
      rcases Nat.lt_succ_iff_lt_or_eq.1 hvk with hlt | rfl
      · rw [if_neg fun hc => hlt.ne (rank_injOn lens hv hcoded hc.1), h.placed v hv hlt]
      · rw [if_pos ⟨rfl, hin⟩]

theorem rd_sortSymbols (h15 : ∀ l ∈ lens, l ≤ 15) (h288 : lens.length ≤ 288) {work : Mem Word16} (hwf : Mem.wf Du.workSize work = true)
    (hw : w ∈ coded lens) : Mem.rd Du.workSize (sortSymbols lens (countLens lens) work) (rank lens w) = word16Of w := by
  have hstart : Sorted lens 0 (work, offsets (countLens lens)) := by
    obtain ⟨hlen, hval⟩ := offsets_spec lens
    exact ⟨hwf, hlen, fun l h1 hl => (hval l h1 hl).trans rfl, fun v _ hv => absurd hv (Nat.not_lt_zero v)⟩
  have hall : ∀ m ≤ lens.length, Sorted lens m (forRange 0 m (sortSymbol lens) (work, offsets (countLens lens))) := by
    intro m
    induction m with
    | zero => exact fun _ => hstart
    | succ m ih =>
      intro hm
      rw [forRange, List.range'_concat, List.foldl_append, List.foldl_cons, List.foldl_nil, Nat.zero_add, Nat.one_mul]
      exact (ih (by omega)).step h15 h288 (by omega)
  rw [sortSymbols_eq]
  exact (hall _ le_rfl).placed w hw (mem_coded.1 hw).1

end Sys2Proof.Machine
end

section
/-! PROOF. Which code lengths `inflate_table` accepts, and its root width (43_table_decoder_fastloop.md R271, R278). -/

namespace Sys2Proof.Machine

open Laws Claims

variable {lens : List Nat}

/-! ## The code space -/

/-- Equal lengths taken together. -/
theorem sum_coded_eq (h15 : ∀ l ∈ lens, l ≤ 15) (g : Nat → Nat) :
    ∑ w ∈ coded lens, g (lenOf lens w) = ∑ l ∈ Finset.Ico 1 16, lens.count l * g l := by
  have hmaps : ∀ w ∈ coded lens, lenOf lens w ∈ Finset.Ico 1 16 := fun w hw => by
    obtain ⟨hlt, h0⟩ := mem_coded.1 hw
    have := h15 (lenOf lens w) (by rw [lenOf, List.getD_eq_getElem _ _ hlt]; exact List.getElem_mem hlt)
    rw [Finset.mem_Ico]
    omega
  rw [← Finset.sum_fiberwise_of_maps_to hmaps]
  refine Finset.sum_congr rfl fun l hl => ?_
  rw [Finset.sum_congr rfl fun w hw => by rw [(Finset.mem_filter.1 hw).2], Finset.sum_const, smul_eq_mul, count_eq_card, coded, Finset.filter_filter]
  congr 2
  ext w
  have := (Finset.mem_Ico.1 hl).1
  simp only [Finset.mem_filter, Finset.mem_range]
  omega

theorem codeSpace_eq_sum (h15 : ∀ l ∈ lens, l ≤ 15) : codeSpace lens = ∑ l ∈ Finset.Ico 1 16, lens.count l * 2 ^ (15 - l) := by
  rw [← sum_coded_eq h15]
  conv_lhs => rw [lens_eq_map lens]
  rw [Laws.codeSpace_eq, coded, Finset.sum_filter]
  exact Finset.sum_congr rfl fun w _ => by split <;> simp_all

theorem codeSpace_eq_coded (h15 : ∀ l ∈ lens, l ≤ 15) : codeSpace lens = ∑ w ∈ coded lens, 2 ^ (15 - lenOf lens w) := by
  rw [codeSpace_eq_sum h15, sum_coded_eq h15 fun l => 2 ^ (15 - l)]

/-- The code space left after the codes of at most `m` bits, in units of 2^-m. -/
def spaceLeft (lens : List Nat) (m : Nat) : Int := 2 ^ m - ∑ l ∈ Finset.Ico 1 (m + 1), (lens.count l : Int) * 2 ^ (m - l)

theorem spaceLeft_succ (lens : List Nat) (m : Nat) : spaceLeft lens (m + 1) = 2 * spaceLeft lens m - lens.count (m + 1) := by
  rw [spaceLeft, spaceLeft, Finset.sum_Ico_succ_top (by omega), Nat.sub_self, Int.mul_sub, Finset.mul_sum]
  have : ∑ l ∈ Finset.Ico 1 (m + 1), (lens.count l : Int) * 2 ^ (m + 1 - l) = ∑ l ∈ Finset.Ico 1 (m + 1), 2 * ((lens.count l : Int) * 2 ^ (m - l)) :=
    Finset.sum_congr rfl fun l hl => by
      rw [Nat.succ_sub (Nat.le_of_lt_succ (Finset.mem_Ico.1 hl).2), pow_succ]
      ring
  rw [this]
  ring

/-- The code-space loop answers nothing when the space is exceeded, and else what is left of it (43_table_decoder_fastloop.md R271). -/
theorem leftover_eq (lens : List Nat) : leftover (countLens lens) = if spaceLeft lens 15 < 0 then none else some (spaceLeft lens 15) := by
  have key : ∀ m ≤ 15, (List.range' 1 m).foldl (fun left l => match left with
      | none => none
      | some x => if 2 * x - ((countLens lens).getD l 0 : Int) < 0 then none else some (2 * x - ((countLens lens).getD l 0 : Int))) (some 1) =
      if spaceLeft lens m < 0 then none else some (spaceLeft lens m) := by
    intro m
    induction m with
    | zero => exact fun _ => rfl
    | succ m ih =>
      intro hm
      rw [List.range'_concat, List.foldl_append, ih (by omega), List.foldl_cons, List.foldl_nil, Nat.one_mul, Nat.add_comm 1 m,
        getD_countLens lens (by omega), spaceLeft_succ]
      by_cases h : spaceLeft lens m < 0
      · rw [if_pos h, if_pos (by omega)]
      · rw [if_neg h]
  exact key 15 le_rfl

theorem spaceLeft_eq (h15 : ∀ l ∈ lens, l ≤ 15) : spaceLeft lens 15 = 2 ^ 15 - codeSpace lens := by
  rw [spaceLeft, codeSpace_eq_sum h15]
  push_cast
  rfl

/-! ## The longest and the shortest code -/

/-- The length of the longest code, 0 without codes. -/
def longest (lens : List Nat) : Nat := maxUsed (countLens lens) Config.maxBits

/-- The length of the shortest code. -/
def shortest (lens : List Nat) : Nat := minUsed (countLens lens) (longest lens) Config.maxBits 1

theorem maxUsed_used (count : List Nat) (n : Nat) : maxUsed count n = 0 ∨ count.getD (maxUsed count n) 0 ≠ 0 := by
  induction n with
  | zero => exact .inl rfl
  | succ n ih =>
    rw [maxUsed]
    split
    · exact ih
    · exact .inr ‹_›

theorem minUsed_used (count : List Nat) {max : Nat} (h : count.getD max 0 ≠ 0) : ∀ fuel l, l ≤ max → max ≤ l + fuel →
    count.getD (minUsed count max fuel l) 0 ≠ 0
  | 0, l, hl, hf => by
    obtain rfl : l = max := by omega
    exact h
  | fuel + 1, l, hl, hf => by
    rw [minUsed]
    split
    · exact minUsed_used count h fuel (l + 1) (by omega) (by omega)
    · rename_i hc
      rcases Nat.eq_or_lt_of_le hl with rfl | hlt
      · exact h
      · exact fun h0 => hc ⟨hlt, h0⟩

theorem longest_le (lens : List Nat) : longest lens ≤ 15 := maxUsed_le ..

theorem le_longest (h15 : ∀ l ∈ lens, l ≤ 15) {l : Nat} (hl : l ∈ lens) : l ≤ longest lens := by
  by_contra hc
  have h0 := maxUsed_spec (countLens lens) Config.maxBits l (Nat.lt_of_not_le hc) (h15 l hl)
  rw [getD_countLens lens (Nat.lt_succ_of_le (h15 l hl))] at h0
  exact absurd (List.count_pos_iff.2 hl) (by omega)

theorem longest_used (lens : List Nat) : longest lens = 0 ∨ (countLens lens).getD (longest lens) 0 ≠ 0 := maxUsed_used ..

theorem longest_eq_zero_iff (h15 : ∀ l ∈ lens, l ≤ 15) : longest lens = 0 ↔ ∀ l ∈ lens, l = 0 := by
  refine ⟨fun h l hl => Nat.le_zero.1 (h ▸ le_longest h15 hl), fun h => ?_⟩
  rcases longest_used lens with h0 | h0
  · exact h0
  · have hle := longest_le lens
    rw [getD_countLens lens (Nat.lt_succ_of_le hle)] at h0
    exact h _ (List.count_pos_iff.1 (Nat.pos_of_ne_zero h0))

theorem longest_mem (h : longest lens ≠ 0) : longest lens ∈ lens := by
  have h0 := (longest_used lens).resolve_left h
  have hle := longest_le lens
  rw [getD_countLens lens (Nat.lt_succ_of_le hle)] at h0
  exact List.count_pos_iff.1 (Nat.pos_of_ne_zero h0)

theorem shortest_le_longest (h : longest lens ≠ 0) : shortest lens ≤ longest lens := minUsed_le _ _ _ _ (Nat.pos_of_ne_zero h)

theorem one_le_shortest (lens : List Nat) : 1 ≤ shortest lens := le_minUsed ..

theorem shortest_mem (h : longest lens ≠ 0) : shortest lens ∈ lens := by
  have hle := longest_le lens
  have hmax := (longest_used lens).resolve_left h
  have h0 := minUsed_used (countLens lens) hmax Config.maxBits 1 (Nat.pos_of_ne_zero h) (hle.trans (by decide))
  have := shortest_le_longest h
  change (countLens lens).getD (shortest lens) 0 ≠ 0 at h0
  rw [getD_countLens lens (by omega)] at h0
  exact List.count_pos_iff.1 (Nat.pos_of_ne_zero h0)

theorem shortest_le (h15 : ∀ l ∈ lens, l ≤ 15) {l : Nat} (hl : l ∈ lens) (h0 : l ≠ 0) : shortest lens ≤ l := by
  by_contra hc
  have hz := minUsed_spec (countLens lens) (longest lens) Config.maxBits 1 l (by omega) (Nat.lt_of_not_le hc)
  rw [getD_countLens lens (Nat.lt_succ_of_le (h15 l hl))] at hz
  exact absurd (List.count_pos_iff.2 hl) (by omega)

/-! ### As folds -/

theorem foldl_max_eq {l : List Nat} {m : Nat} (hle : ∀ x ∈ l, x ≤ m) (hm : m = 0 ∨ m ∈ l) : l.foldl max 0 = m := by
  have key : ∀ (l : List Nat) (a : Nat), a ≤ l.foldl max a ∧ (∀ x ∈ l, x ≤ l.foldl max a) ∧ (l.foldl max a = a ∨ l.foldl max a ∈ l) := by
    intro l
    induction l with
    | nil => exact fun a => ⟨le_rfl, by simp, .inl rfl⟩
    | cons y r ih =>
      intro a
      obtain ⟨h1, h2, h3⟩ := ih (max a y)
      rw [List.foldl_cons]
      refine ⟨by omega, fun x hx => ?_, ?_⟩
      · rcases List.mem_cons.1 hx with rfl | hx
        · omega
        · exact h2 x hx
      · rw [List.mem_cons]
        rcases h3 with h3 | h3
        · omega
        · exact .inr (.inr h3)
  obtain ⟨-, h2, h3⟩ := key l 0
  have := h3.imp_right (hle _)
  have := hm.imp_right (h2 _)
  omega

theorem foldl_min_eq {l : List Nat} {m a : Nat} (hle : ∀ x ∈ l, m ≤ x) (hm : m ∈ l) (ha : m ≤ a) : l.foldl min a = m := by
  have key : ∀ (l : List Nat) (a : Nat), l.foldl min a ≤ a ∧ (∀ x ∈ l, l.foldl min a ≤ x) ∧ (l.foldl min a = a ∨ l.foldl min a ∈ l) := by
    intro l
    induction l with
    | nil => exact fun a => ⟨le_rfl, by simp, .inl rfl⟩
    | cons y r ih =>
      intro a
      obtain ⟨h1, h2, h3⟩ := ih (min a y)
      rw [List.foldl_cons]
      refine ⟨by omega, fun x hx => ?_, ?_⟩
      · rcases List.mem_cons.1 hx with rfl | hx
        · omega
        · exact h2 x hx
      · rw [List.mem_cons]
        rcases h3 with h3 | h3
        · omega
        · exact .inr (.inr h3)
  obtain ⟨h1, h2, h3⟩ := key l a
  have := h3.imp_right (hle _)
  have := h2 _ hm
  omega

/-- The root width (43_table_decoder_fastloop.md R271). -/
theorem root_eq (h15 : ∀ l ∈ lens, l ≤ 15) (h : longest lens ≠ 0) (bits : Nat) :
    Nat.max (Nat.min bits (longest lens)) (shortest lens) = min (max bits ((lens.filter (· ≠ 0)).foldl min 15)) (lens.foldl max 0) := by
  have hmem := shortest_mem h
  have hle := shortest_le_longest h
  have h1 := one_le_shortest lens
  rw [foldl_max_eq (fun _ => le_longest h15) (.inr (longest_mem h)), foldl_min_eq (m := shortest lens)
    (fun x hx => by
      obtain ⟨hx, h0⟩ := List.mem_filter.1 hx
      exact shortest_le h15 hx (of_decide_eq_true h0))
    (List.mem_filter.2 ⟨hmem, decide_eq_true (by omega)⟩) (h15 _ hmem)]
  show max (min bits _) _ = _
  omega

/-! ## Acceptance -/

theorem codeSpace_eq_zero_iff (h15 : ∀ l ∈ lens, l ≤ 15) : codeSpace lens = 0 ↔ longest lens = 0 := by
  rw [longest_eq_zero_iff h15, codeSpace, List.sum_eq_zero_iff]
  simp

/-- A set whose longest code has one bit is a single code or takes the whole space. -/
theorem filter_eq_one_iff (h15 : ∀ l ∈ lens, l ≤ 15) (hs : codeSpace lens < 2 ^ 15) (h : longest lens ≠ 0) :
    lens.filter (· ≠ 0) = [1] ↔ longest lens = 1 := by
  constructor
  · intro he
    have := List.mem_filter (p := (· ≠ 0)).2 ⟨longest_mem h, decide_eq_true h⟩
    rw [he] at this
    exact List.mem_singleton.1 this
  · intro h1
    have hall : ∀ l ∈ lens.filter (· ≠ 0), l = 1 := fun l hl => by
      obtain ⟨hl, h0⟩ := List.mem_filter.1 hl
      have := le_longest h15 hl
      have := of_decide_eq_true h0
      omega
    have hrep := List.eq_replicate_of_mem hall
    have hmem := List.mem_filter (p := (· ≠ 0)).2 ⟨longest_mem h, decide_eq_true h⟩
    have hcount : (lens.filter (· ≠ 0)).length = lens.count 1 := by
      rw [← List.countP_eq_length_filter, List.count]
      refine List.countP_congr fun l hl => ?_
      have := le_longest h15 hl
      simp only [decide_eq_true_eq, beq_iff_eq]
      omega
    have hspace : lens.count 1 * 2 ^ 14 ≤ codeSpace lens := by
      rw [codeSpace_eq_sum h15]
      exact Finset.single_le_sum (f := fun l => lens.count l * 2 ^ (15 - l)) (fun _ _ => Nat.zero_le _) (Finset.mem_Ico.2 ⟨le_rfl, by decide⟩)
    have hpos := List.length_pos_of_mem hmem
    rw [hrep, show (lens.filter (· ≠ 0)).length = 1 by omega]
    rfl

theorem codeSpace_of_filter_eq_one (h : lens.filter (· ≠ 0) = [1]) : codeSpace lens = 2 ^ 14 := by
  have key : codeSpace lens = ((lens.filter (· ≠ 0)).map fun l => 2 ^ (15 - l)).sum := by
    rw [codeSpace]
    clear h
    induction lens with
    | nil => rfl
    | cons a r ih => by_cases ha : a = 0 <;> simp [ha, ih]
  rw [key, h]
  rfl

/-- What `inflate_table` tests (43_table_decoder_fastloop.md R271, R278). -/
theorem acceptedLengths_iff (h15 : ∀ l ∈ lens, l ≤ 15) (type : TableType) (h : longest lens ≠ 0) :
    AcceptedLengths type lens ↔ ¬ spaceLeft lens 15 < 0 ∧ ¬ (0 < spaceLeft lens 15 ∧ (type = .codes ∨ longest lens ≠ 1)) := by
  have h0 := (codeSpace_eq_zero_iff h15).not.2 h
  rw [AcceptedLengths, spaceLeft_eq h15]
  rcases lt_trichotomy (codeSpace lens) (2 ^ 15) with hlt | heq | hgt
  · rw [filter_eq_one_iff h15 hlt h]
    have hp : ((2 : Int) ^ 15) = 32768 := by norm_num
    have hp' : 2 ^ 15 = 32768 := by norm_num
    rw [hp, hp'] at *
    constructor
    · rintro (hc | hc | hc)
      · exact absurd hc h0
      · omega
      · exact ⟨by omega, fun hn => hn.2.elim hc.1 (· hc.2)⟩
    · rintro ⟨-, hc⟩
      refine .inr (.inr ?_)
      by_contra hn
      exact hc ⟨by omega, by tauto⟩
  · simp [heq]
  · have hp : ((2 : Int) ^ 15) = 32768 := by norm_num
    have hp' : 2 ^ 15 = 32768 := by norm_num
    rw [hp, hp'] at *
    constructor
    · rintro (hc | hc | hc)
      · exact absurd hc h0
      · omega
      · have := codeSpace_of_filter_eq_one hc.2
        omega
    · rintro ⟨hc, -⟩
      omega

end Sys2Proof.Machine
end

section
/-! PROOF. The table under construction (43_table_decoder_fastloop.md R273 to R275): where the codes filled so far are found, and that
neither the entries of the next code nor a new sub-table disturb them. -/

namespace Sys2Proof.Machine

open Laws Claims

/-! ## The codes in canonical order -/

/-- The length of code `j`. -/
def FillEnv.lenAt (e : FillEnv) (j : Nat) : Nat := e.lens.getD (e.workAt j) 0

/-- The place of code `j` in the code space. -/
def FillEnv.start (e : FillEnv) (j : Nat) : Nat := ∑ i ∈ Finset.range j, 2 ^ (15 - e.lenAt i)

/-- The entry of code `j` in a table that sees `k` bits of it. -/
def FillEnv.entryAt (e : FillEnv) (j k : Nat) : Word32 := tableEntry e.type (e.workAt j) k

/-- `WORK` lists `n` codes by length, and they fit the code space. -/
structure FillEnv.Canonical (e : FillEnv) (n : Nat) : Prop where
  some  : 0 < n
  used  : ∀ j < n, 1 ≤ e.lenAt j ∧ e.lenAt j ≤ e.max
  max   : e.max ≤ 15
  mono  : ∀ {i j}, i ≤ j → j < n → e.lenAt i ≤ e.lenAt j
  last  : e.lenAt (n - 1) = e.max
  space : e.start n ≤ 2 ^ 15
  root  : 1 ≤ e.root ∧ e.root ≤ 15

/-- The bits `b` begin with code `j`. -/
def FillEnv.Covers (e : FillEnv) (j b : Nat) : Prop := e.start j ≤ place b ∧ place b < e.start (j + 1)

section
variable {e : FillEnv} {n : Nat}

theorem start_succ (e : FillEnv) (j : Nat) : e.start (j + 1) = e.start j + 2 ^ (15 - e.lenAt j) := Finset.sum_range_succ ..

theorem start_mono (e : FillEnv) {i j : Nat} (h : i ≤ j) : e.start i ≤ e.start j :=
  Finset.sum_le_sum_of_subset (Finset.range_mono h)

theorem FillEnv.Canonical.len_le (hc : e.Canonical n) {j : Nat} (hj : j < n) : e.lenAt j ≤ 15 := (hc.used j hj).2.trans hc.max

theorem dvd_start (e : FillEnv) {l m : Nat} (h : ∀ i < m, e.lenAt i ≤ l) : 2 ^ (15 - l) ∣ e.start m :=
  Finset.dvd_sum fun i hi => Nat.pow_dvd_pow 2 (by have := h i (Finset.mem_range.1 hi); omega)

theorem FillEnv.Canonical.dvd_start (hc : e.Canonical n) {j : Nat} (hj : j < n) : 2 ^ (15 - e.lenAt j) ∣ e.start j :=
  Machine.dvd_start e fun _ hi => hc.mono hi.le hj

theorem FillEnv.Canonical.start_lt (hc : e.Canonical n) {j : Nat} (hj : j < n) : e.start j < 2 ^ 15 := by
  have := (start_mono e (show j + 1 ≤ n from hj)).trans hc.space
  have := start_succ e j
  have := Nat.two_pow_pos (15 - e.lenAt j)
  omega

theorem FillEnv.Canonical.covers_iff (hc : e.Canonical n) {j : Nat} (hj : j < n) (b : Nat) :
    e.Covers j b ↔ b % 2 ^ e.lenAt j = bitsAt (e.start j) := by
  rw [mod_eq_bitsAt_iff b (hc.start_lt hj) (hc.len_le hj) (hc.dvd_start hj), FillEnv.Covers, start_succ]

theorem covers_unique {i j b : Nat} (hi : e.Covers i b) (hj : e.Covers j b) : i = j := by
  obtain ⟨hi1, hi2⟩ := hi
  obtain ⟨hj1, hj2⟩ := hj
  rcases lt_trichotomy i j with h | h | h
  · have := start_mono e (show i + 1 ≤ j from h); omega
  · exact h
  · have := start_mono e (show j + 1 ≤ i from h); omega

theorem exists_covers {b : Nat} : ∀ {m : Nat}, place b < e.start m → ∃ i < m, e.Covers i b
  | 0, h => absurd h (Nat.not_lt_zero _)
  | m + 1, h => by
    by_cases hm : place b < e.start m
    · obtain ⟨i, hi, hcov⟩ := exists_covers hm
      exact ⟨i, hi.trans (Nat.lt_succ_self m), hcov⟩
    · exact ⟨m, Nat.lt_succ_self m, Nat.le_of_not_lt hm, h⟩

/-- A code at the beginning of a block of the root's codes shares its block with none before it. -/
theorem FillEnv.Canonical.mod_root_ne (hc : e.Canonical n) {i m b : Nat} (hm : m < n) (hi : i < m) (hcov : e.Covers i b)
    (hd : 2 ^ (15 - e.root) ∣ e.start m) : b % 2 ^ e.root ≠ bitsAt (e.start m) % 2 ^ e.root := by
  rw [Ne, mod_eq_bitsAt_mod_iff b (hc.start_lt hm) hc.root.2]
  refine (Nat.div_lt_div_of_lt_of_dvd hd ?_).ne
  exact hcov.2.trans_le (start_mono e (Nat.succ_le_of_lt hi))

end

/-! ## Where a code is found -/

/-- The bits `b`, which begin with code `j`, lead to its entry: in the root, or by a link to a sub-table that ends before `hi`. -/
def FillEnv.Found (e : FillEnv) (hi : Nat) (m : Mem Word32) (b j : Nat) : Prop :=
  e.lenAt j ≤ e.root ∧ Mem.rd Du.codesSize m (e.base + b % 2 ^ e.root) = e.entryAt j (e.lenAt j) ∨
  ∃ width next, e.root < e.lenAt j ∧ 1 ≤ width ∧ e.root + width ≤ 15 ∧ e.base + 2 ^ e.root ≤ next ∧ next + 2 ^ width ≤ hi ∧
    Mem.rd Du.codesSize m (e.base + b % 2 ^ e.root) = mkEntry width e.root (next - e.base) ∧
    Mem.rd Du.codesSize m (next + b / 2 ^ e.root % 2 ^ width) = e.entryAt j (e.lenAt j - e.root)

/-- What is found stays found where its cells stay. -/
theorem FillEnv.Found.of_agree {e : FillEnv} {hi hi' b j : Nat} {m m' : Mem Word32} (h : e.Found hi m b j) (hle : hi ≤ hi')
    (hroot : Mem.rd Du.codesSize m' (e.base + b % 2 ^ e.root) = Mem.rd Du.codesSize m (e.base + b % 2 ^ e.root))
    (hsub : ∀ i, e.base + 2 ^ e.root ≤ i → i < hi → Mem.rd Du.codesSize m' i = Mem.rd Du.codesSize m i) : e.Found hi' m' b j := by
  rcases h with ⟨hl, he⟩ | ⟨width, next, hl, hw, h15, hn, hend, hlink, he⟩
  · exact .inl ⟨hl, hroot.trans he⟩
  · have hlt : b / 2 ^ e.root % 2 ^ width < 2 ^ width := Nat.mod_lt _ (Nat.two_pow_pos _)
    exact .inr ⟨width, next, hl, hw, h15, hn, hend.trans hle, hroot.trans hlink, (hsub _ (by omega) (by omega)).trans he⟩

/-! ## The current table -/

/-- The current table is the root. -/
structure Fill.RootTable (e : FillEnv) (f : Fill) : Prop where
  drop : f.drop = 0
  next : f.next = e.base
  curr : f.curr = e.root
  low  : f.low = -1

/-- The current table is the sub-table of the codes that begin with the bits `t`. -/
structure Fill.SubTable (e : FillEnv) (t : Nat) (f : Fill) : Prop where
  drop : f.drop = e.root
  deep : e.root < e.max
  next : e.base + 2 ^ e.root ≤ f.next
  curr : 1 ≤ f.curr ∧ e.root + f.curr ≤ 15
  low  : f.low = (t : Int)
  link : Mem.rd Du.codesSize f.codes (e.base + t) = mkEntry f.curr e.root (f.next - e.base)

/-- The first `m` codes are in the table; the current one is for the codes that begin with the bits `t`. -/
structure Fill.Holds (e : FillEnv) (orig : Mem Word32) (m t : Nat) (f : Fill) : Prop where
  wf    : Mem.wf Du.codesSize f.codes = true
  tested : e.type.full f.used = false
  room  : e.base + f.used ≤ Du.codesSize
  span  : f.next + 2 ^ f.curr = e.base + f.used
  begin : e.base ≤ f.next
  tag   : t < 2 ^ f.drop
  table : f.RootTable e ∨ f.SubTable e t
  frame : ∀ i, i < e.base ∨ e.base + f.used ≤ i → Mem.rd Du.codesSize f.codes i = Mem.rd Du.codesSize orig i
  old   : ∀ b i, i < m → e.Covers i b → b % 2 ^ f.drop ≠ t → e.Found f.next f.codes b i
  cur   : ∀ b i, i < m → e.Covers i b → b % 2 ^ f.drop = t → f.drop < e.lenAt i ∧ e.lenAt i ≤ f.drop + f.curr ∧
    Mem.rd Du.codesSize f.codes (f.next + b / 2 ^ f.drop % 2 ^ f.curr) = e.entryAt i (e.lenAt i - f.drop)

section
variable {e : FillEnv} {orig : Mem Word32} {n m t : Nat} {f g : Fill}

/-- Only the memory and the current table's registers matter. -/
theorem Fill.Holds.congr (h : f.Holds e orig m t) (hcodes : g.codes = f.codes) (hused : g.used = f.used) (hnext : g.next = f.next)
    (hcurr : g.curr = f.curr) (hdrop : g.drop = f.drop) (hlow : g.low = f.low) : g.Holds e orig m t := by
  refine ⟨hcodes ▸ h.wf, hused ▸ h.tested, hused ▸ h.room, hused ▸ hnext ▸ hcurr ▸ h.span, hnext ▸ h.begin, hdrop ▸ h.tag, ?_, hcodes ▸ hused ▸ h.frame,
    hcodes ▸ hdrop ▸ hnext ▸ h.old, hcodes ▸ hdrop ▸ hnext ▸ hcurr ▸ h.cur⟩
  rcases h.table with ht | ht
  · exact .inl ⟨hdrop ▸ ht.drop, hnext ▸ ht.next, hcurr ▸ ht.curr, hlow ▸ ht.low⟩
  · exact .inr ⟨hdrop ▸ ht.drop, ht.deep, hnext ▸ ht.next, hcurr ▸ ht.curr, hlow ▸ ht.low, hcodes ▸ hnext ▸ hcurr ▸ ht.link⟩

theorem Fill.Holds.root_le (h : f.Holds e orig m t) : 2 ^ e.root ≤ f.used := by
  have hpos := Nat.two_pow_pos f.curr
  have := h.span
  rcases h.table with ht | ht
  · rw [ht.next, ht.curr] at this; omega
  · have := ht.next; omega

/-- Every code filled is found. -/
theorem Fill.Holds.found (h : f.Holds e orig m t) {b i : Nat} (hi : i < m) (hcov : e.Covers i b) :
    e.Found (e.base + f.used) f.codes b i := by
  by_cases hb : b % 2 ^ f.drop = t
  · obtain ⟨hlow, hhigh, he⟩ := h.cur b i hi hcov hb
    rcases h.table with ht | ht
    · rw [ht.drop, ht.next, ht.curr, Nat.pow_zero, Nat.div_one, Nat.sub_zero] at he
      rw [ht.drop, ht.curr, Nat.zero_add] at hhigh
      exact .inl ⟨hhigh, he⟩
    · rw [ht.drop] at hb hlow he
      exact .inr ⟨f.curr, f.next, hlow, ht.curr.1, ht.curr.2, ht.next, h.span.le, hb ▸ ht.link, he⟩
  · exact (h.old b i hi hcov hb).of_agree (h.span ▸ Nat.le_add_right ..) rfl fun _ _ _ => rfl

/-! ## The entries of one code -/

theorem rd_foldl_wr {α β : Type} [Inhabited α] [DecidableEq α] {size : Nat} (g : β → Nat) (v : α) (i : Nat) : ∀ (l : List β) {m : Mem α},
    Mem.wf size m = true → Mem.rd size (l.foldl (fun m k => Mem.wr size m (g k) v) m) i =
      if (∃ k ∈ l, g k = i) ∧ i < size then v else Mem.rd size m i
  | [], m, _ => by simp
  | k :: r, m, h => by
    rw [List.foldl_cons, rd_foldl_wr g v i r (Mem.wf_wr h), Mem.rd_wr h]
    by_cases h1 : ∃ k ∈ r, g k = i
    · have h2 : ∃ k' ∈ k :: r, g k' = i := by simp [h1]
      by_cases hi : i < size
      · rw [if_pos ⟨h1, hi⟩, if_pos ⟨h2, hi⟩]
      · rw [if_neg fun hc => hi hc.2, if_neg fun hc => hi (by rw [hc.1]; exact hc.2), if_neg fun hc => hi hc.2]
    · rw [if_neg fun hc => h1 hc.1]
      refine if_congr ?_ rfl rfl
      simp only [List.mem_cons, exists_eq_or_imp, h1, or_false]
      rw [eq_comm]
      exact and_congr_right fun he => by rw [he]

/-- The indexes at which a code of `s` index bits `x` stands in a table of `c` index bits. -/
theorem exists_index_iff {x s c : Nat} (hs : s ≤ c) (hx : x < 2 ^ s) (y : Nat) :
    (∃ k ∈ (List.range (2 ^ (c - s))).reverse, x + k * 2 ^ s = y) ↔ y < 2 ^ c ∧ y % 2 ^ s = x := by
  have hp := Nat.two_pow_pos s
  have hsplit : 2 ^ c = 2 ^ (c - s) * 2 ^ s := by rw [← Nat.pow_add, Nat.sub_add_cancel hs]
  constructor
  · rintro ⟨k, hk, rfl⟩
    have hk := List.mem_range.1 (List.mem_reverse.1 hk)
    have : (k + 1) * 2 ^ s ≤ 2 ^ (c - s) * 2 ^ s := Nat.mul_le_mul_right _ hk
    rw [Nat.add_mul, Nat.one_mul] at this
    exact ⟨by omega, by rw [Nat.add_mul_mod_self_right, Nat.mod_eq_of_lt hx]⟩
  · rintro ⟨hy, hmod⟩
    refine ⟨y / 2 ^ s, List.mem_reverse.2 (List.mem_range.2 ?_), ?_⟩
    · rwa [Nat.div_lt_iff_lt_mul hp, ← hsplit]
    · rw [← hmod, Nat.mod_add_div']

theorem mod_two_pow_add (b d s : Nat) : b % 2 ^ (d + s) = b % 2 ^ d + 2 ^ d * (b / 2 ^ d % 2 ^ s) := by rw [Nat.pow_add, Nat.mod_mul]

/-- The entries of a code stand at the indexes of the bit strings that begin with it. -/
theorem rd_replicate (hwf : Mem.wf Du.codesSize f.codes = true) (hd : f.drop ≤ f.len) (hfit : f.len ≤ f.drop + f.curr)
    (hh : f.huff < 2 ^ f.len) (i : Nat) : Mem.rd Du.codesSize (f.replicate e).codes i =
      if f.next ≤ i ∧ i < f.next + 2 ^ f.curr ∧ (i - f.next) % 2 ^ (f.len - f.drop) = f.huff / 2 ^ f.drop ∧ i < Du.codesSize
      then tableEntry e.type (e.workAt f.sym) (f.len - f.drop) else Mem.rd Du.codesSize f.codes i := by
  have hx : f.huff / 2 ^ f.drop < 2 ^ (f.len - f.drop) := by
    rw [Nat.div_lt_iff_lt_mul (Nat.two_pow_pos _), ← Nat.pow_add, Nat.sub_add_cancel hd]
    exact hh
  have hidx := exists_index_iff (c := f.curr) (by omega) hx (i - f.next)
  unfold Fill.replicate
  rw [rd_foldl_wr _ _ _ _ hwf]
  refine if_congr ?_ rfl rfl
  generalize f.huff / 2 ^ f.drop = x at hx hidx ⊢
  rw [← and_assoc, ← and_assoc]
  refine and_congr_left fun _ => ?_
  constructor
  · rintro ⟨k, hk, rfl⟩
    obtain ⟨hlt, hmod⟩ := hidx.1 ⟨k, hk, by rw [Nat.add_assoc, Nat.add_sub_cancel_left]⟩
    exact ⟨⟨by rw [Nat.add_assoc]; exact Nat.le_add_right .., by omega⟩, hmod⟩
  · rintro ⟨⟨h1, h2⟩, h3⟩
    obtain ⟨k, hk, he⟩ := hidx.2 ⟨by omega, h3⟩
    exact ⟨k, hk, by omega⟩

/-- Filling code `m` (43_table_decoder_fastloop.md R273). -/
theorem Fill.Holds.replicate (h : f.Holds e orig m t) (hc : e.Canonical n) (hm : m < n) (hsym : f.sym = m) (hlen : f.len = e.lenAt m)
    (hhuff : f.huff = bitsAt (e.start m)) (ht : f.huff % 2 ^ f.drop = t) (hd : f.drop < f.len) (hfit : f.len ≤ f.drop + f.curr) :
    (f.replicate e).Holds e orig (m + 1) t := by
  have hlt : f.huff < 2 ^ f.len := by rw [hhuff, hlen]; exact bitsAt_lt (hc.len_le hm) (hc.dvd_start hm)
  have hrd := rd_replicate (e := e) h.wf hd.le hfit hlt
  have hspan := h.span
  have hbegin := h.begin
  have hbelow : ∀ i, i < f.next → Mem.rd Du.codesSize (f.replicate e).codes i = Mem.rd Du.codesSize f.codes i := fun i hi => by
    rw [hrd, if_neg (by omega)]
  have hcov : ∀ b, e.Covers m b ↔ b % 2 ^ f.drop = t ∧ b / 2 ^ f.drop % 2 ^ (f.len - f.drop) = f.huff / 2 ^ f.drop := fun b => by
    rw [hc.covers_iff hm, ← hlen, ← hhuff, ← ht]
    have hb := mod_two_pow_add b f.drop (f.len - f.drop)
    rw [Nat.add_sub_cancel' hd.le] at hb
    have hf := Nat.mod_add_div f.huff (2 ^ f.drop)
    constructor
    · intro he
      have h1 : b % 2 ^ f.drop = f.huff % 2 ^ f.drop := by rw [← he, Nat.mod_mod_of_dvd _ (Nat.pow_dvd_pow 2 hd.le)]
      refine ⟨h1, ?_⟩
      rw [h1, he] at hb
      exact Nat.eq_of_mul_eq_mul_left (Nat.two_pow_pos f.drop) (by omega)
    · rintro ⟨h1, h2⟩
      rw [hb, h1, h2, hf]
  have hindex : ∀ b, b / 2 ^ f.drop % 2 ^ f.curr < 2 ^ f.curr := fun b => Nat.mod_lt _ (Nat.two_pow_pos _)
  have hroom := h.room
  refine ⟨wf_replicate e f h.wf, h.tested, h.room, h.span, h.begin, h.tag, ?_, fun i hi => ?_, fun b i hi hcb hb => ?_, fun b i hi hcb hb => ?_⟩
  · refine h.table.imp (fun hr => ⟨hr.drop, hr.next, hr.curr, hr.low⟩) fun hs => ⟨hs.drop, hs.deep, hs.next, hs.curr, hs.low, ?_⟩
    have htag := h.tag
    have := hs.next
    rw [hs.drop] at htag
    exact (hbelow _ (by omega)).trans hs.link
  · show Mem.rd _ _ _ = _
    rw [hrd, if_neg (by show ¬ _; rcases hi with hi | hi <;> [omega; (have : e.base + f.used ≤ i := hi; omega)])]
    exact h.frame i hi
  · rcases Nat.lt_succ_iff_lt_or_eq.1 hi with hlt' | rfl
    · rcases h.table with hr | hs
      · exact absurd (show b % 2 ^ f.drop = t by have := h.tag; rw [hr.drop] at this ⊢; omega) hb
      · have hmod : b % 2 ^ e.root < 2 ^ e.root := Nat.mod_lt _ (Nat.two_pow_pos _)
        have := hs.next
        exact (h.old b i hlt' hcb hb).of_agree le_rfl (hbelow _ (by omega)) fun k _ hk => hbelow k hk
    · exact absurd ((hcov b).1 hcb).1 hb
  · show _ ∧ _ ∧ Mem.rd _ _ (f.next + b / 2 ^ f.drop % 2 ^ f.curr) = _
    have hsub : (f.next + b / 2 ^ f.drop % 2 ^ f.curr - f.next) % 2 ^ (f.len - f.drop) = b / 2 ^ f.drop % 2 ^ (f.len - f.drop) := by
      rw [Nat.add_sub_cancel_left, Nat.mod_mod_of_dvd _ (Nat.pow_dvd_pow 2 (by omega))]
    rw [hrd, hsub]
    have := hindex b
    rcases Nat.lt_succ_iff_lt_or_eq.1 hi with hlt' | rfl
    · rw [if_neg fun hw => absurd (covers_unique hcb ((hcov b).2 ⟨hb, hw.2.2.1⟩)) hlt'.ne]
      exact h.cur b i hlt' hcb hb
    · rw [if_pos ⟨by omega, by omega, ((hcov b).1 hcb).2, by omega⟩, hsym]
      exact ⟨hlen ▸ hd, hlen ▸ hfit, by rw [hlen]; rfl⟩

/-! ## A new sub-table -/

/-- The index width that `new_sub_table` chooses. -/
def Fill.newWidth (e : FillEnv) (f : Fill) : Nat :=
  subWidth f.count e.max e.root e.max (f.len - e.root) (2 ^ (f.len - e.root) : Nat)

/-- A new sub-table for the codes that begin as code `m` does (43_table_decoder_fastloop.md R274). -/
theorem Fill.Holds.newSubTable (h : f.Holds e orig m t) (hc : e.Canonical n) (hm : m < n) (hhuff : f.huff = bitsAt (e.start m))
    (hdvd : 2 ^ (15 - e.root) ∣ e.start m) (hsize : f.size = 2 ^ f.curr) (hdeep : e.root < e.max)
    (hwidth : 1 ≤ f.newWidth e ∧ e.root + f.newWidth e ≤ 15) (hroom : e.base + (f.used + 2 ^ f.newWidth e) ≤ Du.codesSize)
    (hnew : f.newSubTable e = (g, false)) :
    g.Holds e orig m (f.huff % 2 ^ e.root) ∧ g.drop = e.root ∧ g.curr = f.newWidth e ∧ g.used = f.used + 2 ^ f.newWidth e ∧
      g.huff = f.huff ∧ g.sym = f.sym ∧ g.len = f.len ∧ g.count = f.count := by
  have hdrop : (if f.drop = 0 then e.root else f.drop) = e.root := by
    rcases h.table with hr | hs
    · rw [if_pos hr.drop]
    · rw [hs.drop, ite_self]
  have hspan := h.span
  have hbegin := h.begin
  have hroot := h.root_le
  have hlow : f.huff % 2 ^ e.root < 2 ^ e.root := Nat.mod_lt _ (Nat.two_pow_pos _)
  have hpos := Nat.two_pow_pos (f.newWidth e)
  unfold Fill.newSubTable at hnew
  simp only [hdrop, hsize] at hnew
  change (if e.type.full (f.used + 2 ^ f.newWidth e) = true then _ else _) = _ at hnew
  split at hnew
  · cases hnew
  · rename_i htested
    obtain rfl := (Prod.mk.inj hnew).1
    refine ⟨⟨Mem.wf_wr h.wf, Bool.not_eq_true _ ▸ htested, hroom, ?_, ?_, hlow, .inr ⟨rfl, hdeep, ?_, hwidth, rfl, ?_⟩, fun i hi => ?_, fun b i hi hcb hb => ?_,
      fun b i hi hcb hb => ?_⟩, rfl, rfl, rfl, rfl, rfl, rfl, rfl⟩
    · show f.next + 2 ^ f.curr + 2 ^ f.newWidth e = e.base + (f.used + 2 ^ f.newWidth e)
      omega
    · show e.base ≤ f.next + 2 ^ f.curr
      omega
    · show e.base + 2 ^ e.root ≤ f.next + 2 ^ f.curr
      omega
    · show Mem.rd _ (Mem.wr ..) _ = _
      rw [Mem.rd_wr h.wf, if_pos ⟨rfl, by omega⟩]
    · show Mem.rd _ (Mem.wr ..) _ = _
      have hi : i < e.base ∨ e.base + (f.used + 2 ^ f.newWidth e) ≤ i := hi
      rw [Mem.rd_wr h.wf, if_neg (by omega)]
      exact h.frame i (by omega)
    · refine (h.found hi hcb).of_agree hspan.ge ?_ fun k hk _ => ?_
      · show Mem.rd _ (Mem.wr ..) _ = _
        rw [Mem.rd_wr h.wf, if_neg fun hk => hb (show b % 2 ^ e.root = f.huff % 2 ^ e.root by omega)]
      · show Mem.rd _ (Mem.wr ..) _ = _
        rw [Mem.rd_wr h.wf, if_neg (by omega)]
    · exact absurd (hhuff ▸ hb) (hc.mod_root_ne hm hi hcb hdvd)

end

end Sys2Proof.Machine
end

section
/-! PROOF. The fill loop (43_table_decoder_fastloop.md R273, R274): a sub-table is as wide as the longest code that begins as its codes do,
it is left when its codes are complete, and the table stays inside its space. -/

namespace Sys2Proof.Machine

open Laws Claims

section
variable {e : FillEnv} {n : Nat}

/-! ## The codes not yet filled -/

/-- The histogram of the codes from `j` on. -/
structure FillEnv.Counts (e : FillEnv) (n j : Nat) (count : List Nat) : Prop where
  length : count.length = 16
  count  : ∀ l, 1 ≤ l → count.getD l 0 = ((Finset.Ico j n).filter fun i => e.lenAt i = l).card

theorem FillEnv.Counts.step (hc : e.Canonical n) {j : Nat} (hj : j < n) {count : List Nat} (h : e.Counts n j count) :
    e.Counts n (j + 1) (count.set (e.lenAt j) (count.getD (e.lenAt j) 0 - 1)) := by
  have hlen := h.length
  have hle := hc.len_le hj
  refine ⟨by rw [List.length_set, hlen], fun l hl => ?_⟩
  have hcount := h.count l hl
  have hico : Finset.Ico j n = insert j (Finset.Ico (j + 1) n) := by
    ext i
    simp only [Finset.mem_Ico, Finset.mem_insert]
    omega
  rw [hico, Finset.filter_insert] at hcount
  by_cases he : e.lenAt j = l
  · rw [if_pos he, Finset.card_insert_of_notMem (by simp)] at hcount
    rw [he, List.getD_eq_getElem?_getD, List.getElem?_set_self (by omega), Option.getD_some, hcount, Nat.add_sub_cancel]
  · rw [if_neg he] at hcount
    rw [List.getD_eq_getElem?_getD, List.getElem?_set_ne he, ← List.getD_eq_getElem?_getD, hcount]

/-- No further code of the length of code `j` means that the next code, if any, is longer. -/
theorem FillEnv.Counts.eq_zero_iff (hc : e.Canonical n) {j : Nat} {count : List Nat} (h : e.Counts n (j + 1) count) (hj : j < n) :
    count.getD (e.lenAt j) 0 = 0 ↔ j + 1 = n ∨ e.lenAt (j + 1) ≠ e.lenAt j := by
  rw [h.count _ (hc.used j hj).1, Finset.card_eq_zero, Finset.filter_eq_empty_iff]
  constructor
  · intro hz
    by_cases hn : j + 1 = n
    · exact .inl hn
    · exact .inr (hz (Finset.mem_Ico.2 ⟨le_rfl, by omega⟩))
  · intro hz i hi he
    obtain ⟨h1, h2⟩ := Finset.mem_Ico.1 hi
    have h3 := hc.mono (Nat.le_add_right j 1) (h1.trans_lt h2)
    have h4 := hc.mono h1 h2
    rcases hz with hz | hz
    · omega
    · exact hz (by omega)

/-- The code space of the codes from `m` on that are shorter than `l`. -/
def FillEnv.spaceBelow (e : FillEnv) (n m l : Nat) : Nat := ∑ i ∈ (Finset.Ico m n).filter fun i => e.lenAt i < l, 2 ^ (15 - e.lenAt i)

theorem FillEnv.Counts.spaceBelow_succ {m : Nat} {count : List Nat} (h : e.Counts n m count) {l : Nat} (hl : 1 ≤ l) :
    e.spaceBelow n m (l + 1) = e.spaceBelow n m l + count.getD l 0 * 2 ^ (15 - l) := by
  have hconst : ∑ i ∈ (Finset.Ico m n).filter fun i => e.lenAt i = l, 2 ^ (15 - e.lenAt i) = count.getD l 0 * 2 ^ (15 - l) := by
    rw [h.count l hl, Finset.sum_congr rfl fun i hi => by rw [(Finset.mem_filter.1 hi).2], Finset.sum_const, smul_eq_mul]
  rw [FillEnv.spaceBelow, FillEnv.spaceBelow, ← hconst, ← Finset.sum_union]
  · refine Finset.sum_congr ?_ fun _ _ => rfl
    ext i
    simp only [Finset.mem_filter, Finset.mem_union, Finset.mem_Ico]
    omega
  · rw [Finset.disjoint_left]
    intro i hi hi'
    have := (Finset.mem_filter.1 hi).2
    have := (Finset.mem_filter.1 hi').2
    omega

theorem start_add_sum_Ico (e : FillEnv) {m k : Nat} (h : m ≤ k) : e.start m + ∑ i ∈ Finset.Ico m k, 2 ^ (15 - e.lenAt i) = e.start k := by
  rw [FillEnv.start, FillEnv.start, Finset.sum_range_add_sum_Ico _ h]

/-! ## The width of a sub-table -/

/-- The width stops growing when the codes seen fill the sub-table, or at the longest code (43_table_decoder_fastloop.md R274). -/
theorem FillEnv.Counts.subWidth_spec {m : Nat} {count : List Nat} (h : e.Counts n m count) (hroot : 1 ≤ e.root)
    (hmax : e.max ≤ 15) :
    ∀ (fuel curr : Nat) (left : Int), e.root + curr ≤ e.max → e.max ≤ e.root + curr + fuel → 0 < left →
      left * 2 ^ (15 - (e.root + curr)) = 2 ^ (15 - e.root) - (e.spaceBelow n m (e.root + curr) : Int) →
      let c := subWidth count e.max e.root fuel curr left
      curr ≤ c ∧ e.root + c ≤ e.max ∧ (e.max ≤ e.root + c ∨ 2 ^ (15 - e.root) ≤ e.spaceBelow n m (e.root + c + 1)) ∧
        e.spaceBelow n m (e.root + c) < 2 ^ (15 - e.root)
  | fuel, curr, left, hcurr, hfuel, hleft, hinv => by
    have hp : (0 : Int) < 2 ^ (15 - (e.root + curr)) := by positivity
    have hbelow : e.spaceBelow n m (e.root + curr) < 2 ^ (15 - e.root) := by
      have : (0 : Int) < left * 2 ^ (15 - (e.root + curr)) := Int.mul_pos hleft hp
      rw [hinv] at this
      have : (e.spaceBelow n m (e.root + curr) : Int) < ((2 ^ (15 - e.root) : Nat) : Int) := by push_cast; omega
      exact Int.ofNat_lt.1 this
    cases fuel with
    | zero => exact ⟨le_rfl, hcurr, .inl hfuel, hbelow⟩
    | succ fuel =>
      dsimp only
      rw [subWidth]
      split
      · rename_i hlt
        have hsucc : (left - (count.getD (curr + e.root) 0 : Int)) * 2 ^ (15 - (e.root + curr)) =
            2 ^ (15 - e.root) - (e.spaceBelow n m (e.root + curr + 1) : Int) := by
          rw [h.spaceBelow_succ (hroot.trans (Nat.le_add_right ..)), Nat.add_comm curr]
          push_cast
          rw [sub_mul, hinv]
          ring
        dsimp only
        split
        · rename_i hstop
          refine ⟨le_rfl, hcurr, .inr ?_, hbelow⟩
          have : (left - (count.getD (curr + e.root) 0 : Int)) * 2 ^ (15 - (e.root + curr)) ≤ 0 := Int.mul_nonpos_of_nonpos_of_nonneg hstop hp.le
          rw [hsucc] at this
          have : ((2 ^ (15 - e.root) : Nat) : Int) ≤ (e.spaceBelow n m (e.root + curr + 1) : Int) := by push_cast; omega
          exact Int.ofNat_le.1 this
        · rename_i hgo
          have ih := h.subWidth_spec hroot hmax fuel (curr + 1) ((left - (count.getD (curr + e.root) 0 : Int)) * 2) (by omega) (by omega) (by omega) (by
            rw [← Nat.add_assoc, ← hsucc, mul_assoc, ← pow_succ', show 15 - (e.root + curr + 1) + 1 = 15 - (e.root + curr) by omega])
          exact ⟨(Nat.le_succ _).trans ih.1, ih.2⟩
      · exact ⟨le_rfl, hcurr, .inl (by omega), hbelow⟩

/-- The sub-table that is begun at code `m` (43_table_decoder_fastloop.md R274): no code of its block is longer than it is wide, and the
last one is not shorter. -/
theorem newWidth_spec (hc : e.Canonical n) {m : Nat} (hm : m < n) {f : Fill} (h : e.Counts n m f.count) (hlen : f.len = e.lenAt m)
    (hdeep : e.root < e.lenAt m) :
    1 ≤ f.newWidth e ∧ e.root + f.newWidth e ≤ e.max ∧
      (∀ i, m ≤ i → i < n → e.start i < e.start m + 2 ^ (15 - e.root) → e.lenAt i ≤ e.root + f.newWidth e) ∧
      (∀ k, m ≤ k → k < n → e.start (k + 1) = e.start m + 2 ^ (15 - e.root) → e.root + f.newWidth e ≤ e.lenAt k) := by
  have hle := (hc.used m hm).2
  have h15 := hc.len_le hm
  have hempty : e.spaceBelow n m (e.lenAt m) = 0 := by
    rw [FillEnv.spaceBelow, Finset.filter_eq_empty_iff.2, Finset.sum_empty]
    intro i hi
    obtain ⟨h1, h2⟩ := Finset.mem_Ico.1 hi
    exact Nat.not_lt.2 (hc.mono h1 h2)
  obtain ⟨hcurr, hmax, hfull, hbelow⟩ := h.subWidth_spec hc.root.1 hc.max e.max (f.len - e.root) (2 ^ (f.len - e.root) : Nat) (by omega) (by omega)
    (by exact_mod_cast Nat.two_pow_pos _) (by
      rw [hlen, Nat.add_sub_cancel' hdeep.le, hempty]
      push_cast
      rw [← pow_add, show e.lenAt m - e.root + (15 - e.lenAt m) = 15 - e.root by omega, sub_zero])
  change f.len - e.root ≤ f.newWidth e at hcurr
  change e.root + f.newWidth e ≤ e.max at hmax
  change e.max ≤ e.root + f.newWidth e ∨ 2 ^ (15 - e.root) ≤ e.spaceBelow n m (e.root + f.newWidth e + 1) at hfull
  change e.spaceBelow n m (e.root + f.newWidth e) < 2 ^ (15 - e.root) at hbelow
  refine ⟨by omega, hmax, fun i h1 h2 hi => ?_, fun k h1 h2 hk => ?_⟩
  · rcases hfull with hfull | hfull
    · exact (hc.used i h2).2.trans hfull
    · by_contra hlong
      have hsub : (Finset.Ico m n).filter (fun k => e.lenAt k < e.root + f.newWidth e + 1) ⊆ Finset.Ico m i := fun k hk => by
        obtain ⟨hk, hshort⟩ := Finset.mem_filter.1 hk
        obtain ⟨hk1, hk2⟩ := Finset.mem_Ico.1 hk
        refine Finset.mem_Ico.2 ⟨hk1, Nat.lt_of_not_le fun hik => ?_⟩
        have := hc.mono hik hk2
        omega
      have hsum := Finset.sum_le_sum_of_subset (f := fun k => 2 ^ (15 - e.lenAt k)) hsub
      have := start_add_sum_Ico e h1
      unfold FillEnv.spaceBelow at hfull
      omega
  · by_contra hshort
    have hsub : Finset.Ico m (k + 1) ⊆ (Finset.Ico m n).filter (fun i => e.lenAt i < e.root + f.newWidth e) := fun i hi => by
      obtain ⟨hi1, hi2⟩ := Finset.mem_Ico.1 hi
      have := hc.mono (Nat.le_of_lt_succ hi2) h2
      exact Finset.mem_filter.2 ⟨Finset.mem_Ico.2 ⟨hi1, by omega⟩, by omega⟩
    have hsum := Finset.sum_le_sum_of_subset (f := fun k => 2 ^ (15 - e.lenAt k)) hsub
    have := start_add_sum_Ico e (show m ≤ k + 1 by omega)
    unfold FillEnv.spaceBelow at hbelow
    omega

/-! ## Blocks -/

/-- The block of codes that begin with the same root bits, by its number in the code space. -/
def FillEnv.block (e : FillEnv) (j : Nat) : Nat := e.start j / 2 ^ (15 - e.root)

theorem FillEnv.Canonical.mod_root_eq_iff (hc : e.Canonical n) {i j : Nat} (hi : i < n) (hj : j < n) :
    bitsAt (e.start i) % 2 ^ e.root = bitsAt (e.start j) % 2 ^ e.root ↔ e.block i = e.block j := by
  rw [bitsAt_mod (hc.start_lt hi) hc.root.2, bitsAt_mod (hc.start_lt hj) hc.root.2,
    biReverse_inj (div_lt_two_pow (hc.start_lt hi) hc.root.2) (div_lt_two_pow (hc.start_lt hj) hc.root.2)]
  rfl

/-- A code longer than the root ends inside its block. -/
theorem FillEnv.Canonical.start_succ_le (hc : e.Canonical n) {j : Nat} (hj : j < n) (hdeep : e.root < e.lenAt j) :
    e.start (j + 1) ≤ (e.block j + 1) * 2 ^ (15 - e.root) := by
  have hd := hc.dvd_start hj
  have hd' : 2 ^ (15 - e.lenAt j) ∣ (e.block j + 1) * 2 ^ (15 - e.root) := (Nat.pow_dvd_pow 2 (by omega)).mul_left _
  have hlt : e.start j < (e.block j + 1) * 2 ^ (15 - e.root) := (Nat.div_lt_iff_lt_mul (Nat.two_pow_pos _)).1 (Nat.lt_succ_self _)
  rw [start_succ]
  obtain ⟨a, ha⟩ := hd
  obtain ⟨b, hb⟩ := hd'
  rw [ha, hb] at hlt ⊢
  have := Nat.lt_of_mul_lt_mul_left hlt
  calc 2 ^ (15 - e.lenAt j) * a + 2 ^ (15 - e.lenAt j) = 2 ^ (15 - e.lenAt j) * (a + 1) := by ring
    _ ≤ _ := Nat.mul_le_mul_left _ this

/-- The code behind the last one of a block begins the next block. -/
theorem FillEnv.Canonical.start_succ_eq (hc : e.Canonical n) {j : Nat} (hj : j < n) (hdeep : e.root < e.lenAt j)
    (hne : e.block (j + 1) ≠ e.block j) : e.start (j + 1) = (e.block j + 1) * 2 ^ (15 - e.root) := by
  refine Nat.le_antisymm (hc.start_succ_le hj hdeep) ?_
  have hle : e.block j ≤ e.block (j + 1) := Nat.div_le_div_right (start_mono e (Nat.le_succ j))
  exact (Nat.le_div_iff_mul_le (Nat.two_pow_pos _)).1 (show e.block j + 1 ≤ e.block (j + 1) by omega)

end

end Sys2Proof.Machine
end

section
/-! PROOF. The fill loop passes the codes one by one and leaves a table in which each is found (43_table_decoder_fastloop.md R273 to R276). -/

namespace Sys2Proof.Machine

open Laws Claims

/-! ## The space of the code-length alphabet -/

/-- Where a table of 7 root bits has got to: its current sub-table was begun at code `p`, and the finished ones took at most 32 entries
for each code before `p`. What is left of the current block halves at most with each code, which bounds the length of its last code by
the number of its codes. -/
structure Fill.Budget (e : FillEnv) (n p j : Nat) (f : Fill) : Prop where
  first  : p ≤ j
  begun  : 2 ^ (15 - e.root) ∣ e.start p
  inside : e.start j < e.start p + 2 ^ (15 - e.root)
  used   : f.used ≤ 2 ^ e.root + 32 * p + 2 ^ f.curr
  halves : 2 ^ (15 - e.root) ≤ (e.start p + 2 ^ (15 - e.root) - e.start j) * 2 ^ (j - p)
  last   : ∀ k, p ≤ k → k < n → e.start (k + 1) = e.start p + 2 ^ (15 - e.root) → e.root + f.curr ≤ e.lenAt k

/-- The table's space is tested, or few codes need little of it. -/
def FillEnv.Roomy (e : FillEnv) (n : Nat) : Prop :=
  (∀ used, e.type.full used = false → e.base + used ≤ Du.codesSize) ∨ e.base = 0 ∧ n ≤ 19 ∧ e.root ≤ 7 ∧ (e.root = 7 ∨ e.max ≤ e.root)

/-- The loop stands before code `j` (43_table_decoder_fastloop.md R273). -/
structure Fill.Stands (e : FillEnv) (orig : Mem Word32) (n j : Nat) (f : Fill) : Prop where
  place  : j < n
  sym    : f.sym = j
  len    : f.len = e.lenAt j
  huff   : f.huff = bitsAt (e.start j)
  counts : e.Counts n j f.count
  holds  : f.Holds e orig j (f.huff % 2 ^ f.drop)
  fits   : f.drop < f.len ∧ f.len ≤ f.drop + f.curr
  wide   : f.drop = 0 ∨ ∀ i, j ≤ i → i < n → e.block i = e.block j → e.lenAt i ≤ e.root + f.curr
  budget : e.root = 7 → f.drop = 0 ∨ ∃ p, f.Budget e n p j

section
variable {e : FillEnv} {orig : Mem Word32} {n j p : Nat} {f g : Fill}

theorem two_pow_le_mul {c k : Nat} (hc : c ≤ 8) (hk : c ≤ k) : 2 ^ c ≤ 32 * (k + 1) := by
  have : 2 ^ c ≤ 32 * (c + 1) := by interval_cases c <;> decide
  omega

/-- The budget inside a block. -/
theorem Fill.Budget.step (h : f.Budget e n p j) (hc : e.Canonical n) (hj : j + 1 < n) (hdeep : e.root < e.lenAt j)
    (hsame : e.block (j + 1) = e.block j) (hused : g.used = f.used) (hcurr : g.curr = f.curr) : g.Budget e n p (j + 1) := by
  have hinside : e.start (j + 1) < e.start p + 2 ^ (15 - e.root) := by
    obtain ⟨q, hq⟩ := h.begun
    have hp := Nat.two_pow_pos (15 - e.root)
    have h1 := start_mono e h.first
    have h2 := h.inside
    have hb : e.block j = q := by
      rw [FillEnv.block, Nat.div_eq_iff hp, Nat.mul_comm q]
      omega
    have hlt : e.start (j + 1) < (e.block (j + 1) + 1) * 2 ^ (15 - e.root) := (Nat.div_lt_iff_lt_mul hp).1 (Nat.lt_succ_self _)
    rw [hsame, hb, Nat.add_mul, Nat.one_mul, Nat.mul_comm q, ← hq] at hlt
    exact hlt
  refine ⟨h.first.trans (Nat.le_add_right j 1), h.begun, hinside, hused ▸ hcurr ▸ h.used, ?_, hcurr ▸ h.last⟩
  have hd : 2 ^ (15 - e.lenAt j) ∣ e.start p + 2 ^ (15 - e.root) - e.start (j + 1) := by
    refine Nat.dvd_sub (Nat.dvd_add ((Nat.pow_dvd_pow 2 (by omega)).trans h.begun) (Nat.pow_dvd_pow 2 (by omega))) ?_
    rw [start_succ]
    exact Nat.dvd_add (hc.dvd_start (by omega)) dvd_rfl
  have hle := Nat.le_of_dvd (by omega) hd
  have hsucc := start_succ e j
  have hfirst := h.first
  calc 2 ^ (15 - e.root) ≤ (e.start p + 2 ^ (15 - e.root) - e.start j) * 2 ^ (j - p) := h.halves
    _ ≤ (2 * (e.start p + 2 ^ (15 - e.root) - e.start (j + 1))) * 2 ^ (j - p) := Nat.mul_le_mul_right _ (by omega)
    _ = (e.start p + 2 ^ (15 - e.root) - e.start (j + 1)) * 2 ^ (j + 1 - p) := by
      rw [show j + 1 - p = (j - p) + 1 by omega, Nat.pow_succ]
      ring

/-- The budget at the end of a block: its sub-table took at most 32 entries for each of its codes. -/
theorem Fill.Budget.block_end (h : f.Budget e n p j) (hc : e.Canonical n) (hj : j < n) (hdeep : e.root < e.lenAt j)
    (hnext : e.start (j + 1) = e.start p + 2 ^ (15 - e.root)) (h8 : f.curr ≤ 8) : f.used ≤ 2 ^ e.root + 32 * (j + 1) := by
  have hfirst := h.first
  have hlast := h.last j hfirst hj hnext
  have h15 := hc.len_le hj
  have hrest : e.start p + 2 ^ (15 - e.root) - e.start j = 2 ^ (15 - e.lenAt j) := by
    rw [← hnext, start_succ, Nat.add_sub_cancel_left]
  have hhalves := h.halves
  rw [hrest, ← Nat.pow_add] at hhalves
  have hexp := (Nat.pow_le_pow_iff_right (by decide)).1 hhalves
  have := two_pow_le_mul h8 (k := j - p) (by omega)
  have := h.used
  omega

/-- The budget where a sub-table is begun. -/
theorem Fill.Budget.begin {m : Nat} (hd : 2 ^ (15 - e.root) ∣ e.start m) (hused : f.used ≤ 2 ^ e.root + 32 * m + 2 ^ f.curr)
    (hlast : ∀ k, m ≤ k → k < n → e.start (k + 1) = e.start m + 2 ^ (15 - e.root) → e.root + f.curr ≤ e.lenAt k) :
    f.Budget e n m m :=
  ⟨le_rfl, hd, Nat.lt_add_of_pos_right (Nat.two_pow_pos _), hused, by rw [Nat.add_sub_cancel_left, Nat.sub_self, Nat.pow_zero, Nat.mul_one],
    hlast⟩

/-! ## A round -/

/-- Code `j` filled and passed: the loop has increased the code and counted it off. -/
def Fill.passed (e : FillEnv) (f : Fill) : Fill :=
  { f.replicate e with
    huff := nextHuff f.huff f.len
    sym := f.sym + 1
    count := f.count.set f.len (f.count.getD f.len 0 - 1) }

/-- What a round has done before it looks for the next table. -/
structure Fill.Passed (e : FillEnv) (orig : Mem Word32) (n j : Nat) (f g : Fill) : Prop where
  holds  : g.Holds e orig (j + 1) (f.huff % 2 ^ f.drop)
  huff   : g.huff = bitsAt (e.start (j + 1))
  counts : e.Counts n (j + 1) g.count

theorem Fill.Stands.passed (h : f.Stands e orig n j) (hc : e.Canonical n) : Fill.Passed e orig n j f (f.passed e) := by
  have hj := h.place
  refine ⟨(h.holds.replicate hc hj h.sym h.len h.huff rfl h.fits.1 h.fits.2).congr rfl rfl rfl rfl rfl rfl, ?_, ?_⟩
  · show nextHuff f.huff f.len = _
    rw [h.huff, h.len, nextHuff_bitsAt (hc.len_le hj) (hc.dvd_start hj), start_succ]
  · show e.Counts n (j + 1) (f.count.set f.len (f.count.getD f.len 0 - 1))
    rw [h.len]
    exact h.counts.step hc hj

/-- The loop ends behind the last code. -/
theorem Fill.Stands.ends_iff (h : f.Stands e orig n j) (hc : e.Canonical n) :
    (f.passed e).count.getD f.len 0 = 0 ∧ f.len = e.max ↔ j + 1 = n := by
  have hj := h.place
  have hz := (h.passed hc).counts.eq_zero_iff hc hj
  rw [h.len]
  constructor
  · rintro ⟨h0, hmax⟩
    by_contra hn
    have hne := (hz.1 h0).resolve_left hn
    have hlt : j + 1 < n := by omega
    have := hc.mono (Nat.le_add_right j 1) hlt
    have := (hc.used _ hlt).2
    omega
  · intro hn
    have hlast := hc.last
    rw [← hn, Nat.add_sub_cancel] at hlast
    exact ⟨hz.2 (.inl hn), hlast⟩

/-- The loop turns to the next code (43_table_decoder_fastloop.md R273). -/
def Fill.advanced (e : FillEnv) (f : Fill) : Fill :=
  if (f.passed e).count.getD f.len 0 = 0 then { f.passed e with len := e.lens.getD (e.workAt (f.sym + 1)) 0 } else f.passed e

theorem Fill.advanced_eq (e : FillEnv) (f : Fill) : f.advanced e = { f.passed e with len := (f.advanced e).len } := by
  unfold Fill.advanced
  split <;> rfl

theorem Fill.Stands.advanced (h : f.Stands e orig n j) (hc : e.Canonical n) : Fill.Passed e orig n j f (f.advanced e) := by
  obtain ⟨hholds, hhuff, hcounts⟩ := h.passed hc
  rw [Fill.advanced_eq]
  exact ⟨hholds.congr rfl rfl rfl rfl rfl rfl, hhuff, hcounts⟩

theorem Fill.Stands.len_advanced (h : f.Stands e orig n j) (hc : e.Canonical n) : (f.advanced e).len = e.lenAt (j + 1) := by
  have hz := (h.passed hc).counts.eq_zero_iff hc h.place
  rw [← h.len] at hz
  unfold Fill.advanced
  split
  · rw [h.sym]
    rfl
  · rename_i h0
    have := hz.not.1 h0
    show f.len = _
    omega

/-- The loop goes on in the current table. -/
theorem Fill.Stands.stay (h : f.Stands e orig n j) (hc : e.Canonical n) (hj : j + 1 < n) (hp : Fill.Passed e orig n j f g)
    (hsym : g.sym = j + 1) (hlen : g.len = e.lenAt (j + 1)) (hdrop : g.drop = f.drop) (hcurr : g.curr = f.curr) (hused : g.used = f.used)
    (hlow : ¬ (e.root < g.len ∧ ((g.huff % 2 ^ e.root : Nat) : Int) ≠ g.low)) : g.Stands e orig n (j + 1) := by
  have hpos := (hc.used _ hj).1
  have hgrow := hc.mono (Nat.le_add_right j 1) hj
  have hold := h.fits
  rw [h.len] at hold
  rcases hp.holds.table with hr | hs
  · have hshallow : g.len ≤ e.root := by
      rw [hr.low] at hlow
      omega
    have h0 := hr.drop
    refine ⟨hj, hsym, hlen, hp.huff, hp.counts, ?_, ⟨by omega, by rw [h0, hr.curr]; omega⟩, .inl h0, fun _ => .inl h0⟩
    have hzero : f.huff % 2 ^ f.drop = g.huff % 2 ^ g.drop := by rw [hdrop.symm.trans h0, h0]; omega
    exact hzero ▸ hp.holds
  · have hd := hs.drop
    have hf : f.drop = e.root := hdrop.symm.trans hd
    have hr1 := hc.root.1
    have hdeep : e.root < e.lenAt j := by omega
    have hsame : g.huff % 2 ^ e.root = f.huff % 2 ^ e.root := by
      rw [hs.low, hf, hlen] at hlow
      omega
    have hblock : e.block (j + 1) = e.block j := by
      rw [← hc.mod_root_eq_iff hj h.place, ← hp.huff, ← h.huff, hsame]
    have hwide := h.wide.resolve_left (by omega)
    refine ⟨hj, hsym, hlen, hp.huff, hp.counts, ?_, ⟨by omega, ?_⟩, .inr fun i hi hin hb => ?_, fun h7 => ?_⟩
    · rw [hd, hsame, ← hf]
      exact hp.holds
    · rw [hlen, hd, hcurr]
      exact hwide _ (Nat.le_add_right j 1) hj hblock
    · rw [hcurr]
      exact hwide i (by omega) hin (hb.trans hblock)
    · obtain ⟨p, hb⟩ := (h.budget h7).resolve_left (by omega)
      exact .inr ⟨p, hb.step hc hj hdeep hblock hused hcurr⟩

/-- A new sub-table begins where a block does. -/
theorem Fill.Stands.dvd_next (h : f.Stands e orig n j) (hc : e.Canonical n) (hj : j + 1 < n) (hp : Fill.Passed e orig n j f g)
    (hdrop : g.drop = f.drop) (hcurr : g.curr = f.curr) (hlow : ((g.huff % 2 ^ e.root : Nat) : Int) ≠ g.low) :
    2 ^ (15 - e.root) ∣ e.start (j + 1) ∧ (g.drop = 0 ∨ e.root < e.lenAt j ∧ e.start (j + 1) = (e.block j + 1) * 2 ^ (15 - e.root)) := by
  have hold := h.fits
  rw [h.len] at hold
  rcases hp.holds.table with hr | hs
  · refine ⟨dvd_start e fun i hi => ?_, .inl hr.drop⟩
    have := hc.mono (Nat.le_of_lt_succ hi) h.place
    have := hr.curr
    have := hr.drop
    omega
  · have hf : f.drop = e.root := hdrop.symm.trans hs.drop
    have hdeep : e.root < e.lenAt j := by omega
    have hblock : e.block (j + 1) ≠ e.block j := by
      rw [Ne, ← hc.mod_root_eq_iff hj h.place, ← hp.huff, ← h.huff]
      rw [hs.low, hf] at hlow
      exact_mod_cast hlow
    have heq := hc.start_succ_eq h.place hdeep hblock
    exact ⟨heq ▸ Nat.dvd_mul_left .., .inr ⟨hdeep, heq⟩⟩

/-- The space used before a new sub-table, where it is not tested. -/
theorem Fill.Stands.used_le (h : f.Stands e orig n j) (hc : e.Canonical n) (hp : Fill.Passed e orig n j f g) (hdrop : g.drop = f.drop)
    (hused : g.used = f.used) (h7 : e.root = 7)
    (hend : g.drop = 0 ∨ e.root < e.lenAt j ∧ e.start (j + 1) = (e.block j + 1) * 2 ^ (15 - e.root)) :
    g.used ≤ 2 ^ e.root + 32 * (j + 1) := by
  have hroot := hc.root.1
  rcases hp.holds.table with hr | hs
  · have := hp.holds.span
    rw [hr.next, hr.curr] at this
    omega
  · have hd := hs.drop
    obtain ⟨hdeep, heq⟩ := hend.resolve_left (by omega)
    obtain ⟨p, hb⟩ := (h.budget h7).resolve_left (by omega)
    have hcurr : f.curr ≤ 8 := by
      rcases h.holds.table with hr' | hs'
      · have := hr'.drop; omega
      · have := hs'.curr; omega
    rw [hused]
    refine hb.block_end hc h.place hdeep ?_ hcurr
    obtain ⟨q, hq⟩ := hb.begun
    have hpos := Nat.two_pow_pos (15 - e.root)
    have hblock : e.block j = q := by
      have h1 := start_mono e hb.first
      have h2 := hb.inside
      rw [FillEnv.block, Nat.div_eq_iff hpos, Nat.mul_comm q]
      omega
    rw [heq, hblock, hq]
    ring

/-- The loop goes on in a new sub-table. -/
theorem Fill.Stands.enter (h : f.Stands e orig n j) (hc : e.Canonical n) (hroomy : e.Roomy n) (hj : j + 1 < n)
    (hp : Fill.Passed e orig n j f g) (hsym : g.sym = j + 1) (hlen : g.len = e.lenAt (j + 1)) (hdrop : g.drop = f.drop)
    (hcurr : g.curr = f.curr) (hused : g.used = f.used) (hsize : g.size = 2 ^ g.curr)
    (hlow : e.root < g.len ∧ ((g.huff % 2 ^ e.root : Nat) : Int) ≠ g.low) {g' : Fill} (hnew : g.newSubTable e = (g', false)) :
    g'.Stands e orig n (j + 1) := by
  have hdeep : e.root < e.lenAt (j + 1) := hlen ▸ hlow.1
  have hmax := (hc.used _ hj).2
  have h15 := hc.max
  have hr1 := hc.root.1
  obtain ⟨hdvd, hend⟩ := h.dvd_next hc hj hp hdrop hcurr hlow.2
  obtain ⟨hw1, hwmax, hwide, hlast⟩ := newWidth_spec hc hj hp.counts hlen hdeep
  have hspace : e.root = 7 → g.used ≤ 2 ^ e.root + 32 * (j + 1) := fun h7 => h.used_le hc hp hdrop hused h7 hend
  have hroom : e.base + (g.used + 2 ^ g.newWidth e) ≤ Du.codesSize := by
    rcases hroomy with hfull | ⟨hbase, hn, -, h7⟩
    · refine hfull _ ?_
      have hsub : (if g.drop = 0 then e.root else g.drop) = e.root := by
        rcases hp.holds.table with hr | hs
        · rw [if_pos hr.drop]
        · rw [hs.drop, ite_self]
      unfold Fill.newSubTable at hnew
      simp only [hsub] at hnew
      change (if e.type.full (g.used + 2 ^ g.newWidth e) = true then _ else _) = _ at hnew
      split at hnew
      · cases hnew
      · rename_i hf
        exact Bool.not_eq_true _ ▸ hf
    · have h7 := h7.resolve_right (by omega)
      have := hspace h7
      have hpow : 2 ^ g.newWidth e ≤ 2 ^ 8 := Nat.pow_le_pow_right (by decide) (by omega)
      rw [h7] at this
      show e.base + _ ≤ 852 + 592
      omega
  obtain ⟨hholds, hd', hc', hu', hh', hs', hl', hcount'⟩ := hp.holds.newSubTable hc hj hp.huff hdvd hsize (by omega) ⟨hw1, by omega⟩ hroom hnew
  refine ⟨hj, hs'.trans hsym, hl'.trans hlen, hh'.trans hp.huff, hcount' ▸ hp.counts, ?_, ?_, .inr fun i hi hin hb => ?_, fun h7 => .inr ⟨j + 1, ?_⟩⟩
  · rw [hd', hh']
    exact hholds
  · rw [hl', hlen, hd', hc']
    exact ⟨hdeep, hwide _ le_rfl hj (Nat.lt_add_of_pos_right (Nat.two_pow_pos _))⟩
  · rw [hc']
    refine hwide i hi hin ?_
    have hlt : e.start i < (e.block i + 1) * 2 ^ (15 - e.root) := (Nat.div_lt_iff_lt_mul (Nat.two_pow_pos _)).1 (Nat.lt_succ_self _)
    rw [hb, Nat.add_mul, Nat.one_mul, FillEnv.block, Nat.div_mul_cancel hdvd] at hlt
    exact hlt
  · refine Fill.Budget.begin hdvd ?_ ?_
    · rw [hu', hc']
      exact Nat.add_le_add_right (hspace h7) _
    · rw [hc']
      exact hlast

/-! ## The loop -/

theorem fillTableLoop_succ (e : FillEnv) (fuel : Nat) (f : Fill) : fillTableLoop e (fuel + 1) f =
    if (f.passed e).count.getD f.len 0 = 0 ∧ f.len = e.max then ((f.passed e).finalFill, false)
    else if e.root < (f.advanced e).len ∧ (((f.advanced e).huff % 2 ^ e.root : Nat) : Int) ≠ (f.advanced e).low then
      match (f.advanced e).newSubTable e with
      | (g, true) => (g, true)
      | (g, false) => fillTableLoop e fuel g
    else fillTableLoop e fuel (f.advanced e) := rfl

/-- What the loop leaves before `final_fill`: every code in the table, and the code behind the last one in `huff`. -/
structure Fill.Filled (e : FillEnv) (orig : Mem Word32) (n : Nat) (f : Fill) : Prop where
  holds : ∃ t, f.Holds e orig n t
  huff  : f.huff = bitsAt (e.start n)
  len   : f.len = e.max

/-- The fill loop (43_table_decoder_fastloop.md R273): without a sub-table its space cannot be exhausted. -/
theorem filled_fillTableLoop (hc : e.Canonical n) (hroomy : e.Roomy n) : ∀ (fuel : Nat) {j : Nat} {f : Fill}, f.Stands e orig n j →
    n ≤ j + fuel →
    ((fillTableLoop e fuel f).2 = true → e.root < e.max) ∧
    ((fillTableLoop e fuel f).2 = false → ∃ g : Fill, g.Filled e orig n ∧ (fillTableLoop e fuel f).1 = g.finalFill)
  | 0, j, f, h, hfuel => absurd h.place (by omega)
  | fuel + 1, j, f, h, hfuel => by
    have hp := h.passed hc
    rw [fillTableLoop_succ]
    by_cases hn : j + 1 = n
    · obtain ⟨h0, hmax⟩ := (h.ends_iff hc).2 hn
      rw [if_pos ⟨h0, hmax⟩]
      exact ⟨(nomatch ·), fun _ => ⟨f.passed e, ⟨⟨_, hn ▸ hp.holds⟩, hn ▸ hp.huff, hmax⟩, rfl⟩⟩
    · have hj : j + 1 < n := by have := h.place; omega
      rw [if_neg ((h.ends_iff hc).not.2 hn)]
      have hg := h.advanced hc
      have hlen := h.len_advanced hc
      have hfields := f.advanced_eq e
      generalize f.advanced e = g at *
      have hsym : g.sym = j + 1 := by rw [hfields, ← h.sym]; rfl
      have hdrop : g.drop = f.drop := by rw [hfields]; rfl
      have hcurr : g.curr = f.curr := by rw [hfields]; rfl
      have hused : g.used = f.used := by rw [hfields]; rfl
      have hsize : g.size = 2 ^ g.curr := by rw [hfields]; rfl
      by_cases hnew : e.root < g.len ∧ ((g.huff % 2 ^ e.root : Nat) : Int) ≠ g.low
      · rw [if_pos hnew]
        have hdeep : e.root < e.max := by have := (hc.used _ hj).2; omega
        split
        · exact ⟨fun _ => hdeep, (nomatch ·)⟩
        · rename_i g' hg'
          exact filled_fillTableLoop hc hroomy fuel (h.enter hc hroomy hj hg hsym hlen hdrop hcurr hused hsize hnew hg') (by omega)
      · rw [if_neg hnew]
        exact filled_fillTableLoop hc hroomy fuel (h.stay hc hj hg hsym hlen hdrop hcurr hused hnew) (by omega)

end

end Sys2Proof.Machine
end

section
/-! PROOF. `inflate_table` from its lengths to its table (43_table_decoder_fastloop.md R270 to R276): the fill loop starts on the canonical
order of the coded symbols, and `final_fill` leaves a table in which every code is found. -/

namespace Sys2Proof.Machine

open Laws Claims

/-! ## The fill of one call -/

/-- The root width of R271. -/
def rootOf (lens : List Nat) (bits : Nat) : Nat := Nat.max (Nat.min bits (longest lens)) (shortest lens)

/-- The constants of the fill for `lens`. -/
def envOf (type : TableType) (lens : List Nat) (base bits : Nat) (work : Mem Word16) : FillEnv :=
  ⟨type, lens, sortSymbols lens (countLens lens) work, base, rootOf lens bits, longest lens⟩

/-- The loop variables where the fill begins (43_table_decoder_fastloop.md R273). -/
def firstFill (lens : List Nat) (base bits : Nat) (codes : Mem Word32) : Fill where
  codes := codes
  count := countLens lens
  huff  := 0
  sym   := 0
  len   := shortest lens
  next  := base
  curr  := rootOf lens bits
  drop  := 0
  low   := -1
  used  := 2 ^ rootOf lens bits
  size  := 0

/-- The uses of `inflate_table`, and no more of each than its space needs (43_table_decoder_fastloop.md R270). -/
def Capacity (type : TableType) (symbols base bits : Nat) : Prop :=
  match type with
  | .codes => symbols ≤ 19 ∧ base = 0 ∧ bits = 7
  | .lens => base = 0
  | .dists => base ≤ 852

theorem capacity_of_tableUse {type : TableType} {symbols base bits : Nat} (h : TableUse type symbols base bits) :
    Capacity type symbols base bits ∧ symbols ≤ 288 := by
  cases type with
  | codes =>
    obtain ⟨hs, hbase, hbits⟩ := h
    exact ⟨⟨hs.le, hbase, hbits⟩, by omega⟩
  | lens =>
    obtain ⟨-, hs, hbase, -⟩ := h
    exact ⟨hbase, by omega⟩
  | dists =>
    obtain ⟨-, hs, hbase, -⟩ := h
    exact ⟨hbase, by omega⟩

section
variable {type : TableType} {lens : List Nat} {base bits : Nat} {codes : Mem Word32} {work : Mem Word16}

/-! ### The branches of the constructor -/

theorem inflateTable_empty (h : longest lens = 0) : inflateTable type lens base bits codes work =
    ⟨0, 2, 1, Mem.wr Du.codesSize (Mem.wr Du.codesSize codes base (mkEntry 64 1 0)) (base + 1) (mkEntry 64 1 0), work⟩ := by
  unfold inflateTable
  exact if_pos h

theorem inflateTable_refused (h15 : ∀ l ∈ lens, l ≤ 15) (h : longest lens ≠ 0) (hr : ¬ AcceptedLengths type lens) :
    (inflateTable type lens base bits codes work).ret = -1 := by
  rw [acceptedLengths_iff h15 type h, not_and_or, not_not, not_not] at hr
  unfold inflateTable
  change TableResult.ret (if longest lens = 0 then _ else _) = -1
  rw [if_neg h, leftover_eq]
  by_cases hneg : spaceLeft lens 15 < 0
  · rw [if_pos hneg]
  · rw [if_neg hneg]
    exact congrArg TableResult.ret (if_pos (hr.resolve_left hneg))

theorem inflateTable_accepted (h15 : ∀ l ∈ lens, l ≤ 15) (h : longest lens ≠ 0) (ha : AcceptedLengths type lens) :
    inflateTable type lens base bits codes work =
      if type.full (2 ^ rootOf lens bits) then
        ⟨1, 2 ^ rootOf lens bits, rootOf lens bits, codes, sortSymbols lens (countLens lens) work⟩
      else
        let r := fillTableLoop (envOf type lens base bits work) lens.length (firstFill lens base bits codes)
        ⟨if r.2 then 1 else 0, r.1.used, rootOf lens bits, r.1.codes, sortSymbols lens (countLens lens) work⟩ := by
  obtain ⟨hneg, hpos⟩ := (acceptedLengths_iff h15 type h).1 ha
  unfold inflateTable
  change (if longest lens = 0 then _ else _) = _
  rw [if_neg h, leftover_eq, if_neg hneg]
  exact if_neg hpos

theorem huff_firstFill : bitsAt ((envOf type lens base bits work).start 0) = (firstFill lens base bits codes).huff :=
  congrArg bitsAt (Finset.sum_range_zero ..)

/-! ### The coded symbols in canonical order -/

theorem exists_coded {l : Nat} (hl : l ∈ lens) (h0 : l ≠ 0) : ∃ w ∈ coded lens, lenOf lens w = l := by
  obtain ⟨w, hw, rfl⟩ := List.getElem_of_mem hl
  have hlen : lenOf lens w = lens[w] := List.getD_eq_getElem _ _ hw
  exact ⟨w, mem_coded.2 ⟨hw, hlen ▸ h0⟩, hlen⟩

theorem lenOf_mem {w : Nat} (hw : w ∈ coded lens) : lenOf lens w ∈ lens := by
  have hlt := (mem_coded.1 hw).1
  rw [lenOf, List.getD_eq_getElem _ _ hlt]
  exact List.getElem_mem hlt

theorem lenOf_le (h15 : ∀ l ∈ lens, l ≤ 15) {w : Nat} (hw : w ∈ coded lens) : lenOf lens w ≤ 15 := h15 _ (lenOf_mem hw)

theorem rootOf_spec (h : longest lens ≠ 0) : 1 ≤ rootOf lens bits ∧ shortest lens ≤ rootOf lens bits ∧ rootOf lens bits ≤ longest lens := by
  have h1 := one_le_shortest lens
  have h2 := shortest_le_longest h
  show 1 ≤ max (min bits _) _ ∧ _ ≤ max (min bits _) _ ∧ max (min bits _) _ ≤ _
  omega

section
variable (h15 : ∀ l ∈ lens, l ≤ 15) (h288 : lens.length ≤ 288) (hwork : Mem.wf Du.workSize work = true)
include h15 h288 hwork

theorem workAt_rank {w : Nat} (hw : w ∈ coded lens) : (envOf type lens base bits work).workAt (rank lens w) = w := by
  have hlt := (mem_coded.1 hw).1
  show (Mem.rd Du.workSize (sortSymbols lens (countLens lens) work) _).toNat = w
  rw [rd_sortSymbols h15 h288 hwork hw, word16Of, BitVec.toNat_ofNat, Nat.mod_eq_of_lt (by omega)]

theorem lenAt_rank {w : Nat} (hw : w ∈ coded lens) : (envOf type lens base bits work).lenAt (rank lens w) = lenOf lens w := by
  rw [FillEnv.lenAt, workAt_rank h15 h288 hwork hw]
  rfl

/-- The first codes take the space of their symbols. -/
theorem start_card {S : Finset Nat} (hS : S ⊆ coded lens) (hfirst : ∀ v ∈ S, rank lens v < S.card) :
    (envOf type lens base bits work).start S.card = ∑ v ∈ S, 2 ^ (15 - lenOf lens v) := by
  have hinj : Set.InjOn (rank lens) S := (rank_injOn lens).mono hS
  have himage : S.image (rank lens) = Finset.range S.card :=
    Finset.eq_of_subset_of_card_le (fun i hi => by
      obtain ⟨v, hv, rfl⟩ := Finset.mem_image.1 hi
      exact Finset.mem_range.2 (hfirst v hv)) (by rw [Finset.card_range, Finset.card_image_of_injOn hinj])
  rw [FillEnv.start, ← himage, Finset.sum_image hinj]
  exact Finset.sum_congr rfl fun v hv => by rw [lenAt_rank h15 h288 hwork (hS hv)]

theorem start_all : (envOf type lens base bits work).start (coded lens).card = codeSpace lens := by
  rw [start_card h15 h288 hwork Finset.Subset.rfl fun v hv => rank_lt hv, codeSpace_eq_coded h15]

theorem start_rank (w : Nat) :
    (envOf type lens base bits work).start (rank lens w) = ∑ v ∈ earlier lens w, 2 ^ (15 - lenOf lens v) :=
  start_card h15 h288 hwork (Finset.filter_subset ..) fun _ hv => rank_lt_of_earlier hv

theorem canonical_envOf (h : longest lens ≠ 0) (hspace : codeSpace lens ≤ 2 ^ 15) :
    (envOf type lens base bits work).Canonical (coded lens).card := by
  obtain ⟨u, hu, hlong⟩ := exists_coded (longest_mem h) h
  have hused : ∀ j < (coded lens).card, 1 ≤ (envOf type lens base bits work).lenAt j ∧ (envOf type lens base bits work).lenAt j ≤ longest lens :=
    fun j hj => by
      obtain ⟨w, hw, rfl⟩ := exists_rank_eq hj
      rw [lenAt_rank h15 h288 hwork hw]
      exact ⟨Nat.pos_of_ne_zero (mem_coded.1 hw).2, le_longest h15 (lenOf_mem hw)⟩
  have hmono : ∀ {i j}, i ≤ j → j < (coded lens).card →
      (envOf type lens base bits work).lenAt i ≤ (envOf type lens base bits work).lenAt j := fun {i j} hij hj => by
    obtain ⟨v, hv, rfl⟩ := exists_rank_eq (hij.trans_lt hj)
    obtain ⟨w, hw, rfl⟩ := exists_rank_eq hj
    rw [lenAt_rank h15 h288 hwork hv, lenAt_rank h15 h288 hwork hw]
    rcases Nat.eq_or_lt_of_le hij with heq | hlt
    · exact (congrArg (lenOf lens) (rank_injOn lens hv hw heq)).le
    · have := (mem_earlier.1 ((mem_earlier_iff_rank_lt hv hw).2 hlt)).2
      omega
  have hrank := rank_lt hu
  obtain ⟨hroot1, -, hrootmax⟩ := rootOf_spec (bits := bits) h
  refine ⟨by omega, hused, longest_le lens, hmono, ?_, (start_all h15 h288 hwork).trans_le hspace, hroot1, hrootmax.trans (longest_le lens)⟩
  refine Nat.le_antisymm (hused _ (by omega)).2 ?_
  rw [show (envOf type lens base bits work).max = lenOf lens u from hlong.symm,
    ← lenAt_rank (type := type) (base := base) (bits := bits) h15 h288 hwork hu]
  exact hmono (by omega) (by omega)

/-- The code space before a symbol's code is its canonical code (30_encoding.md R113). -/
theorem canonicalCode_mul {w : Nat} (hw : w ∈ coded lens) :
    canonicalCode lens w * 2 ^ (15 - lenOf lens w) = (envOf type lens base bits work).start (rank lens w) := by
  obtain ⟨hlt, h0⟩ := mem_coded.1 hw
  have hle := lenOf_le h15 hw
  have hcode := canonicalCode_eq (lenOf lens) hlt
  rw [← lens_eq_map] at hcode
  rw [start_rank h15 h288 hwork w, hcode, Finset.sum_mul, earlier, coded, Finset.filter_filter, Finset.sum_filter]
  refine Finset.sum_congr rfl fun v _ => ?_
  unfold spaceBefore
  by_cases hshort : 0 < lenOf lens v ∧ lenOf lens v < lenOf lens w
  · rw [if_pos hshort, if_pos ⟨by omega, .inl hshort.2⟩, ← Nat.pow_add]
    exact congrArg (2 ^ ·) (by omega)
  · rw [if_neg hshort]
    by_cases hsame : lenOf lens v = lenOf lens w ∧ v < w
    · rw [if_pos hsame, if_pos ⟨by omega, .inr hsame⟩, Nat.one_mul, hsame.1]
    · rw [if_neg hsame, if_neg (by omega), Nat.zero_mul]

theorem covers_rank_iff {w : Nat} (hw : w ∈ coded lens) (b : Nat) :
    (envOf type lens base bits work).Covers (rank lens w) b ↔ codeRead b (lenOf lens w) = canonicalCode lens w := by
  have hp := Nat.two_pow_pos (15 - lenOf lens w)
  rw [FillEnv.Covers, start_succ, lenAt_rank h15 h288 hwork hw, ← canonicalCode_mul h15 h288 hwork hw, codeRead_eq_place b (lenOf_le h15 hw),
    Nat.div_eq_iff hp]
  omega

/-! ### Where the loop begins -/

theorem counts_countLens : (envOf type lens base bits work).Counts (coded lens).card 0 (countLens lens) := by
  refine ⟨length_countLens lens, fun l hl => ?_⟩
  have himage : (Finset.Ico 0 (coded lens).card).filter (fun i => (envOf type lens base bits work).lenAt i = l) =
      ((coded lens).filter fun w => lenOf lens w = l).image (rank lens) := by
    ext i
    simp only [Finset.mem_filter, Finset.mem_Ico, Finset.mem_image]
    constructor
    · rintro ⟨⟨-, hi⟩, hlen⟩
      obtain ⟨w, hw, rfl⟩ := exists_rank_eq hi
      exact ⟨w, ⟨hw, (lenAt_rank h15 h288 hwork hw).symm.trans hlen⟩, rfl⟩
    · rintro ⟨w, ⟨hw, hlen⟩, rfl⟩
      exact ⟨⟨Nat.zero_le _, rank_lt hw⟩, (lenAt_rank h15 h288 hwork hw).trans hlen⟩
  rw [himage, Finset.card_image_of_injOn ((rank_injOn lens).mono (Finset.filter_subset ..))]
  rcases Nat.lt_or_ge l 16 with hlt | hge
  · rw [getD_countLens lens hlt, count_eq_card, coded, Finset.filter_filter]
    congr 1
    ext w
    simp only [Finset.mem_filter, Finset.mem_range]
    omega
  · rw [List.getD_eq_default _ _ ((length_countLens lens).trans_le hge), eq_comm, Finset.card_eq_zero, Finset.filter_eq_empty_iff]
    intro w hw
    have := lenOf_le h15 hw
    omega

theorem lenAt_zero (h : longest lens ≠ 0) : (envOf type lens base bits work).lenAt 0 = shortest lens := by
  obtain ⟨u, hu, hshort⟩ := exists_coded (shortest_mem h) (Nat.pos_iff_ne_zero.1 (one_le_shortest lens))
  obtain ⟨w, hw, hrank⟩ := exists_rank_eq (Nat.zero_lt_of_lt (rank_lt hu))
  have hle := shortest_le h15 (lenOf_mem hw) (mem_coded.1 hw).2
  rw [← hrank, lenAt_rank h15 h288 hwork hw]
  rcases Nat.eq_zero_or_pos (rank lens u) with h0 | hpos
  · rw [rank_injOn lens hw hu (hrank.trans h0.symm), hshort]
  · have := (mem_earlier.1 ((mem_earlier_iff_rank_lt hw hu).2 (hrank ▸ hpos))).2
    omega

theorem stands_firstFill (h : longest lens ≠ 0) (hspace : codeSpace lens ≤ 2 ^ 15) (hcodes : Mem.wf Du.codesSize codes = true)
    (htested : type.full (2 ^ rootOf lens bits) = false) (hroom : base + 2 ^ rootOf lens bits ≤ Du.codesSize) :
    (firstFill lens base bits codes).Stands (envOf type lens base bits work) codes (coded lens).card 0 := by
  have hc := canonical_envOf (type := type) (base := base) (bits := bits) h15 h288 hwork h hspace
  obtain ⟨-, hshort, -⟩ := rootOf_spec (bits := bits) h
  refine ⟨hc.some, rfl, (lenAt_zero h15 h288 hwork h).symm, huff_firstFill.symm, counts_countLens h15 h288 hwork, ?_,
    ⟨one_le_shortest lens, (Nat.zero_add (rootOf lens bits)).symm ▸ hshort⟩, .inl rfl, fun _ => .inl rfl⟩
  exact ⟨hcodes, htested, hroom, rfl, le_rfl, Nat.one_pos, .inl ⟨rfl, rfl, rfl, rfl⟩, fun _ _ => rfl,
    fun _ _ hi => absurd hi (Nat.not_lt_zero _), fun _ _ hi => absurd hi (Nat.not_lt_zero _)⟩

end

/-! ### The space -/

/-- A complete code over the code-length alphabet has a code of at most 7 bits. -/
theorem shortest_le_seven (h15 : ∀ l ∈ lens, l ≤ 15) (h19 : lens.length ≤ 19) (hspace : codeSpace lens = 2 ^ 15) : shortest lens ≤ 7 := by
  by_contra hlong
  have hterm : ∀ w ∈ coded lens, 2 ^ (15 - lenOf lens w) ≤ 128 := fun w hw => by
    have := shortest_le h15 (lenOf_mem hw) (mem_coded.1 hw).2
    exact (Nat.pow_le_pow_right Nat.two_pos (show _ ≤ 7 by omega)).trans_eq rfl
  have hsum : codeSpace lens ≤ (coded lens).card * 128 := codeSpace_eq_coded h15 ▸ Finset.sum_le_card_nsmul _ _ _ hterm
  have hcard := card_coded_le lens
  omega

theorem codeSpace_of_accepted (ha : AcceptedLengths type lens) (h : codeSpace lens ≠ 0) :
    codeSpace lens = 2 ^ 15 ∨ type ≠ .codes ∧ codeSpace lens = 2 ^ 14 ∧ lens.filter (· ≠ 0) = [1] := by
  rcases ha with h0 | hfull | ⟨ht, hone⟩
  · exact absurd h0 h
  · exact .inl hfull
  · exact .inr ⟨ht, codeSpace_of_filter_eq_one hone, hone⟩

theorem roomy_envOf (h15 : ∀ l ∈ lens, l ≤ 15) (hcap : Capacity type lens.length base bits) (ha : AcceptedLengths type lens)
    (h : longest lens ≠ 0) : (envOf type lens base bits work).Roomy (coded lens).card := by
  have hspace := codeSpace_of_accepted ha ((codeSpace_eq_zero_iff h15).not.2 h)
  cases type with
  | codes =>
    obtain ⟨h19, hbase, rfl⟩ := hcap
    have hshort := shortest_le_seven h15 h19 (hspace.resolve_right fun hn => hn.1 rfl)
    have hroot : (envOf .codes lens base 7 work).root = max (min 7 (longest lens)) (shortest lens) := rfl
    have hmax : (envOf .codes lens base 7 work).max = longest lens := rfl
    exact .inr ⟨hbase, (card_coded_le lens).trans h19, by omega, by omega⟩
  | lens =>
    refine .inl fun used hu => ?_
    have hbase : base = 0 := hcap
    have hle : ¬ 852 < used := of_decide_eq_false hu
    show base + used ≤ 852 + 592
    omega
  | dists =>
    refine .inl fun used hu => ?_
    have hbase : base ≤ 852 := hcap
    have hle : ¬ 592 < used := of_decide_eq_false hu
    show base + used ≤ 852 + 592
    omega

theorem FillEnv.Roomy.root_le {e : FillEnv} {n : Nat} (h : e.Roomy n) (htested : e.type.full (2 ^ e.root) = false) :
    e.base + 2 ^ e.root ≤ Du.codesSize := by
  rcases h with hfull | ⟨hbase, -, hroot, -⟩
  · exact hfull _ htested
  · have := Nat.pow_le_pow_right (n := 2) (by decide) hroot
    show e.base + _ ≤ 852 + 592
    omega

end

/-! ## The finished table -/

/-- The codes fill the code space, or they are one code of one bit. -/
def FillEnv.Closed (e : FillEnv) (n : Nat) : Prop := e.start n = 2 ^ 15 ∨ e.start n = 2 ^ 14 ∧ e.root = 1 ∧ e.max = 1

/-- A table of `used` entries in which every code is found, and an invalid entry where there is none. -/
structure FillEnv.Built (e : FillEnv) (orig : Mem Word32) (n used : Nat) (m : Mem Word32) : Prop where
  tested  : e.type.full used = false
  room    : e.base + used ≤ Du.codesSize
  flat    : e.max ≤ e.root → used = 2 ^ e.root
  frame   : ∀ i, i < e.base ∨ e.base + used ≤ i → Mem.rd Du.codesSize m i = Mem.rd Du.codesSize orig i
  found   : ∀ b i, i < n → e.Covers i b → e.Found (e.base + used) m b i
  missing : ∀ b, (∀ i < n, ¬ e.Covers i b) → Mem.rd Du.codesSize m (e.base + b % 2 ^ e.root) = mkEntry 64 1 0

section
variable {e : FillEnv} {orig : Mem Word32} {n t : Nat} {f : Fill}

theorem Fill.Holds.flat (h : f.Holds e orig n t) (hmax : e.max ≤ e.root) : f.RootTable e ∧ f.used = 2 ^ e.root := by
  have hr := h.table.resolve_right fun hs => absurd hs.deep (by omega)
  refine ⟨hr, ?_⟩
  have := h.span
  rw [hr.next, hr.curr] at this
  omega

/-- The table of a complete set: `final_fill` has nothing to do. -/
theorem Fill.Filled.built_full (h : f.Filled e orig n) (hfull : e.start n = 2 ^ 15) : e.Built orig n f.finalFill.used f.finalFill.codes := by
  obtain ⟨t, hh⟩ := h.holds
  have hhuff : f.huff = 0 := by rw [h.huff, hfull]; rfl
  rw [show f.finalFill = f from if_neg (not_not.2 hhuff)]
  refine ⟨hh.tested, hh.room, fun hmax => (hh.flat hmax).2, hh.frame, fun b i hi hcov => hh.found hi hcov, fun b hnone => ?_⟩
  obtain ⟨i, hi, hcov⟩ := exists_covers (e := e) (m := n) (hfull ▸ place_lt b)
  exact absurd hcov (hnone i hi)

theorem bitsAt_half : bitsAt (2 ^ 14) = 1 := rfl

/-- The table of a single code of one bit: `final_fill` writes the entry of the other bit (43_table_decoder_fastloop.md R275). -/
theorem Fill.Filled.built_single (h : f.Filled e orig n) (hhalf : e.start n = 2 ^ 14) (hroot : e.root = 1) (hmax : e.max = 1) :
    e.Built orig n f.finalFill.used f.finalFill.codes := by
  obtain ⟨t, hh⟩ := h.holds
  obtain ⟨hr, hused⟩ := hh.flat (by omega)
  have hhuff : f.huff = 1 := by rw [h.huff, hhalf, bitsAt_half]
  have hfinal : f.finalFill = { f with codes := Mem.wr Du.codesSize f.codes (e.base + 1) (mkEntry 64 1 0) } := by
    rw [Fill.finalFill, if_pos (by omega), hhuff, hr.next, hr.drop, h.len, hmax]
  have hroom := hh.room
  rw [hroot] at hused
  have hrd : ∀ i, Mem.rd Du.codesSize f.finalFill.codes i =
      if i = e.base + 1 ∧ e.base + 1 < Du.codesSize then mkEntry 64 1 0 else Mem.rd Du.codesSize f.codes i := fun i => by
    rw [hfinal]
    exact Mem.rd_wr hh.wf
  have hfused : f.finalFill.used = f.used := by rw [hfinal]
  have hbit : ∀ b, b % 2 ^ e.root = 1 ↔ e.start n ≤ place b := fun b => by
    have hb := mod_eq_bitsAt_iff b (c := 2 ^ 14) (l := 1) (by decide) (by decide) dvd_rfl
    have := place_lt b
    rw [bitsAt_half] at hb
    rw [hroot, hhalf]
    exact hb.trans ⟨And.left, fun hle => ⟨hle, by omega⟩⟩
  rw [hfused]
  refine ⟨hh.tested, hh.room, fun _ => by rw [hroot]; exact hused, fun i hi => ?_, fun b i hi hcov => ?_, fun b hnone => ?_⟩
  · rw [hrd, if_neg (by omega)]
    exact hh.frame i hi
  · have hlow : b % 2 ^ e.root ≠ 1 := fun h1 => by
      have := hcov.2.trans_le (start_mono e (show i + 1 ≤ n from hi))
      have := (hbit b).1 h1
      omega
    refine (hh.found hi hcov).of_agree le_rfl ?_ fun k hk _ => ?_
    · rw [hrd, if_neg (by omega)]
    · rw [hroot] at hk
      rw [hrd, if_neg (by omega)]
  · have hle : e.start n ≤ place b := Nat.le_of_not_lt fun hlt => by
      obtain ⟨i, hi, hcov⟩ := exists_covers hlt
      exact hnone i hi hcov
    rw [hrd, (hbit b).2 hle, if_pos ⟨rfl, by omega⟩]

theorem Fill.Filled.built (h : f.Filled e orig n) (hclosed : e.Closed n) : e.Built orig n f.finalFill.used f.finalFill.codes := by
  rcases hclosed with hfull | ⟨hhalf, hroot, hmax⟩
  · exact h.built_full hfull
  · exact h.built_single hhalf hroot hmax

end

end Sys2Proof.Machine
end

section
/-! PROOF. `inflate_table` accepts the complete sets and its lookup decodes their canonical code (43_table_decoder_fastloop.md R270, R271,
R277, R278, R288). -/

namespace Sys2Proof.Machine

open Laws Claims

/-! ## Lookups in a finished table -/

theorem entryBits_tableEntry (type : TableType) (w : Nat) {n : Nat} (hn : n ≤ 15) : entryBits (tableEntry type w n) = n := by
  have hmod : n % 256 = n := Nat.mod_eq_of_lt (by omega)
  cases type with
  | codes => exact (entryBits_mkEntry ..).trans hmod
  | lens => exact (entryBits_lensEntry ..).trans hmod
  | dists => exact (entryBits_distsEntry ..).trans hmod

theorem isLink_tableEntry (type : TableType) (w n : Nat) : Du.isLink (tableEntry type w n) = false := by
  cases type with
  | codes => simp only [tableEntry, Du.isLink, entryOp_mkEntry]; rfl
  | lens => exact Bool.eq_false_iff.2 fun h => Bool.false_ne_true ((linkLl_lensEntry w n).symm.trans (linkLl_of_isLink h))
  | dists => exact Bool.eq_false_iff.2 fun h => Bool.false_ne_true ((linkDist_distsEntry w n).symm.trans (linkDist_of_isLink h))

theorem isLink_mkEntry {op n val : Nat} (h1 : 1 ≤ op) (h15 : op ≤ 15) : Du.isLink (mkEntry op n val) = true := by
  simp only [Du.isLink, entryOp_mkEntry, Bool.and_eq_true, decide_eq_true_eq]
  omega

theorem isLink_invalid : Du.isLink (mkEntry 64 1 0) = false := by simp only [Du.isLink, entryOp_mkEntry]; rfl

theorem tableAt_codes {d : Du} {m : Mem Word32} (hd : d.codes = m) (base i : Nat) :
    d.tableAt ⟨.codes, base⟩ i = Mem.rd Du.codesSize m (base + i) := hd ▸ rfl

section
variable {e : FillEnv} {m orig : Mem Word32} {d : Du} {b j : Nat}

/-- What is found is what the lookup answers (43_table_decoder_fastloop.md R288). -/
theorem FillEnv.Found.lookup_eq {hi : Nat} (h : e.Found hi m b j) (hhi : hi ≤ Du.codesSize) (h15 : e.lenAt j ≤ 15) (hd : d.codes = m) :
    ∃ k ≤ 15, d.lookup ⟨.codes, e.base⟩ e.root b = (tableEntry e.type (e.workAt j) k, e.lenAt j) := by
  rcases h with ⟨-, hleaf⟩ | ⟨width, next, hdeep, hw, hw15, hnext, hend, hlink, hleaf⟩
  · rw [← tableAt_codes hd] at hleaf
    refine ⟨e.lenAt j, h15, ?_⟩
    rw [Du.lookup_plain (hleaf ▸ isLink_tableEntry ..), hleaf]
    exact congrArg (Prod.mk _) (entryBits_tableEntry _ _ h15)
  · rw [← tableAt_codes hd] at hlink
    have hhi : hi ≤ 852 + 592 := hhi
    have hroot := Nat.two_pow_pos e.root
    have hpow := Nat.two_pow_pos width
    refine ⟨e.lenAt j - e.root, by omega, ?_⟩
    rw [Du.lookup_link hlink (isLink_mkEntry hw (by omega)), entryVal_mkEntry, entryBits_mkEntry, entryOp_mkEntry,
      Nat.mod_eq_of_lt (show next - e.base < 65536 by omega), Nat.mod_eq_of_lt (show e.root < 256 by omega),
      Nat.mod_eq_of_lt (show width < 256 by omega), tableAt_codes hd,
      show e.base + (next - e.base + b / 2 ^ e.root % 2 ^ width) = next + b / 2 ^ e.root % 2 ^ width by omega, hleaf, FillEnv.entryAt,
      entryBits_tableEntry _ _ (by omega), Nat.add_sub_cancel' hdeep.le]

end

/-! ## The outcome of a call -/

section
variable {type : TableType} {lens : List Nat} {base bits : Nat} {codes : Mem Word32} {work : Mem Word16}
variable (h15 : ∀ l ∈ lens, l ≤ 15) (h288 : lens.length ≤ 288) (hcap : Capacity type lens.length base bits)
  (hcodes : Mem.wf Du.codesSize codes = true) (hwork : Mem.wf Du.workSize work = true)

include h15 h288 hwork in
theorem closed_envOf (h : longest lens ≠ 0) (ha : AcceptedLengths type lens) :
    (envOf type lens base bits work).Closed (coded lens).card := by
  rw [FillEnv.Closed, start_all h15 h288 hwork]
  refine (codeSpace_of_accepted ha ((codeSpace_eq_zero_iff h15).not.2 h)).imp_right fun ⟨_, hhalf, hone⟩ => ⟨hhalf, ?_⟩
  have hlong : longest lens = 1 := (filter_eq_one_iff h15 (by rw [hhalf]; decide) h).1 hone
  obtain ⟨hroot1, -, hrootmax⟩ := rootOf_spec (bits := bits) h
  exact ⟨Nat.le_antisymm (hrootmax.trans hlong.le) hroot1, hlong⟩

include h15 h288 hcap hcodes hwork in
/-- Accepted lengths give a table, unless the space is exhausted; for that the root must exceed it, or a sub-table. -/
theorem inflateTable_spec (h : longest lens ≠ 0) (ha : AcceptedLengths type lens) :
    (inflateTable type lens base bits codes work).root = rootOf lens bits ∧
    ((inflateTable type lens base bits codes work).ret = 1 ∧ (type.full (2 ^ rootOf lens bits) = true ∨ rootOf lens bits < longest lens) ∨
      (inflateTable type lens base bits codes work).ret = 0 ∧
        (envOf type lens base bits work).Built codes (coded lens).card (inflateTable type lens base bits codes work).used
          (inflateTable type lens base bits codes work).codes) := by
  rw [inflateTable_accepted h15 h ha]
  split
  · rename_i hfull
    exact ⟨rfl, .inl ⟨rfl, .inl hfull⟩⟩
  · rename_i htested
    rw [Bool.not_eq_true] at htested
    have hclosed := closed_envOf (base := base) (bits := bits) h15 h288 hwork h ha
    have hspace : codeSpace lens ≤ 2 ^ 15 := by
      rcases codeSpace_of_accepted ha ((codeSpace_eq_zero_iff h15).not.2 h) with hs | ⟨-, hs, -⟩
      · exact hs.le
      · rw [hs]; decide
    have hc := canonical_envOf (type := type) (base := base) (bits := bits) h15 h288 hwork h hspace
    have hroomy := roomy_envOf (work := work) h15 hcap ha h
    have hstands : (firstFill lens base bits codes).Stands (envOf type lens base bits work) codes (coded lens).card 0 :=
      stands_firstFill h15 h288 hwork h hspace hcodes htested (hroomy.root_le htested)
    obtain ⟨hfull, hdone⟩ := filled_fillTableLoop hc hroomy lens.length hstands ((card_coded_le lens).trans (Nat.le_add_left ..))
    refine ⟨rfl, ?_⟩
    dsimp only
    generalize fillTableLoop (envOf type lens base bits work) lens.length (firstFill lens base bits codes) = r at hfull hdone ⊢
    cases hr : r.2 with
    | true => exact .inl ⟨rfl, .inr (hfull hr)⟩
    | false =>
      obtain ⟨g, hg, heq⟩ := hdone hr
      exact .inr ⟨rfl, heq ▸ hg.built hclosed⟩

include h15 h288 hwork in
/-- The lookup in a finished table finds the symbol whose canonical code stands first in the bits. -/
theorem FillEnv.Built.lookup_coded {used : Nat} {m : Mem Word32} (hb : (envOf type lens base bits work).Built codes (coded lens).card used m)
    {d : Du} (hd : d.codes = m) {w : Nat} (hw : w ∈ coded lens) {b : Nat} (hcode : codeRead b (lenOf lens w) = canonicalCode lens w) :
    (d.lookup ⟨.codes, base⟩ (rootOf lens bits) b).1 =
        tableEntry type w (entryBits (d.lookup ⟨.codes, base⟩ (rootOf lens bits) b).1) ∧
      (d.lookup ⟨.codes, base⟩ (rootOf lens bits) b).2 = lenOf lens w := by
  have hfound := hb.found b _ (rank_lt hw) ((covers_rank_iff h15 h288 hwork hw b).2 hcode)
  have hlen := lenAt_rank (type := type) (base := base) (bits := bits) h15 h288 hwork hw
  obtain ⟨k, hk, heq⟩ := hfound.lookup_eq hb.room (hlen.trans_le (lenOf_le h15 hw)) hd
  rw [workAt_rank h15 h288 hwork hw, hlen] at heq
  change d.lookup ⟨.codes, base⟩ (rootOf lens bits) b = (tableEntry type w k, lenOf lens w) at heq
  rw [heq, entryBits_tableEntry type w hk]
  exact ⟨rfl, rfl⟩

include h15 h288 hwork in
/-- The lookup of bits that begin with no code finds an invalid entry. -/
theorem FillEnv.Built.lookup_missing {used : Nat} {m : Mem Word32} (hb : (envOf type lens base bits work).Built codes (coded lens).card used m)
    {d : Du} (hd : d.codes = m) {b : Nat} (hnone : ∀ w ∈ coded lens, codeRead b (lenOf lens w) ≠ canonicalCode lens w) :
    entryOp (d.lookup ⟨.codes, base⟩ (rootOf lens bits) b).1 = 64 := by
  have hentry := hb.missing b fun i hi hcov => by
    obtain ⟨w, hw, rfl⟩ := exists_rank_eq hi
    exact hnone w hw ((covers_rank_iff h15 h288 hwork hw b).1 hcov)
  change Mem.rd Du.codesSize m (base + b % 2 ^ rootOf lens bits) = _ at hentry
  rw [← tableAt_codes hd] at hentry
  rw [Du.lookup_plain (hentry ▸ isLink_invalid), hentry, entryOp_mkEntry]

/-! ### Without codes -/

theorem rd_inflateTable_empty (hcodes : Mem.wf Du.codesSize codes = true) (h : longest lens = 0) (hroom : base + 2 ≤ Du.codesSize) (i : Nat) :
    Mem.rd Du.codesSize (inflateTable type lens base bits codes work).codes i =
      if base ≤ i ∧ i < base + 2 then mkEntry 64 1 0 else Mem.rd Du.codesSize codes i := by
  rw [inflateTable_empty h, Mem.rd_wr (Mem.wf_wr hcodes), Mem.rd_wr hcodes]
  by_cases h1 : i = base + 1
  · rw [if_pos ⟨h1, by omega⟩, if_pos (by omega)]
  · rw [if_neg fun hc => h1 hc.1]
    exact if_congr (by omega) rfl rfl

theorem lookup_inflateTable_empty (hcodes : Mem.wf Du.codesSize codes = true) (h : longest lens = 0) (hroom : base + 2 ≤ Du.codesSize)
    {d : Du} (hd : d.codes = (inflateTable type lens base bits codes work).codes) (b : Nat) : entryOp (d.lookup ⟨.codes, base⟩ 1 b).1 = 64 := by
  have hentry : d.tableAt ⟨.codes, base⟩ (b % 2 ^ 1) = mkEntry 64 1 0 := by
    rw [tableAt_codes hd, rd_inflateTable_empty hcodes h hroom, if_pos (by omega)]
  rw [Du.lookup_plain (hentry ▸ isLink_invalid), hentry, entryOp_mkEntry]

end

/-! ## The obligation -/

theorem Capacity.base_le {type : TableType} {symbols base bits : Nat} (h : Capacity type symbols base bits) : base ≤ 852 := by
  cases type with
  | codes => exact h.2.1.trans_le (Nat.zero_le _)
  | lens => exact (show base = 0 from h).trans_le (Nat.zero_le _)
  | dists => exact h

/-- Settles O57: by `filled_fillTableLoop`, an invariant of the fill loop. -/
theorem inflateTableDecodesTheCode : Obligations.InflateTableDecodesTheCode := by
  unfold Obligations.InflateTableDecodesTheCode
  intro type lens base bits codes work h15 huse hcodes hwork
  obtain ⟨hcap, h288⟩ := capacity_of_tableUse huse
  by_cases h : longest lens = 0
  · have hzero := (longest_eq_zero_iff h15).1 h
    have hbase := hcap.base_le
    have hroom : base + 2 ≤ Du.codesSize := show base + 2 ≤ 852 + 592 by omega
    have hrd := rd_inflateTable_empty (type := type) (bits := bits) (work := work) hcodes h hroom
    have heq := inflateTable_empty (type := type) (base := base) (bits := bits) (codes := codes) (work := work) h
    have hret : (inflateTable type lens base bits codes work).ret = 0 := by rw [heq]
    have hused : (inflateTable type lens base bits codes work).used = 2 := by rw [heq]
    have hroot : (inflateTable type lens base bits codes work).root = 1 := by rw [heq]
    dsimp only
    rw [hret, hused, hroot, if_pos hzero]
    refine ⟨iff_of_false (by decide) (not_not.2 (.inl ((codeSpace_eq_zero_iff h15).2 h))), .inl rfl, fun _ => ⟨hroom, fun _ => by decide, rfl,
      fun i hi => ?_, fun d b hd => ⟨fun w hlt h0 => absurd (hzero _ (lenOf_mem (mem_coded.2 ⟨hlt, h0⟩))) h0,
        fun _ => lookup_inflateTable_empty hcodes h hroom hd b⟩⟩⟩
    rw [hrd, if_neg (by omega)]
  · by_cases ha : AcceptedLengths type lens
    · obtain ⟨hroot, hout⟩ := inflateTable_spec h15 h288 hcap hcodes hwork h ha
      dsimp only
      refine ⟨iff_of_false (by rcases hout with ⟨hret, -⟩ | ⟨hret, -⟩ <;> rw [hret] <;> decide) (not_not.2 ha), by tauto, fun h0 => ?_⟩
      obtain ⟨-, hb⟩ := hout.resolve_left fun h1 => by rw [h0] at h1; exact absurd h1.1 (by decide)
      rw [hroot, if_neg ((longest_eq_zero_iff h15).not.1 h), ← root_eq h15 h]
      refine ⟨hb.room, ?_, rfl, hb.frame, fun d b hd => ⟨fun w hlt hw hcode => ?_, fun hnone => ?_⟩⟩
      · rintro rfl
        exact Nat.le_of_not_lt (of_decide_eq_false hb.tested)
      · exact hb.lookup_coded h15 h288 hwork hd (mem_coded.2 ⟨hlt, hw⟩) hcode
      · exact hb.lookup_missing h15 h288 hwork hd fun w hw => hnone w (mem_coded.1 hw).1 (mem_coded.1 hw).2
    · have hret := inflateTable_refused (base := base) (bits := bits) (codes := codes) (work := work) h15 h ha
      dsimp only
      rw [hret]
      exact ⟨iff_of_true rfl ha, .inr (.inr rfl), fun h0 => absurd h0 (by decide)⟩

end Sys2Proof.Machine
end

section
/-! PROOF. The fixed tables are those that the constructor builds from the fixed code lengths (30_encoding.md R110;
43_table_decoder_fastloop.md R279). -/

namespace Sys2Proof.Machine

open Laws Claims

/-! ## The fixed codes are canonical (30_encoding.md R110, R113) -/

/-- A run of symbols of one length before symbol `w`, of length `l`. -/
theorem sum_spaceBefore {len : Nat → Nat} {a b c : Nat} (h : ∀ v, a ≤ v → v < b → len v = c) (hc : 0 < c) (l w : Nat) :
    ∑ v ∈ Finset.Ico a b, spaceBefore len l w v = if c < l then (b - a) * 2 ^ (l - c) else if c = l then min b w - a else 0 := by
  have hterm : ∀ v ∈ Finset.Ico a b, spaceBefore len l w v = if c < l then 2 ^ (l - c) else if c = l then if v < w then 1 else 0 else 0 :=
    fun v hv => by
      rw [spaceBefore, h v (Finset.mem_Ico.1 hv).1 (Finset.mem_Ico.1 hv).2]
      exact if_congr (and_iff_right hc) rfl (ite_and ..)
  rw [Finset.sum_congr rfl hterm]
  split_ifs
  · rw [Finset.sum_const, Nat.card_Ico, smul_eq_mul]
  · rw [← Finset.card_filter, ← Nat.card_Ico]
    congr 1
    ext v
    simp only [Finset.mem_filter, Finset.mem_Ico]
    omega
  · exact Finset.sum_const_zero

/-- The lengths of the fixed literal/length code (30_encoding.md R110). -/
def fixedLen (s : Nat) : Nat := (fixedLlCode s).2

def fixedLens : List Nat := (List.range 288).map fixedLen

theorem fixedLens_eq : List.replicate 144 8 ++ List.replicate 112 9 ++ List.replicate 24 7 ++ List.replicate 8 8 = fixedLens := by
  decide +kernel

theorem lenOf_fixedLens {w : Nat} (hw : w < 288) : lenOf fixedLens w = fixedLen w := getD_map_range _ hw

theorem fixedLen_cases (w : Nat) : w < 144 ∧ fixedLen w = 8 ∨ 144 ≤ w ∧ w < 256 ∧ fixedLen w = 9 ∨ 256 ≤ w ∧ w < 280 ∧ fixedLen w = 7 ∨
    280 ≤ w ∧ fixedLen w = 8 := by
  unfold fixedLen fixedLlCode
  split_ifs <;> dsimp only <;> omega

theorem canonicalCode_fixedLens {w : Nat} (hw : w < 288) : canonicalCode fixedLens w = (fixedLlCode w).1 := by
  have h0 := sum_spaceBefore (len := fixedLen) (a := 0) (b := 144) (c := 8) (fun v _ _ => by have := fixedLen_cases v; omega) (by decide)
    (fixedLen w) w
  have h1 := sum_spaceBefore (len := fixedLen) (a := 144) (b := 256) (c := 9) (fun v _ _ => by have := fixedLen_cases v; omega) (by decide)
    (fixedLen w) w
  have h2 := sum_spaceBefore (len := fixedLen) (a := 256) (b := 280) (c := 7) (fun v _ _ => by have := fixedLen_cases v; omega) (by decide)
    (fixedLen w) w
  have h3 := sum_spaceBefore (len := fixedLen) (a := 280) (b := 288) (c := 8) (fun v _ _ => by have := fixedLen_cases v; omega) (by decide)
    (fixedLen w) w
  rw [fixedLens, canonicalCode_eq fixedLen hw, Finset.range_eq_Ico, ← Finset.sum_Ico_consecutive _ (Nat.zero_le 280) (by decide),
    ← Finset.sum_Ico_consecutive _ (Nat.zero_le 256) (by decide), ← Finset.sum_Ico_consecutive _ (Nat.zero_le 144) (by decide), h0, h1, h2, h3]
  unfold fixedLen fixedLlCode
  split_ifs <;> simp only <;> omega

/-- The fixed code that stands first in the bits `i`. -/
theorem fixedLlCode_fixedLlSymbol (i : Nat) : (fixedLlSymbol i).1 < 288 ∧
    fixedLlCode (fixedLlSymbol i).1 = (codeRead i (fixedLlSymbol i).2, (fixedLlSymbol i).2) := by
  have hr := biReverse_lt i 9
  have h7 : codeRead i 7 = biReverse i 9 / 4 := (codeRead_eq_biReverse i 7).trans (biReverse_shorter i 7 2)
  have h8 : codeRead i 8 = biReverse i 9 / 2 := (codeRead_eq_biReverse i 8).trans (biReverse_shorter i 8 1)
  have h9 : codeRead i 9 = biReverse i 9 := codeRead_eq_biReverse i 9
  unfold fixedLlSymbol
  generalize biReverse i 9 = r at hr h7 h8 h9 ⊢
  dsimp only
  unfold fixedLlCode
  split_ifs <;> simp only [h7, h8, h9, Prod.mk.injEq, and_true] <;> omega

/-! ## The table of the fixed lengths -/

/-- In a table without links the entry of a code stands in the root. -/
theorem FillEnv.Built.rd_root {type : TableType} {lens : List Nat} {base bits used : Nat} {codes m : Mem Word32} {work : Mem Word16}
    (h15 : ∀ l ∈ lens, l ≤ 15) (h288 : lens.length ≤ 288) (hwork : Mem.wf Du.workSize work = true)
    (hb : (envOf type lens base bits work).Built codes (coded lens).card used m) {w : Nat} (hw : w ∈ coded lens) {b : Nat}
    (hcode : codeRead b (lenOf lens w) = canonicalCode lens w) (hroot : lenOf lens w ≤ rootOf lens bits) :
    Mem.rd Du.codesSize m (base + b % 2 ^ rootOf lens bits) = tableEntry type w (lenOf lens w) := by
  have hlen := lenAt_rank (type := type) (base := base) (bits := bits) h15 h288 hwork hw
  rcases hb.found b _ (rank_lt hw) ((covers_rank_iff h15 h288 hwork hw b).2 hcode) with ⟨-, hleaf⟩ | ⟨_, _, hdeep, -⟩
  · rwa [FillEnv.entryAt, workAt_rank h15 h288 hwork hw, hlen] at hleaf
  · exact absurd hdeep (by rw [hlen]; exact Nat.not_lt.2 hroot)

/-- A table without links is its root. -/
theorem FillEnv.Built.used_eq {type : TableType} {lens : List Nat} {base bits n used : Nat} {codes m : Mem Word32} {work : Mem Word16}
    (hb : (envOf type lens base bits work).Built codes n used m) (h : longest lens ≤ rootOf lens bits) : used = 2 ^ rootOf lens bits :=
  hb.flat h

theorem rootOf_fixedLens : rootOf fixedLens 9 = 9 ∧ longest fixedLens = 9 := by decide +kernel

/-- The constructor builds `LENFIX`. -/
theorem inflateTable_fixedLens : (inflateTable .lens fixedLens 0 9 [] []).ret = 0 ∧ (inflateTable .lens fixedLens 0 9 [] []).root = 9 ∧
    (inflateTable .lens fixedLens 0 9 [] []).used = 512 ∧
    ∀ i < 512, Mem.rd Du.codesSize (inflateTable .lens fixedLens 0 9 [] []).codes i = lenfix i := by
  have h15 : ∀ l ∈ fixedLens, l ≤ 15 := by decide +kernel
  have h288 : fixedLens.length ≤ 288 := by rw [fixedLens, List.length_map, List.length_range]
  obtain ⟨hroot9, hlong⟩ := rootOf_fixedLens
  have h0 : longest fixedLens ≠ 0 := by rw [hlong]; decide
  have ha : AcceptedLengths .lens fixedLens := .inr (.inl (by decide +kernel))
  obtain ⟨hroot, hout⟩ := inflateTable_spec (bits := 9) (codes := []) (work := []) h15 h288 (show Capacity .lens _ 0 9 from rfl) rfl rfl h0 ha
  have hroomy : ¬ (TableType.full .lens (2 ^ rootOf fixedLens 9) = true ∨ rootOf fixedLens 9 < longest fixedLens) := by
    rw [hroot9, hlong]; decide
  obtain ⟨hret, hb⟩ := hout.resolve_left fun h1 => hroomy h1.2
  have hflat : longest fixedLens ≤ rootOf fixedLens 9 := by rw [hroot9, hlong]
  have hused : (inflateTable .lens fixedLens 0 9 [] []).used = 2 ^ rootOf fixedLens 9 := hb.used_eq hflat
  refine ⟨hret, hroot.trans hroot9, by rw [hused, hroot9]; norm_num, fun i hi => ?_⟩
  obtain ⟨hlt, hfix⟩ := fixedLlCode_fixedLlSymbol i
  have hlen : lenOf fixedLens (fixedLlSymbol i).1 = (fixedLlSymbol i).2 := (lenOf_fixedLens hlt).trans (by rw [fixedLen, hfix])
  have hcases := fixedLen_cases (fixedLlSymbol i).1
  rw [← lenOf_fixedLens hlt, hlen] at hcases
  have hw : (fixedLlSymbol i).1 ∈ coded fixedLens := mem_coded.2 ⟨by rwa [fixedLens, List.length_map, List.length_range], by omega⟩
  have hrd := hb.rd_root h15 h288 rfl hw (b := i) (by rw [hlen, canonicalCode_fixedLens hlt, hfix]) (by rw [hroot9]; omega)
  rw [hroot9, hlen, Nat.zero_add, Nat.mod_eq_of_lt (show i < 2 ^ 9 from hi)] at hrd
  rw [hrd, lenfix, Nat.mod_eq_of_lt hi]
  rfl

/-- The constructor builds `DISTFIX`. -/
theorem inflateTable_fixedDists : let d := inflateTable .dists (List.replicate 32 5) 0 6 [] []
    d.ret = 0 ∧ d.root = 5 ∧ d.used = 32 ∧ ∀ i < 32, Mem.rd Du.codesSize d.codes i = distfix i := by
  decide +kernel

/-- Settles O4: `LENFIX` by the table's general correctness and the canonical form of the fixed codes, `DISTFIX` by running the constructor. -/
theorem fixedTablesAreTheConstructors : Obligations.FixedTablesAreTheConstructors := by
  unfold Obligations.FixedTablesAreTheConstructors
  rw [fixedLens_eq]
  obtain ⟨hret, hroot, hused, hcodes⟩ := inflateTable_fixedLens
  obtain ⟨hretd, hrootd, husedd, hcodesd⟩ := inflateTable_fixedDists
  exact ⟨hret, hroot, hused, hcodes, hretd, hrootd, husedd, hcodesd, by decide +kernel⟩

end Sys2Proof.Machine
end
